-- ==== Sys2Proof/Word.lean ====
section
/-! DEFINITION. The word types of HCC and their plainest arithmetic (00_scope.md R8, R9, R11). -/

namespace Sys2Proof

/-- An 8-bit byte, a symbol, a command word (R8 SYM_W, R9 CMD_W, R11). -/
abbrev Byte := BitVec 8

/-- A 64-bit unsigned register: FREQ entries, node frequencies, ORIG_LEN, IN_COUNT, OUT_COUNT, RCOUNT
(R8 LEN_W, R9 FREQ_W). -/
abbrev Word64 := BitVec 64

/-- A node index, IDX_W = 9 bits (R9, R30). -/
abbrev NodeIdx := BitVec 9

/-- A stored code bit pattern, CODE_W = 255 bits: the longest root-to-leaf path of a strict binary tree of 256
leaves has 255 edges (R9). -/
abbrev CodeBits := BitVec 255

/-- A stored code length, CLEN_W = 8 bits (R9). -/
abbrev CodeLen := BitVec 8

/-- A table with one entry for every byte value 0 to 255 (R33 FREQ, R35 CODE). -/
abbrev ByteTable (α : Type) := Vector α 256

/-- Entry `v` of a byte-indexed table: `T[v]` of R12. -/
def ByteTable.read {α : Type} (t : ByteTable α) (v : Byte) : α := t[v.toNat]'v.isLt

/-- `T[v] <- x` of R12. -/
def ByteTable.write {α : Type} (t : ByteTable α) (v : Byte) (x : α) : ByteTable α :=
  t.set v.toNat x v.isLt

/-- The byte values 0 to 255 in ascending order: `for v in 0..255 ascending` of R15. -/
def allBytes : List Byte := (List.range 256).map (BitVec.ofNat 8)

end Sys2Proof
end

