-- ==== Sys2Proof/Config.lean ====
section
/-! DEFINITION. The parameters of HCC (00_scope.md R8 to R10). -/

namespace Sys2Proof.Config

/-- NSYM: how many byte values there are (R8). -/
def nsym : Nat := 256

/-- MIN_LEAVES: fewest distinct byte values a tree can have (R8). -/
def minLeaves : Nat := 2

/-- MAX_LEAVES (R8). -/
def maxLeaves : Nat := 256

/-- MAX_INTERNAL: most internal nodes, which is also the longest root-to-leaf path (R8, R9). -/
def maxInternal : Nat := 255

/-- MAX_NODES (R8): MAX_INTERNAL internal and MAX_LEAVES leaf nodes at most. -/
def maxNodes : Nat := 511

/-- IOERR_W, an OPEN parameter of R10: the width of the collaborator's error value, which HCC only copies. It has no
body, so every claim holds at every width, the default 32 of R10 among them (log entry 1). -/
opaque ioErrW : Nat

end Sys2Proof.Config

namespace Sys2Proof

/-- The collaborator's error value, IOERR_W bits, opaque to HCC (R28, R66). -/
abbrev IoErr := BitVec Config.ioErrW

/-- The error value 0 (R45), which a width without a body lets the kernel compare. -/
def IoErr.zero : IoErr := BitVec.ofNatLT 0 (Nat.two_pow_pos _)

end Sys2Proof
end

