-- ==== Sys2Proof/Syntax.lean ====
section
/-! DEFINITION. The eleven commands of HCC (30_encoding.md R91), one constructor per row of the opcode
table. A command has no explicit operand (R93), so no constructor has an argument. -/

namespace Sys2Proof

/-- A command of HCC, in the order of R91. -/
inductive Instr where
  /-- CLEAR, discard everything (R121). -/
  | clear
  /-- COUNT, the Frequency Model (R123). -/
  | count
  /-- BUILD, the Tree Builder (R137). -/
  | build
  /-- SERIALIZE, tree to serialised tree (R154). -/
  | serialize
  /-- DESERIALIZE, serialised tree to tree (R159). -/
  | deserialize
  /-- WRHDR, write the file header (R217). -/
  | wrhdr
  /-- RDHDR, read the file header (R220). -/
  | rdhdr
  /-- ENCODE, the Bit Stream Encoder (R185). -/
  | encode
  /-- DECODE, the Bit Stream Decoder (R204). -/
  | decode
  /-- COMPRESS, the whole-file compression (R225). -/
  | compress
  /-- DECOMPRESS, the whole-file decompression (R226). -/
  | decompress
  deriving DecidableEq, Repr

end Sys2Proof
end

