-- ==== Sys2Proof/WellFormed.lean ====
section
/-! DEFINITION. What is well formed: a command word (30_encoding.md R91, R92), a serialised tree
(R107) and an instruction. -/

namespace Sys2Proof

/-- A command word is well formed when it is one of the eleven codes of R91; every other value is
reserved (R92). -/
def commandWordWf (w : Byte) : Bool := decide (1 ≤ w.toNat ∧ w.toNat ≤ 11)

/-- Every instruction is well formed: a command has no operand field that could be wrong (R90, R93), so
this check has nothing to refuse; the check that refuses is `commandWordWf`. -/
def Instr.wf : Instr → Bool
  | .clear | .count | .build | .serialize | .deserialize | .wrhdr | .rdhdr | .encode | .decode
  | .compress | .decompress => true

/-- The serialised tree as a value (R36, R107): the shape bits in pre-order (`true` = internal) and the
leaf values left to right. SER_N is the number of shape bits and SER_L the number of leaf values; no
entry beyond them holds a value (R36), so the lists are exactly what SHAPE and LEAFV hold. -/
structure SerTree where
  /-- SHAPE[0 .. SER_N - 1]. -/
  shape : List Bool
  /-- LEAFV[0 .. SER_L - 1]. -/
  leafv : List Byte
  deriving DecidableEq, Repr

/-- SER_N as the 16-bit register the host reads and WriteHeader writes (R36). -/
def SerTree.serN (t : SerTree) : BitVec 16 := BitVec.ofNat 16 t.shape.length

/-- SER_L as a 9-bit register (R36). -/
def SerTree.serL (t : SerTree) : BitVec 9 := BitVec.ofNat 9 t.leafv.length

/-- Reads shape bits as pre-order descriptions of `open_` subtrees: a 1 closes one and opens two, a 0
closes one (R107). It answers whether the bits describe exactly that many subtrees and are used up. -/
def describesTrees : List Bool → Nat → Bool
  | [], 0 => true
  | [], _ + 1 => false
  | _ :: _, 0 => false
  | true :: bs, k + 1 => describesTrees bs (k + 2)
  | false :: bs, k + 1 => describesTrees bs k

/-- A triple is well formed (R107): at least 3 and at most 511 shape bits, the first of them 1, exactly
one tree described and all bits used, as many leaf values as 0 bits, the leaf values distinct. -/
def SerTree.wellFormed (t : SerTree) : Bool :=
  decide (3 ≤ t.shape.length) && decide (t.shape.length ≤ Config.maxNodes)
    && (t.shape.head? == some true)
    && describesTrees t.shape 1
    && decide (t.leafv.length = t.shape.count false)
    && decide t.leafv.Nodup

end Sys2Proof
end

