-- ==== Sys2Proof/Decode.lean ====
section
/-! DEFINITION. The command decoder and encoder (30_encoding.md R90 to R93). A command is one 8-bit
word; every value but 0x01 to 0x0B is reserved and rejected (R92). -/

namespace Sys2Proof

/-- The command a word written to CMD names, `none` for a reserved code (R91, R92). -/
def decodeWord (w : Byte) : Option Instr :=
  match w.toNat with
  | 0x01 => some .clear
  | 0x02 => some .count
  | 0x03 => some .build
  | 0x04 => some .serialize
  | 0x05 => some .deserialize
  | 0x06 => some .wrhdr
  | 0x07 => some .rdhdr
  | 0x08 => some .encode
  | 0x09 => some .decode
  | 0x0A => some .compress
  | 0x0B => some .decompress
  | _ => none

/-- Decoding of a byte sequence: the command of its first byte and the rest; `none` on an empty sequence
and on a reserved code. -/
def decodeBytes : List Byte → Option (Instr × List Byte)
  | [] => none
  | w :: rest => (decodeWord w).map fun i => (i, rest)

/-- The command word of a command, the code column of R91. -/
def encode : Instr → Byte
  | .clear => 0x01
  | .count => 0x02
  | .build => 0x03
  | .serialize => 0x04
  | .deserialize => 0x05
  | .wrhdr => 0x06
  | .rdhdr => 0x07
  | .encode => 0x08
  | .decode => 0x09
  | .compress => 0x0A
  | .decompress => 0x0B

/-- The command the decoder reads from a word numbered as the opcode table numbers it: one 8-bit word,
bit 0 the least significant; a number that needs more than 8 bits is no command word. -/
def decodeTableWord (_nbits w : Nat) : Option Instr :=
  if w < 256 then decodeWord (BitVec.ofNat 8 w) else none

end Sys2Proof
end

