-- ==== Sys2Proof/Machine/State.lean ====
section
/-! DEFINITION. The state of HCC (10_state.md) and of the environment it is bound to (20_memory.md), the
faults and refusals, and the state after reset (R45). -/

namespace Sys2Proof.Machine

/-- The failure tags a command can end with (60_exceptions.md R240 to R245). They are no faults of the
model: a failing command answers a next state with OUTCOME = Failure and ERR = the tag (R250). -/
inductive Failure where
  | insufficientAlphabet
  | malformedTree
  | truncatedStream
  | ioFailure
  | protocolError
  deriving DecidableEq, Repr

/-- OUTCOME and ERR of STATUS together (R23): ERR is 0 when OUTCOME is not Failure, so the tag stands
inside `failure`; OUTCOME value 3 and ERR codes 6 and 7 are never produced (U23) and have no constructor. -/
inductive CmdOutcome where
  /-- No command finished since reset. -/
  | none
  | success
  | failure (tag : Failure)
  deriving DecidableEq, Repr

/-- PHASE, the sequencer (R24). -/
inductive Phase where
  | idle | counting | building | deriving_ | serializing | deserializing
  | writingHeader | readingHeader | encoding | decoding
  deriving DecidableEq, Repr

/-- DSTATE, the decoder's three states (R40, R196). -/
inductive DState where
  | atRoot | descending | atLeaf
  deriving DecidableEq, Repr

/-- An entry of NODE (R29, R30): the tagged union of a leaf and an internal node. -/
inductive Node where
  | leaf (value : Byte) (freq : Word64)
  | internal (freq : Word64) (left right : NodeIdx)
  deriving DecidableEq, Repr

/-- An entry of CODE (R35); `len = 0` and `bits = 0` mean "no code". -/
structure CodeEntry where
  bits : CodeBits
  len : CodeLen
  deriving DecidableEq, Repr

/-- ROOT (R32) and CODE (R35), which TREE_VALID covers together with NODE (R26). -/
structure TreeHead where
  root : NodeIdx
  code : ByteTable CodeEntry
  deriving DecidableEq, Repr

/-- The two streams (R60). -/
inductive Stream where
  | source | sink
  deriving DecidableEq, Repr

/-- A bound Source (R61): the bytes of the current pass, the position, the length `SrcLen` answers, and the
bytes it shows after each further rewind (`[]`: the same bytes again). A Source that keeps its duties
(R280 (b), (c)) has `len` = the number of bytes and `later = []`; HCC's checks R122 (c), R186 and R225 are about
a Source that does not. -/
structure Source where
  data : List Byte
  pos : Nat
  len : Word64
  later : List (List Byte)
  deriving DecidableEq, Repr

/-- A bound Sink (R64): its bytes, and how many of them, from the first, are durable (R65). -/
structure Sink where
  data : List Byte
  durable : Nat
  deriving DecidableEq, Repr

/-- A stream is bound by the host, or it is not and each call of one of its primitives answers
`IoError(e)` (R275), with `e` of the environment's choosing (R66). A stream that was closed keeps what it held, for
"nothing ever removes or changes a byte of SNK.data" (R64): `last` is the stream as it was closed, `none` when none was
bound. -/
inductive Binding (α : Type) where
  | unbound (e : IoErr) (last : Option α)
  | bound (x : α)
  deriving DecidableEq, Repr

/-- How the environment answers one call of a stream primitive of a bound stream (R66, R280 (e)). -/
inductive Answer where
  /-- The behaviour of R61 to R65. -/
  | ok
  /-- `IoError(e)`, with no other effect (R66). -/
  | ioError (e : IoErr)
  /-- The call does not return: HCC hangs with BUSY = 1 (R280 (e), R286). -/
  | never
  deriving DecidableEq, Repr

/-- What the outside world does to HCC and its streams between two steps (R22, R94, R252, R271, R275,
R276). -/
inductive Event where
  /-- The host writes `w` to CMD (R22). -/
  | writeCmd (w : Byte)
  /-- The host binds a Source (`.source` of R94). -/
  | bindSource (src : Source)
  /-- The host binds a Sink (`.sink` of R94). -/
  | bindSink (snk : Sink)
  /-- The host's `SrcRewind` (`.rewind` of R94). -/
  | rewindSource
  /-- The host repositions the Source (R276). -/
  | seekSource (pos : Nat)
  /-- The Source is closed; its primitives answer `IoError(e)` from then on (R66). -/
  | closeSource (e : IoErr)
  /-- The Sink is closed (R66). -/
  | closeSink (e : IoErr)
  /-- The environment fixes how the coming calls of stream primitives are answered (R66). -/
  | decideAnswers (answers : List Answer)
  /-- The reset event (R270, R271). -/
  | reset
  deriving DecidableEq, Repr

/-- The environment (R43): the two streams, the answers to the coming primitive calls in call order (beyond
the list every call is answered `ok`), and the coming events. None of it is state of HCC; it stands in State
because a run is a run of HCC in an environment, and every statement quantifies over it. -/
structure Env where
  src : Binding Source
  snk : Binding Sink
  answers : List Answer
  events : List Event
  deriving DecidableEq, Repr

/-- The control and status registers (R20 (a)) and the byte counts of the running command (R38). -/
structure Control where
  /-- STATUS.BUSY (R23). -/
  busy : Bool
  /-- STATUS.OUTCOME and STATUS.ERR (R23). -/
  outcome : CmdOutcome
  /-- PHASE (R24). -/
  phase : Phase
  /-- RCOUNT (R25). -/
  rcount : Word64
  /-- IOERR (R28). -/
  ioerr : IoErr
  /-- IN_COUNT (R38). -/
  inCount : Word64
  /-- OUT_COUNT (R38). -/
  outCount : Word64
  /-- The model's own: the command being run, which Finish (R249) and the failure rule (R250) branch on. -/
  running : Option Instr
  /-- The model's own: the stream whose primitive call has not returned (R286); HCC hangs while it is `some`. -/
  waiting : Option Stream
  deriving DecidableEq, Repr

/-- The encoder's pending output byte (R39). -/
structure EncRegs where
  /-- PEND. -/
  pend : Byte
  /-- PEND_N, 0 to 7. -/
  pendN : Fin 8
  deriving DecidableEq, Repr

/-- The decoder's registers (R40). -/
structure DecRegs where
  /-- CUR. -/
  cur : NodeIdx
  /-- DSTATE. -/
  dstate : DState
  /-- IN_BYTE. -/
  inByte : Byte
  /-- IN_POS, 0 to 8. -/
  inPos : Fin 9
  deriving DecidableEq, Repr

/-- The deserialiser's scratch (R41). -/
structure DesRegs where
  /-- SHAPE_POS. -/
  shapePos : BitVec 10
  /-- LEAF_POS. -/
  leafPos : BitVec 9
  /-- SEEN. -/
  seen : BitVec 256
  deriving DecidableEq, Repr

/-- The state of HCC (R20) and its environment (R43).

`none` and `[]` stand for "holds no value" only where the spec says so (R27, R30): `tree = none` is
TREE_VALID = 0, `ser = none` is SER_VALID = 0, `origLen = none` is LEN_VALID = 0. -/
structure State where
  /-- CMD has no storage (R22); BUSY, OUTCOME, ERR, PHASE, RCOUNT, IOERR, IN_COUNT, OUT_COUNT. -/
  ctl : Control
  /-- FREQ (R33). -/
  freq : ByteTable Word64
  /-- NODE[0 .. NODE_USED - 1] (R30, R32); NODE_USED is the length. An entry is `none` from the moment its index
  is taken until it is written (R156). `[]` when NODE holds no value (R27). -/
  node : List (Option Node)
  /-- HEAP (R34), a list without repeats; HEAP_SIZE is the length. -/
  heap : List NodeIdx
  /-- TREE_VALID, and with it ROOT and CODE (R26, R32, R35). -/
  tree : Option TreeHead
  /-- SER_VALID, and with it SER_N, SHAPE, SER_L, LEAFV (R26, R36). -/
  ser : Option SerTree
  /-- LEN_VALID, and with it ORIG_LEN (R26, R37). -/
  origLen : Option Word64
  /-- PEND, PEND_N (R39). -/
  enc : EncRegs
  /-- CUR, DSTATE, IN_BYTE, IN_POS (R40). -/
  dec : DecRegs
  /-- SHAPE_POS, LEAF_POS, SEEN (R41). -/
  des : DesRegs
  /-- The environment (R43). -/
  env : Env
  deriving DecidableEq, Repr

/-- What stops the machine. -/
inductive Fault where
  /-- Raised by Serialize and Derive (commands SERIALIZE, BUILD, DESERIALIZE, COMPRESS, DECOMPRESS) when NODE
  from ROOT is not a tree of depth at most 255, contrary to R31, which "hold[s] whenever TREE_VALID = 1". No
  state that a run reaches raises it. Safe: the spec gives such a state no meaning. -/
  | brokenTree
  deriving DecidableEq, Repr

/-- What the model gives no meaning to. -/
inductive Refusal where
  /-- An instruction that has no meaning yet, by its mnemonic. Raised by no arm. Safe. -/
  | notModelled (mnemonic : String)
  /-- Raised by the host's binding, rewinding or seeking a stream while BUSY = 1: "a model gives such a run no
  meaning (the host has no such move)" (R277, U15). Safe. -/
  | streamTouchedWhileBusy
  /-- Raised by a host event that is no legal move: binding a Source of 2^64 bytes or more or with a position
  beyond its end, or a Sink with more durable bytes than bytes, seeking beyond the end, and rewinding or seeking with
  no Source bound (R61, R280 (a), U17). Safe. -/
  | illegalHostMove
  deriving DecidableEq, Repr

/-- The environment a reset state is given: no stream bound, every call answered, no event to come. The spec
gives the environment no reset value, since it is no state of HCC (R45). DESIGN CHOICE (log entry 7). -/
def Env.atReset : Env := { src := .unbound IoErr.zero none, snk := .unbound IoErr.zero none, answers := [], events := [] }

/-- The state right after reset (R45, R270): idle, nothing valid, every counter zero. The scratch registers of
R39 to R41, for which R45 gives no value, hold 0, DSTATE AtRoot: DESIGN CHOICE (log entry 4). -/
def State.reset : State where
  ctl := {
    busy := false, outcome := .none, phase := .idle, rcount := 0, ioerr := IoErr.zero, inCount := 0, outCount := 0
    running := none, waiting := none }
  freq := Vector.replicate 256 0
  node := []
  heap := []
  tree := none
  ser := none
  origLen := none
  enc := { pend := 0, pendN := 0 }
  dec := { cur := 0, dstate := .atRoot, inByte := 0, inPos := 0 }
  des := { shapePos := 0, leafPos := 0, seen := 0 }
  env := Env.atReset

end Sys2Proof.Machine
end

