-- ==== Sys2Proof/Machine/Flags.lean ====
section
/-! DEFINITION. STATUS and its fields (10_state.md R23, R26), the failure codes (R240), discarding what a
valid flag covers (R27), and the preconditions on the valid flags (R246). -/

namespace Sys2Proof.Machine

/-- The numeric code of a failure (R240). -/
def Failure.code : Failure → BitVec 3
  | .insufficientAlphabet => 1
  | .malformedTree => 2
  | .truncatedStream => 3
  | .ioFailure => 4
  | .protocolError => 5

/-- STATUS.OUTCOME (R23). -/
def CmdOutcome.field : CmdOutcome → BitVec 2
  | .none => 0
  | .success => 1
  | .failure _ => 2

/-- STATUS.ERR (R23): 0 when OUTCOME is not Failure. -/
def CmdOutcome.err : CmdOutcome → BitVec 3
  | .failure t => t.code
  | _ => 0

/-- TREE_VALID (R26). -/
def State.treeValid (s : State) : Bool := s.tree.isSome

/-- SER_VALID (R26). -/
def State.serValid (s : State) : Bool := s.ser.isSome

/-- LEN_VALID (R26). -/
def State.lenValid (s : State) : Bool := s.origLen.isSome

/-- STATUS as the 16-bit register (R23): bits 15:9 read as 0. -/
def State.status (s : State) : BitVec 16 :=
  (0#7 ++ BitVec.ofBool s.lenValid ++ BitVec.ofBool s.serValid ++ BitVec.ofBool s.treeValid
    ++ s.ctl.outcome.err ++ s.ctl.outcome.field ++ BitVec.ofBool s.ctl.busy).cast (by decide)

/-- `TREE_VALID <- 0`: the tree is discarded, and NODE, NODE_USED, ROOT, CODE hold no value (R27). -/
def State.discardTree (s : State) : State := { s with tree := none, node := [] }

/-- `SER_VALID <- 0` (R27). -/
def State.discardSer (s : State) : State := { s with ser := none }

/-- `LEN_VALID <- 0` (R27). -/
def State.discardLen (s : State) : State := { s with origLen := none }

/-- All three valid flags to 0 (R121, R225, R226, R250). -/
def State.discardAll (s : State) : State := s.discardTree.discardSer.discardLen

/-- The precondition of a command on the valid flags (R246). -/
def precondition (i : Instr) (s : State) : Bool :=
  match i with
  | .clear | .count | .build | .rdhdr | .compress | .decompress => true
  | .serialize => s.treeValid
  | .deserialize => s.serValid
  | .wrhdr => s.serValid && s.lenValid
  | .encode => s.treeValid
  | .decode => s.treeValid && s.lenValid

/-- The commands that write the Sink, which Finish flushes (R65, R249). -/
def writesSink : Instr → Bool
  | .wrhdr | .encode | .decode | .compress | .decompress => true
  | .clear | .count | .build | .serialize | .deserialize | .rdhdr => false

/-- The whole-file commands, whose failure clears the valid flags (R250). -/
def wholeFile : Instr → Bool
  | .compress | .decompress => true
  | .clear | .count | .build | .serialize | .deserialize | .wrhdr | .rdhdr | .encode | .decode => false

end Sys2Proof.Machine
end

