-- ==== Sys2Proof/Machine/Operands.lean ====
section
/-! DEFINITION. A running command and its inputs and outputs: HCC's commands have no operand fields (R93);
what they read and write outside the registers are the two streams, through the five primitives of
20_memory.md R61 to R65 and the shorthands of 00_scope.md R13. -/

namespace Sys2Proof.Machine

/-- How a piece of pseudocode ends (R14, R15). -/
inductive Run (α : Type) where
  /-- It ran to its end with a result. -/
  | ok (a : α) (s : State)
  /-- `raise t` (R14). -/
  | raised (t : Failure) (s : State)
  /-- A primitive call on this stream did not return (R286). -/
  | hung (st : Stream) (s : State)
  /-- The model stops. -/
  | stuck (f : Fault)

/-- A procedure of R15. -/
abbrev Proc (α : Type) := State → Run α

/-- Sequencing: nothing after a `raise` is executed (R14). -/
def Run.bind {α β : Type} (r : Run α) (k : α → State → Run β) : Run β :=
  match r with
  | .ok a s => k a s
  | .raised t s => .raised t s
  | .hung st s => .hung st s
  | .stuck f => .stuck f

/-- Applies `f` to the state of a `raise`: what a failing procedure leaves behind a cleared valid flag holds no
value (R27). -/
def Run.onRaise {α : Type} (f : State → State) : Run α → Run α
  | .ok a s => .ok a s
  | .raised t s => .raised t (f s)
  | .hung st s => .hung st s
  | .stuck e => .stuck e

/-- `require c else raise t` (R14). -/
def require (c : Bool) (t : Failure) : Proc Unit := fun s => if c then .ok () s else .raised t s

/-- `IoError(e)`: `IOERR <- e; raise IoFailure` (R13). -/
def ioError {α : Type} (e : IoErr) : Proc α := fun s => .raised .ioFailure { s with ctl.ioerr := e }

/-- The environment's answer to one primitive call of a bound stream (R66): the call goes through, or it
answers IoError with no other effect, or it never returns. -/
def answerCall (st : Stream) : Proc Unit := fun s =>
  match s.env.answers with
  | [] => .ok () s
  | .ok :: rest => .ok () { s with env.answers := rest }
  | .ioError e :: rest => ioError e { s with env.answers := rest }
  | .never :: rest => .hung st { s with env.answers := rest }

/-- The bytes a Source has not given yet (R61). -/
def Source.rest (src : Source) : List Byte := src.data.drop src.pos

/-- `SRC.pos <- 0` (R63), after which the Source shows the bytes of its next pass (R278). -/
def Source.rewind (src : Source) : Source :=
  match src.later with
  | [] => { src with pos := 0 }
  | d :: ds => { src with pos := 0, data := d, later := ds }

/-- The answers of a Source to successive requests of "up to K bytes", from `bytes` on (R67); `n` bounds their number.
K is the OPEN parameter of R10, an argument here; HCC sees one byte at a time whatever K is. R10 and R67 say only "up to
K": that an answer is K bytes long while that many are left is a DESIGN CHOICE (log entry 21). -/
def chunksOf (k : Nat) : Nat → List Byte → List (List Byte)
  | 0, _ => []
  | n + 1, bytes => if bytes.isEmpty then [] else bytes.take k :: chunksOf k n (bytes.drop k)

/-- What a Source hands over in chunks of up to K bytes, up to `Eof` (R67). -/
def Source.chunks (k : Nat) (src : Source) : List (List Byte) := chunksOf k src.rest.length src.rest

/-- A primitive call of the Source: `IoError` when none is bound (R275). -/
def callSource {α : Type} (f : Source → α × Source) : Proc α := fun s =>
  match s.env.src with
  | .unbound e _ => ioError e s
  | .bound src => (answerCall .source s).bind fun _ s =>
      let r := f src
      .ok r.1 { s with env.src := .bound r.2 }

/-- A primitive call of the Sink: `IoError` when none is bound (R275). -/
def callSink (f : Sink → Sink) : Proc Unit := fun s =>
  match s.env.snk with
  | .unbound e _ => ioError e s
  | .bound snk => (answerCall .sink s).bind fun _ s => .ok () { s with env.snk := .bound (f snk) }

/-- `SrcLen()` (R61). -/
def srcLen : Proc Word64 := callSource fun src => (src.len, src)

/-- `SrcRead()` (R62): the next byte, or `none` for Eof. -/
def srcRead : Proc (Option Byte) :=
  callSource fun src =>
    match src.data[src.pos]? with
    | some b => (some b, { src with pos := src.pos + 1 })
    | none => (none, src)

/-- `SrcRewind()` (R63). -/
def srcRewind : Proc Unit := callSource fun src => ((), src.rewind)

/-- `SnkAppend(b)` (R64). -/
def snkAppend (b : Byte) : Proc Unit := callSink fun snk => { snk with data := snk.data ++ [b] }

/-- `SnkFlush()` (R65): every byte appended so far is durable. -/
def snkFlush : Proc Unit := callSink fun snk => { snk with durable := snk.data.length }

/-- `SrcReadByte(tagAtEof)` of R13. -/
def srcReadByte (tagAtEof : Failure) : Proc Byte := fun s =>
  (srcRead s).bind fun r s =>
    match r with
    | some b => .ok b { s with ctl.inCount := s.ctl.inCount + 1 }
    | none => .raised tagAtEof s

/-- `n` successive `SrcReadByte(tagAtEof)` (R72, R219). -/
def srcReadBytes (tagAtEof : Failure) : Nat → Proc (List Byte)
  | 0, s => .ok [] s
  | n + 1, s =>
    (srcReadByte tagAtEof s).bind fun b s =>
      (srcReadBytes tagAtEof n s).bind fun bs s => .ok (b :: bs) s

/-- `Put(b)` of R13. -/
def put (b : Byte) : Proc Unit := fun s =>
  (snkAppend b s).bind fun _ s => .ok () { s with ctl.outCount := s.ctl.outCount + 1 }

/-- `Put` of each byte in order. -/
def putAll : List Byte → Proc Unit
  | [], s => .ok () s
  | b :: bs, s => (put b s).bind fun _ s => putAll bs s

/-- How many bytes the Source has left: what bounds the loops that read to `Eof` (R285). -/
def State.srcLeft (s : State) : Nat :=
  match s.env.src with
  | .unbound _ _ => 0
  | .bound src => src.rest.length

/-- The loop of Count and of Encode (R122, R183): read to `Eof`, counting each byte in IN_COUNT before `body`
works on it. The number bounds the iterations; `srcLeft + 1` of them always meet `Eof`, so the loop never ends
for want of it. -/
def forEachByte (body : Byte → Proc Unit) : Nat → Proc Unit
  | 0, s => .ok () s
  | n + 1, s =>
    (srcRead s).bind fun r s =>
      match r with
      | none => .ok () s
      | some b =>
        (body b { s with ctl.inCount := s.ctl.inCount + 1 }).bind fun _ s => forEachByte body n s

end Sys2Proof.Machine
end

