-- ==== Sys2Proof/Machine/Ops.lean ====
section
/-! DEFINITION. Start, success and failure of a command (60_exceptions.md R248 to R250): Begin, Finish, and the
failure rule, HCC's only counterpart of taking an exception; nothing is saved and there is no return from it
(R251). -/

namespace Sys2Proof.Machine

/-- Begin (R248); `i` is `none` for a reserved code. -/
def State.begin (s : State) (i : Option Instr) : State :=
  { s with ctl := { s.ctl with busy := true, inCount := 0, outCount := 0, running := i } }

/-- `PHASE <- p`, the first thing each procedure does (R24). -/
def State.enter (s : State) (p : Phase) : State := { s with ctl.phase := p }

/-- What Finish and the failure rule share: RCOUNT, the outcome, idle again (R249, R250). -/
def State.settle (s : State) (o : CmdOutcome) : State :=
  { s with
    ctl := { s.ctl with
      rcount := s.ctl.outCount, outcome := o, phase := .idle, busy := false, running := none, waiting := none } }

/-- The flush of Finish for the commands that write the Sink (R65, R249). -/
def flushIfWriter : Proc Unit := fun s =>
  match s.ctl.running with
  | some i => if writesSink i then snkFlush s else .ok () s
  | none => .ok () s

/-- Finish (R249). -/
def finish : Proc Unit := fun s => (flushIfWriter s).bind fun _ s => .ok () (s.settle .success)

/-- The valid flags after a failure: a whole-file command clears them, a unit command and a reserved code leave
them as they are (R92, R250). -/
def State.flagsAfterFailure (s : State) : State :=
  match s.ctl.running with
  | some i => if wholeFile i then s.discardAll else s
  | none => s

/-- The failure rule `Fail(T)` (R250): HEAP emptied, the flags, RCOUNT, the tag, idle again. It calls no
primitive and cannot fail (R251). -/
def State.fail (s : State) (t : Failure) : State :=
  { s with heap := [] }.flagsAfterFailure.settle (.failure t)

/-- A command from its Begin to its end (R15): the body, then Finish, or the failure rule at the first `raise`, or
the state reached when a primitive call does not return, with BUSY = 1 (R286). -/
def command (i : Instr) (body : Proc Unit) (s : State) : Host.Outcome State Fault Refusal :=
  match (body (s.begin (some i))).bind fun _ s => finish s with
  | .ok _ s => .next s
  | .raised t s => .next (s.fail t)
  | .hung st s => .next { s with ctl.waiting := some st }
  | .stuck f => .fault f

/-- A reserved code written while BUSY = 0: Begin, then `raise ProtocolError` (R92, R245 (a)). -/
def reservedCode (s : State) : State := (s.begin none).fail .protocolError

/-- A command's body behind its precondition on the valid flags (R246). -/
def guarded (i : Instr) (body : Proc Unit) : Proc Unit := fun s =>
  (require (precondition i s) .protocolError s).bind fun _ s => body s

end Sys2Proof.Machine
end

