-- ==== Sys2Proof/Machine/Tree.lean ====
section
/-! DEFINITION. The abstract tree of R44 and what the Tree Codec reads off it: the shape bits (R151), the
leaf values (R152) and the code table (R160). Serialize and Derive depend on T(ROOT) only (R44, R153, R160),
so they are written over it. -/

namespace Sys2Proof.Machine

/-- T(i) of R44, without frequencies and index values, which are no part of tree equality. -/
inductive HTree where
  | leaf (value : Byte)
  | node (left right : HTree)
  deriving DecidableEq, Repr

/-- The shape pass of R151: the pre-order markers, 1 = Internal, 0 = Leaf. -/
def HTree.shape : HTree → List Bool
  | .leaf _ => [false]
  | .node l r => true :: (l.shape ++ r.shape)

/-- The leaf pass of R152: the leaf values left to right; an Internal emits nothing. -/
def HTree.leaves : HTree → List Byte
  | .leaf v => [v]
  | .node l r => l.leaves ++ r.leaves

/-- Whether the tree's root is Internal (R31). -/
def HTree.isInternal : HTree → Bool
  | .leaf _ => false
  | .node _ _ => true

/-- The entry of a byte value that is not in the tree: "no code" (R35). -/
def CodeEntry.noCode : CodeEntry := { bits := 0, len := 0 }

/-- Walk of R160: at a leaf, record the path; append 0 going left and 1 going right. -/
def HTree.walk : HTree → CodeBits → CodeLen → ByteTable CodeEntry → ByteTable CodeEntry
  | .leaf v, path, depth, code => code.write v { bits := path, len := depth }
  | .node l r, path, depth, code =>
    r.walk (2 * path + 1) (depth + 1) (l.walk (2 * path) (depth + 1) code)

/-- Derive's table (R160): every entry "no code", then the walk from the root. -/
def HTree.codeTable (t : HTree) : ByteTable CodeEntry :=
  t.walk 0 0 (Vector.replicate 256 CodeEntry.noCode)

/-- `n` levels of T(i) (R44); `none` when an entry is missing or the depth is `n` or more. -/
def treeAt (nodes : List (Option Node)) : Nat → NodeIdx → Option HTree
  | 0, _ => none
  | n + 1, i =>
    match nodes[i.toNat]? with
    | some (some (.leaf v _)) => some (.leaf v)
    | some (some (.internal _ l r)) =>
      match treeAt nodes n l, treeAt nodes n r with
      | some tl, some tr => some (.node tl tr)
      | _, _ => none
    | _ => none

/-- T(root) of R44: a tree has depth at most 255 (R31), so 256 levels see all of it. -/
def absTree (nodes : List (Option Node)) (root : NodeIdx) : Option HTree :=
  treeAt nodes Config.maxLeaves root

/-- NODE[i] (R12, R30), `none` where the entry holds no value. -/
def State.nodeAt (s : State) (i : NodeIdx) : Option Node := (s.node[i.toNat]?).join

/-- NODE[i].freq (R29). -/
def Node.freq : Node → Word64
  | .leaf _ f => f
  | .internal f _ _ => f

end Sys2Proof.Machine
end

