-- ==== Sys2Proof/Machine/BitDecoder.lean ====
section
/-! DEFINITION. Bit Stream Decoder: DECODE (44_bit_decoder.md). -/

namespace Sys2Proof.Machine

/-- `IN_BYTE[IN_POS]`, and IN_POS advanced (R198). -/
def takeBit : Proc Bool := fun s =>
  .ok (s.dec.inByte.getLsbD s.dec.inPos) { s with dec.inPos := s.dec.inPos + 1 }

/-- `NextBit()` (R198). -/
def nextBit : Proc Bool := fun s =>
  if s.dec.inPos = 8 then
    (srcReadByte .truncatedStream s).bind fun x s => takeBit { s with dec.inByte := x, dec.inPos := 0 }
  else takeBit s

/-- What a step does after the move to node `c` (R199): emit at a leaf, else go on descending. -/
def arrive (root c : NodeIdx) : Proc Unit := fun s =>
  match s.nodeAt c with
  | some (.leaf v _) =>
    (put v { s with dec.cur := c, dec.dstate := .atLeaf }).bind fun _ s => .ok () { s with dec.cur := root, dec.dstate := .atRoot }
  | _ => .ok () { s with dec.cur := c, dec.dstate := .descending }

/-- `Step()` (R199); its first line is the defence of R200. -/
def decodeStep (root : NodeIdx) : Proc Unit := fun s =>
  match s.nodeAt s.dec.cur with
  | some (.internal _ l r) => (nextBit s).bind fun b s => arrive root (if b then r else l) s
  | _ => .raised .malformedTree s

/-- The loop of R201 with the local `emitted`. The number bounds the steps: each consumes a bit, so
8 × (bytes left) + 1 of them always reach ORIG_LEN or the `Eof` that raises TruncatedStream (R202). -/
def decodeLoop (root : NodeIdx) (len : Word64) : Nat → Word64 → Proc Unit
  | 0, emitted, s => if emitted < len then .raised .truncatedStream s else .ok () s
  | n + 1, emitted, s =>
    if emitted < len then
      (decodeStep root s).bind fun _ s =>
        decodeLoop root len n (if s.dec.dstate = .atRoot then emitted + 1 else emitted) s
    else .ok () s

/-- `DecodeInit()` of R197. -/
def State.startDecoding (s : State) (root : NodeIdx) : State :=
  { s.enter .decoding with dec := { cur := root, dstate := .atRoot, inByte := 0, inPos := 8 } }

/-- Procedure `Decode()` (R197, R201), run with TREE_VALID = 1 and LEN_VALID = 1. -/
def procDecode : Proc Unit := fun s =>
  match s.tree, s.origLen with
  | some h, some len => decodeLoop h.root len (8 * s.srcLeft + 1) 0 (s.startDecoding h.root)
  | _, _ => .raised .protocolError s

/-- "verify byte count" (R204, R226): OUT_COUNT = ORIG_LEN. -/
def verifyCount : Proc Unit := fun s =>
  require (s.origLen == some s.ctl.outCount) .truncatedStream s

/-- Decode, then the byte count verified (R204, R226). -/
def decodeAndVerify : Proc Unit := fun s => (procDecode s).bind fun _ s => verifyCount s

/-- DECODE (R204). -/
def execDecode (s : State) : Host.Outcome State Fault Refusal :=
  command .decode (guarded .decode decodeAndVerify) s

end Sys2Proof.Machine
end

