-- ==== Sys2Proof/Machine/Bits.lean ====
section
/-! DEFINITION. Bit order inside a byte and byte order (20_memory.md R68, R69) and the header bytes
(30_encoding.md R100 to R104, 45_file_format.md R216). -/

namespace Sys2Proof.Machine

/-- `v[n] <- b` for a byte (R11, R12). -/
def setBit (v : Byte) (n : Nat) (b : Bool) : Byte :=
  if b then v ||| (1#8 <<< n) else v &&& ~~~(1#8 <<< n)

/-- `ceil(n/8)` of R11. -/
def ceilDiv8 (n : Nat) : Nat := (n + 7) / 8

/-- Byte `j` of a packed bit sequence (R69): stream bit k is bit (k mod 8) of byte (k div 8), bit 0 the least
significant; positions beyond the sequence stay 0 (R70). -/
def packByte (bits : List Bool) (j : Nat) : Byte :=
  (List.range 8).foldl
    (fun x t => match bits[8 * j + t]? with
      | some b => setBit x t b
      | none => x) 0

/-- A packed bit sequence of n bits as its ceil(n/8) bytes (R69, R70). -/
def packBits (bits : List Bool) : List Byte :=
  (List.range (ceilDiv8 bits.length)).map (packByte bits)

/-- The first `n` stream bits of packed bytes (R69); the padding bits beyond are dropped (R70). -/
def unpackBits (n : Nat) (bytes : List Byte) : List Bool :=
  (List.range n).map fun k => (bytes.getD (k / 8) 0).getLsbD (k % 8)

/-- The bytes of a 16-bit field, most significant first (R68). -/
def be16 (v : BitVec 16) : List Byte := [v.extractLsb' 8 8, v.extractLsb' 0 8]

/-- The bytes of a 64-bit field, most significant first (R68, R216). -/
def be64 (v : Word64) : List Byte :=
  [7, 6, 5, 4, 3, 2, 1, 0].map fun t => v.extractLsb' (8 * t) 8

/-- `n <- 256 * n + x` over the bytes of a field in stream order (R219). -/
def ofBe (bytes : List Byte) : Nat := bytes.foldl (fun n x => 256 * n + x.toNat) 0

/-- The header bytes of R100 in the order of R216: node_count, shape_bits, leaf_values, original_length. -/
def headerBytes (t : SerTree) (len : Word64) : List Byte :=
  be16 t.serN ++ packBits t.shape ++ t.leafv ++ be64 len

end Sys2Proof.Machine
end

