-- ==== Sys2Proof/Machine/BitEncoder.lean ====
section
/-! DEFINITION. Bit Stream Encoder: ENCODE (43_bit_encoder.md). -/

namespace Sys2Proof.Machine

/-- `PutBit(b)` (R181). -/
def putBit (b : Bool) : Proc Unit := fun s =>
  let s := { s with enc.pend := setBit s.enc.pend s.enc.pendN b }
  if s.enc.pendN = 7 then
    (put s.enc.pend s).bind fun _ s => .ok () { s with enc := { pend := 0, pendN := 0 } }
  else .ok () { s with enc.pendN := s.enc.pendN + 1 }

/-- `PutBit` of each bit in order. -/
def putBits : List Bool → Proc Unit
  | [], s => .ok () s
  | b :: bs, s => (putBit b s).bind fun _ s => putBits bs s

/-- The `len` low bits of a code in emission order, bits[len-1] first (R109, R182). -/
def CodeEntry.emission (c : CodeEntry) : List Bool :=
  (List.range c.len.toNat).map fun t => c.bits.getLsbD (c.len.toNat - 1 - t)

/-- What Encode does with an input byte (R182, R183, R186). -/
def encodeByte (code : ByteTable CodeEntry) (x : Byte) : Proc Unit := fun s =>
  (require ((code.read x).len != 0) .protocolError s).bind fun _ s => putBits (code.read x).emission s

/-- The final partial byte (R184). -/
def flushPending : Proc Unit := fun s =>
  if s.enc.pendN = 0 then .ok () s
  else (put s.enc.pend s).bind fun _ s => .ok () { s with enc := { pend := 0, pendN := 0 } }

/-- `PHASE <- Encoding ; PEND <- 0 ; PEND_N <- 0` (R183). -/
def State.startEncoding (s : State) : State := { s.enter .encoding with enc := { pend := 0, pendN := 0 } }

/-- The loop of Encode and what follows it (R183), with the code table. -/
def encodeWith (code : ByteTable CodeEntry) : Proc Unit := fun s =>
  (forEachByte (encodeByte code) (s.srcLeft + 1) s).bind fun _ s => flushPending s

/-- Procedure `Encode()` (R183), run with TREE_VALID = 1. -/
def procEncode : Proc Unit := fun s =>
  match s.tree with
  | none => .raised .protocolError s
  | some h => encodeWith h.code s.startEncoding

/-- ENCODE (R185). -/
def execEncode (s : State) : Host.Outcome State Fault Refusal :=
  command .encode (guarded .encode procEncode) s

end Sys2Proof.Machine
end

