-- ==== Sys2Proof/Machine/FrequencyModel.lean ====
section
/-! DEFINITION. Frequency Model: CLEAR and COUNT (40_frequency_model.md). -/

namespace Sys2Proof.Machine

/-- FREQ with every entry 0 (R121, R122). -/
def zeroFreq : ByteTable Word64 := Vector.replicate 256 0

/-- `FREQ[b] <- FREQ[b] + 1` (R122). -/
def tally (b : Byte) : Proc Unit := fun s =>
  .ok () { s with freq := s.freq.write b (s.freq.read b + 1) }

/-- Procedure `Count()` (R122). ORIG_LEN is behind LEN_VALID = 0 until the last step, so it is the local `len`
until then. -/
def procCount : Proc Unit := fun s =>
  (srcLen (s.enter .counting).discardLen).bind fun len s =>
    (forEachByte tally (s.srcLeft + 1) { s with freq := zeroFreq }).bind fun _ s =>
      (require (s.ctl.inCount == len) .protocolError s).bind fun _ s =>
        .ok () { s with origLen := some len }

/-- The body of CLEAR between Begin and Finish (R121). -/
def clearBody : Proc Unit := fun s => .ok () { s with freq := zeroFreq }.discardAll

/-- CLEAR (R121). -/
def execClear (s : State) : Host.Outcome State Fault Refusal := command .clear clearBody s

/-- COUNT (R123). -/
def execCount (s : State) : Host.Outcome State Fault Refusal := command .count procCount s

end Sys2Proof.Machine
end

