-- ==== Sys2Proof/Machine/TreeBuilder.lean ====
section
/-! DEFINITION. Tree Builder: BUILD (41_tree_builder.md), the HEAP (10_state.md R34), and the closing step
Derive (42_tree_codec.md R160), which DESERIALIZE shares. -/

namespace Sys2Proof.Machine

/-- NODE[i].freq as HEAP's key reads it (R34). Every member of HEAP names an entry that holds a value (R131,
R132), so the case without one is not read. -/
def State.freqAt (s : State) (i : NodeIdx) : Word64 :=
  match s.nodeAt i with
  | some n => n.freq
  | none => 0

/-- `key(i) < key(j)` of R34: lower freq first, among equal freq the lower index. -/
def State.keyLt (s : State) (i j : NodeIdx) : Bool :=
  decide ((s.freqAt i).toNat < (s.freqAt j).toNat)
    || ((s.freqAt i == s.freqAt j) && decide (i.toNat < j.toNat))

/-- The member of a list of indices with the least key (R34). -/
def State.minMember (s : State) : List NodeIdx → Option NodeIdx
  | [] => none
  | i :: is =>
    match s.minMember is with
    | none => some i
    | some m => if s.keyLt m i then some m else some i

/-- `HeapInsert(i)` (R34). -/
def State.heapInsert (s : State) (i : NodeIdx) : State := { s with heap := s.heap ++ [i] }

/-- `HeapExtractMin()` (R34); `none` on an empty HEAP, where it is never called (R132, R133). -/
def State.heapExtractMin (s : State) : Option (NodeIdx × State) :=
  (s.minMember s.heap).map fun m => (m, { s with heap := s.heap.erase m })

/-- A new entry at NODE[NODE_USED], inserted into HEAP (R131, R132). -/
def State.addNode (s : State) (n : Node) : State :=
  { s with node := s.node ++ [some n] }.heapInsert (BitVec.ofNat 9 s.node.length)

/-- One turn of the loop of R131. -/
def State.addLeaf (s : State) (v : Byte) : State :=
  if s.freq.read v != 0 then s.addNode (.leaf v (s.freq.read v)) else s

/-- The leaves in ascending byte value (R131). -/
def State.addLeaves (s : State) : State := allBytes.foldl State.addLeaf s

/-- One turn of the merge loop of R132: the first removed is the left child, the second the right. -/
def State.mergeStep (s : State) : State :=
  match s.heapExtractMin with
  | none => s
  | some (a, s₁) =>
    match s₁.heapExtractMin with
    | none => s
    | some (b, s₂) => s₂.addNode (.internal (s₂.freqAt a + s₂.freqAt b) a b)

/-- The merge loop of R132, `while HEAP_SIZE > 1`; each turn makes HEAP one smaller, so HEAP_SIZE turns are
enough. -/
def State.mergeLoop : Nat → State → State
  | 0, s => s
  | n + 1, s => if 1 < s.heap.length then mergeLoop n s.mergeStep else s

/-- `TREE_VALID <- 1` with ROOT, then `Derive()` (R133, R157, R160). -/
def finishTree (root : NodeIdx) : Proc Unit := fun s =>
  match absTree s.node root with
  | none => .stuck .brokenTree
  | some t => .ok () { s.enter .deriving_ with tree := some { root := root, code := t.codeTable } }

/-- Part 3 of Build (R133): ROOT is the one member that remains. -/
def finishBuild : Proc Unit := fun s =>
  match s.heapExtractMin with
  | none => .stuck .brokenTree
  | some (root, s) => finishTree root s

/-- `PHASE <- Building ; TREE_VALID <- 0 ; HEAP <- empty` (R131). -/
def State.startBuilding (s : State) : State := { (s.enter .building).discardTree with heap := [] }

/-- `require L >= 2 else raise InsufficientAlphabet` (R131); L is NODE_USED at that point. -/
def checkAlphabet : Proc Unit := fun s =>
  require (decide (Config.minLeaves ≤ s.node.length)) .insufficientAlphabet s

/-- Procedure `Build()` (R131 to R133, R136). -/
def procBuild : Proc Unit := fun s =>
  ((checkAlphabet s.startBuilding.addLeaves).onRaise State.discardTree).bind fun _ s =>
    finishBuild (State.mergeLoop s.heap.length s)

/-- BUILD (R137). -/
def execBuild (s : State) : Host.Outcome State Fault Refusal := command .build procBuild s

end Sys2Proof.Machine
end

