-- ==== Sys2Proof/Machine/TreeCodec.lean ====
section
/-! DEFINITION. Tree Codec: SERIALIZE and DESERIALIZE (42_tree_codec.md). -/

namespace Sys2Proof.Machine

/-- Procedure `Serialize()` (R151 to R153), run with TREE_VALID = 1. -/
def procSerialize : Proc Unit := fun s =>
  match s.tree with
  | none => .raised .protocolError s
  | some h =>
    match absTree s.node h.root with
    | none => .stuck .brokenTree
    | some t => .ok () { s.enter .serializing with ser := some { shape := t.shape, leafv := t.leaves } }

/-- `SHAPE[SHAPE_POS]` taken, and the next index of NODE taken with it (R156). -/
def State.takeShapeBit (s : State) : State :=
  { s with des.shapePos := s.des.shapePos + 1, node := s.node ++ [none] }

/-- `NODE[i] <- n` at an index already taken (R156). -/
def State.writeNode (s : State) (i : NodeIdx) (n : Node) : State :=
  { s with node := s.node.set i.toNat (some n) }

/-- The leaf branch of Parse (R156): checks 5 and 6. -/
def parseLeaf (leafv : List Byte) (i : NodeIdx) : Proc Unit := fun s =>
  match leafv[s.des.leafPos.toNat]? with
  | none => .raised .malformedTree s
  | some v =>
    let s := { s with des.leafPos := s.des.leafPos + 1 }
    if s.des.seen.getLsbD v.toNat then .raised .malformedTree s
    else .ok () ({ s with des.seen := s.des.seen ||| (1#256 <<< v.toNat) }.writeNode i (.leaf v 0))

/-- `Parse()` of R156, depth-first, left before right. Every nested call has taken a shape bit before it, so with
SER_N at most 511 (R157 check 1) 512 levels are never used up. -/
def parse (t : SerTree) : Nat → Proc NodeIdx
  | 0, s => .raised .malformedTree s
  | n + 1, s =>
    match t.shape[s.des.shapePos.toNat]? with
    | none => .raised .malformedTree s
    | some bit =>
      let i : NodeIdx := BitVec.ofNat 9 s.node.length
      if bit then
        (parse t n s.takeShapeBit).bind fun l s =>
          (parse t n s).bind fun r s => .ok i (s.writeNode i (.internal 0 l r))
      else
        (parseLeaf t.leafv i s.takeShapeBit).bind fun _ s => .ok i s

/-- `SHAPE_POS <- 0 ; LEAF_POS <- 0` and SEEN cleared (R157). -/
def State.startParsing (s : State) : State := { s with des := { shapePos := 0, leafPos := 0, seen := 0 } }

/-- The checks and the parse of `Deserialize()` up to ROOT (R157), checks 1 to 8 in their order. -/
def parseTree (t : SerTree) : Proc NodeIdx := fun s =>
  (require (decide (t.shape.length ≤ Config.maxNodes)) .malformedTree s).bind fun _ s =>
  let s := s.startParsing
  (require (decide (1 ≤ t.shape.length)) .malformedTree s).bind fun _ s =>
  (require (t.shape.head? == some true) .malformedTree s).bind fun _ s =>
  (parse t (Config.maxNodes + 1) s).bind fun root s =>
  (require (decide (s.des.shapePos.toNat = t.shape.length)) .malformedTree s).bind fun _ s =>
  (require (decide (s.des.leafPos.toNat = t.leafv.length)) .malformedTree s).bind fun _ s =>
  .ok root s

/-- Procedure `Deserialize()` (R157), run with SER_VALID = 1. -/
def procDeserialize : Proc Unit := fun s =>
  match s.ser with
  | none => .raised .protocolError s
  | some t =>
    ((parseTree t (s.enter .deserializing).discardTree).onRaise State.discardTree).bind fun root s =>
      finishTree root s

/-- SERIALIZE (R154). -/
def execSerialize (s : State) : Host.Outcome State Fault Refusal :=
  command .serialize (guarded .serialize procSerialize) s

/-- DESERIALIZE (R159). -/
def execDeserialize (s : State) : Host.Outcome State Fault Refusal :=
  command .deserialize (guarded .deserialize procDeserialize) s

end Sys2Proof.Machine
end

