-- ==== Sys2Proof/Machine/FileFormat.lean ====
section
/-! DEFINITION. File Format: WRHDR, RDHDR, COMPRESS, DECOMPRESS (45_file_format.md). -/

namespace Sys2Proof.Machine

/-- Procedure `WriteHeader()` (R216), run with SER_VALID = 1 and LEN_VALID = 1. -/
def procWriteHeader : Proc Unit := fun s =>
  match s.ser, s.origLen with
  | some t, some len => putAll (headerBytes t len) (s.enter .writingHeader)
  | _, _ => .raised .protocolError s

/-- Procedure `ReadHeader()` (R219): checks H1 to H5 in their order. What it reads stays behind the cleared valid
flags until its last step. -/
def procReadHeader : Proc Unit := fun s =>
  (srcReadBytes .truncatedStream 2 (s.enter .readingHeader).discardSer.discardLen).bind fun nc s =>
  let n := ofBe nc
  (require (decide (n ≤ Config.maxNodes)) .malformedTree s).bind fun _ s =>
  (srcReadBytes .malformedTree (ceilDiv8 n) s).bind fun packed s =>
  let shape := unpackBits n packed
  let leaves := shape.count false
  (require (decide (leaves ≤ Config.maxLeaves)) .malformedTree s).bind fun _ s =>
  (srcReadBytes .malformedTree leaves s).bind fun leafv s =>
  (srcReadBytes .truncatedStream 8 s).bind fun lenBytes s =>
  .ok () { s with ser := some { shape := shape, leafv := leafv }, origLen := some (BitVec.ofNat 64 (ofBe lenBytes)) }

/-- WRHDR (R217). -/
def execWrhdr (s : State) : Host.Outcome State Fault Refusal :=
  command .wrhdr (guarded .wrhdr procWriteHeader) s

/-- RDHDR (R220). -/
def execRdhdr (s : State) : Host.Outcome State Fault Refusal := command .rdhdr procReadHeader s

/-- The check after the second pass (R225): it read ORIG_LEN bytes. -/
def verifyPass : Proc Unit := fun s => require (s.origLen == some s.ctl.inCount) .protocolError s

/-- The end of a whole-file command before Finish: the three structures are discarded (R46, R225, R226). -/
def discardStep : Proc Unit := fun s => .ok () s.discardAll

/-- The body of COMPRESS between Begin and Finish (R3, R225). -/
def compressBody : Proc Unit := fun s =>
  (procCount s.discardAll).bind fun _ s =>
  (procBuild s).bind fun _ s =>
  (procSerialize s).bind fun _ s =>
  (procWriteHeader s).bind fun _ s =>
  (srcRewind s).bind fun _ s =>
  (procEncode { s with ctl.inCount := 0 }).bind fun _ s =>
  (verifyPass s).bind fun _ s => discardStep s

/-- The body of DECOMPRESS between Begin and Finish (R3, R226). -/
def decompressBody : Proc Unit := fun s =>
  (procReadHeader s.discardAll).bind fun _ s =>
  (procDeserialize s).bind fun _ s =>
  (procDecode s).bind fun _ s =>
  (verifyCount s).bind fun _ s => discardStep s

/-- COMPRESS (R225). -/
def execCompress (s : State) : Host.Outcome State Fault Refusal := command .compress compressBody s

/-- DECOMPRESS (R226). -/
def execDecompress (s : State) : Host.Outcome State Fault Refusal := command .decompress decompressBody s

end Sys2Proof.Machine
end

