-- ==== Sys2Proof/Machine/HostMoves.lean ====
section
/-! DEFINITION. What each event of the outside world does (10_state.md R22, 20_memory.md R61 to R66,
70_reset_and_hazards.md R270 to R279). -/

namespace Sys2Proof.Machine

/-- A Source the host may bind: 0 ≤ SRC.pos ≤ SRC.len < 2^64 (R61, R280 (a)), for every pass it may show. -/
def Source.wf (src : Source) : Bool :=
  decide (src.pos ≤ src.data.length) && decide (src.data.length < 2 ^ 64)
    && src.later.all fun d => decide (d.length < 2 ^ 64)

/-- A Sink the host may bind: the durable bytes are among its bytes (R65). -/
def Sink.wf (snk : Sink) : Bool := decide (snk.durable ≤ snk.data.length)

/-- A command word arriving at CMD (R22, R91, R92): ignored while BUSY = 1; the command while idle; a reserved
code is an illegal command. -/
def writeCmd (w : Byte) (s : State) : Host.Outcome State Fault Refusal :=
  if s.ctl.busy then .next s
  else match decodeWord w with
    | some i => exec i s
    | none => .next (reservedCode s)

/-- A move on a stream that the host has only while BUSY = 0 (R276, R277, U15). -/
def whileIdle (s : State) (legal : Bool) (s' : State) : Host.Outcome State Fault Refusal :=
  if s.ctl.busy then .refused .streamTouchedWhileBusy
  else if legal then .next s' else .refused .illegalHostMove

/-- Rewinding or seeking the bound Source (R63, R276). The `.rewind` of a script is "the host's SrcRewind" (R94), and R66
lets any primitive answer `IoError`: that the host's own rewind of a bound Source always goes through and uses up no answer
is a DESIGN CHOICE (log entry 22). -/
def moveSource (f : Source → Source) (s : State) : Host.Outcome State Fault Refusal :=
  match s.env.src with
  | .unbound _ _ => whileIdle s false s
  | .bound src => whileIdle s (f src).wf { s with env.src := .bound (f src) }

/-- A closed stream: its primitives answer `IoError(e)` from now on (R66), and it keeps what it held (R64). -/
def Binding.close {α : Type} (e : IoErr) : Binding α → Binding α
  | .unbound _ last => .unbound e last
  | .bound x => .unbound e (some x)

/-- The stream as it is, or as it was closed; `none` when none was bound (R64, R66). -/
def Binding.held {α : Type} : Binding α → Option α
  | .bound x => some x
  | .unbound _ last => last

/-- Closing a stream: "the only way to stop" a running command (R66, R277). A command hung in a call of that
stream sees `IoError(e)` as its answer and fails with IoFailure; otherwise later calls see it. -/
def closeStream (st : Stream) (e : IoErr) (s : State) : State :=
  let s := match st with
    | .source => { s with env.src := s.env.src.close e }
    | .sink => { s with env.snk := s.env.snk.close e }
  if s.ctl.busy && (s.ctl.waiting == some st) then { s with ctl.ioerr := e }.fail .ioFailure else s

/-- The reset event (R270, R271): HCC takes the reset values, the environment stays as it is. -/
def State.resetHcc (s : State) : State := { State.reset with env := s.env }

/-- One event of the outside world. Answers are used up by the calls of commands only, never by the host's own rewind:
DESIGN CHOICE (log entry 22). -/
def perform (e : Event) (s : State) : Host.Outcome State Fault Refusal :=
  match e with
  | .writeCmd w => writeCmd w s
  | .bindSource src => whileIdle s src.wf { s with env.src := .bound src }
  | .bindSink snk => whileIdle s snk.wf { s with env.snk := .bound snk }
  | .rewindSource => moveSource Source.rewind s
  | .seekSource pos => moveSource (fun src => { src with pos := pos }) s
  | .closeSource e => .next (closeStream .source e s)
  | .closeSink e => .next (closeStream .sink e s)
  | .decideAnswers l => .next { s with env.answers := l }
  | .reset => .next s.resetHcc

/-- HCC ready to take a command word: what a fetch at an HCC that is not idle needs (R279). A hung command is
dropped as a reset drops it (R271). -/
def State.readied (s : State) : State := if s.ctl.busy then s.resetHcc else s

end Sys2Proof.Machine
end

