-- ==== Sys2Proof/Machine/Step.lean ====
section
/-! DEFINITION. One step of HCC in its environment. -/

namespace Sys2Proof.Machine

/-- The next event of the outside world happens; with none to come HCC does nothing (R270, R252). A command
started by a write to CMD runs to its end within the step. -/
def step (s : State) : Host.Outcome State Fault Refusal :=
  match s.env.events with
  | [] => .next s
  | e :: rest => perform e { s with env.events := rest }

/-- The state with an instruction where `step` fetches its next one: HCC fetches no instructions (R78), the host
writes them to CMD, so the word becomes the host's next write. `nbits` is 8 for every command (R90). -/
def State.withFetchWord (s : State) (_nbits w : Nat) : State :=
  { s.readied with env.events := .writeCmd (BitVec.ofNat 8 w) :: s.env.events }

end Sys2Proof.Machine
end

