-- ==== Sys2Proof/Machine/HostView.lean ====
section
/-! DEFINITION. What the host reads (10_state.md R22, R42, 20_memory.md R75), by name and by bus address. Reads change
nothing. -/

namespace Sys2Proof.Machine

/-- The registers and tables the host can name in a read (R42), and CMD (R22). -/
inductive HostReg where
  | cmd | status | rcount | ioerr | origLen | serN | serL
  | shape (k : Nat) | leafv (j : Nat) | nodeUsed | root | node (i : NodeIdx)
  | codeBits (v : Byte) | codeLen (v : Byte) | freq (v : Byte)
  deriving DecidableEq, Repr

/-- A value read: the register's bits, or an entry of NODE. -/
inductive HostValue where
  | bits (width value : Nat)
  | entry (n : Node)
  deriving DecidableEq, Repr

/-- STATUS as the host reads it (R42): while BUSY = 1 the fields other than BUSY are unspecified, `u` stands for
them (U14); the bits 15:9 are hardwired to 0 (R21, R23). -/
def State.hostStatus (s : State) (u : BitVec 16) : BitVec 16 :=
  if s.ctl.busy then (u &&& 0x01FE) ||| 1 else s.status

/-- A register read while BUSY = 0; `none` where the register holds no value (R27). -/
def State.readReg (s : State) : HostReg → Option HostValue
  | .cmd => some (.bits 8 0)
  | .status => some (.bits 16 s.status.toNat)
  | .rcount => some (.bits 64 s.ctl.rcount.toNat)
  | .ioerr => some (.bits Config.ioErrW s.ctl.ioerr.toNat)
  | .origLen => s.origLen.map fun n => .bits 64 n.toNat
  | .serN => s.ser.map fun t => .bits 16 t.serN.toNat
  | .serL => s.ser.map fun t => .bits 9 t.serL.toNat
  | .shape k => (s.ser.bind fun t => t.shape[k]?).map fun b => .bits 1 b.toNat
  | .leafv j => (s.ser.bind fun t => t.leafv[j]?).map fun v => .bits 8 v.toNat
  | .nodeUsed => s.tree.map fun _ => .bits 10 s.node.length
  | .root => s.tree.map fun h => .bits 9 h.root.toNat
  | .node i => (s.tree.bind fun _ => (s.node[i.toNat]?).join).map .entry
  | .codeBits v => s.tree.map fun h => .bits 255 (h.code.read v).bits.toNat
  | .codeLen v => s.tree.map fun h => .bits 8 (h.code.read v).len.toNat
  | .freq v => some (.bits 64 (s.freq.read v).toNat)

/-- A host read (R22, R42): CMD reads 0; while BUSY = 1 only STATUS can be read; `u` stands for what is
unspecified. -/
def State.hostRead (s : State) (r : HostReg) (u : BitVec 16) : Option HostValue :=
  match r with
  | .status => some (.bits 16 (s.hostStatus u).toNat)
  | _ => if s.ctl.busy then none else s.readReg r

/-- REGMAP, the OPEN parameter of R10: which register a bus address names, `none` for one that names none (R75). An
argument of every access by address. -/
abbrev RegMap := Nat → Option HostReg

/-- A host read at a bus address; `none` where the address names no register or the register holds no value. -/
def State.busRead (s : State) (regMap : RegMap) (addr : Nat) (u : BitVec 16) : Option HostValue :=
  (regMap addr).bind fun r => s.hostRead r u

/-- A host write of `w` at a bus address, as an event: "the host can write nothing but CMD" (R42), so it is a write to
CMD or it is no move of the host. -/
def busWrite (regMap : RegMap) (addr : Nat) (w : Byte) : Option Event :=
  match regMap addr with
  | some .cmd => some (.writeCmd w)
  | _ => none

end Sys2Proof.Machine
end

