-- ==== Sys2Proof/Machine/Script.lean ====
section
/-! DEFINITION. Command scripts (30_encoding.md R94): the lines of a script, and a host that runs them. -/

namespace Sys2Proof.Machine

/-- A Source that keeps its duties (R280 (a) to (c)), holding `bs`, at its first byte. -/
def Source.faithful (bs : List Byte) : Source :=
  { data := bs, pos := 0, len := BitVec.ofNat 64 bs.length, later := [] }

/-- One line of a script (R94). -/
inductive ScriptLine where
  /-- A command, by its mnemonic; `continues` when the line says `; continue`. -/
  | run (i : Instr) (continues : Bool)
  /-- A byte the host writes to CMD by hand (95_test_vectors.md writes a reserved code so). -/
  | write (w : Byte) (continues : Bool)
  /-- `.source <hex bytes>`. -/
  | source (bytes : List Byte)
  /-- `.sink`. -/
  | sink
  /-- `.rewind`. -/
  | rewind
  deriving DecidableEq, Repr

/-- What the host does for a line (R94). -/
def ScriptLine.event : ScriptLine → Event
  | .run i _ => .writeCmd (encode i)
  | .write w _ => .writeCmd w
  | .source bytes => .bindSource (.faithful bytes)
  | .sink => .bindSink { data := [], durable := 0 }
  | .rewind => .rewindSource

/-- Whether OUTCOME = Failure after the line stops the script: only after a command, and only when the line does not
say `; continue` (R94). -/
def ScriptLine.stopsAtFailure : ScriptLine → Bool
  | .run _ continues => !continues
  | .write _ continues => !continues
  | .source _ => false
  | .sink => false
  | .rewind => false

/-- STATUS.OUTCOME is Failure (R23). -/
def CmdOutcome.isFailure : CmdOutcome → Bool
  | .failure _ => true
  | .none => false
  | .success => false

/-- The host runs a script (R94). It waits for BUSY = 0 before each line, so behind a command that hangs it does
nothing more (R279, R286), and it stops at the first command that fails unless the line says `; continue`. A `.rewind`
always goes through (log entry 22). -/
def runScript : List ScriptLine → State → Host.Outcome State Fault Refusal
  | [], s => .next s
  | l :: ls, s =>
    if s.ctl.busy then .next s
    else
      match perform l.event s with
      | .next t => if l.stopsAtFailure && t.ctl.outcome.isFailure then .next t else runScript ls t
      | .fault f => .fault f
      | .refused r => .refused r

end Sys2Proof.Machine
end

