-- ==== Sys2Proof/Safety.lean ====
section
/-! DEFINITION. The terms claims about HCC are stated in: the faithful environment, a held tree (10_state.md
R31), the invariant of the machine and what a command may change. -/

namespace Sys2Proof.Machine

/-- The bytes of the Sink (R64), closed or not; empty when none was bound. -/
def State.sinkBytes (s : State) : List Byte := (s.env.snk.held.map Sink.data).getD []

/-- How many bytes of the Sink are durable (R65). -/
def State.sinkDurable (s : State) : Nat := (s.env.snk.held.map Sink.durable).getD 0

/-- Every coming primitive call of a bound stream goes through: no `IoError`, no call that does not return. -/
def State.quiet (s : State) : Prop := s.env.answers = []

/-- The bound Source is faithful and holds `bs`, shorter than 2^64 (R61, R280). -/
def State.inputIs (s : State) (bs : List Byte) : Prop :=
  s.env.src = .bound (Source.faithful bs) ∧ bs.length < 2 ^ 64

/-- The registers of R23 to R25 and R38 after a command that took `taken` bytes, appended `put` bytes and ended
with `o` (R248 to R250), everything else as in `s`. -/
def State.ended (s : State) (o : CmdOutcome) (taken appended : Nat) : State :=
  { s with
    ctl := {
      busy := false, outcome := o, phase := .idle, rcount := BitVec.ofNat 64 appended, ioerr := s.ctl.ioerr,
      inCount := BitVec.ofNat 64 taken, outCount := BitVec.ofNat 64 appended, running := none, waiting := none } }

/-- The Source `k` bytes further on. -/
def Source.advance (src : Source) (k : Nat) : Source := { src with pos := src.pos + k }

/-- The state after RDHDR failed with `t` having taken `k` bytes of `src`: both valid flags 0 (R219, R220). -/
def State.headerRefused (s : State) (src : Source) (t : Failure) (k : Nat) : State :=
  { s with ser := none, origLen := none, heap := [], env.src := .bound (src.advance k) }.ended (.failure t) k 0

/-- The Sink with `bs` appended and everything durable (R64, R65). -/
def Sink.appendFlushed (snk : Sink) (bs : List Byte) : Sink :=
  { data := snk.data ++ bs, durable := (snk.data ++ bs).length }

/-- The Sink with `bs` appended and not flushed (R65). -/
def Sink.append (snk : Sink) (bs : List Byte) : Sink := { snk with data := snk.data ++ bs }

/-- The path from the root to the leaf `v`, left = 0, right = 1 (R31 (d), R108). -/
def HTree.path : HTree → Byte → Option (List Bool)
  | .leaf w, v => if w = v then some [] else none
  | .node l r, v =>
    match l.path v with
    | some p => some (false :: p)
    | none => (r.path v).map (true :: ·)

/-- The stream bits of an input under a code table: each byte's code, first path bit first, in input order
(R105). -/
def streamBits (code : ByteTable CodeEntry) (xs : List Byte) : List Bool :=
  xs.flatMap fun x => (code.read x).emission

/-- The bits of packed bytes in stream order (R69). -/
def allBits (bytes : List Byte) : List Bool := unpackBits (8 * bytes.length) bytes

/-- TREE_VALID = 1 and the tree held is `t`, meeting R31 and R26: T(ROOT) = t, at least two leaves (the root is
Internal), leaf values unique, NODE_USED = 2L - 1, every entry written, and CODE is the table derived from it. -/
def State.holdsTree (s : State) (t : HTree) : Prop :=
  ∃ h, s.tree = some h ∧ absTree s.node h.root = some t ∧ h.code = t.codeTable ∧ t.isInternal = true
    ∧ t.leaves.Nodup ∧ s.node.length = 2 * t.leaves.length - 1 ∧ ∀ e ∈ s.node, e.isSome = true

/-- The byte values present in FREQ, ascending (R33, R131). -/
def presentBytes (freq : ByteTable Word64) : List Byte := allBytes.filter fun v => freq.read v != 0

/-- The sum of the FREQ entries (R134). -/
def freqSum (freq : ByteTable Word64) : Nat := (allBytes.map fun v => (freq.read v).toNat).sum

/-- `key(i) < key(j)` of R34: lower freq first, among equal freq the lower index. -/
def State.keyBefore (s : State) (i j : NodeIdx) : Prop :=
  (s.freqAt i).toNat < (s.freqAt j).toNat ∨ ((s.freqAt i).toNat = (s.freqAt j).toNat ∧ i.toNat < j.toNat)

/-- A merge recorded in NODE below index `k` took `j` out of HEAP (R132): `j` is the child of an entry there. -/
def State.takenBelow (s : State) (k : Nat) (j : NodeIdx) : Prop :=
  ∃ m < k, ∃ f l r, s.node[m]? = some (some (.internal f l r)) ∧ (j = l ∨ j = r)

/-- NODE as Build fills it from FREQ. R131: entry j is the leaf of the j-th smallest byte value present. R132: every entry
k after them merges the two entries below k of least key that no merge before it took, the first removed on the left. -/
def State.builtFrom (s : State) (freq : ByteTable Word64) : Prop :=
  (∀ (j : Nat) (h : j < (presentBytes freq).length),
    s.node[j]? = some (some (.leaf (presentBytes freq)[j] (freq.read (presentBytes freq)[j]))))
  ∧ s.node.length = 2 * (presentBytes freq).length - 1
  ∧ ∀ k, (presentBytes freq).length ≤ k → k < s.node.length →
    ∃ l r, s.node[k]? = some (some (.internal (s.freqAt l + s.freqAt r) l r)) ∧ l.toNat < k ∧ r.toNat < k
      ∧ ¬ s.takenBelow k l ∧ ¬ s.takenBelow k r ∧ s.keyBefore l r
      ∧ ∀ j : NodeIdx, j.toNat < k → ¬ s.takenBelow k j → j ≠ l → j ≠ r → s.keyBefore r j

/-- The sum over the leaves of frequency × code length (R138). -/
def HTree.cost (freq : ByteTable Word64) (t : HTree) : Nat :=
  (t.leaves.map fun v => (freq.read v).toNat * ((t.path v).map List.length).getD 0).sum

/-- R24 and R34 between steps: PHASE is Idle exactly when BUSY = 0; BUSY = 1 only while a call has not returned, a command
being noted as running, which is the model's choice (log entries 3 and 18); HEAP is empty. -/
def State.controlOk (s : State) : Prop :=
  (s.ctl.busy = false ↔ s.ctl.phase = .idle) ∧ (s.ctl.busy = true ↔ s.ctl.waiting.isSome = true)
    ∧ (s.ctl.busy = true ↔ s.ctl.running.isSome = true) ∧ s.heap = []

/-- R26, R31 and R27: a valid tree is a tree with its code table; without one NODE holds nothing. -/
def State.treeOk (s : State) : Prop :=
  (s.tree.isSome = true → ∃ t, s.holdsTree t) ∧ (s.tree = none → s.node = [])

/-- R36: a serialised tree fits SHAPE and LEAFV, and has one leaf value for each 0 bit (R103). -/
def State.serOk (s : State) : Prop :=
  ∀ t, s.ser = some t →
    t.shape.length ≤ Config.maxNodes ∧ t.leafv.length ≤ Config.maxLeaves ∧ t.leafv.length = t.shape.count false

/-- R61 and R65: the streams, closed or not, are streams the host may bind. -/
def State.envOk (s : State) : Prop :=
  (∀ src, s.env.src.held = some src → src.wf = true) ∧ (∀ snk, s.env.snk.held = some snk → snk.wf = true)

/-- R16 and R134: the frequencies add up without overflow. -/
def State.freqOk (s : State) : Prop := freqSum s.freq < 2 ^ 64

/-- The invariant of the machine between steps. -/
def State.Inv (s : State) : Prop := s.controlOk ∧ s.treeOk ∧ s.serOk ∧ s.envOk ∧ s.freqOk

/-- `s` with the control registers of `t` (R22 to R25, R38), which every command writes. -/
def State.withControlOf (s t : State) : State :=
  { s with ctl := { t.ctl with ioerr := s.ctl.ioerr } }

/-- The same Source but for its position (R60, R62). -/
def sameSource (b c : Binding Source) : Prop :=
  match b with
  | .unbound e last => c = .unbound e last
  | .bound src => ∃ p, c = .bound { src with pos := p }

/-- The failures a command can end with (R241 to R245). -/
def mayRaise : Instr → Failure → Bool
  | .clear, _ => false
  | .count, t => t == .ioFailure || t == .protocolError
  | .build, t => t == .insufficientAlphabet
  | .serialize, t => t == .protocolError
  | .deserialize, t => t == .protocolError || t == .malformedTree
  | .wrhdr, t => t == .protocolError || t == .ioFailure
  | .rdhdr, t => t == .truncatedStream || t == .malformedTree || t == .ioFailure
  | .encode, t => t == .protocolError || t == .ioFailure
  | .decode, t => t == .protocolError || t == .truncatedStream || t == .ioFailure || t == .malformedTree
  | .compress, t => t == .ioFailure || t == .protocolError || t == .insufficientAlphabet
  | .decompress, t => t == .truncatedStream || t == .malformedTree || t == .ioFailure

end Sys2Proof.Machine
end

