-- ==== Sys2Proof/Certificates/Slice0/Obligations.lean ====
section
/-! DEFINITION. The statements about HCC for the provers, from the numbered rules of spec/. -/

open Sys2Proof Sys2Proof.Machine

/-! ### Commands, their start, and the host -/

/-- R22, R91: a command word written while BUSY = 0 runs the command it decodes to. -/
def Obligations.StepRunsDecodedCommand : Prop :=
  ∀ (s : State) (w : Byte) (rest : List Event) (i : Instr),
    s.env.events = .writeCmd w :: rest → s.ctl.busy = false → decodeWord w = some i →
      step s = exec i { s with env.events := rest }

/-- R92: a reserved code ends with ProtocolError and touches nothing but the control registers and HEAP, which the
failure rule R250 empties. -/
def Obligations.ReservedCodeFailsWithProtocolError : Prop :=
  ∀ (s : State) (w : Byte) (rest : List Event),
    s.env.events = .writeCmd w :: rest → s.ctl.busy = false → commandWordWf w = false →
      step s = .next ({ s with env.events := rest, heap := [] }.ended (.failure .protocolError) 0 0)

/-- R22: a write to CMD while BUSY = 1 is ignored. -/
def Obligations.CommandWrittenWhileBusyIsIgnored : Prop :=
  ∀ (s : State) (w : Byte) (rest : List Event),
    s.env.events = .writeCmd w :: rest → s.ctl.busy = true → step s = .next { s with env.events := rest }

/-- R91: the decoder and the encoder agree, in both directions. -/
def Obligations.DecodeEncodeAgree : Prop :=
  (∀ i : Instr, decodeWord (encode i) = some i) ∧ ∀ (w : Byte) (i : Instr), decodeWord w = some i → encode i = w

/-- R91, R92: the word of every command written out from the code column, and the reserved words beside them. -/
def Obligations.TableWordsDecode : Prop :=
  decodeWord 0b00000001 = some .clear ∧ decodeWord 0b00000010 = some .count ∧ decodeWord 0b00000011 = some .build
    ∧ decodeWord 0b00000100 = some .serialize ∧ decodeWord 0b00000101 = some .deserialize
    ∧ decodeWord 0b00000110 = some .wrhdr ∧ decodeWord 0b00000111 = some .rdhdr
    ∧ decodeWord 0b00001000 = some .encode ∧ decodeWord 0b00001001 = some .decode
    ∧ decodeWord 0b00001010 = some .compress ∧ decodeWord 0b00001011 = some .decompress
    ∧ decodeWord 0b00000000 = none ∧ decodeWord 0b00001100 = none

/-- R45, R270: the values the spec gives for reset, with STATUS = 0. -/
def Obligations.ResetLeavesIdleWithNothingValid : Prop :=
  State.reset.status = 0 ∧ State.reset.ctl.phase = .idle ∧ State.reset.ctl.rcount = 0 ∧ State.reset.ctl.ioerr = 0
    ∧ (∀ v, State.reset.freq.read v = 0) ∧ State.reset.heap = [] ∧ State.reset.tree = none ∧ State.reset.ser = none
    ∧ State.reset.origLen = none ∧ State.reset.ctl.inCount = 0 ∧ State.reset.ctl.outCount = 0

/-- R271: the reset event gives HCC its reset values, also under a running command, and touches neither stream. The
scratch registers of R39 to R41, for which R45 gives no reset value, are left open. -/
def Obligations.ResetEventKeepsStreams : Prop :=
  ∀ (s : State) (rest : List Event), s.env.events = .reset :: rest →
    ∃ t, step s = .next t
      ∧ t = { State.reset with enc := t.enc, dec := t.dec, des := t.des, env := { s.env with events := rest } }

/-- R276, R277: while BUSY = 1 the host has no move that binds, rewinds or repositions a stream, and the model refuses
it by name (log entry 9); while BUSY = 0 each of them does what it says to that stream and nothing else, where the stream
and the position it makes are legal (R61), and is refused by name where they are not (log entry 9). What a Source shows
after a rewind: log entry 10. That the host's rewind goes through and uses up no answer: log entry 22. -/
def Obligations.StreamMovesRefusedWhileBusy : Prop :=
  ∀ (s : State) (rest : List Event) (e : Event), s.env.events = e :: rest →
    (s.ctl.busy = true →
      (e = .rewindSource ∨ (∃ p, e = .seekSource p) ∨ (∃ src, e = .bindSource src) ∨ (∃ snk, e = .bindSink snk)) →
        step s = .refused .streamTouchedWhileBusy)
    ∧ (s.ctl.busy = false →
      (∀ src, e = .bindSource src →
        (src.wf = true → step s = .next { s with env := { s.env with src := .bound src, events := rest } })
        ∧ (src.wf = false → step s = .refused .illegalHostMove))
      ∧ (∀ snk, e = .bindSink snk →
        (snk.wf = true → step s = .next { s with env := { s.env with snk := .bound snk, events := rest } })
        ∧ (snk.wf = false → step s = .refused .illegalHostMove))
      ∧ (∀ src, s.env.src = .bound src → src.wf = true →
        (e = .rewindSource → step s = .next { s with
          env := { s.env with
            src := .bound { src with pos := 0, data := src.later.headD src.data, later := src.later.tail }, events := rest } })
        ∧ (∀ p, e = .seekSource p →
          (p ≤ src.data.length → step s = .next { s with
            env := { s.env with src := .bound { src with pos := p }, events := rest } })
          ∧ (src.data.length < p → step s = .refused .illegalHostMove)))
      ∧ (∀ x l, s.env.src = .unbound x l → (e = .rewindSource ∨ ∃ p, e = .seekSource p) →
        step s = .refused .illegalHostMove))

/-- R66, R64: closing the stream a command hangs on makes that command fail with IoFailure, and no byte of the Sink goes
(how a hang is held in State: log entry 6). That closing keeps the number of durable bytes, and that bytes not yet flushed
do not count as durable, is the model's choice, where R65 leaves it to the Sink (log entries 11 and 12). -/
def Obligations.ClosingTheStreamAborts : Prop :=
  ∀ (s : State) (rest : List Event) (e : IoErr), s.ctl.busy = true →
    (s.env.events = .closeSource e :: rest → s.ctl.waiting = some .source → ∃ t, step s = .next t ∧ t.ctl.busy = false
      ∧ t.ctl.outcome = .failure .ioFailure ∧ t.ctl.ioerr = e ∧ t.ctl.rcount = s.ctl.outCount ∧ t.env.snk = s.env.snk)
    ∧ (s.env.events = .closeSink e :: rest → s.ctl.waiting = some .sink → ∃ t, step s = .next t ∧ t.ctl.busy = false
      ∧ t.ctl.outcome = .failure .ioFailure ∧ t.ctl.ioerr = e ∧ t.ctl.rcount = s.ctl.outCount ∧ t.env.src = s.env.src
      ∧ t.sinkBytes = s.sinkBytes ∧ t.sinkDurable = s.sinkDurable)

/-- R280 (e), R286: a primitive call that does not return leaves HCC with BUSY = 1, the results of the command before
still in it (R248): the first read of the six commands that read the Source, each append and the flush of WRHDR, and in
every command exactly when a call it made was not answered. A hung HCC stays as it is until a stream is closed or HCC is
reset (log entry 6). The fields running and waiting are the model's own (log entry 18). -/
def Obligations.HungStaysBusy : Prop :=
  (∀ (s : State) (src : Source) (l : List Answer) (i : Instr), s.env.src = .bound src → s.env.answers = .never :: l →
    i = .count ∨ i = .rdhdr ∨ i = .compress ∨ i = .decompress ∨ (i = .encode ∧ s.tree.isSome = true)
      ∨ (i = .decode ∧ (∃ t, s.holdsTree t) ∧ ∃ n, s.origLen = some n ∧ n ≠ 0) →
      ∃ t, exec i s = .next t ∧ t.ctl.busy = true ∧ t.ctl.waiting = some .source ∧ t.ctl.outcome = s.ctl.outcome
        ∧ t.ctl.rcount = s.ctl.rcount ∧ t.env = { s.env with answers := l })
  ∧ (∀ (s : State) (c : SerTree) (n : Word64) (snk : Sink) (k : Nat) (l : List Answer), s.ser = some c → s.origLen = some n →
    s.env.snk = .bound snk → k ≤ (headerBytes c n).length → s.env.answers = List.replicate k .ok ++ .never :: l →
      ∃ t, exec .wrhdr s = .next t ∧ t.ctl.busy = true ∧ t.ctl.waiting = some .sink ∧ t.ctl.outcome = s.ctl.outcome
        ∧ t.ctl.rcount = s.ctl.rcount ∧ t.ctl.outCount = BitVec.ofNat 64 k
        ∧ t.env = { s.env with snk := .bound (snk.append ((headerBytes c n).take k)), answers := l })
  ∧ (∀ (i : Instr) (s t : State), exec i s = .next t → ∃ used, s.env.answers = used ++ t.env.answers
    ∧ (t.ctl.busy = true ↔ .never ∈ used)
    ∧ (t.ctl.busy = true → t.ctl.waiting.isSome = true ∧ t.ctl.running = some i ∧ t.ctl.outcome = s.ctl.outcome
      ∧ t.ctl.rcount = s.ctl.rcount ∧ t.ctl.ioerr = s.ctl.ioerr))
  ∧ ∀ (s t : State) (e : Event) (rest : List Event), s.ctl.busy = true → s.env.events = e :: rest → step s = .next t →
    (t = { s with env := t.env } ∧ t.ctl.busy = true) ∨ e = .reset ∨ (∃ x, e = .closeSource x) ∨ ∃ x, e = .closeSink x

/-- R23, R240: the fields of STATUS, and the failure codes that ERR holds. -/
def Obligations.StatusFields : Prop :=
  (Failure.code .insufficientAlphabet = 1 ∧ Failure.code .malformedTree = 2 ∧ Failure.code .truncatedStream = 3
    ∧ Failure.code .ioFailure = 4 ∧ Failure.code .protocolError = 5)
  ∧ ∀ s : State, s.status.extractLsb' 0 1 = BitVec.ofBool s.ctl.busy ∧ s.status.extractLsb' 1 2 = s.ctl.outcome.field
    ∧ s.status.extractLsb' 3 3 = s.ctl.outcome.err ∧ s.status.extractLsb' 6 1 = BitVec.ofBool s.tree.isSome
    ∧ s.status.extractLsb' 7 1 = BitVec.ofBool s.ser.isSome ∧ s.status.extractLsb' 8 1 = BitVec.ofBool s.origLen.isSome
    ∧ s.status.extractLsb' 9 7 = 0 ∧ s.status.extractLsb' 1 2 ≠ 3
    ∧ (s.status.extractLsb' 1 2 ≠ 2 → s.status.extractLsb' 3 3 = 0)
    ∧ (s.ctl.outcome = .none → s.status.extractLsb' 1 2 = 0) ∧ (s.ctl.outcome = .success → s.status.extractLsb' 1 2 = 1)
    ∧ (∀ f, s.ctl.outcome = .failure f → s.status.extractLsb' 1 2 = 2 ∧ s.status.extractLsb' 3 3 = f.code)
    ∧ s.status.extractLsb' 3 3 ≠ 6 ∧ s.status.extractLsb' 3 3 ≠ 7

/-- R22, R42: while idle CMD reads 0, STATUS, RCOUNT, IOERR and FREQ read what they hold, and so do ORIG_LEN, SER_N, SER_L,
SHAPE, LEAFV, NODE_USED, ROOT, NODE and CODE under their valid flags, but for an entry that holds no value; while BUSY = 1 only STATUS
can be read, with bit 0 set, bits 15:9 zero and the rest free (U14); data behind a cleared flag reads as no value (R27);
and a read by bus address is the read of the register that REGMAP gives the address, whatever REGMAP is (R75). -/
def Obligations.HostReads : Prop :=
  ∀ (s : State) (u : BitVec 16),
    (s.ctl.busy = false → s.hostRead .cmd u = some (.bits 8 0) ∧ s.hostRead .status u = some (.bits 16 s.status.toNat)
      ∧ s.hostRead .rcount u = some (.bits 64 s.ctl.rcount.toNat)
      ∧ s.hostRead .ioerr u = some (.bits Config.ioErrW s.ctl.ioerr.toNat)
      ∧ (∀ v, s.hostRead (.freq v) u = some (.bits 64 (s.freq.read v).toNat))
      ∧ (∀ n, s.origLen = some n → s.hostRead .origLen u = some (.bits 64 n.toNat))
      ∧ (∀ c, s.ser = some c → s.hostRead .serN u = some (.bits 16 c.serN.toNat)
        ∧ s.hostRead .serL u = some (.bits 9 c.serL.toNat)
        ∧ (∀ (k : Nat) (h : k < c.shape.length), s.hostRead (.shape k) u = some (.bits 1 c.shape[k].toNat))
        ∧ (∀ (j : Nat) (h : j < c.leafv.length), s.hostRead (.leafv j) u = some (.bits 8 c.leafv[j].toNat))
        ∧ (∀ k, c.shape.length ≤ k → s.hostRead (.shape k) u = none)
        ∧ ∀ j, c.leafv.length ≤ j → s.hostRead (.leafv j) u = none)
      ∧ ∀ h, s.tree = some h → s.hostRead .nodeUsed u = some (.bits 10 s.node.length)
        ∧ s.hostRead .root u = some (.bits 9 h.root.toNat)
        ∧ (∀ i n, s.nodeAt i = some n → s.hostRead (.node i) u = some (.entry n))
        ∧ (∀ i, s.nodeAt i = none → s.hostRead (.node i) u = none)
        ∧ ∀ v, s.hostRead (.codeBits v) u = some (.bits 255 (h.code.read v).bits.toNat)
          ∧ s.hostRead (.codeLen v) u = some (.bits 8 (h.code.read v).len.toNat))
    ∧ (s.ctl.busy = true → (∃ x : BitVec 16, s.hostRead .status u = some (.bits 16 x.toNat) ∧ x.getLsbD 0 = true
        ∧ (∀ k, 1 ≤ k → k ≤ 8 → x.getLsbD k = u.getLsbD k) ∧ ∀ k, 9 ≤ k → x.getLsbD k = false)
      ∧ ∀ r, r ≠ .status → s.hostRead r u = none)
    ∧ (s.origLen = none → s.hostRead .origLen u = none)
    ∧ (s.ser = none → s.hostRead .serN u = none ∧ s.hostRead .serL u = none
      ∧ ∀ k, s.hostRead (.shape k) u = none ∧ s.hostRead (.leafv k) u = none)
    ∧ (s.tree = none → s.hostRead .nodeUsed u = none ∧ s.hostRead .root u = none ∧ (∀ i, s.hostRead (.node i) u = none)
      ∧ ∀ v, s.hostRead (.codeBits v) u = none ∧ s.hostRead (.codeLen v) u = none)
    ∧ ∀ (regMap : RegMap) (addr : Nat), (regMap addr = none → s.busRead regMap addr u = none)
      ∧ ∀ r, regMap addr = some r → s.busRead regMap addr u = s.hostRead r u

/-! ### Frequency Model -/

/-- R121: CLEAR. -/
def Obligations.ClearDiscardsEverything : Prop :=
  ∀ s : State, exec .clear s =
    .next ({ s with freq := Vector.replicate 256 0, tree := none, node := [], ser := none, origLen := none }.ended
      .success 0 0)

/-- R122, R123: COUNT on any bound Source whose calls go through. The counts are those of the bytes from the
position to the end, and the sums of the counts in the chunks of up to K bytes the Source comes in, whatever K is (R10,
R67), and in whatever other pieces it comes (that a chunk is full while bytes are left: log entry 21); it succeeds exactly when their number is SrcLen(). -/
def Obligations.CountCountsTheSource : Prop :=
  ∀ (s : State) (src : Source), s.env.src = .bound src → s.quiet →
    ∃ t, exec .count s = .next t ∧ (∀ v, t.freq.read v = BitVec.ofNat 64 (src.rest.count v))
      ∧ (∀ K, 1 ≤ K → (∀ c ∈ src.chunks K, 1 ≤ c.length ∧ c.length ≤ K)
          ∧ ∀ v, t.freq.read v = BitVec.ofNat 64 ((src.chunks K).map (List.count v)).sum)
      ∧ (∀ pieces : List (List Byte), pieces.flatten = src.rest →
          ∀ v, t.freq.read v = BitVec.ofNat 64 (pieces.map (List.count v)).sum)
      ∧ (BitVec.ofNat 64 src.rest.length = src.len →
          t = { s with freq := t.freq, origLen := some src.len, env.src := .bound (src.advance src.rest.length) }.ended
            .success src.rest.length 0)
      ∧ (BitVec.ofNat 64 src.rest.length ≠ src.len →
          t = { s with
                freq := t.freq, origLen := none, heap := [], env.src := .bound (src.advance src.rest.length) }.ended
            (.failure .protocolError) src.rest.length 0)

/-! ### Tree Builder -/

/-- R34, R135: HeapExtractMin removes the member with the least key, and no other. -/
def Obligations.HeapExtractsTheLeastKey : Prop :=
  ∀ (s u : State) (m : NodeIdx), s.heapExtractMin = some (m, u) →
    m ∈ s.heap ∧ u = { s with heap := s.heap.erase m } ∧ ∀ j ∈ s.heap, j ≠ m → s.keyBefore m j

/-- R130 to R133, R137: with at least two nonzero FREQ entries BUILD succeeds; the tree held meets R31, its leaves are
the byte values present, NODE is filled by the leaves in ascending byte value (R131) and then by merges of the two entries
of least key that no merge has taken, the first removed on the left (R132), ROOT is the last entry, its frequency the sum
of FREQ (R134), and nothing else changes. The corner case of two byte values (R137): the one removed first has the code 0,
the other the code 1. -/
def Obligations.BuildMakesATree : Prop :=
  (∀ s : State, 2 ≤ (presentBytes s.freq).length →
    ∃ t tr h f l r, exec .build s = .next t ∧ t.holdsTree tr ∧ tr.leaves.Perm (presentBytes s.freq)
      ∧ t.builtFrom s.freq ∧ t.tree = some h ∧ h.root.toNat = t.node.length - 1
      ∧ t.nodeAt h.root = some (.internal f l r) ∧ f = BitVec.ofNat 64 (freqSum s.freq)
      ∧ t = { s with node := t.node, heap := [], tree := t.tree }.ended .success 0 0)
  ∧ ∀ (s : State) (v₁ v₂ : Byte), presentBytes s.freq = [v₁, v₂] →
    ∃ t h, exec .build s = .next t ∧ t.tree = some h ∧ h.root = 2
      ∧ (s.freq.read v₁ ≤ s.freq.read v₂ → t.node = [some (.leaf v₁ (s.freq.read v₁)), some (.leaf v₂ (s.freq.read v₂)),
          some (.internal (s.freq.read v₁ + s.freq.read v₂) 0 1)]
        ∧ h.code.read v₁ = { bits := 0, len := 1 } ∧ h.code.read v₂ = { bits := 1, len := 1 })
      ∧ (s.freq.read v₂ < s.freq.read v₁ → t.node = [some (.leaf v₁ (s.freq.read v₁)), some (.leaf v₂ (s.freq.read v₂)),
          some (.internal (s.freq.read v₂ + s.freq.read v₁) 1 0)]
        ∧ h.code.read v₂ = { bits := 0, len := 1 } ∧ h.code.read v₁ = { bits := 1, len := 1 })

/-- R131, R137, R241: with fewer than two nonzero entries BUILD fails with InsufficientAlphabet and no tree is
left; so it does after CLEAR, which succeeds from every state (R33, R121). -/
def Obligations.BuildNeedsTwoByteValues : Prop :=
  (∀ s : State, (presentBytes s.freq).length < 2 →
    exec .build s =
      .next ({ s with node := [], heap := [], tree := none }.ended (.failure .insufficientAlphabet) 0 0))
  ∧ ∀ s : State, ∃ t, exec .clear s = .next t ∧ t.ctl.outcome = .success ∧ (∀ v, t.freq.read v = 0)
    ∧ exec .build t = .next ({ t with heap := [] }.ended (.failure .insufficientAlphabet) 0 0)

/-- R135 (d): Build is a function of FREQ alone. -/
def Obligations.BuildDependsOnFreqOnly : Prop :=
  ∀ s s' t t' : State, s.freq = s'.freq → exec .build s = .next t → exec .build s' = .next t' →
    t.node = t'.node ∧ t.tree = t'.tree ∧ t.ctl.outcome = t'.ctl.outcome

/-- R138 (optimality): no tree over the byte values present has a smaller sum of frequency × code length than the
tree BUILD makes. -/
def Obligations.BuiltTreeIsOptimal : Prop :=
  ∀ (s t : State) (tr other : HTree), s.freqOk → 2 ≤ (presentBytes s.freq).length → exec .build s = .next t →
    t.holdsTree tr → other.leaves.Nodup → other.leaves.Perm (presentBytes s.freq) →
      tr.cost s.freq ≤ other.cost s.freq

/-! ### Tree Codec -/

/-- R35, R109, R160: CODE holds each leaf's path, of 1 to 255 bits, in emission order the first path bit first, the
bits above `len` 0; a byte value that is no leaf has no code. -/
def Obligations.CodesAreThePaths : Prop :=
  ∀ (s : State) (t : HTree) (h : TreeHead), s.holdsTree t → s.tree = some h → ∀ v,
    (v ∈ t.leaves → t.path v = some (h.code.read v).emission ∧ 1 ≤ (h.code.read v).len.toNat
        ∧ (h.code.read v).len.toNat ≤ Config.maxInternal ∧ (h.code.read v).bits.toNat < 2 ^ (h.code.read v).len.toNat)
    ∧ (v ∉ t.leaves → h.code.read v = { bits := 0, len := 0 })

/-- R31 (d), R108, R138: no leaf's code is a prefix of another leaf's code. -/
def Obligations.CodesArePrefixFree : Prop :=
  ∀ (s : State) (t : HTree) (h : TreeHead), s.holdsTree t → s.tree = some h → ∀ v ∈ t.leaves, ∀ w ∈ t.leaves, v ≠ w →
    ¬ (h.code.read v).emission <+: (h.code.read w).emission

/-- R151 to R154: SERIALIZE of a held tree writes its shape bits and leaf values, L leaves giving 2L - 1 bits, and
changes nothing else. -/
def Obligations.SerializeWritesTheTree : Prop :=
  ∀ (s : State) (t : HTree), s.holdsTree t →
    exec .serialize s = .next ({ s with ser := some { shape := t.shape, leafv := t.leaves } }.ended .success 0 0)
      ∧ t.shape.length = 2 * t.leaves.length - 1 ∧ ({ shape := t.shape, leafv := t.leaves } : SerTree).wellFormed = true

/-- R157 to R159: DESERIALIZE accepts exactly the well-formed triples; the tree it leaves has that shape and those
leaves, ROOT = 0 and every frequency 0; otherwise it fails with MalformedTree and leaves no tree. -/
def Obligations.DeserializeAcceptsExactlyTheWellFormed : Prop :=
  ∀ (s : State) (c : SerTree), s.ser = some c →
    (c.wellFormed = true → ∃ t tr h, exec .deserialize s = .next t ∧ t.holdsTree tr ∧ tr.shape = c.shape
      ∧ tr.leaves = c.leafv ∧ t.tree = some h ∧ h.root = 0 ∧ (∀ n, some n ∈ t.node → n.freq = 0)
      ∧ t = { s with
              node := t.node, tree := t.tree, des := t.des }.ended
            .success 0 0)
    ∧ (c.wellFormed = false → ∃ t, exec .deserialize s = .next t
      ∧ t = { s with
              node := [], tree := none, heap := [], des := t.des }.ended
            (.failure .malformedTree) 0 0)

/-- R162: after SERIALIZE and DESERIALIZE of a held tree the tree held is the same, CODE is bit for bit the same, and a
second SERIALIZE gives the same triple; and DESERIALIZE then SERIALIZE gives a well-formed triple back. -/
def Obligations.TreeRoundTrip : Prop :=
  (∀ (s : State) (t : HTree) (h : TreeHead), s.holdsTree t → s.tree = some h →
    ∃ s₁ s₂ s₃ h₂, exec .serialize s = .next s₁ ∧ exec .deserialize s₁ = .next s₂ ∧ exec .serialize s₂ = .next s₃
      ∧ s₁.ctl.outcome = .success ∧ s₂.ctl.outcome = .success ∧ s₂.holdsTree t ∧ s₂.tree = some h₂ ∧ h₂.code = h.code ∧ s₃.ser = s₁.ser ∧ s₃.ctl.outcome = .success)
  ∧ ∀ (s : State) (c : SerTree), s.ser = some c → c.wellFormed = true →
    ∃ s₁ s₂, exec .deserialize s = .next s₁ ∧ exec .serialize s₁ = .next s₂ ∧ s₁.ctl.outcome = .success ∧ s₂.ser = some c
      ∧ s₂.ctl.outcome = .success

/-! ### Streams and packing -/

/-- R69, R70: n bits are packed into ceil(n/8) bytes, bit k in bit (k mod 8) of byte (k div 8), and unpacking n bits
gives them back. -/
def Obligations.PackedBitsUnpack : Prop :=
  ∀ bits : List Bool, (packBits bits).length = (bits.length + 7) / 8 ∧ unpackBits bits.length (packBits bits) = bits
    ∧ (∀ k (h : k < bits.length), ((packBits bits).getD (k / 8) 0).getLsbD (k % 8) = bits[k])
    ∧ ∀ k, bits.length ≤ k → ((packBits bits).getD (k / 8) 0).getLsbD (k % 8) = false

/-- R68, R101, R104: the two header integers are big-endian, and reading gives back what writing wrote. -/
def Obligations.HeaderIntegersAreBigEndian : Prop :=
  (∀ v : BitVec 16, be16 v = [BitVec.ofNat 8 (v.toNat / 256), BitVec.ofNat 8 v.toNat] ∧ ofBe (be16 v) = v.toNat)
    ∧ ∀ v : Word64, (be64 v).length = 8 ∧ (be64 v).head? = some (BitVec.ofNat 8 (v.toNat / 2 ^ 56))
      ∧ (be64 v).getLast? = some (BitVec.ofNat 8 v.toNat) ∧ ofBe (be64 v) = v.toNat

/-! ### Bit Stream Encoder -/

/-- R183 to R185: ENCODE of an input whose bytes all have codes appends the packed stream bits, padded with 0 bits to
whole bytes, flushes, and changes nothing else. PEND and PEND_N, which hold no value after it (R39), are left open. -/
def Obligations.EncodeAppendsThePackedCodes : Prop :=
  ∀ (s : State) (t : HTree) (h : TreeHead) (src : Source) (snk : Sink), s.holdsTree t → s.tree = some h →
    s.env.src = .bound src → s.env.snk = .bound snk → s.quiet → (∀ x ∈ src.rest, x ∈ t.leaves) →
      ∃ u, exec .encode s = .next u
        ∧ u = { s with
                enc := u.enc, env.src := .bound (src.advance src.rest.length),
                env.snk := .bound (snk.appendFlushed (packBits (streamBits h.code src.rest))) }.ended
              .success src.rest.length (((streamBits h.code src.rest).length + 7) / 8)

/-- R185, R186: at the first input byte with no code ENCODE fails with ProtocolError; the payload bytes completed
before it are appended, the partial byte is not, and nothing is flushed. -/
def Obligations.EncodeStopsAtAnUncodedByte : Prop :=
  ∀ (s : State) (t : HTree) (h : TreeHead) (src : Source) (snk : Sink) (xs rest : List Byte) (x : Byte),
    s.holdsTree t → s.tree = some h → s.env.src = .bound src → s.env.snk = .bound snk → s.quiet →
    src.rest = xs ++ x :: rest → (∀ y ∈ xs, y ∈ t.leaves) → x ∉ t.leaves →
      ∃ u, exec .encode s = .next u
        ∧ u = { s with
                heap := [], enc := u.enc, env.src := .bound (src.advance (xs.length + 1)),
                env.snk := .bound (snk.append ((packBits (streamBits h.code xs)).take ((streamBits h.code xs).length / 8))) }.ended
              (.failure .protocolError) (xs.length + 1) ((streamBits h.code xs).length / 8)

/-! ### Bit Stream Decoder -/

/-- R196, R199: a step from an Internal cursor whose calls go through and that has a bit left to take moves to a child:
it emits at a leaf and is AtRoot, or is Descending at an Internal node. -/
def Obligations.DecodeStepMovesToAChild : Prop :=
  ∀ (s : State) (root l r : NodeIdx) (f : Word64) (n : Node) (b : Bool) (snk : Sink),
    s.nodeAt s.dec.cur = some (.internal f l r) → s.dec.inPos ≠ 8 → s.dec.inByte.getLsbD s.dec.inPos = b →
    s.nodeAt (if b then r else l) = some n → s.env.snk = .bound snk → s.quiet →
      match n with
      | .leaf v _ => decodeStep root s =
          .ok () { s with
                   dec.inPos := s.dec.inPos + 1, dec.cur := root, dec.dstate := .atRoot, ctl.outCount := s.ctl.outCount + 1,
                   env.snk := .bound (snk.append [v]) }
      | .internal _ _ _ => decodeStep root s =
          .ok () { s with dec.inPos := s.dec.inPos + 1, dec.cur := if b then r else l, dec.dstate := .descending }

/-- R200: with TREE_VALID = 1 the defence against walking off a leaf never fires. -/
def Obligations.DecodeNeverRaisesMalformedTreeWithAValidTree : Prop :=
  ∀ (s u : State) (t : HTree), s.holdsTree t → exec .decode s = .next u → u.ctl.busy = false →
    u.ctl.outcome ≠ .failure .malformedTree

/-- R198 to R204: when the Source's bits begin with the codes of `xs` and ORIG_LEN is their number, DECODE appends
`xs`, takes exactly the bytes that hold those bits, whatever follows them, flushes, and succeeds. The registers of R40,
which hold no value after it, are left open. -/
def Obligations.DecodeInvertsTheCodes : Prop :=
  ∀ (s : State) (t : HTree) (h : TreeHead) (src : Source) (snk : Sink) (xs : List Byte),
    s.holdsTree t → s.tree = some h → s.env.src = .bound src → s.env.snk = .bound snk → s.quiet →
    xs.length < 2 ^ 64 → s.origLen = some (BitVec.ofNat 64 xs.length) → (∀ x ∈ xs, x ∈ t.leaves) →
    streamBits h.code xs <+: allBits src.rest →
      ∃ u, exec .decode s = .next u
        ∧ u = { s with
                dec := u.dec,
                env.src := .bound (src.advance (((streamBits h.code xs).length + 7) / 8)),
                env.snk := .bound (snk.appendFlushed xs) }.ended
              .success (((streamBits h.code xs).length + 7) / 8) xs.length

/-- R202, R204: when the Source's bits are the codes of `xs` and a tail that holds no whole code, and ORIG_LEN is
greater, DECODE fails with TruncatedStream, the bytes emitted staying in the Sink, unflushed. -/
def Obligations.DecodeOfAShortPayloadIsTruncated : Prop :=
  ∀ (s : State) (t : HTree) (h : TreeHead) (src : Source) (snk : Sink) (xs : List Byte) (tail : List Bool) (n : Word64),
    s.holdsTree t → s.tree = some h → s.env.src = .bound src → s.env.snk = .bound snk → s.quiet →
    s.origLen = some n → xs.length < n.toNat → (∀ x ∈ xs, x ∈ t.leaves) →
    allBits src.rest = streamBits h.code xs ++ tail → (∀ v ∈ t.leaves, ¬ (h.code.read v).emission <+: tail) →
      ∃ u, exec .decode s = .next u
        ∧ u = { s with
                heap := [], dec := u.dec,
                env.src := .bound (src.advance src.rest.length), env.snk := .bound (snk.append xs) }.ended
              (.failure .truncatedStream) src.rest.length xs.length

/-! ### File Format -/

/-- R215 to R217: WRHDR appends the header bytes and flushes. -/
def Obligations.WriteHeaderAppendsTheHeader : Prop :=
  ∀ (s : State) (c : SerTree) (n : Word64) (snk : Sink), s.ser = some c → s.origLen = some n →
    s.env.snk = .bound snk → s.quiet →
      exec .wrhdr s =
        .next ({ s with
                 env.snk := .bound (snk.appendFlushed
                   (be16 (BitVec.ofNat 16 c.shape.length) ++ packBits c.shape ++ c.leafv ++ be64 n)) }.ended
          .success 0 (10 + (c.shape.length + 7) / 8 + c.leafv.length))

/-- R72, R217, R249, R250: when the Sink answers `IoError(e)` at the (k+1)-st append, or at the flush after the last one,
WRHDR fails with IoFailure, the k bytes before it staying in the Sink, unflushed, and e in IOERR: "a flush that fails turns
the command into a failure although every byte was appended". -/
def Obligations.WriteHeaderStopsAtASinkError : Prop :=
  ∀ (s : State) (c : SerTree) (n : Word64) (snk : Sink) (k : Nat) (e : IoErr) (l : List Answer), s.ser = some c →
    s.origLen = some n → s.env.snk = .bound snk → k ≤ (headerBytes c n).length →
    s.env.answers = List.replicate k .ok ++ .ioError e :: l →
      exec .wrhdr s =
        .next ({ s with
                 heap := [], ctl.ioerr := e,
                 env := { s.env with snk := .bound (snk.append ((headerBytes c n).take k)), answers := l } }.ended
          (.failure .ioFailure) 0 k)

/-- R219, R220: RDHDR of a header whose fields are all there and within the tables succeeds, with the padding of the
last shape byte ignored, and takes exactly the header's bytes. -/
def Obligations.ReadHeaderTakesTheHeader : Prop :=
  ∀ (s : State) (src : Source) (n : BitVec 16) (packed leafv rest : List Byte) (len : Word64),
    s.env.src = .bound src → s.quiet → src.rest = be16 n ++ packed ++ leafv ++ be64 len ++ rest →
    n.toNat ≤ 511 → packed.length = (n.toNat + 7) / 8 → leafv.length = (unpackBits n.toNat packed).count false →
    leafv.length ≤ 256 →
      exec .rdhdr s =
        .next ({ s with
                 ser := some { shape := unpackBits n.toNat packed, leafv := leafv }, origLen := some len,
                 env.src := .bound (src.advance (10 + packed.length + leafv.length)) }.ended
          .success (10 + packed.length + leafv.length) 0)

/-- R219, R220, R221: the checks of a header. A node count above 511 fails at once with MalformedTree (H1), a Source that
ends inside node_count with TruncatedStream, one that ends inside shape_bits with MalformedTree (H2), more than 256 zero
shape bits with MalformedTree before any leaf byte is taken (H3), a Source that ends inside leaf_values with MalformedTree
(H4) and one that ends inside original_length with TruncatedStream (H5); both valid flags are 0 and the bytes taken stay
taken. -/
def Obligations.ReadHeaderRefusesABadNodeCount : Prop :=
  ∀ (s : State) (src : Source), s.env.src = .bound src → s.quiet →
    (∀ (n : BitVec 16) (rest : List Byte), src.rest = be16 n ++ rest → 511 < n.toNat →
      exec .rdhdr s = .next (s.headerRefused src .malformedTree 2))
    ∧ (src.rest.length < 2 → exec .rdhdr s = .next (s.headerRefused src .truncatedStream src.rest.length))
    ∧ ∀ (n : BitVec 16) (packed : List Byte), n.toNat ≤ 511 →
      (src.rest = be16 n ++ packed → packed.length < (n.toNat + 7) / 8 →
        exec .rdhdr s = .next (s.headerRefused src .malformedTree src.rest.length))
      ∧ (packed.length = (n.toNat + 7) / 8 →
        (∀ rest, src.rest = be16 n ++ packed ++ rest → 256 < (unpackBits n.toNat packed).count false →
          exec .rdhdr s = .next (s.headerRefused src .malformedTree (2 + packed.length)))
        ∧ ((unpackBits n.toNat packed).count false ≤ 256 → ∀ leafv,
          (src.rest = be16 n ++ packed ++ leafv → leafv.length < (unpackBits n.toNat packed).count false →
            exec .rdhdr s = .next (s.headerRefused src .malformedTree src.rest.length))
          ∧ ∀ tail, src.rest = be16 n ++ packed ++ leafv ++ tail → leafv.length = (unpackBits n.toNat packed).count false →
            tail.length < 8 → exec .rdhdr s = .next (s.headerRefused src .truncatedStream src.rest.length)))

/-- R222: RDHDR of what WRHDR wrote gives back SER_N, SHAPE, SER_L, LEAFV and ORIG_LEN. -/
def Obligations.HeaderRoundTrip : Prop :=
  ∀ (s r : State) (c : SerTree) (n : Word64) (snk : Sink) (tail : List Byte), s.serOk → s.ser = some c →
    s.origLen = some n → s.env.snk = .bound snk → snk.data = [] → s.quiet → r.quiet →
    ∃ t file, exec .wrhdr s = .next t ∧ t.sinkBytes = file ∧
      (r.env.src = .bound (Source.faithful (file ++ tail)) →
        ∃ u, exec .rdhdr r = .next u ∧ u.ser = some c ∧ u.origLen = some n ∧ u.ctl.outcome = .success
          ∧ u.ctl.inCount = BitVec.ofNat 64 file.length)

/-- R225: COMPRESS of an input with at least two distinct byte values appends the header of a tree over exactly those
values and the packed codes of the input under that tree, flushes, and leaves no valid flag. Whatever the Source shows in
the second pass (R245 (d), (e), R278): a byte with no code ends it with ProtocolError there, another number of bytes ends it
with ProtocolError after the pass, header and payload appended and not flushed, and as many bytes that all have codes
are encoded as they are. PEND and PEND_N are left open (R39). -/
def Obligations.CompressWritesTheFile : Prop :=
  (∀ (s : State) (bs : List Byte) (snk : Sink), s.inputIs bs → s.env.snk = .bound snk → s.quiet →
    2 ≤ bs.dedup.length →
      ∃ (t : State) (tr : HTree) (file : List Byte), exec .compress s = .next t ∧ tr.leaves.Nodup ∧ (∀ v, v ∈ tr.leaves ↔ v ∈ bs)
        ∧ file = be16 (BitVec.ofNat 16 tr.shape.length) ++ packBits tr.shape ++ tr.leaves
            ++ be64 (BitVec.ofNat 64 bs.length) ++ packBits (streamBits tr.codeTable bs)
        ∧ t = { s with
                freq := t.freq, node := [], heap := [], tree := none, ser := none, origLen := none, enc := t.enc,
                env.src := .bound ((Source.faithful bs).advance bs.length),
                env.snk := .bound (snk.appendFlushed file) }.ended
              .success bs.length file.length)
  ∧ ∀ (s : State) (src : Source) (snk : Sink), s.env.src = .bound src → s.env.snk = .bound snk → s.quiet →
    src.rest.length < 2 ^ 64 → src.len = BitVec.ofNat 64 src.rest.length → 2 ≤ src.rest.dedup.length →
      ∃ (t : State) (tr : HTree) (header : List Byte), exec .compress s = .next t ∧ tr.leaves.Nodup
        ∧ (∀ v, v ∈ tr.leaves ↔ v ∈ src.rest)
        ∧ header = be16 (BitVec.ofNat 16 tr.shape.length) ++ packBits tr.shape ++ tr.leaves
            ++ be64 (BitVec.ofNat 64 src.rest.length)
        ∧ (∀ xs x rest, src.rewind.rest = xs ++ x :: rest → (∀ y ∈ xs, y ∈ src.rest) → x ∉ src.rest →
          t = { s with
                freq := t.freq, node := [], heap := [], tree := none, ser := none, origLen := none, enc := t.enc,
                env.src := .bound (src.rewind.advance (xs.length + 1)),
                env.snk := .bound (snk.append (header
                  ++ (packBits (streamBits tr.codeTable xs)).take ((streamBits tr.codeTable xs).length / 8))) }.ended
              (.failure .protocolError) (xs.length + 1) (header.length + (streamBits tr.codeTable xs).length / 8))
        ∧ ((∀ y ∈ src.rewind.rest, y ∈ src.rest) →
          (BitVec.ofNat 64 src.rewind.rest.length ≠ src.len →
            t = { s with
                  freq := t.freq, node := [], heap := [], tree := none, ser := none, origLen := none, enc := t.enc,
                  env.src := .bound (src.rewind.advance src.rewind.rest.length),
                  env.snk := .bound (snk.append (header ++ packBits (streamBits tr.codeTable src.rewind.rest))) }.ended
                (.failure .protocolError) src.rewind.rest.length
                (header ++ packBits (streamBits tr.codeTable src.rewind.rest)).length)
          ∧ (BitVec.ofNat 64 src.rewind.rest.length = src.len →
            t = { s with
                  freq := t.freq, node := [], heap := [], tree := none, ser := none, origLen := none, enc := t.enc,
                  env.src := .bound (src.rewind.advance src.rewind.rest.length),
                  env.snk := .bound (snk.appendFlushed (header ++ packBits (streamBits tr.codeTable src.rewind.rest))) }.ended
                .success src.rewind.rest.length (header ++ packBits (streamBits tr.codeTable src.rewind.rest)).length))

/-- R225, R241, R245 (c), U5: COMPRESS of an input with fewer than two distinct byte values fails with
InsufficientAlphabet, and COMPRESS of a Source whose first pass does not read SrcLen() bytes with ProtocolError; either
appends nothing. -/
def Obligations.CompressNeedsTwoByteValues : Prop :=
  (∀ (s : State) (bs : List Byte), s.inputIs bs → s.quiet → bs.dedup.length < 2 →
    ∃ t, exec .compress s = .next t
      ∧ t = { s with
              freq := t.freq, node := [], heap := [], tree := none, ser := none, origLen := none,
              env.src := .bound ((Source.faithful bs).advance bs.length) }.ended
            (.failure .insufficientAlphabet) bs.length 0)
  ∧ ∀ (s : State) (src : Source), s.env.src = .bound src → s.quiet → BitVec.ofNat 64 src.rest.length ≠ src.len →
    ∃ t, exec .compress s = .next t
      ∧ t = { s with
              freq := t.freq, node := [], heap := [], tree := none, ser := none, origLen := none,
              env.src := .bound (src.advance src.rest.length) }.ended
            (.failure .protocolError) src.rest.length 0

/-- R226: DECOMPRESS of a file made of the header of a tree, the length of `xs` and bytes that begin with the codes of
`xs` appends `xs`, flushes, succeeds, and leaves no valid flag. -/
def Obligations.DecompressReadsTheFile : Prop :=
  ∀ (s : State) (src : Source) (snk : Sink) (tr : HTree) (xs payload : List Byte),
    s.env.src = .bound src → s.env.snk = .bound snk → s.quiet → tr.isInternal = true → tr.leaves.Nodup →
    xs.length < 2 ^ 64 → (∀ x ∈ xs, x ∈ tr.leaves) → streamBits tr.codeTable xs <+: allBits payload →
    src.rest = headerBytes { shape := tr.shape, leafv := tr.leaves } (BitVec.ofNat 64 xs.length) ++ payload →
      ∃ u, exec .decompress s = .next u ∧ u.ctl.outcome = .success ∧ u.ctl.rcount = BitVec.ofNat 64 xs.length
        ∧ u.env.snk = .bound (snk.appendFlushed xs) ∧ u.tree = none ∧ u.ser = none ∧ u.origLen = none
        ∧ u.env.src = .bound (src.advance (10 + (tr.shape.length + 7) / 8 + tr.leaves.length
            + ((streamBits tr.codeTable xs).length + 7) / 8))

/-- R205: for every input of at least two distinct byte values COMPRESS succeeds, and DECOMPRESS of what it appended
succeeds and appends exactly the input, with RCOUNT its length. -/
def Obligations.CompressDecompressRoundTrip : Prop :=
  ∀ (s r : State) (bs : List Byte) (snk snk' : Sink), s.inputIs bs → 2 ≤ bs.dedup.length → s.quiet → r.quiet →
    s.env.snk = .bound snk → r.env.snk = .bound snk' →
      ∃ t file, exec .compress s = .next t ∧ t.ctl.outcome = .success ∧ t.sinkBytes = snk.data ++ file
        ∧ (r.env.src = .bound (Source.faithful file) →
            ∃ u, exec .decompress r = .next u ∧ u.ctl.outcome = .success ∧ u.sinkBytes = snk'.data ++ bs
              ∧ u.ctl.rcount = BitVec.ofNat 64 bs.length)

/-- R227: COMPRESS has the same effect on the streams and the same outcome as the script COUNT, BUILD, SERIALIZE, WRHDR,
`.rewind`, ENCODE, when the Source keeps its duties and every call goes through, and its RCOUNT is the sum of those of WRHDR
and ENCODE (exception (d)). On any Source the two leave the same bytes and the same Source, and the outcomes are the same but
for exception (a): COMPRESS checks the length of the second pass. Every call of COMPRESS is taken to go through, and
the host's `.rewind` always does (log entry 22). -/
def Obligations.CompressEqualsItsUnitCommands : Prop :=
  (∀ (s : State) (bs : List Byte) (snk : Sink), s.ctl.busy = false → s.inputIs bs → s.env.snk = .bound snk → s.quiet →
    ∃ t u w, exec .compress s = .next t
      ∧ runScript [.run .count false, .run .build false, .run .serialize false, .run .wrhdr false, .rewind,
          .run .encode false] s = .next u
      ∧ runScript [.run .count false, .run .build false, .run .serialize false, .run .wrhdr false] s = .next w
      ∧ t.env = u.env ∧ t.ctl.outcome = u.ctl.outcome ∧ t.freq = u.freq
      ∧ (t.ctl.outcome = .success → t.tree = none ∧ t.ser = none ∧ t.origLen = none
          ∧ u.tree.isSome = true ∧ u.ser.isSome = true ∧ u.origLen.isSome = true
          ∧ t.ctl.rcount = w.ctl.rcount + u.ctl.rcount))
  ∧ ∀ (s : State) (src : Source) (snk : Sink), s.ctl.busy = false → s.env.src = .bound src → src.wf = true →
    s.env.snk = .bound snk → s.quiet →
    ∃ t u, exec .compress s = .next t
      ∧ runScript [.run .count false, .run .build false, .run .serialize false, .run .wrhdr false, .rewind,
          .run .encode false] s = .next u
      ∧ t.env.src = u.env.src ∧ t.sinkBytes = u.sinkBytes
      ∧ (t.ctl.outcome = u.ctl.outcome
        ∨ (t.ctl.outcome = .failure .protocolError ∧ u.ctl.outcome = .success ∧ t.ctl.inCount ≠ src.len))

/-- R227: DECOMPRESS has the same effect on the streams, the same outcome and the same RCOUNT as the script RDHDR,
DESERIALIZE, DECODE, whatever the bound Source holds and however the calls that return are answered. -/
def Obligations.DecompressEqualsItsUnitCommands : Prop :=
  ∀ (s : State), s.ctl.busy = false → .never ∉ s.env.answers →
    ∃ t u, exec .decompress s = .next t ∧ runScript [.run .rdhdr false, .run .deserialize false, .run .decode false] s = .next u
      ∧ t.env = u.env ∧ t.ctl.outcome = u.ctl.outcome ∧ t.ctl.rcount = u.ctl.rcount ∧ t.ctl.ioerr = u.ctl.ioerr
      ∧ t.tree = none ∧ t.ser = none ∧ t.origLen = none

/-! ### Failures -/

/-- R246: a command whose precondition on the valid flags fails ends with ProtocolError before any other change. -/
def Obligations.PreconditionFailureChangesNothing : Prop :=
  ∀ s : State,
    (s.tree = none → exec .serialize s = .next ({ s with heap := [] }.ended (.failure .protocolError) 0 0)
      ∧ exec .encode s = .next ({ s with heap := [] }.ended (.failure .protocolError) 0 0))
    ∧ (s.ser = none → exec .deserialize s = .next ({ s with heap := [] }.ended (.failure .protocolError) 0 0))
    ∧ (s.ser = none ∨ s.origLen = none → exec .wrhdr s = .next ({ s with heap := [] }.ended (.failure .protocolError) 0 0))
    ∧ (s.tree = none ∨ s.origLen = none → exec .decode s = .next ({ s with heap := [] }.ended (.failure .protocolError) 0 0))

/-- R241 to R245: the failures each command can end with. -/
def Obligations.EachCommandRaisesOnlyItsFailures : Prop :=
  ∀ (i : Instr) (s t : State) (f : Failure), exec i s = .next t → t.ctl.busy = false → t.ctl.outcome = .failure f →
    mayRaise i f = true

/-- R66, R185, R204, R244, R250: a first call answered `IoError(e)` makes the six commands that read the Source, and WRHDR
and the flush of a DECODE that has nothing to emit, fail with IoFailure, e in IOERR, nothing taken and nothing appended. So does a first call of a stream that is not bound (R275), for
every command that calls one: the six that read the Source, WRHDR, and the flush of a DECODE that has nothing to emit. That
such a call uses up no answer: log entry 8. -/
def Obligations.IoErrorOnTheFirstReadFails : Prop :=
  (∀ (s : State) (e : IoErr) (l : List Answer) (i : Instr), s.env.answers = .ioError e :: l →
    ((∃ src, s.env.src = .bound src) ∧
        (i = .count ∨ i = .rdhdr ∨ i = .compress ∨ i = .decompress ∨ (i = .encode ∧ s.tree.isSome = true)
          ∨ (i = .decode ∧ (∃ t, s.holdsTree t) ∧ ∃ n, s.origLen = some n ∧ n ≠ 0))
      ∨ (∃ snk, s.env.snk = .bound snk) ∧
        ((i = .wrhdr ∧ s.ser.isSome = true ∧ s.origLen.isSome = true)
          ∨ (i = .decode ∧ s.tree.isSome = true ∧ s.origLen = some 0))) →
      ∃ t, exec i s = .next t ∧ t.ctl.outcome = .failure .ioFailure ∧ t.ctl.ioerr = e ∧ t.ctl.rcount = 0 ∧ t.ctl.busy = false
        ∧ t.env = { s.env with answers := l }
        ∧ (i = .count ∨ i = .rdhdr ∨ i = .compress ∨ i = .decompress → t.origLen = none))
  ∧ ∀ (s : State) (e : IoErr) (i : Instr),
    ((∃ x, s.env.src = .unbound e x) ∧
        (i = .count ∨ i = .rdhdr ∨ i = .compress ∨ i = .decompress ∨ (i = .encode ∧ s.tree.isSome = true)
          ∨ (i = .decode ∧ (∃ t, s.holdsTree t) ∧ ∃ n, s.origLen = some n ∧ n ≠ 0))
      ∨ (∃ x, s.env.snk = .unbound e x) ∧
        ((i = .wrhdr ∧ s.ser.isSome = true ∧ s.origLen.isSome = true)
          ∨ (i = .decode ∧ s.tree.isSome = true ∧ s.origLen = some 0))) →
      ∃ t, exec i s = .next t ∧ t.ctl.outcome = .failure .ioFailure ∧ t.ctl.ioerr = e ∧ t.ctl.rcount = 0 ∧ t.ctl.busy = false
        ∧ t.env = s.env

/-- R28: IOERR changes only when the command fails with IoFailure, and then holds the error value of the last primitive
call: that of the last answer the command used up, or that of an unbound stream. And no command goes on after an `IoError`,
whichever call it answers (R66 "the core never retries", R244): every answer `IoError(e)` used up ends the command with
IoFailure and e in IOERR. -/
def Obligations.IoErrHoldsTheLastError : Prop :=
  (∀ (i : Instr) (s t : State), exec i s = .next t → t.ctl.busy = false →
    (t.ctl.outcome ≠ .failure .ioFailure → t.ctl.ioerr = s.ctl.ioerr)
    ∧ (t.ctl.outcome = .failure .ioFailure →
        (∃ pre, s.env.answers = pre ++ .ioError t.ctl.ioerr :: t.env.answers)
          ∨ (∃ x, s.env.src = .unbound t.ctl.ioerr x) ∨ ∃ x, s.env.snk = .unbound t.ctl.ioerr x))
  ∧ ∀ (i : Instr) (s t : State), exec i s = .next t → ∃ used, s.env.answers = used ++ t.env.answers
    ∧ ∀ e, .ioError e ∈ used → t.ctl.busy = false ∧ t.ctl.outcome = .failure .ioFailure ∧ t.ctl.ioerr = e

/-- R250, R255, R46: a whole-file command ends with the three valid flags 0, on success and on failure. -/
def Obligations.WholeFileCommandsLeaveNothingValid : Prop :=
  ∀ (i : Instr) (s t : State), i = .compress ∨ i = .decompress → exec i s = .next t → t.ctl.busy = false →
    t.tree = none ∧ t.ser = none ∧ t.origLen = none

/-! ### Whole-machine rules and frames -/

/-- R64: no command removes or changes a byte of the Sink, nor does anything else that happens, closing the Sink and a
reset among it, but for the host's binding another Sink in its place (R276). -/
def Obligations.SinkIsAppendOnly : Prop :=
  (∀ (i : Instr) (s t : State), exec i s = .next t → s.sinkBytes <+: t.sinkBytes)
  ∧ ∀ (s t : State) (e : Event) (rest : List Event), s.env.events = e :: rest → (∀ snk, e ≠ .bindSink snk) →
    step s = .next t → s.sinkBytes <+: t.sinkBytes

/-- R25: RCOUNT is the number of bytes the command appended, on success and on failure. -/
def Obligations.RcountIsTheNumberOfBytesAppended : Prop :=
  ∀ (i : Instr) (s t : State), exec i s = .next t → t.ctl.busy = false →
    t.ctl.rcount = BitVec.ofNat 64 (t.sinkBytes.length - s.sinkBytes.length)

/-- R65, R249, R250: a command that writes the Sink and succeeds leaves every byte durable; a command that fails calls
no flush that returns, and one that does not write the Sink leaves it alone. That bytes not yet flushed do not count as
durable is the model's choice (log entry 12). -/
def Obligations.FlushedExactlyOnSuccess : Prop :=
  ∀ (i : Instr) (s t : State), exec i s = .next t → t.ctl.busy = false →
    (t.ctl.outcome = .success → writesSink i = true → t.sinkDurable = t.sinkBytes.length)
    ∧ (t.ctl.outcome ≠ .success → t.sinkDurable = s.sinkDurable)
    ∧ (writesSink i = false → t.env.snk = s.env.snk)

/-- R62, R72: the bytes a command takes are the next ones of the Source, none skipped, and stay taken. -/
def Obligations.BytesAreTakenInOrder : Prop :=
  ∀ (i : Instr) (s t : State) (src : Source), i ≠ .compress → s.env.src = .bound src → exec i s = .next t →
    ∃ k, t.env.src = .bound (src.advance k) ∧ t.ctl.inCount = BitVec.ofNat 64 k ∧ k ≤ src.rest.length

/-- What CLEAR's neighbours that call no stream primitive leave unchanged (R60, R137, R154, R159): BUILD, SERIALIZE,
DESERIALIZE change no stream, no FREQ entry, and of the other registers only those named. -/
def Obligations.FrameOfRegisterCommands : Prop :=
  ∀ s t : State,
    (exec .build s = .next t → t = { s.withControlOf t with node := t.node, heap := [], tree := t.tree })
    ∧ (exec .serialize s = .next t → t = { s.withControlOf t with ser := t.ser, heap := t.heap })
    ∧ (exec .deserialize s = .next t →
        t = { s.withControlOf t with
              node := t.node, tree := t.tree, heap := t.heap, des := t.des })

/-- What COUNT, RDHDR and WRHDR leave unchanged (R60, R123, R217, R220). -/
def Obligations.FrameOfCountAndHeaderCommands : Prop :=
  ∀ s t : State,
    (exec .count s = .next t → sameSource s.env.src t.env.src
      ∧ t = { s.withControlOf t with
              freq := t.freq, origLen := t.origLen, heap := t.heap, ctl.ioerr := t.ctl.ioerr,
              env := { s.env with src := t.env.src, answers := t.env.answers } })
    ∧ (exec .rdhdr s = .next t → sameSource s.env.src t.env.src
      ∧ t = { s.withControlOf t with
              ser := t.ser, origLen := t.origLen, heap := t.heap, ctl.ioerr := t.ctl.ioerr,
              env := { s.env with src := t.env.src, answers := t.env.answers } })
    ∧ (exec .wrhdr s = .next t → s.sinkBytes <+: t.sinkBytes
      ∧ t = { s.withControlOf t with
              heap := t.heap, ctl.ioerr := t.ctl.ioerr, env := { s.env with snk := t.env.snk, answers := t.env.answers } })

/-- What ENCODE and DECODE leave unchanged (R185, R204, R281): CODE, NODE, the valid flags and FREQ among it. -/
def Obligations.FrameOfEncodeAndDecode : Prop :=
  ∀ s t : State,
    (exec .encode s = .next t → sameSource s.env.src t.env.src ∧ s.sinkBytes <+: t.sinkBytes
      ∧ t = { s.withControlOf t with
              enc := t.enc, heap := t.heap, ctl.ioerr := t.ctl.ioerr,
              env := { s.env with src := t.env.src, snk := t.env.snk, answers := t.env.answers } })
    ∧ (exec .decode s = .next t → sameSource s.env.src t.env.src ∧ s.sinkBytes <+: t.sinkBytes
      ∧ t = { s.withControlOf t with
              dec := t.dec, heap := t.heap, ctl.ioerr := t.ctl.ioerr,
              env := { s.env with src := t.env.src, snk := t.env.snk, answers := t.env.answers } })

/-- What COMPRESS and DECOMPRESS leave unchanged (R225, R226). -/
def Obligations.FrameOfWholeFileCommands : Prop :=
  ∀ s t : State,
    (exec .compress s = .next t → s.sinkBytes <+: t.sinkBytes
      ∧ t = { s.withControlOf t with
              freq := t.freq, node := t.node, heap := t.heap, tree := t.tree, ser := t.ser, origLen := t.origLen,
              enc := t.enc, ctl.ioerr := t.ctl.ioerr,
              env := { s.env with src := t.env.src, snk := t.env.snk, answers := t.env.answers } })
    ∧ (exec .decompress s = .next t → sameSource s.env.src t.env.src ∧ s.sinkBytes <+: t.sinkBytes
      ∧ t = { s.withControlOf t with
              node := t.node, heap := t.heap, tree := t.tree, ser := t.ser, origLen := t.origLen,
              dec := t.dec,
              des := t.des, ctl.ioerr := t.ctl.ioerr,
              env := { s.env with src := t.env.src, snk := t.env.snk, answers := t.env.answers } })

/-! ### Invariants -/

/-- R24, R34, R286: the control invariant is kept by every step. That between steps BUSY = 1 only while a call has not
returned, and that a command is then noted as running, is the model's choice: a command is one step (log entry 3), and the
fields running and waiting are the model's own (log entry 18). -/
def Obligations.StepKeepsControlInvariant : Prop :=
  ∀ s t : State, s.controlOk → step s = .next t → t.controlOk

/-- R26, R31, R36, R61, R134: every step keeps the invariant of the machine. Its part about BUSY, running and waiting is the
model's choice (log entries 3 and 18). -/
def Obligations.StepKeepsInvariant : Prop :=
  ∀ s t : State, s.Inv → step s = .next t → t.Inv

/-- The invariant holds at reset. -/
def Obligations.InvariantHoldsAtReset : Prop := State.reset.Inv

/-- R160, R133, R154: a step from a state with the invariant never stops in the model's own fault: what TREE_VALID
covers is always a tree. -/
def Obligations.NoStepFromTheInvariantFaults : Prop :=
  ∀ (s : State) (f : Fault), s.Inv → step s ≠ .fault f
end

