-- ==== Sys2Proof/Laws/State.lean ====
section
/-! SUPPORT. What each named update of State leaves in each field: one lemma per field per update, true by
`rfl`. -/

namespace Sys2Proof.Machine

/-! `State.begin` -/

@[simp] theorem State.begin_ctl (s : State) (i : Option Instr) :
    (s.begin i).ctl = { s.ctl with busy := true, inCount := 0, outCount := 0, running := i } := rfl
@[simp] theorem State.begin_freq (s : State) (i : Option Instr) : (s.begin i).freq = s.freq := rfl
@[simp] theorem State.begin_node (s : State) (i : Option Instr) : (s.begin i).node = s.node := rfl
@[simp] theorem State.begin_heap (s : State) (i : Option Instr) : (s.begin i).heap = s.heap := rfl
@[simp] theorem State.begin_tree (s : State) (i : Option Instr) : (s.begin i).tree = s.tree := rfl
@[simp] theorem State.begin_ser (s : State) (i : Option Instr) : (s.begin i).ser = s.ser := rfl
@[simp] theorem State.begin_origLen (s : State) (i : Option Instr) : (s.begin i).origLen = s.origLen := rfl
@[simp] theorem State.begin_enc (s : State) (i : Option Instr) : (s.begin i).enc = s.enc := rfl
@[simp] theorem State.begin_dec (s : State) (i : Option Instr) : (s.begin i).dec = s.dec := rfl
@[simp] theorem State.begin_des (s : State) (i : Option Instr) : (s.begin i).des = s.des := rfl
@[simp] theorem State.begin_env (s : State) (i : Option Instr) : (s.begin i).env = s.env := rfl

/-! `State.enter` -/

@[simp] theorem State.enter_ctl (s : State) (p : Phase) : (s.enter p).ctl = { s.ctl with phase := p } := rfl
@[simp] theorem State.enter_freq (s : State) (p : Phase) : (s.enter p).freq = s.freq := rfl
@[simp] theorem State.enter_node (s : State) (p : Phase) : (s.enter p).node = s.node := rfl
@[simp] theorem State.enter_heap (s : State) (p : Phase) : (s.enter p).heap = s.heap := rfl
@[simp] theorem State.enter_tree (s : State) (p : Phase) : (s.enter p).tree = s.tree := rfl
@[simp] theorem State.enter_ser (s : State) (p : Phase) : (s.enter p).ser = s.ser := rfl
@[simp] theorem State.enter_origLen (s : State) (p : Phase) : (s.enter p).origLen = s.origLen := rfl
@[simp] theorem State.enter_enc (s : State) (p : Phase) : (s.enter p).enc = s.enc := rfl
@[simp] theorem State.enter_dec (s : State) (p : Phase) : (s.enter p).dec = s.dec := rfl
@[simp] theorem State.enter_des (s : State) (p : Phase) : (s.enter p).des = s.des := rfl
@[simp] theorem State.enter_env (s : State) (p : Phase) : (s.enter p).env = s.env := rfl

/-! `State.settle` -/

@[simp] theorem State.settle_ctl (s : State) (o : CmdOutcome) :
    (s.settle o).ctl = { s.ctl with rcount := s.ctl.outCount, outcome := o, phase := .idle, busy := false, running := none, waiting := none } := rfl
@[simp] theorem State.settle_freq (s : State) (o : CmdOutcome) : (s.settle o).freq = s.freq := rfl
@[simp] theorem State.settle_node (s : State) (o : CmdOutcome) : (s.settle o).node = s.node := rfl
@[simp] theorem State.settle_heap (s : State) (o : CmdOutcome) : (s.settle o).heap = s.heap := rfl
@[simp] theorem State.settle_tree (s : State) (o : CmdOutcome) : (s.settle o).tree = s.tree := rfl
@[simp] theorem State.settle_ser (s : State) (o : CmdOutcome) : (s.settle o).ser = s.ser := rfl
@[simp] theorem State.settle_origLen (s : State) (o : CmdOutcome) : (s.settle o).origLen = s.origLen := rfl
@[simp] theorem State.settle_enc (s : State) (o : CmdOutcome) : (s.settle o).enc = s.enc := rfl
@[simp] theorem State.settle_dec (s : State) (o : CmdOutcome) : (s.settle o).dec = s.dec := rfl
@[simp] theorem State.settle_des (s : State) (o : CmdOutcome) : (s.settle o).des = s.des := rfl
@[simp] theorem State.settle_env (s : State) (o : CmdOutcome) : (s.settle o).env = s.env := rfl

/-! `State.discardTree` -/

@[simp] theorem State.discardTree_ctl (s : State) : (s.discardTree).ctl = s.ctl := rfl
@[simp] theorem State.discardTree_freq (s : State) : (s.discardTree).freq = s.freq := rfl
@[simp] theorem State.discardTree_node (s : State) : (s.discardTree).node = [] := rfl
@[simp] theorem State.discardTree_heap (s : State) : (s.discardTree).heap = s.heap := rfl
@[simp] theorem State.discardTree_tree (s : State) : (s.discardTree).tree = none := rfl
@[simp] theorem State.discardTree_ser (s : State) : (s.discardTree).ser = s.ser := rfl
@[simp] theorem State.discardTree_origLen (s : State) : (s.discardTree).origLen = s.origLen := rfl
@[simp] theorem State.discardTree_enc (s : State) : (s.discardTree).enc = s.enc := rfl
@[simp] theorem State.discardTree_dec (s : State) : (s.discardTree).dec = s.dec := rfl
@[simp] theorem State.discardTree_des (s : State) : (s.discardTree).des = s.des := rfl
@[simp] theorem State.discardTree_env (s : State) : (s.discardTree).env = s.env := rfl

/-! `State.discardSer` -/

@[simp] theorem State.discardSer_ctl (s : State) : (s.discardSer).ctl = s.ctl := rfl
@[simp] theorem State.discardSer_freq (s : State) : (s.discardSer).freq = s.freq := rfl
@[simp] theorem State.discardSer_node (s : State) : (s.discardSer).node = s.node := rfl
@[simp] theorem State.discardSer_heap (s : State) : (s.discardSer).heap = s.heap := rfl
@[simp] theorem State.discardSer_tree (s : State) : (s.discardSer).tree = s.tree := rfl
@[simp] theorem State.discardSer_ser (s : State) : (s.discardSer).ser = none := rfl
@[simp] theorem State.discardSer_origLen (s : State) : (s.discardSer).origLen = s.origLen := rfl
@[simp] theorem State.discardSer_enc (s : State) : (s.discardSer).enc = s.enc := rfl
@[simp] theorem State.discardSer_dec (s : State) : (s.discardSer).dec = s.dec := rfl
@[simp] theorem State.discardSer_des (s : State) : (s.discardSer).des = s.des := rfl
@[simp] theorem State.discardSer_env (s : State) : (s.discardSer).env = s.env := rfl

/-! `State.discardLen` -/

@[simp] theorem State.discardLen_ctl (s : State) : (s.discardLen).ctl = s.ctl := rfl
@[simp] theorem State.discardLen_freq (s : State) : (s.discardLen).freq = s.freq := rfl
@[simp] theorem State.discardLen_node (s : State) : (s.discardLen).node = s.node := rfl
@[simp] theorem State.discardLen_heap (s : State) : (s.discardLen).heap = s.heap := rfl
@[simp] theorem State.discardLen_tree (s : State) : (s.discardLen).tree = s.tree := rfl
@[simp] theorem State.discardLen_ser (s : State) : (s.discardLen).ser = s.ser := rfl
@[simp] theorem State.discardLen_origLen (s : State) : (s.discardLen).origLen = none := rfl
@[simp] theorem State.discardLen_enc (s : State) : (s.discardLen).enc = s.enc := rfl
@[simp] theorem State.discardLen_dec (s : State) : (s.discardLen).dec = s.dec := rfl
@[simp] theorem State.discardLen_des (s : State) : (s.discardLen).des = s.des := rfl
@[simp] theorem State.discardLen_env (s : State) : (s.discardLen).env = s.env := rfl

/-! `State.discardAll` -/

@[simp] theorem State.discardAll_ctl (s : State) : (s.discardAll).ctl = s.ctl := rfl
@[simp] theorem State.discardAll_freq (s : State) : (s.discardAll).freq = s.freq := rfl
@[simp] theorem State.discardAll_node (s : State) : (s.discardAll).node = [] := rfl
@[simp] theorem State.discardAll_heap (s : State) : (s.discardAll).heap = s.heap := rfl
@[simp] theorem State.discardAll_tree (s : State) : (s.discardAll).tree = none := rfl
@[simp] theorem State.discardAll_ser (s : State) : (s.discardAll).ser = none := rfl
@[simp] theorem State.discardAll_origLen (s : State) : (s.discardAll).origLen = none := rfl
@[simp] theorem State.discardAll_enc (s : State) : (s.discardAll).enc = s.enc := rfl
@[simp] theorem State.discardAll_dec (s : State) : (s.discardAll).dec = s.dec := rfl
@[simp] theorem State.discardAll_des (s : State) : (s.discardAll).des = s.des := rfl
@[simp] theorem State.discardAll_env (s : State) : (s.discardAll).env = s.env := rfl

/-! `State.heapInsert` -/

@[simp] theorem State.heapInsert_ctl (s : State) (i : NodeIdx) : (s.heapInsert i).ctl = s.ctl := rfl
@[simp] theorem State.heapInsert_freq (s : State) (i : NodeIdx) : (s.heapInsert i).freq = s.freq := rfl
@[simp] theorem State.heapInsert_node (s : State) (i : NodeIdx) : (s.heapInsert i).node = s.node := rfl
@[simp] theorem State.heapInsert_heap (s : State) (i : NodeIdx) : (s.heapInsert i).heap = s.heap ++ [i] := rfl
@[simp] theorem State.heapInsert_tree (s : State) (i : NodeIdx) : (s.heapInsert i).tree = s.tree := rfl
@[simp] theorem State.heapInsert_ser (s : State) (i : NodeIdx) : (s.heapInsert i).ser = s.ser := rfl
@[simp] theorem State.heapInsert_origLen (s : State) (i : NodeIdx) : (s.heapInsert i).origLen = s.origLen := rfl
@[simp] theorem State.heapInsert_enc (s : State) (i : NodeIdx) : (s.heapInsert i).enc = s.enc := rfl
@[simp] theorem State.heapInsert_dec (s : State) (i : NodeIdx) : (s.heapInsert i).dec = s.dec := rfl
@[simp] theorem State.heapInsert_des (s : State) (i : NodeIdx) : (s.heapInsert i).des = s.des := rfl
@[simp] theorem State.heapInsert_env (s : State) (i : NodeIdx) : (s.heapInsert i).env = s.env := rfl

/-! `State.addNode` -/

@[simp] theorem State.addNode_ctl (s : State) (n : Node) : (s.addNode n).ctl = s.ctl := rfl
@[simp] theorem State.addNode_freq (s : State) (n : Node) : (s.addNode n).freq = s.freq := rfl
@[simp] theorem State.addNode_node (s : State) (n : Node) : (s.addNode n).node = s.node ++ [some n] := rfl
@[simp] theorem State.addNode_heap (s : State) (n : Node) :
    (s.addNode n).heap = s.heap ++ [BitVec.ofNat 9 s.node.length] := rfl
@[simp] theorem State.addNode_tree (s : State) (n : Node) : (s.addNode n).tree = s.tree := rfl
@[simp] theorem State.addNode_ser (s : State) (n : Node) : (s.addNode n).ser = s.ser := rfl
@[simp] theorem State.addNode_origLen (s : State) (n : Node) : (s.addNode n).origLen = s.origLen := rfl
@[simp] theorem State.addNode_enc (s : State) (n : Node) : (s.addNode n).enc = s.enc := rfl
@[simp] theorem State.addNode_dec (s : State) (n : Node) : (s.addNode n).dec = s.dec := rfl
@[simp] theorem State.addNode_des (s : State) (n : Node) : (s.addNode n).des = s.des := rfl
@[simp] theorem State.addNode_env (s : State) (n : Node) : (s.addNode n).env = s.env := rfl

/-! `State.startBuilding` -/

@[simp] theorem State.startBuilding_ctl (s : State) : (s.startBuilding).ctl = { s.ctl with phase := .building } := rfl
@[simp] theorem State.startBuilding_freq (s : State) : (s.startBuilding).freq = s.freq := rfl
@[simp] theorem State.startBuilding_node (s : State) : (s.startBuilding).node = [] := rfl
@[simp] theorem State.startBuilding_heap (s : State) : (s.startBuilding).heap = [] := rfl
@[simp] theorem State.startBuilding_tree (s : State) : (s.startBuilding).tree = none := rfl
@[simp] theorem State.startBuilding_ser (s : State) : (s.startBuilding).ser = s.ser := rfl
@[simp] theorem State.startBuilding_origLen (s : State) : (s.startBuilding).origLen = s.origLen := rfl
@[simp] theorem State.startBuilding_enc (s : State) : (s.startBuilding).enc = s.enc := rfl
@[simp] theorem State.startBuilding_dec (s : State) : (s.startBuilding).dec = s.dec := rfl
@[simp] theorem State.startBuilding_des (s : State) : (s.startBuilding).des = s.des := rfl
@[simp] theorem State.startBuilding_env (s : State) : (s.startBuilding).env = s.env := rfl

/-! `State.takeShapeBit` -/

@[simp] theorem State.takeShapeBit_ctl (s : State) : (s.takeShapeBit).ctl = s.ctl := rfl
@[simp] theorem State.takeShapeBit_freq (s : State) : (s.takeShapeBit).freq = s.freq := rfl
@[simp] theorem State.takeShapeBit_node (s : State) : (s.takeShapeBit).node = s.node ++ [none] := rfl
@[simp] theorem State.takeShapeBit_heap (s : State) : (s.takeShapeBit).heap = s.heap := rfl
@[simp] theorem State.takeShapeBit_tree (s : State) : (s.takeShapeBit).tree = s.tree := rfl
@[simp] theorem State.takeShapeBit_ser (s : State) : (s.takeShapeBit).ser = s.ser := rfl
@[simp] theorem State.takeShapeBit_origLen (s : State) : (s.takeShapeBit).origLen = s.origLen := rfl
@[simp] theorem State.takeShapeBit_enc (s : State) : (s.takeShapeBit).enc = s.enc := rfl
@[simp] theorem State.takeShapeBit_dec (s : State) : (s.takeShapeBit).dec = s.dec := rfl
@[simp] theorem State.takeShapeBit_des (s : State) :
    (s.takeShapeBit).des = { s.des with shapePos := s.des.shapePos + 1 } := rfl
@[simp] theorem State.takeShapeBit_env (s : State) : (s.takeShapeBit).env = s.env := rfl

/-! `State.writeNode` -/

@[simp] theorem State.writeNode_ctl (s : State) (i : NodeIdx) (n : Node) : (s.writeNode i n).ctl = s.ctl := rfl
@[simp] theorem State.writeNode_freq (s : State) (i : NodeIdx) (n : Node) : (s.writeNode i n).freq = s.freq := rfl
@[simp] theorem State.writeNode_node (s : State) (i : NodeIdx) (n : Node) :
    (s.writeNode i n).node = s.node.set i.toNat (some n) := rfl
@[simp] theorem State.writeNode_heap (s : State) (i : NodeIdx) (n : Node) : (s.writeNode i n).heap = s.heap := rfl
@[simp] theorem State.writeNode_tree (s : State) (i : NodeIdx) (n : Node) : (s.writeNode i n).tree = s.tree := rfl
@[simp] theorem State.writeNode_ser (s : State) (i : NodeIdx) (n : Node) : (s.writeNode i n).ser = s.ser := rfl
@[simp] theorem State.writeNode_origLen (s : State) (i : NodeIdx) (n : Node) :
    (s.writeNode i n).origLen = s.origLen := rfl
@[simp] theorem State.writeNode_enc (s : State) (i : NodeIdx) (n : Node) : (s.writeNode i n).enc = s.enc := rfl
@[simp] theorem State.writeNode_dec (s : State) (i : NodeIdx) (n : Node) : (s.writeNode i n).dec = s.dec := rfl
@[simp] theorem State.writeNode_des (s : State) (i : NodeIdx) (n : Node) : (s.writeNode i n).des = s.des := rfl
@[simp] theorem State.writeNode_env (s : State) (i : NodeIdx) (n : Node) : (s.writeNode i n).env = s.env := rfl

/-! `State.startParsing` -/

@[simp] theorem State.startParsing_ctl (s : State) : (s.startParsing).ctl = s.ctl := rfl
@[simp] theorem State.startParsing_freq (s : State) : (s.startParsing).freq = s.freq := rfl
@[simp] theorem State.startParsing_node (s : State) : (s.startParsing).node = s.node := rfl
@[simp] theorem State.startParsing_heap (s : State) : (s.startParsing).heap = s.heap := rfl
@[simp] theorem State.startParsing_tree (s : State) : (s.startParsing).tree = s.tree := rfl
@[simp] theorem State.startParsing_ser (s : State) : (s.startParsing).ser = s.ser := rfl
@[simp] theorem State.startParsing_origLen (s : State) : (s.startParsing).origLen = s.origLen := rfl
@[simp] theorem State.startParsing_enc (s : State) : (s.startParsing).enc = s.enc := rfl
@[simp] theorem State.startParsing_dec (s : State) : (s.startParsing).dec = s.dec := rfl
@[simp] theorem State.startParsing_des (s : State) :
    (s.startParsing).des = { shapePos := 0, leafPos := 0, seen := 0 } := rfl
@[simp] theorem State.startParsing_env (s : State) : (s.startParsing).env = s.env := rfl

/-! `State.startEncoding` -/

@[simp] theorem State.startEncoding_ctl (s : State) : (s.startEncoding).ctl = { s.ctl with phase := .encoding } := rfl
@[simp] theorem State.startEncoding_freq (s : State) : (s.startEncoding).freq = s.freq := rfl
@[simp] theorem State.startEncoding_node (s : State) : (s.startEncoding).node = s.node := rfl
@[simp] theorem State.startEncoding_heap (s : State) : (s.startEncoding).heap = s.heap := rfl
@[simp] theorem State.startEncoding_tree (s : State) : (s.startEncoding).tree = s.tree := rfl
@[simp] theorem State.startEncoding_ser (s : State) : (s.startEncoding).ser = s.ser := rfl
@[simp] theorem State.startEncoding_origLen (s : State) : (s.startEncoding).origLen = s.origLen := rfl
@[simp] theorem State.startEncoding_enc (s : State) : (s.startEncoding).enc = { pend := 0, pendN := 0 } := rfl
@[simp] theorem State.startEncoding_dec (s : State) : (s.startEncoding).dec = s.dec := rfl
@[simp] theorem State.startEncoding_des (s : State) : (s.startEncoding).des = s.des := rfl
@[simp] theorem State.startEncoding_env (s : State) : (s.startEncoding).env = s.env := rfl

/-! `State.startDecoding` -/

@[simp] theorem State.startDecoding_ctl (s : State) (root : NodeIdx) :
    (s.startDecoding root).ctl = { s.ctl with phase := .decoding } := rfl
@[simp] theorem State.startDecoding_freq (s : State) (root : NodeIdx) : (s.startDecoding root).freq = s.freq := rfl
@[simp] theorem State.startDecoding_node (s : State) (root : NodeIdx) : (s.startDecoding root).node = s.node := rfl
@[simp] theorem State.startDecoding_heap (s : State) (root : NodeIdx) : (s.startDecoding root).heap = s.heap := rfl
@[simp] theorem State.startDecoding_tree (s : State) (root : NodeIdx) : (s.startDecoding root).tree = s.tree := rfl
@[simp] theorem State.startDecoding_ser (s : State) (root : NodeIdx) : (s.startDecoding root).ser = s.ser := rfl
@[simp] theorem State.startDecoding_origLen (s : State) (root : NodeIdx) :
    (s.startDecoding root).origLen = s.origLen := rfl
@[simp] theorem State.startDecoding_enc (s : State) (root : NodeIdx) : (s.startDecoding root).enc = s.enc := rfl
@[simp] theorem State.startDecoding_dec (s : State) (root : NodeIdx) :
    (s.startDecoding root).dec = { cur := root, dstate := .atRoot, inByte := 0, inPos := 8 } := rfl
@[simp] theorem State.startDecoding_des (s : State) (root : NodeIdx) : (s.startDecoding root).des = s.des := rfl
@[simp] theorem State.startDecoding_env (s : State) (root : NodeIdx) : (s.startDecoding root).env = s.env := rfl

/-! `State.resetHcc` -/

@[simp] theorem State.resetHcc_ctl (s : State) : (s.resetHcc).ctl = State.reset.ctl := rfl
@[simp] theorem State.resetHcc_freq (s : State) : (s.resetHcc).freq = State.reset.freq := rfl
@[simp] theorem State.resetHcc_node (s : State) : (s.resetHcc).node = State.reset.node := rfl
@[simp] theorem State.resetHcc_heap (s : State) : (s.resetHcc).heap = State.reset.heap := rfl
@[simp] theorem State.resetHcc_tree (s : State) : (s.resetHcc).tree = State.reset.tree := rfl
@[simp] theorem State.resetHcc_ser (s : State) : (s.resetHcc).ser = State.reset.ser := rfl
@[simp] theorem State.resetHcc_origLen (s : State) : (s.resetHcc).origLen = State.reset.origLen := rfl
@[simp] theorem State.resetHcc_enc (s : State) : (s.resetHcc).enc = State.reset.enc := rfl
@[simp] theorem State.resetHcc_dec (s : State) : (s.resetHcc).dec = State.reset.dec := rfl
@[simp] theorem State.resetHcc_des (s : State) : (s.resetHcc).des = State.reset.des := rfl
@[simp] theorem State.resetHcc_env (s : State) : (s.resetHcc).env = s.env := rfl

/-! `State.ended` -/

@[simp] theorem State.ended_ctl (s : State) (o : CmdOutcome) (taken appended : Nat) :
    (s.ended o taken appended).ctl = {
      busy := false, outcome := o, phase := .idle, rcount := BitVec.ofNat 64 appended, ioerr := s.ctl.ioerr,
      inCount := BitVec.ofNat 64 taken, outCount := BitVec.ofNat 64 appended, running := none, waiting := none } := rfl
@[simp] theorem State.ended_freq (s : State) (o : CmdOutcome) (taken appended : Nat) :
    (s.ended o taken appended).freq = s.freq := rfl
@[simp] theorem State.ended_node (s : State) (o : CmdOutcome) (taken appended : Nat) :
    (s.ended o taken appended).node = s.node := rfl
@[simp] theorem State.ended_heap (s : State) (o : CmdOutcome) (taken appended : Nat) :
    (s.ended o taken appended).heap = s.heap := rfl
@[simp] theorem State.ended_tree (s : State) (o : CmdOutcome) (taken appended : Nat) :
    (s.ended o taken appended).tree = s.tree := rfl
@[simp] theorem State.ended_ser (s : State) (o : CmdOutcome) (taken appended : Nat) :
    (s.ended o taken appended).ser = s.ser := rfl
@[simp] theorem State.ended_origLen (s : State) (o : CmdOutcome) (taken appended : Nat) :
    (s.ended o taken appended).origLen = s.origLen := rfl
@[simp] theorem State.ended_enc (s : State) (o : CmdOutcome) (taken appended : Nat) :
    (s.ended o taken appended).enc = s.enc := rfl
@[simp] theorem State.ended_dec (s : State) (o : CmdOutcome) (taken appended : Nat) :
    (s.ended o taken appended).dec = s.dec := rfl
@[simp] theorem State.ended_des (s : State) (o : CmdOutcome) (taken appended : Nat) :
    (s.ended o taken appended).des = s.des := rfl
@[simp] theorem State.ended_env (s : State) (o : CmdOutcome) (taken appended : Nat) :
    (s.ended o taken appended).env = s.env := rfl

/-! `State.fail` (R250) -/

@[simp] theorem State.flagsAfterFailure_ctl (s : State) : s.flagsAfterFailure.ctl = s.ctl := by
  simp only [State.flagsAfterFailure]; split <;> [split <;> rfl; rfl]
@[simp] theorem State.flagsAfterFailure_env (s : State) : s.flagsAfterFailure.env = s.env := by
  simp only [State.flagsAfterFailure]; split <;> [split <;> rfl; rfl]
@[simp] theorem State.flagsAfterFailure_freq (s : State) : s.flagsAfterFailure.freq = s.freq := by
  simp only [State.flagsAfterFailure]; split <;> [split <;> rfl; rfl]
@[simp] theorem State.flagsAfterFailure_heap (s : State) : s.flagsAfterFailure.heap = s.heap := by
  simp only [State.flagsAfterFailure]; split <;> [split <;> rfl; rfl]

theorem State.fail_env (s : State) (t : Failure) : (s.fail t).env = s.env := by simp [State.fail]
theorem State.fail_ctl (s : State) (t : Failure) : (s.fail t).ctl = (s.settle (.failure t)).ctl := by simp [State.fail]
theorem State.fail_freq (s : State) (t : Failure) : (s.fail t).freq = s.freq := by simp [State.fail]
theorem State.fail_heap (s : State) (t : Failure) : (s.fail t).heap = [] := by simp [State.fail]

/-- A failing unit command leaves the valid flags and what they cover (R250). -/
theorem State.fail_unit {s : State} {i : Instr} (h : s.ctl.running = some i) (hw : wholeFile i = false) (t : Failure) :
    s.fail t = { s with heap := [] }.settle (.failure t) := by
  simp [State.fail, State.flagsAfterFailure, h, hw]

/-- A failing whole-file command clears the valid flags and what they cover (R250). -/
theorem State.fail_whole {s : State} {i : Instr} (h : s.ctl.running = some i) (hw : wholeFile i = true) (t : Failure) :
    s.fail t = { s with heap := [], tree := none, node := [], ser := none, origLen := none }.settle (.failure t) := by
  simp [State.fail, State.flagsAfterFailure, h, hw, State.discardAll, State.discardLen, State.discardSer, State.discardTree]

/-! `Binding.close` (R64, R66) -/

@[simp] theorem Binding.held_bound {α : Type} (x : α) : (Binding.bound x).held = some x := rfl
@[simp] theorem Binding.held_unbound {α : Type} (e : IoErr) (x : Option α) : (Binding.unbound e x).held = x := rfl
@[simp] theorem Binding.held_close {α : Type} (b : Binding α) (e : IoErr) : (b.close e).held = b.held := by cases b <;> rfl

/-- The error value at reset, as a number (R45). -/
theorem IoErr.zero_eq : IoErr.zero = 0 := by
  apply BitVec.eq_of_toNat_eq; simp [IoErr.zero]

end Sys2Proof.Machine
end

