-- ==== Sys2Proof/Laws/Streams.lean ====
section
/-! SUPPORT. Runs, and the stream primitives when every call goes through (20_memory.md R61 to R65). -/

namespace Sys2Proof.Machine

/-! bind -/
@[simp] theorem Run.bind_ok {α β : Type} (a : α) (s : State) (k : α → State → Run β) :
    (Run.ok a s).bind k = k a s := rfl
@[simp] theorem Run.bind_raised {α β : Type} (t : Failure) (s : State) (k : α → State → Run β) :
    (Run.raised t s : Run α).bind k = .raised t s := rfl
@[simp] theorem Run.bind_hung {α β : Type} (st : Stream) (s : State) (k : α → State → Run β) :
    (Run.hung st s : Run α).bind k = .hung st s := rfl
@[simp] theorem Run.bind_stuck {α β : Type} (f : Fault) (k : α → State → Run β) :
    (Run.stuck f : Run α).bind k = .stuck f := rfl
theorem Run.bind_assoc {α β γ : Type} (r : Run α) (k : α → State → Run β) (l : β → State → Run γ) :
    (r.bind k).bind l = r.bind fun a s => (k a s).bind l := by
  cases r <;> rfl
@[simp] theorem Run.onRaise_ok {α : Type} (f : State → State) (a : α) (s : State) :
    (Run.ok a s).onRaise f = .ok a s := rfl
@[simp] theorem Run.onRaise_raised {α : Type} (f : State → State) (t : Failure) (s : State) :
    (Run.raised t s : Run α).onRaise f = .raised t (f s) := rfl
@[simp] theorem require_true (t : Failure) (s : State) : require true t s = .ok () s := rfl
@[simp] theorem require_false (t : Failure) (s : State) : require false t s = .raised t s := rfl

/-! Source -/
@[simp] theorem Source.advance_zero (src : Source) : src.advance 0 = src := rfl
@[simp] theorem Source.advance_advance (src : Source) (j k : Nat) :
    (src.advance j).advance k = src.advance (j + k) := by simp [Source.advance, Nat.add_assoc]
theorem Source.rest_advance (src : Source) (k : Nat) : (src.advance k).rest = src.rest.drop k := by
  simp [Source.advance, Source.rest, List.drop_drop]

theorem Source.getElem_pos (src : Source) : src.data[src.pos]? = src.rest.head? := by
  simp [Source.rest]

theorem State.ext_src {s : State} {src : Source} (h : s.env.src = .bound src) :
    { s with env.src := .bound src } = s := by
  obtain ⟨⟩ := s; rename_i env; obtain ⟨⟩ := env; simp at h; simp [h]

theorem State.ext_snk {s : State} {k : Sink} (h : s.env.snk = .bound k) :
    { s with env.snk := .bound k } = s := by
  obtain ⟨⟩ := s; rename_i env; obtain ⟨⟩ := env; simp at h; simp [h]

theorem callSource_quiet {α : Type} (f : Source → α × Source) {s : State} {src : Source}
    (h : s.env.src = .bound src) (hq : s.env.answers = []) :
    callSource f s = .ok (f src).1 { s with env.src := .bound (f src).2 } := by
  simp [callSource, h, answerCall, hq]

theorem callSink_quiet (f : Sink → Sink) {s : State} {k : Sink}
    (h : s.env.snk = .bound k) (hq : s.env.answers = []) :
    callSink f s = .ok () { s with env.snk := .bound (f k) } := by
  simp [callSink, h, answerCall, hq]

theorem srcRead_cons {s : State} {src : Source} {b : Byte} {bs : List Byte}
    (h : s.env.src = .bound src) (hq : s.env.answers = []) (hr : src.rest = b :: bs) :
    srcRead s = .ok (some b) { s with env.src := .bound (src.advance 1) } := by
  rw [srcRead, callSource_quiet _ h hq]
  simp [Source.getElem_pos, hr, Source.advance]

theorem srcRead_nil {s : State} {src : Source}
    (h : s.env.src = .bound src) (hq : s.env.answers = []) (hr : src.rest = []) :
    srcRead s = .ok none s := by
  rw [srcRead, callSource_quiet _ h hq]
  simp [Source.getElem_pos, hr, State.ext_src h]

theorem put_quiet {s : State} {k : Sink} (h : s.env.snk = .bound k) (hq : s.env.answers = []) (b : Byte) :
    put b s = .ok () { s with ctl.outCount := s.ctl.outCount + 1, env.snk := .bound (k.append [b]) } := by
  simp [put, snkAppend, callSink_quiet _ h hq, Sink.append]

@[simp] theorem Sink.append_nil (k : Sink) : k.append [] = k := by simp [Sink.append]
@[simp] theorem Sink.append_append (k : Sink) (a b : List Byte) : (k.append a).append b = k.append (a ++ b) := by
  simp [Sink.append]

theorem ofNat_succ64 (c : Word64) (n : Nat) : c + 1#64 + BitVec.ofNat 64 n = c + BitVec.ofNat 64 (n + 1) := by
  apply BitVec.eq_of_toNat_eq; simp; omega

theorem putAll_quiet : ∀ (bs : List Byte) {s : State} {k : Sink}, s.env.snk = .bound k → s.env.answers = [] →
    putAll bs s = .ok () { s with
      ctl.outCount := s.ctl.outCount + BitVec.ofNat 64 bs.length, env.snk := .bound (k.append bs) }
  | [], s, k, h, hq => by simp [putAll, State.ext_snk h]
  | b :: bs, s, k, h, hq => by
    rw [putAll, put_quiet h hq]
    simp only [Run.bind_ok]
    rw [putAll_quiet bs (k := k.append [b]) rfl (by simpa using hq)]
    simp [ofNat_succ64]

theorem srcReadByte_cons {s : State} {src : Source} {b : Byte} {bs : List Byte} (t : Failure)
    (h : s.env.src = .bound src) (hq : s.env.answers = []) (hr : src.rest = b :: bs) :
    srcReadByte t s = .ok b { s with ctl.inCount := s.ctl.inCount + 1, env.src := .bound (src.advance 1) } := by
  simp [srcReadByte, srcRead_cons h hq hr]

theorem srcReadByte_nil {s : State} {src : Source} (t : Failure)
    (h : s.env.src = .bound src) (hq : s.env.answers = []) (hr : src.rest = []) :
    srcReadByte t s = .raised t s := by
  simp [srcReadByte, srcRead_nil h hq hr]

theorem srcReadBytes_quiet (t : Failure) : ∀ (bs rest : List Byte) {s : State} {src : Source},
    s.env.src = .bound src → s.env.answers = [] → src.rest = bs ++ rest →
    srcReadBytes t bs.length s = .ok bs { s with
      ctl.inCount := s.ctl.inCount + BitVec.ofNat 64 bs.length, env.src := .bound (src.advance bs.length) }
  | [], rest, s, src, h, hq, hr => by simp [srcReadBytes, State.ext_src h]
  | b :: bs, rest, s, src, h, hq, hr => by
    rw [List.length_cons, srcReadBytes, srcReadByte_cons t h hq hr]
    simp only [Run.bind_ok]
    rw [srcReadBytes_quiet t bs rest (src := src.advance 1) rfl (by simpa using hq)
      (by rw [Source.rest_advance, hr]; rfl)]
    simp [ofNat_succ64, Nat.add_comm 1]

theorem srcReadBytes_short (t : Failure) : ∀ (n : Nat) {s : State} {src : Source},
    s.env.src = .bound src → s.env.answers = [] → src.rest.length < n →
    srcReadBytes t n s = .raised t { s with
      ctl.inCount := s.ctl.inCount + BitVec.ofNat 64 src.rest.length, env.src := .bound (src.advance src.rest.length) }
  | 0, s, src, h, hq, hr => by omega
  | n + 1, s, src, h, hq, hr => by
    rw [srcReadBytes]
    cases hc : src.rest with
    | nil => rw [srcReadByte_nil t h hq hc]; simp [State.ext_src h]
    | cons b bs =>
      rw [srcReadByte_cons t h hq hc]
      simp only [Run.bind_ok]
      have h1 : (src.advance 1).rest = bs := by rw [Source.rest_advance, hc]; rfl
      rw [srcReadBytes_short t n (src := src.advance 1) rfl (by simpa using hq) (by rw [h1]; simp [hc] at hr; omega)]
      simp [h1, ofNat_succ64, Nat.add_comm 1]

/-! Chunks (R67): whatever K is, the chunks are not empty, hold at most K bytes and give the bytes in their order. -/

theorem chunksOf_flatten {k : Nat} (hk : 1 ≤ k) : ∀ (n : Nat) (bytes : List Byte), bytes.length ≤ n → (chunksOf k n bytes).flatten = bytes
  | 0, bytes, h => by
    rw [List.length_eq_zero_iff.1 (Nat.le_zero.1 h)]; rfl
  | n + 1, bytes, h => by
    rw [chunksOf]
    split
    · rename_i he; simp [List.isEmpty_iff.1 he]
    · rw [List.flatten_cons, chunksOf_flatten hk n _ (by rw [List.length_drop]; omega), List.take_append_drop]

theorem chunksOf_length {k : Nat} (hk : 1 ≤ k) : ∀ (n : Nat) (bytes : List Byte), ∀ c ∈ chunksOf k n bytes, 1 ≤ c.length ∧ c.length ≤ k
  | 0, bytes, c, h => by simp [chunksOf] at h
  | n + 1, bytes, c, h => by
    rw [chunksOf] at h
    split at h
    · simp at h
    · rename_i he
      have := List.length_pos_iff.2 (by simpa using he : bytes ≠ [])
      rcases List.mem_cons.1 h with rfl | h
      · simp only [List.length_take]; omega
      · exact chunksOf_length hk n _ c h

theorem Source.chunks_flatten {k : Nat} (hk : 1 ≤ k) (src : Source) : (src.chunks k).flatten = src.rest :=
  chunksOf_flatten hk _ _ (Nat.le_refl _)

theorem Source.chunks_count {k : Nat} (hk : 1 ≤ k) (src : Source) (v : Byte) :
    ((src.chunks k).map (List.count v)).sum = src.rest.count v := by
  rw [← List.count_flatten, src.chunks_flatten hk]

end Sys2Proof.Machine
end

