-- ==== Sys2Proof/Laws/Command.lean ====
section
/-! SUPPORT. A whole command from what its body does (60_exceptions.md R248 to R250), and the counting loop (R122). -/

namespace Sys2Proof.Machine

theorem command_of_ok {i : Instr} {body : Proc Unit} {s u : State}
    (h : body (s.begin (some i)) = .ok () u) (hr : u.ctl.running = some i) (hw : writesSink i = false) :
    command i body s = .next (u.settle .success) := by
  simp [command, h, finish, flushIfWriter, hr, hw]

/-- The flush of a command that writes the Sink is answered `IoError` (R249). -/
theorem command_flush_ioError {i : Instr} {body : Proc Unit} {s u : State} {k : Sink} {e : IoErr} {l : List Answer}
    (h : body (s.begin (some i)) = .ok () u) (hr : u.ctl.running = some i) (hw : writesSink i = true)
    (hk : u.env.snk = .bound k) (hq : u.env.answers = .ioError e :: l) :
    command i body s = .next ({ u with ctl.ioerr := e, env.answers := l }.fail .ioFailure) := by
  simp [command, h, finish, flushIfWriter, hr, hw, snkFlush, callSink, hk, answerCall, hq, ioError]

/-- The flush of a command that writes the Sink finds none bound (R249, R275). -/
theorem command_flush_unbound {i : Instr} {body : Proc Unit} {s u : State} {e : IoErr} {x : Option Sink}
    (h : body (s.begin (some i)) = .ok () u) (hr : u.ctl.running = some i) (hw : writesSink i = true)
    (hk : u.env.snk = .unbound e x) :
    command i body s = .next ({ u with ctl.ioerr := e }.fail .ioFailure) := by
  simp [command, h, finish, flushIfWriter, hr, hw, snkFlush, callSink, hk, ioError]

theorem command_of_ok_writer {i : Instr} {body : Proc Unit} {s u : State} {k : Sink}
    (h : body (s.begin (some i)) = .ok () u) (hr : u.ctl.running = some i) (hw : writesSink i = true)
    (hk : u.env.snk = .bound k) (hq : u.env.answers = []) :
    command i body s =
      .next ({ u with env.snk := .bound { k with durable := k.data.length } }.settle .success) := by
  simp [command, h, finish, flushIfWriter, hr, hw, snkFlush, callSink_quiet _ hk hq]

theorem command_of_raised {i : Instr} {body : Proc Unit} {s u : State} {t : Failure}
    (h : body (s.begin (some i)) = .raised t u) : command i body s = .next (u.fail t) := by
  simp [command, h]

theorem command_of_stuck {i : Instr} {body : Proc Unit} {s : State} {f : Fault}
    (h : body (s.begin (some i)) = .stuck f) : command i body s = .fault f := by
  simp [command, h]

theorem command_of_hung {i : Instr} {body : Proc Unit} {s u : State} {st : Stream}
    (h : body (s.begin (some i)) = .hung st u) : command i body s = .next { u with ctl.waiting := some st } := by
  simp [command, h]

/-- FREQ after the tallies of `bs` on top of `f`. -/
def tallied (f : ByteTable Word64) (bs : List Byte) : ByteTable Word64 :=
  bs.foldl (fun f b => f.write b (f.read b + 1)) f

theorem ByteTable.read_write {α : Type} (t : ByteTable α) (v w : Byte) (x : α) :
    (t.write v x).read w = if v = w then x else t.read w := by
  simp only [ByteTable.read, ByteTable.write, Vector.getElem_set]
  by_cases h : v = w
  · simp [h]
  · simp [h, BitVec.toNat_inj]

theorem read_tallied (v : Byte) : ∀ (bs : List Byte) (f : ByteTable Word64),
    (tallied f bs).read v = f.read v + BitVec.ofNat 64 (bs.count v)
  | [], f => by simp [tallied]
  | b :: bs, f => by
    rw [tallied, List.foldl_cons, ← tallied, read_tallied v bs, ByteTable.read_write]
    by_cases h : b = v
    · subst h; simp [ofNat_succ64]
    · simp [h, List.count_cons_of_ne]

theorem read_zeroFreq (v : Byte) : zeroFreq.read v = 0 := by simp [zeroFreq, ByteTable.read]

theorem forEachByte_tally : ∀ (bs : List Byte) (n : Nat) {s : State} {src : Source},
    s.env.src = .bound src → s.env.answers = [] → src.rest = bs → bs.length < n →
    forEachByte tally n s = .ok () { s with
      freq := tallied s.freq bs, ctl.inCount := s.ctl.inCount + BitVec.ofNat 64 bs.length,
      env.src := .bound (src.advance bs.length) }
  | bs, 0, s, src, h, hq, hr, hn => by omega
  | [], n + 1, s, src, h, hq, hr, hn => by
    rw [forEachByte, srcRead_nil h hq hr]; simp [tallied, State.ext_src h]
  | b :: bs, n + 1, s, src, h, hq, hr, hn => by
    rw [forEachByte, srcRead_cons h hq hr]
    simp only [Run.bind_ok, tally]
    rw [forEachByte_tally bs n (src := src.advance 1) rfl (by simpa using hq)
      (by rw [Source.rest_advance, hr]; rfl) (by simp at hn; omega)]
    simp [ofNat_succ64, Nat.add_comm 1, tallied]

theorem State.srcLeft_bound {s : State} {src : Source} (h : s.env.src = .bound src) :
    s.srcLeft = src.rest.length := by simp [State.srcLeft, h]

theorem procCount_quiet {s : State} {src : Source} (h : s.env.src = .bound src) (hq : s.env.answers = []) :
    procCount s =
      (require (s.ctl.inCount + BitVec.ofNat 64 src.rest.length == src.len) .protocolError
        { s with
          ctl.phase := .counting, origLen := none, freq := tallied zeroFreq src.rest,
          ctl.inCount := s.ctl.inCount + BitVec.ofNat 64 src.rest.length,
          env.src := .bound (src.advance src.rest.length) }).bind
       fun _ s => .ok () { s with origLen := some src.len } := by
  have h' : ({ s with ctl.phase := .counting, origLen := none } : State).env.src = .bound src := h
  simp only [procCount, State.discardLen, State.enter, srcLen]
  rw [callSource_quiet _ h' hq, State.ext_src h']
  simp only [Run.bind_ok]
  rw [forEachByte_tally src.rest _ (src := src) (by exact h) (by exact hq) rfl (by simp [State.srcLeft, h])]
  simp only [Run.bind_ok]

end Sys2Proof.Machine
end

