-- ==== Sys2Proof/Laws/Packing.lean ====
section
/-! SUPPORT. Packed bits and the encoder's pending byte (20_memory.md R69, R70, 43_bit_encoder.md R181 to R184). -/

namespace Sys2Proof.Machine

theorem getLsbD_setBit (v : Byte) (n i : Nat) (b : Bool) (hn : n < 8) (hi : i < 8) :
    (setBit v n b).getLsbD i = if i = n then b else v.getLsbD i := by
  have key : ∀ (n : Fin 8) (i : Fin 8) (b : Bool) (v : Byte),
      (setBit v n b).getLsbD i = if i = n then b else v.getLsbD i := by
    intro n i b v
    fin_cases n <;> fin_cases i <;> cases b <;> simp [setBit]
  have := key ⟨n, hn⟩ ⟨i, hi⟩ b v
  simpa [Fin.ext_iff] using this

theorem getLsbD_packByte (bits : List Bool) (j t : Nat) (ht : t < 8) :
    (packByte bits j).getLsbD t = bits.getD (8 * j + t) false := by
  have key : ∀ (n : Nat), n ≤ 8 → ((List.range n).foldl
    (fun x t => match bits[8 * j + t]? with
      | some b => setBit x t b
      | none => x) (0 : Byte)).getLsbD t = if t < n then bits.getD (8 * j + t) false else false := by
    intro n
    induction n with
    | zero => simp
    | succ n ih =>
      intro hn
      rw [List.range_succ, List.foldl_append]
      simp only [List.foldl_cons, List.foldl_nil]
      cases h : bits[8 * j + n]? with
      | none =>
        simp only
        rw [ih (by omega)]
        by_cases h1 : t < n
        · simp [h1, Nat.lt_succ_of_lt h1]
        · by_cases h2 : t = n
          · subst h2; simp [List.getD_eq_getElem?_getD, h]
          · simp [h1, show ¬ t < n + 1 by omega]
      | some b =>
        simp only
        rw [getLsbD_setBit _ _ _ _ (by omega) ht, ih (by omega)]
        by_cases h2 : t = n
        · subst h2; simp [List.getD_eq_getElem?_getD, h]
        · by_cases h1 : t < n
          · simp [h2, h1, Nat.lt_succ_of_lt h1]
          · simp [h2, h1, show ¬ t < n + 1 by omega]
  have := key 8 (Nat.le_refl _)
  rw [if_pos ht] at this
  exact this

theorem packByte_congr {a b : List Bool} {j : Nat}
    (h : ∀ t, t < 8 → a.getD (8 * j + t) false = b.getD (8 * j + t) false) : packByte a j = packByte b j := by
  apply BitVec.eq_of_getLsbD_eq
  intro i hi
  rw [getLsbD_packByte _ _ _ hi, getLsbD_packByte _ _ _ hi, h i hi]

/-- The whole bytes of a bit sequence. -/
def fullBytes (bits : List Bool) : List Byte := (List.range (bits.length / 8)).map (packByte bits)

theorem fullBytes_snoc_of_lt (bits : List Bool) (b : Bool) (h : bits.length % 8 ≠ 7) :
    fullBytes (bits ++ [b]) = fullBytes bits := by
  have hl : (bits ++ [b]).length / 8 = bits.length / 8 := by simp; omega
  rw [fullBytes, fullBytes, hl]
  apply List.map_congr_left
  intro j hj
  rw [List.mem_range] at hj
  apply packByte_congr
  intro t ht
  rw [List.getD_append]
  omega

theorem fullBytes_snoc_of_eq (bits : List Bool) (b : Bool) (h : bits.length % 8 = 7) :
    fullBytes (bits ++ [b]) = fullBytes bits ++ [packByte (bits ++ [b]) (bits.length / 8)] := by
  have hl : (bits ++ [b]).length / 8 = bits.length / 8 + 1 := by simp; omega
  rw [fullBytes, fullBytes, hl, List.range_succ, List.map_append]
  congr 1
  apply List.map_congr_left
  intro j hj
  rw [List.mem_range] at hj
  apply packByte_congr
  intro t ht
  rw [List.getD_append]
  omega

theorem packBits_eq (bits : List Bool) :
    packBits bits = fullBytes bits ++ if bits.length % 8 = 0 then [] else [packByte bits (bits.length / 8)] := by
  by_cases h : bits.length % 8 = 0
  · have : ceilDiv8 bits.length = bits.length / 8 := by simp only [ceilDiv8]; omega
    simp [packBits, fullBytes, h, this]
  · have : ceilDiv8 bits.length = bits.length / 8 + 1 := by simp only [ceilDiv8]; omega
    simp [packBits, fullBytes, h, this, List.range_succ]

theorem packByte_empty (bits : List Bool) (j : Nat) (h : bits.length ≤ 8 * j) : packByte bits j = 0 := by
  apply BitVec.eq_of_getLsbD_eq
  intro i hi
  rw [getLsbD_packByte _ _ _ hi, List.getD_eq_getElem?_getD, List.getElem?_eq_none (by omega)]
  simp

theorem setBit_packByte_snoc (bits : List Bool) (b : Bool) :
    setBit (packByte bits (bits.length / 8)) (bits.length % 8) b = packByte (bits ++ [b]) (bits.length / 8) := by
  apply BitVec.eq_of_getLsbD_eq
  intro i hi
  rw [getLsbD_setBit _ _ _ _ (by omega) hi, getLsbD_packByte _ _ _ hi, getLsbD_packByte _ _ _ hi]
  by_cases h : i = bits.length % 8
  · simp only [h, if_true]
    rw [List.getD_eq_getElem?_getD, show 8 * (bits.length / 8) + bits.length % 8 = bits.length by omega]
    simp
  · simp only [h, if_false]
    by_cases h2 : 8 * (bits.length / 8) + i < bits.length
    · rw [List.getD_append _ _ _ _ h2]
    · rw [List.getD_eq_getElem?_getD, List.getD_eq_getElem?_getD, List.getElem?_eq_none (by omega),
        List.getElem?_eq_none (by simp; omega)]

/-- The state of Encode after the stream bits `bits`, from `s` (with an empty pending byte) and the Sink `k`. -/
def encSt (s : State) (k : Sink) (bits : List Bool) : State :=
  { s with
    enc := { pend := packByte bits (bits.length / 8), pendN := ⟨bits.length % 8, by omega⟩ }
    ctl.outCount := s.ctl.outCount + BitVec.ofNat 64 (bits.length / 8)
    env.snk := .bound (k.append (fullBytes bits)) }

theorem putBit_encSt (s : State) (k : Sink) (bits : List Bool) (b : Bool) (hq : s.env.answers = []) :
    putBit b (encSt s k bits) = .ok () (encSt s k (bits ++ [b])) := by
  unfold putBit
  simp only [encSt, setBit_packByte_snoc]
  by_cases h : bits.length % 8 = 7
  · have hd : (bits ++ [b]).length / 8 = bits.length / 8 + 1 := by simp; omega
    have hm : (bits ++ [b]).length % 8 = 0 := by simp; omega
    rw [if_pos (by simp [h])]
    rw [put_quiet (k := k.append (fullBytes bits)) rfl (by exact hq)]
    simp only [Run.bind_ok, Sink.append_append, ← fullBytes_snoc_of_eq bits b h]
    congr 2
    · congr 1
      rw [hd]
      apply BitVec.eq_of_toNat_eq; simp; omega
    · congr 1
      · rw [packByte_empty]; rw [hd]; simp; omega
      · simp [Fin.ext_iff]; omega
  · have hd : (bits ++ [b]).length / 8 = bits.length / 8 := by simp; omega
    rw [if_neg (by simp [Fin.ext_iff, h])]
    rw [hd, fullBytes_snoc_of_lt bits b h]
    congr 3
    simp [Fin.add_def]

theorem putBits_encSt (s : State) (k : Sink) (hq : s.env.answers = []) : ∀ (bs bits : List Bool),
    putBits bs (encSt s k bits) = .ok () (encSt s k (bits ++ bs))
  | [], bits => by simp [putBits]
  | b :: bs, bits => by
    rw [putBits, putBit_encSt _ _ _ _ hq]
    simp only [Run.bind_ok]
    rw [putBits_encSt s k hq bs]
    simp

theorem encSt_nil (s : State) (k : Sink) (h : s.env.snk = .bound k) :
    encSt s k [] = { s with enc := { pend := 0, pendN := 0 } } := by
  obtain ⟨ctl, freq, node, heap, tree, ser, origLen, enc, dec, des, env⟩ := s
  obtain ⟨src, snk, answers, events⟩ := env
  simp at h
  simp [encSt, fullBytes, packByte_empty, h]

/-- One byte read during Encode. -/
def encRead (s : State) (src : Source) (n : Nat) : State :=
  { s with
    ctl.inCount := s.ctl.inCount + BitVec.ofNat 64 n
    env.src := .bound (src.advance n) }

theorem encodeByte_encSt (code : ByteTable CodeEntry) (x : Byte) (s : State) (k : Sink) (bits : List Bool)
    (hq : s.env.answers = []) (hx : (code.read x).len ≠ 0) :
    encodeByte code x (encSt s k bits) = .ok () (encSt s k (bits ++ (code.read x).emission)) := by
  simp only [encodeByte]
  rw [show ((code.read x).len != 0) = true by simpa using hx]
  simp [putBits_encSt _ _ hq]

theorem encRead_zero {s : State} {src : Source} (h : s.env.src = .bound src) : encRead s src 0 = s := by
  obtain ⟨ctl, freq, node, heap, tree, ser, origLen, enc, dec, des, env⟩ := s
  obtain ⟨⟩ := env
  simp at h
  simp [encRead, h]

theorem encRead_encRead (s : State) (src : Source) (m n : Nat) :
    encRead (encRead s src m) (src.advance m) n = encRead s src (m + n) := by
  simp only [encRead, Source.advance_advance]
  congr 2
  apply BitVec.eq_of_toNat_eq; simp; omega

/-- Encode over the coded bytes `xs`. -/
theorem forEachByte_encode (code : ByteTable CodeEntry) (k : Sink) : ∀ (xs : List Byte) (n : Nat) (rest : List Byte)
    {s : State} {src : Source} (bits : List Bool), s.env.src = .bound src → s.env.answers = [] →
    src.rest = xs ++ rest → (∀ x ∈ xs, (code.read x).len ≠ 0) →
    forEachByte (encodeByte code) (n + xs.length) (encSt s k bits) =
      forEachByte (encodeByte code) n (encSt (encRead s src xs.length) k (bits ++ streamBits code xs))
  | [], n, rest, s, src, bits, h, hq, hr, hc => by simp [streamBits, encRead_zero h]
  | x :: xs, n, rest, s, src, bits, h, hq, hr, hc => by
    rw [List.length_cons, ← Nat.add_assoc, forEachByte,
      srcRead_cons (src := src) (by exact h) (by exact hq) hr]
    simp only [Run.bind_ok]
    have e : { encSt s k bits with
        ctl.inCount := (encSt s k bits).ctl.inCount + 1, env.src := .bound (src.advance 1) } =
        encSt (encRead s src 1) k bits := rfl
    rw [e, encodeByte_encSt _ _ _ _ _ (by exact hq) (hc x (by simp))]
    simp only [Run.bind_ok]
    rw [forEachByte_encode code k xs n rest (src := src.advance 1) _ rfl (by exact hq)
      (by rw [Source.rest_advance, hr]; rfl) (fun y hy => hc y (by simp [hy])), encRead_encRead]
    simp [streamBits, Nat.add_comm 1]

theorem encodeWith_all {s : State} {code : ByteTable CodeEntry} {src : Source} {k : Sink}
    (hs : s.env.src = .bound src) (hk : s.env.snk = .bound k) (hq : s.env.answers = [])
    (hc : ∀ x ∈ src.rest, (code.read x).len ≠ 0) (he : s.enc = { pend := 0, pendN := 0 }) :
    encodeWith code s = .ok () { s with
      ctl.inCount := s.ctl.inCount + BitVec.ofNat 64 src.rest.length
      ctl.outCount := s.ctl.outCount + BitVec.ofNat 64 (((streamBits code src.rest).length + 7) / 8)
      env.src := .bound (src.advance src.rest.length)
      env.snk := .bound (k.append (packBits (streamBits code src.rest))) } := by
  have e0 : encSt s k [] = s := by rw [encSt_nil s k hk, ← he]
  rw [encodeWith, State.srcLeft_bound hs, Nat.add_comm]
  have e1 := forEachByte_encode code k src.rest 1 [] (s := s) (src := src) [] hs hq (by simp) hc
  rw [e0] at e1
  rw [e1, List.nil_append, forEachByte, srcRead_nil (src := src.advance src.rest.length) rfl (by exact hq) (by rw [Source.rest_advance]; simp)]
  simp only [Run.bind_ok, flushPending]
  generalize streamBits code src.rest = bits
  by_cases hb : bits.length % 8 = 0
  · rw [if_pos (by simp [encSt, hb])]
    have h1 : (bits.length + 7) / 8 = bits.length / 8 := by omega
    simp only [encSt, encRead, packBits_eq, hb, if_true, List.append_nil, h1, he]
    congr 2
    simp [packByte_empty bits (bits.length / 8) (by omega)]
  · rw [if_neg (by simp [encSt, hb, Fin.ext_iff])]
    have h1 : (bits.length + 7) / 8 = bits.length / 8 + 1 := by omega
    rw [put_quiet (k := k.append (fullBytes bits)) rfl (by exact hq)]
    simp only [Run.bind_ok, encSt, encRead, packBits_eq, hb, if_false, h1, Sink.append_append, he]
    congr 3
    apply BitVec.eq_of_toNat_eq; simp; omega

end Sys2Proof.Machine
end

