-- ==== Sys2Proof/Laws/Codes.lean ====
section
/-! SUPPORT. Paths, codes and the code table (10_state.md R35, 30_encoding.md R108, R109, 42_tree_codec.md R160). -/

namespace Sys2Proof.Machine

/-- The path bits read as an integer, the first bit the most significant (R109, R160). -/
def pathInt (p : List Bool) : CodeBits :=
  p.foldl (fun a b => 2 * a + if b then 1 else 0) 0

/-- The CODE entry of a path. -/
def entryOf (p : List Bool) : CodeEntry := { bits := pathInt p, len := BitVec.ofNat _ p.length }

theorem pathInt_snoc (p : List Bool) (b : Bool) : pathInt (p ++ [b]) = 2 * pathInt p + if b then 1 else 0 := by
  simp [pathInt]

theorem HTree.path_isSome_iff (t : HTree) (v : Byte) : (t.path v).isSome = true ↔ v ∈ t.leaves := by
  induction t with
  | leaf w =>
    by_cases h : w = v
    · simp [HTree.path, HTree.leaves, h]
    · simp [HTree.path, HTree.leaves, h]; exact fun e => h e.symm
  | node l r ihl ihr =>
    simp only [HTree.path, HTree.leaves, List.mem_append, ← ihl, ← ihr]
    cases l.path v <;> simp

theorem HTree.leaves_pos (t : HTree) : 1 ≤ t.leaves.length := by
  induction t with
  | leaf => simp [HTree.leaves]
  | node l r ihl ihr => simp [HTree.leaves]; omega

theorem HTree.path_length_lt (t : HTree) : ∀ {v : Byte} {p : List Bool}, t.path v = some p →
    p.length < t.leaves.length := by
  induction t with
  | leaf w =>
    intro v p h
    simp only [HTree.path] at h
    split at h <;> simp_all [HTree.leaves]
  | node l r ihl ihr =>
    intro v p h
    simp only [HTree.path] at h
    have := l.leaves_pos
    have := r.leaves_pos
    cases hl : l.path v with
    | some q =>
      simp [hl] at h; subst h
      have := ihl hl
      simp [HTree.leaves]; omega
    | none =>
      simp [hl] at h
      obtain ⟨q, hq, rfl⟩ := h
      have := ihr hq
      simp [HTree.leaves]; omega

theorem leaves_length_le {l : List Byte} (h : l.Nodup) : l.length ≤ 256 := by
  have h1 : (l.map BitVec.toFin).Nodup := h.map (fun a b e => BitVec.eq_of_toFin_eq e)
  have := h1.length_le_card
  simpa using this

theorem HTree.walk_read (t : HTree) : ∀ (q : List Bool) (code : ByteTable CodeEntry) (v : Byte), t.leaves.Nodup →
    (t.walk (pathInt q) (BitVec.ofNat _ q.length) code).read v =
      match t.path v with
      | some p => entryOf (q ++ p)
      | none => code.read v := by
  induction t with
  | leaf w =>
    intro q code v _
    simp only [HTree.walk, ByteTable.read_write, HTree.path]
    by_cases h : w = v <;> simp [h, entryOf]
  | node l r ihl ihr =>
    intro q code v hn
    rw [HTree.leaves, List.nodup_append] at hn
    obtain ⟨hl, hr, hd⟩ := hn
    have el : 2 * pathInt q = pathInt (q ++ [false]) := by simp [pathInt_snoc]
    have er : 2 * pathInt q + 1 = pathInt (q ++ [true]) := by simp [pathInt_snoc]
    have ed : BitVec.ofNat 8 q.length + 1 = BitVec.ofNat _ (q.length + 1) := by
      apply BitVec.eq_of_toNat_eq; simp
    have e1 : ∀ b, (q ++ [b]).length = q.length + 1 := by simp
    rw [HTree.walk, er, el, ed]
    rw [← e1 true, ihr _ _ _ hr, e1 true, ← e1 false, ihl _ _ _ hl]
    simp only [HTree.path]
    cases h1 : l.path v with
    | some p =>
      have hv : v ∈ l.leaves := (l.path_isSome_iff v).1 (by simp [h1])
      have : r.path v = none := by
        rw [← Option.not_isSome_iff_eq_none, r.path_isSome_iff]
        exact fun hv' => hd v hv v hv' rfl
      simp [this]
    | none => cases h2 : r.path v <;> simp

theorem HTree.codeTable_read (t : HTree) (hn : t.leaves.Nodup) (v : Byte) :
    t.codeTable.read v = match t.path v with
      | some p => entryOf p
      | none => CodeEntry.noCode := by
  have := t.walk_read [] (Vector.replicate 256 CodeEntry.noCode) v hn
  rw [show ByteTable.read (Vector.replicate 256 CodeEntry.noCode) v = CodeEntry.noCode by
    simp [ByteTable.read]] at this
  simpa [HTree.codeTable, pathInt] using this

theorem getLsbD_pathInt (p : List Bool) : ∀ i, i < 255 → (pathInt p).getLsbD i = p.reverse.getD i false := by
  induction p using List.reverseRecOn with
  | nil => intro i hi; simp [pathInt]
  | append_singleton p b ih =>
    intro i hi
    have e : (pathInt (p ++ [b])).toNat = (2 * (pathInt p).toNat + b.toNat) % 2 ^ 255 := by
      rw [pathInt_snoc]
      cases b <;> simp [BitVec.toNat_add, BitVec.toNat_mul]
    rw [BitVec.getLsbD, e, Nat.testBit_mod_two_pow]
    simp only [hi, decide_true, Bool.true_and, List.reverse_append, List.reverse_cons, List.reverse_nil,
      List.nil_append, List.singleton_append]
    cases i with
    | zero => cases b <;> simp [Nat.testBit_zero]
    | succ i =>
      rw [Nat.testBit_succ, show (2 * (pathInt p).toNat + b.toNat) / 2 = (pathInt p).toNat by cases b <;> simp; omega]
      have := ih i (by omega)
      rw [BitVec.getLsbD] at this
      simpa using this

theorem pathInt_lt (p : List Bool) : (pathInt p).toNat < 2 ^ p.length := by
  induction p using List.reverseRecOn with
  | nil => simp [pathInt]
  | append_singleton p b ih =>
    have e : (pathInt (p ++ [b])).toNat = (2 * (pathInt p).toNat + b.toNat) % 2 ^ 255 := by
      rw [pathInt_snoc]
      cases b <;> simp [BitVec.toNat_add, BitVec.toNat_mul]
    rw [e]
    have h1 := Nat.mod_le (2 * (pathInt p).toNat + b.toNat) (2 ^ 255)
    have h2 : b.toNat ≤ 1 := by cases b <;> simp
    have h3 : 2 ^ (p ++ [b]).length = 2 ^ p.length * 2 := by rw [List.length_append]; exact Nat.pow_succ ..
    rw [h3]
    generalize (2 * (pathInt p).toNat + b.toNat) % 2 ^ 255 = m at *
    omega

theorem len_entryOf {p : List Bool} (h : p.length < 256) : (entryOf p).len.toNat = p.length := by
  simp [entryOf]; omega

theorem emission_entryOf {p : List Bool} (h : p.length < 256) : (entryOf p).emission = p := by
  rw [CodeEntry.emission, len_entryOf h]
  apply List.ext_getElem
  · simp
  · intro i h1 h2
    simp only [List.getElem_map, List.getElem_range, entryOf]
    rw [getLsbD_pathInt _ _ (by omega), List.getD_eq_getElem?_getD, List.getElem?_reverse (by omega)]
    simp [show p.length - 1 - (p.length - 1 - i) = i by omega, List.getElem?_eq_getElem h2]

/-- The emission of each leaf under the derived table is its path (R109, R160). -/
theorem HTree.emission_codeTable (t : HTree) (hn : t.leaves.Nodup) {v : Byte} {p : List Bool} (h : t.path v = some p) :
    (t.codeTable.read v).emission = p := by
  rw [t.codeTable_read hn, h]
  have h1 := t.path_length_lt h
  have h2 := leaves_length_le hn
  exact emission_entryOf (by omega)

theorem HTree.path_ne_nil {t : HTree} (hi : t.isInternal = true) {v : Byte} {p : List Bool} (h : t.path v = some p) :
    p ≠ [] := by
  cases t with
  | leaf => simp [HTree.isInternal] at hi
  | node l r =>
    simp only [HTree.path] at h
    split at h
    · simp at h; subst h; simp
    · simp at h; obtain ⟨q, _, rfl⟩ := h; simp

theorem HTree.code_ne_zero (t : HTree) (hi : t.isInternal = true) (hn : t.leaves.Nodup) (v : Byte) :
    (t.codeTable.read v).len ≠ 0 ↔ v ∈ t.leaves := by
  rw [t.codeTable_read hn, ← t.path_isSome_iff]
  cases h : t.path v with
  | none => simp [CodeEntry.noCode]
  | some p =>
    have h1 := t.path_length_lt h
    have h2 := leaves_length_le hn
    have h3 := len_entryOf (p := p) (by omega)
    have h4 := t.path_ne_nil hi h
    simp only [Option.isSome_some, iff_true]
    intro e
    rw [e] at h3
    simp at h3
    exact h4 (List.length_eq_zero_iff.1 h3.symm)

theorem HTree.path_prefix_free (t : HTree) : ∀ {v w : Byte} {p q : List Bool}, t.path v = some p → t.path w = some q →
    p <+: q → v = w := by
  induction t with
  | leaf x =>
    intro v w p q hv hw _
    simp only [HTree.path] at hv hw
    split at hv <;> split at hw <;> simp_all
  | node l r ihl ihr =>
    intro v w p q hv hw hp
    simp only [HTree.path] at hv hw
    split at hv <;> split at hw
    · rename_i a ha _ b hb
      simp at hv hw; subst hv hw
      exact ihl ha hb (by simpa using hp)
    · rename_i a ha _ hb
      simp at hv hw; subst hv
      obtain ⟨b, hb, rfl⟩ := hw
      simp at hp
    · rename_i a _ b hb
      simp at hv hw; subst hw
      obtain ⟨b, hb, rfl⟩ := hv
      simp at hp
    · simp at hv hw
      obtain ⟨a, ha, rfl⟩ := hv
      obtain ⟨b, hb, rfl⟩ := hw
      exact ihr ha hb (by simpa using hp)

end Sys2Proof.Machine
end

