-- ==== Sys2Proof/Laws/Build.lean ====
section
/-! SUPPORT. NODE as trees, and the Tree Builder (41_tree_builder.md R131 to R136). -/

namespace Sys2Proof.Machine

/-- NODE from index `i` is the tree `t` (R44), as a relation. -/
inductive Rep (nodes : List (Option Node)) : NodeIdx → HTree → Prop where
  | leaf {i v f} : nodes[i.toNat]? = some (some (.leaf v f)) → Rep nodes i (.leaf v)
  | node {i f l r tl tr} : nodes[i.toNat]? = some (some (.internal f l r)) → Rep nodes l tl → Rep nodes r tr →
      Rep nodes i (.node tl tr)

def HTree.height : HTree → Nat
  | .leaf _ => 0
  | .node l r => max l.height r.height + 1

theorem HTree.height_lt_leaves (t : HTree) : t.height < t.leaves.length := by
  induction t with
  | leaf => simp [HTree.height, HTree.leaves]
  | node l r ihl ihr =>
    have := l.leaves_pos
    have := r.leaves_pos
    simp only [HTree.height, HTree.leaves, List.length_append]
    omega

theorem Rep.treeAt_eq {nodes : List (Option Node)} {i : NodeIdx} {t : HTree} (h : Rep nodes i t) :
    ∀ {n : Nat}, t.height < n → Machine.treeAt nodes n i = some t := by
  induction h with
  | leaf h =>
    intro n hn
    cases n with
    | zero => omega
    | succ n => simp [Machine.treeAt, h]
  | node h _ _ ihl ihr =>
    intro n hn
    cases n with
    | zero => omega
    | succ n =>
      simp only [HTree.height] at hn
      simp [Machine.treeAt, h, ihl (n := n) (by omega), ihr (n := n) (by omega)]

theorem Rep.of_treeAt {nodes : List (Option Node)} : ∀ {n : Nat} {i : NodeIdx} {t : HTree},
    Machine.treeAt nodes n i = some t → Rep nodes i t
  | 0, i, t, h => by simp [Machine.treeAt] at h
  | n + 1, i, t, h => by
    simp only [Machine.treeAt] at h
    split at h
    · rename_i v f he
      simp at h; subst h; exact .leaf he
    · rename_i f l r he
      split at h
      · rename_i tl tr hl hr
        simp at h; subst h
        exact .node he (Rep.of_treeAt hl) (Rep.of_treeAt hr)
      · simp at h
    · simp at h

theorem Rep.absTree_eq {nodes : List (Option Node)} {i : NodeIdx} {t : HTree} (h : Rep nodes i t)
    (hl : t.leaves.length ≤ 256) : Machine.absTree nodes i = some t :=
  h.treeAt_eq (by have := t.height_lt_leaves; simp [Config.maxLeaves]; omega)

theorem getElem?_append_some {α : Type} {l m : List α} {i : Nat} {x : α} (h : l[i]? = some x) : (l ++ m)[i]? = some x := by
  rw [List.getElem?_append_left (by exact (List.getElem?_eq_some_iff.1 h).1), h]

theorem Rep.append {nodes : List (Option Node)} {i : NodeIdx} {t : HTree} (h : Rep nodes i t) (more : List (Option Node)) :
    Rep (nodes ++ more) i t := by
  induction h with
  | leaf h => exact .leaf (getElem?_append_some h)
  | node h _ _ ihl ihr => exact .node (getElem?_append_some h) ihl ihr

/-! HEAP -/

theorem State.minMember_mem (s : State) : ∀ {l : List NodeIdx} {m : NodeIdx}, s.minMember l = some m → m ∈ l
  | [], m, h => by simp [State.minMember] at h
  | i :: is, m, h => by
    simp only [State.minMember] at h
    split at h
    · simp at h; simp [h]
    · rename_i m' hm
      have := s.minMember_mem hm
      split at h <;> simp at h <;> subst h <;> simp [this]

theorem State.minMember_ne_none (s : State) : ∀ {l : List NodeIdx}, l ≠ [] → ∃ m, s.minMember l = some m
  | [], h => absurd rfl h
  | i :: is, _ => by
    simp only [State.minMember]
    split
    · exact ⟨_, rfl⟩
    · split <;> exact ⟨_, rfl⟩

theorem State.heapExtractMin_of_ne (s : State) (h : s.heap ≠ []) :
    ∃ m, m ∈ s.heap ∧ s.heapExtractMin = some (m, { s with heap := s.heap.erase m }) := by
  obtain ⟨m, hm⟩ := s.minMember_ne_none h
  exact ⟨m, s.minMember_mem hm, by simp [State.heapExtractMin, hm]⟩

theorem forall₂_erase {α β : Type} [DecidableEq α] {R : α → β → Prop} {l : List α} {ts : List β}
    (h : List.Forall₂ R l ts) {m : α} (hm : m ∈ l) :
    ∃ t ts', R m t ∧ List.Forall₂ R (l.erase m) ts' ∧ ts.Perm (t :: ts') := by
  induction h with
  | nil => simp at hm
  | cons h1 h2 ih =>
    rename_i a b l' ts'
    by_cases hma : a = m
    · subst hma
      exact ⟨b, ts', h1, by simpa using h2, .refl _⟩
    · have : m ∈ l' := by simpa [Ne.symm hma] using hm
      obtain ⟨t, us, hr, hf, hp⟩ := ih this
      refine ⟨t, b :: us, hr, ?_, ?_⟩
      · rw [List.erase_cons_tail (by simpa using hma)]
        exact .cons h1 hf
      · exact (hp.cons b).trans (.swap _ _ _)

/-- The sum of the frequencies of a tree's leaves. -/
def HTree.weight (freq : ByteTable Word64) (t : HTree) : Nat := (t.leaves.map fun v => (freq.read v).toNat).sum

/-- A member of HEAP during Build: the tree under it, and its frequency (R134). -/
def Member (freq : ByteTable Word64) (s : State) (i : NodeIdx) (t : HTree) : Prop :=
  Rep s.node i t ∧ s.freqAt i = BitVec.ofNat 64 (t.weight freq)

/-- What holds through Build (R131, R132): the members of HEAP are trees over the byte values so far. -/
structure Forest (freq : ByteTable Word64) (vs : List Byte) (s : State) (ts : List HTree) : Prop where
  members : List.Forall₂ (Member freq s) s.heap ts
  leaves : (ts.flatMap HTree.leaves).Perm vs
  count : s.node.length + ts.length = 2 * vs.length
  written : ∀ e ∈ s.node, e.isSome = true
  last : s.node ≠ [] → s.heap.getLast? = some (BitVec.ofNat 9 (s.node.length - 1))

theorem Rep.nodeAt {s : State} {i : NodeIdx} {t : HTree} (h : Rep s.node i t) : ∃ n, s.node[i.toNat]? = some (some n) := by
  cases h with
  | leaf h => exact ⟨_, h⟩
  | node h _ _ => exact ⟨_, h⟩

theorem Member.addNode {freq : ByteTable Word64} {s : State} {i : NodeIdx} {t : HTree} (h : Member freq s i t) (n : Node)
    (h' : List NodeIdx) : Member freq { s with node := s.node ++ [some n], heap := h' } i t := by
  obtain ⟨m, hm⟩ := h.1.nodeAt
  refine ⟨h.1.append _, ?_⟩
  rw [← h.2]
  simp [State.freqAt, State.nodeAt, hm, getElem?_append_some hm]

theorem new_index {s : State} {n : Node} (hl : s.node.length < 512) :
    (s.node ++ [some n])[(BitVec.ofNat 9 s.node.length : NodeIdx).toNat]? = some (some n) := by
  simp [Nat.mod_eq_of_lt hl]

theorem Forest.addNode {freq : ByteTable Word64} {vs' : List Byte} {s : State} {ts : List HTree} {t : HTree} {n : Node}
    (hm : List.Forall₂ (Member freq s) s.heap ts)
    (hn : Member freq (s.addNode n) (BitVec.ofNat 9 s.node.length) t)
    (hp : ((ts ++ [t]).flatMap HTree.leaves).Perm vs')
    (hc : s.node.length + 1 + (ts.length + 1) = 2 * vs'.length)
    (hw : ∀ e ∈ s.node, e.isSome = true) : Forest freq vs' (s.addNode n) (ts ++ [t]) where
  members := by
    refine List.rel_append (hm.imp fun a b h => h.addNode n _) (.cons hn .nil)
  leaves := hp
  count := by simp [State.addNode, State.heapInsert]; omega
  written := by
    intro e he
    simp [State.addNode, State.heapInsert] at he
    rcases he with he | rfl
    · exact hw e he
    · rfl
  last := by intro _; simp [State.addNode, State.heapInsert]

theorem addLeaves_forest (freq : ByteTable Word64) : ∀ (bs vs : List Byte) (s : State), s.freq = freq →
    Forest freq vs s (vs.map HTree.leaf) → (vs ++ bs).Nodup →
    Forest freq (vs ++ bs.filter fun v => freq.read v != 0) (bs.foldl State.addLeaf s)
      ((vs ++ bs.filter fun v => freq.read v != 0).map HTree.leaf)
  | [], vs, s, hf, h, hn => by simpa using h
  | b :: bs, vs, s, hf, h, hn => by
    have hlen := leaves_length_le hn
    simp at hlen
    have hc := h.count
    simp at hc
    by_cases hb : freq.read b = 0#64
    · have e : s.addLeaf b = s := by simp [State.addLeaf, hf, hb]
      rw [List.foldl_cons, e, List.filter_cons_of_neg (by simp [hb])]
      apply addLeaves_forest freq bs vs s hf h
      exact hn.sublist (List.Sublist.append (.refl _) (List.sublist_cons_self _ _))
    · have e : s.addLeaf b = s.addNode (.leaf b (freq.read b)) := by simp [State.addLeaf, hf, hb]
      rw [List.foldl_cons, e, List.filter_cons_of_pos (by simp [hb])]
      have := addLeaves_forest freq bs (vs ++ [b]) (s.addNode (.leaf b (freq.read b))) hf ?_ (by simpa using hn)
      · simpa using this
      · rw [List.map_append]
        have hi := new_index (s := s) (n := .leaf b (freq.read b)) (by omega)
        refine Forest.addNode h.members ⟨.leaf hi, ?_⟩ ?_ ?_ h.written
        · have : (s.addNode (.leaf b (freq.read b))).nodeAt (BitVec.ofNat 9 s.node.length) = some (.leaf b (freq.read b)) := by
            simp only [State.nodeAt, State.addNode, State.heapInsert, hi]; rfl
          simp [State.freqAt, this, Node.freq, HTree.weight, HTree.leaves]
        · simp [HTree.leaves, List.flatMap_map]
        · simp; omega

theorem Member.of_heap {freq : ByteTable Word64} {s : State} {i : NodeIdx} {t : HTree} (h : Member freq s i t) (h' : List NodeIdx) :
    Member freq { s with heap := h' } i t := h

theorem Forest.mergeStep {freq : ByteTable Word64} {vs : List Byte} {s : State} {ts : List HTree}
    (h : Forest freq vs s ts) (hl : vs.length ≤ 256) (h2 : 2 ≤ s.heap.length) :
    ∃ ta tb ts', ts.Perm (ta :: tb :: ts') ∧ Forest freq vs s.mergeStep (ts' ++ [.node ta tb]) := by
  have hne : s.heap ≠ [] := by intro e; simp [e] at h2
  obtain ⟨a, ha, ea⟩ := s.heapExtractMin_of_ne hne
  obtain ⟨ta, ts₁, ma, hm1, p1⟩ := forall₂_erase h.members ha
  have hl1 : (s.heap.erase a).length = s.heap.length - 1 := List.length_erase_of_mem ha
  have hne1 : ({ s with heap := s.heap.erase a } : State).heap ≠ [] := by
    intro e; rw [show s.heap.erase a = [] from e, List.length_nil] at hl1; omega
  obtain ⟨b, hb, eb⟩ := State.heapExtractMin_of_ne _ hne1
  obtain ⟨tb, ts₂, mb, hm2, p2⟩ := forall₂_erase hm1 hb
  have p3 : ts.Perm (ta :: tb :: ts₂) := p1.trans (p2.cons ta)
  have hlen := p3.length_eq
  have hcount := h.count
  have hpos : 1 ≤ ts.length := by rw [hlen]; simp
  have hnl : s.node.length < 512 := by omega
  refine ⟨ta, tb, ts₂, p3, ?_⟩
  simp only [State.mergeStep, ea, eb]
  set s₂ : State := { s with heap := (s.heap.erase a).erase b } with hs₂
  have hi := new_index (s := s₂) (n := .internal (s₂.freqAt a + s₂.freqAt b) a b) hnl
  refine Forest.addNode hm2 ⟨.node hi ?_ ?_, ?_⟩ ?_ ?_ h.written
  · exact ma.1.append _
  · exact mb.1.append _
  · have : (s₂.addNode (.internal (s₂.freqAt a + s₂.freqAt b) a b)).nodeAt (BitVec.ofNat 9 s₂.node.length) =
        some (.internal (s₂.freqAt a + s₂.freqAt b) a b) := by
      simp only [State.nodeAt, State.addNode, State.heapInsert, hi]; rfl
    have e1 : s₂.freqAt a = BitVec.ofNat 64 (ta.weight freq) := ma.2
    have e2 : s₂.freqAt b = BitVec.ofNat 64 (tb.weight freq) := mb.2
    have e3 : (s₂.addNode (.internal (s₂.freqAt a + s₂.freqAt b) a b)).freqAt (BitVec.ofNat 9 s₂.node.length) = s₂.freqAt a + s₂.freqAt b := by
      rw [State.freqAt, this]; rfl
    rw [e3, e1, e2]
    apply BitVec.eq_of_toNat_eq
    simp [HTree.weight, HTree.leaves]
  · refine List.Perm.trans ?_ h.leaves
    refine List.Perm.trans ?_ (p3.flatMap_right HTree.leaves).symm
    simp only [List.flatMap_append, List.flatMap_cons, List.flatMap_nil, List.append_nil, HTree.leaves]
    rw [← List.append_assoc (ta.leaves)]
    exact List.perm_append_comm
  · simp only [hs₂]; simp at hlen; omega

theorem State.mergeStep_heap_length {s : State} (h2 : 2 ≤ s.heap.length) : s.mergeStep.heap.length = s.heap.length - 1 := by
  have hne : s.heap ≠ [] := by intro e; simp [e] at h2
  obtain ⟨a, ha, ea⟩ := s.heapExtractMin_of_ne hne
  have hl1 : (s.heap.erase a).length = s.heap.length - 1 := List.length_erase_of_mem ha
  have hne1 : ({ s with heap := s.heap.erase a } : State).heap ≠ [] := by
    intro e; rw [show s.heap.erase a = [] from e, List.length_nil] at hl1; omega
  obtain ⟨b, hb, eb⟩ := State.heapExtractMin_of_ne _ hne1
  have hl2 : ((s.heap.erase a).erase b).length = (s.heap.erase a).length - 1 := List.length_erase_of_mem hb
  simp only [State.mergeStep, ea, eb, State.addNode, State.heapInsert]
  simp [hl2, hl1]; omega

theorem Forest.mergeLoop {freq : ByteTable Word64} {vs : List Byte} (hl : vs.length ≤ 256) : ∀ (n : Nat) {s : State} {ts : List HTree},
    Forest freq vs s ts → s.heap.length ≤ n + 1 → 1 ≤ s.heap.length →
    ∃ t, Forest freq vs (State.mergeLoop n s) [t]
  | 0, s, ts, h, hn, h1 => by
    have := h.members.length_eq
    match ts, h, this with
    | [t], h, _ => exact ⟨t, h⟩
    | [], h, e => rw [List.length_nil] at e; omega
    | _ :: _ :: _, h, e => rw [List.length_cons, List.length_cons] at e; omega
  | n + 1, s, ts, h, hn, h1 => by
    rw [State.mergeLoop]
    by_cases h2 : 1 < s.heap.length
    · rw [if_pos h2]
      obtain ⟨ta, tb, ts', _, hf⟩ := h.mergeStep hl h2
      have e := State.mergeStep_heap_length h2
      exact Forest.mergeLoop hl n hf (by omega) (by omega)
    · rw [if_neg h2]
      have := h.members.length_eq
      match ts, h, this with
      | [t], h, _ => exact ⟨t, h⟩
      | [], h, e => rw [List.length_nil] at e; omega
      | _ :: _ :: _, h, e => rw [List.length_cons, List.length_cons] at e; omega

/-! what Build writes -/

theorem State.mergeStep_eq (s : State) : s.mergeStep = { s with node := s.mergeStep.node, heap := s.mergeStep.heap } := by
  simp only [State.mergeStep]
  split
  · rfl
  · rename_i a s1 h1
    split
    · rfl
    · rename_i b s2 h2
      simp only [State.heapExtractMin, Option.map_eq_some_iff] at h1 h2
      obtain ⟨_, _, h1⟩ := h1
      obtain ⟨_, _, h2⟩ := h2
      simp at h1 h2
      obtain ⟨_, rfl⟩ := h1
      obtain ⟨_, rfl⟩ := h2
      rfl

theorem State.mergeLoop_eq : ∀ (n : Nat) (s : State),
    State.mergeLoop n s = { s with node := (State.mergeLoop n s).node, heap := (State.mergeLoop n s).heap }
  | 0, s => rfl
  | n + 1, s => by
    rw [State.mergeLoop]
    split
    · rw [State.mergeLoop_eq n s.mergeStep, State.mergeStep_eq s]
    · rfl

theorem State.foldl_addLeaf_eq : ∀ (bs : List Byte) (s : State),
    bs.foldl State.addLeaf s = { s with node := (bs.foldl State.addLeaf s).node, heap := (bs.foldl State.addLeaf s).heap }
  | [], s => rfl
  | b :: bs, s => by
    rw [List.foldl_cons, State.foldl_addLeaf_eq bs (s.addLeaf b)]
    simp only [State.addLeaf]
    split <;> rfl

theorem allBytes_nodup : allBytes.Nodup := by
  rw [allBytes, List.nodup_map_iff_inj_on List.nodup_range]
  intro a ha b hb h
  simp at ha hb
  have := congrArg BitVec.toNat h
  simpa [Nat.mod_eq_of_lt ha, Nat.mod_eq_of_lt hb] using this

theorem mem_allBytes (v : Byte) : v ∈ allBytes := by
  simp only [allBytes, List.mem_map, List.mem_range]
  exact ⟨v.toNat, v.isLt, by simp⟩

theorem presentBytes_nodup (freq : ByteTable Word64) : (presentBytes freq).Nodup := allBytes_nodup.filter _

theorem startForest (s : State) : Forest s.freq [] s.startBuilding [] where
  members := .nil
  leaves := .nil
  count := rfl
  written := by intro e he; simp [State.startBuilding, State.discardTree] at he
  last := by intro h; simp [State.startBuilding, State.discardTree] at h

theorem leafForest (s : State) : Forest s.freq (presentBytes s.freq) s.startBuilding.addLeaves ((presentBytes s.freq).map HTree.leaf) := by
  have := addLeaves_forest s.freq allBytes [] s.startBuilding rfl (startForest s) (by exact allBytes_nodup)
  exact this

theorem sum_present (freq : ByteTable Word64) : ((presentBytes freq).map fun v => (freq.read v).toNat).sum = freqSum freq := by
  have : ∀ l : List Byte, ((l.filter fun v => freq.read v != 0).map fun v => (freq.read v).toNat).sum =
      (l.map fun v => (freq.read v).toNat).sum := by
    intro l
    induction l with
    | nil => rfl
    | cons a l ih =>
      by_cases h : freq.read a = 0#64
      · rw [List.filter_cons_of_neg (by simp [h]), ih]; simp [h]
      · rw [List.filter_cons_of_pos (by simpa using h), List.map_cons, List.map_cons, List.sum_cons, List.sum_cons, ih]
  exact this allBytes

/-- What the leaves of R131 leave as they are. -/
theorem addLeaves_eq (s : State) : s.startBuilding.addLeaves = { s.enter .building with
    tree := none, node := s.startBuilding.addLeaves.node, heap := s.startBuilding.addLeaves.heap } := by
  rw [State.addLeaves]
  exact State.foldl_addLeaf_eq allBytes s.startBuilding

/-- Build on an alphabet of at least two byte values (R130 to R134). -/
theorem procBuild_ok (s : State) (h2 : 2 ≤ (presentBytes s.freq).length) :
    ∃ (u : State) (t : HTree) (h : TreeHead) (f : Word64) (l r : NodeIdx), procBuild s = .ok () u ∧ u.holdsTree t ∧ t.leaves.Perm (presentBytes s.freq)
      ∧ u.tree = some h ∧ h.root.toNat = u.node.length - 1 ∧ u.nodeAt h.root = some (.internal f l r)
      ∧ f = BitVec.ofNat 64 (freqSum s.freq)
      ∧ u = { s.enter .deriving_ with node := u.node, heap := [], tree := u.tree } := by
  have hf := leafForest s
  have hle := leaves_length_le (presentBytes_nodup s.freq)
  have hA := addLeaves_eq s
  have hpb : procBuild s = ((checkAlphabet s.startBuilding.addLeaves).onRaise State.discardTree).bind fun _ s =>
    finishBuild (State.mergeLoop s.heap.length s) := by rw [procBuild]
  generalize s.startBuilding.addLeaves = A at *
  have hhl := hf.members.length_eq
  have hcn := hf.count
  rw [List.length_map] at hhl hcn
  obtain ⟨t, hF⟩ := hf.mergeLoop hle A.heap.length (by omega) (by omega)
  have e1 := State.mergeLoop_eq A.heap.length A
  rw [checkAlphabet, show decide (Config.minLeaves ≤ A.node.length) = true by
      rw [decide_eq_true_iff, Config.minLeaves]; omega] at hpb
  simp only [require_true, Run.onRaise_ok, Run.bind_ok] at hpb
  generalize State.mergeLoop A.heap.length A = L at *
  have hc2 := hF.count
  rw [List.length_singleton] at hc2
  have hnl : L.node.length = 2 * (presentBytes s.freq).length - 1 := by omega
  have hlast := hF.last (by intro e; rw [e, List.length_nil] at hnl; omega)
  obtain ⟨root, hheap⟩ : ∃ root, L.heap = [root] := by
    have := hF.members.length_eq
    match h : L.heap, this with
    | [a], _ => exact ⟨a, rfl⟩
  have hroot : root = BitVec.ofNat 9 (L.node.length - 1) := by rw [hheap] at hlast; simpa using hlast
  have hmem : Member s.freq L root t := by
    have := hF.members; rw [hheap] at this; cases this; assumption
  have hperm : t.leaves.Perm (presentBytes s.freq) := by
    have := hF.leaves
    rwa [List.flatMap_cons, List.flatMap_nil, List.append_nil] at this
  have hnd : t.leaves.Nodup := hperm.nodup_iff.2 (presentBytes_nodup s.freq)
  have hll := hperm.length_eq
  have habs : absTree L.node root = some t := hmem.1.absTree_eq (by omega)
  obtain ⟨m, hm, em⟩ := L.heapExtractMin_of_ne (by simp [hheap])
  have hmr : m = root := by rw [hheap] at hm; simpa using hm
  subst hmr
  have hint : t.isInternal = true := by
    cases t with
    | leaf => rw [HTree.leaves, List.length_singleton] at hll; omega
    | node => rfl
  obtain ⟨f, l, r, hn⟩ : ∃ f l r, L.node[m.toNat]? = some (some (.internal f l r)) := by
    have h := hmem.1
    cases h with
    | leaf => simp [HTree.isInternal] at hint
    | node h _ _ => exact ⟨_, _, _, h⟩
  have hnode : L.nodeAt m = some (.internal f l r) := by rw [State.nodeAt, hn]; rfl
  have hrun : procBuild s = .ok () { L.enter .deriving_ with
      heap := [], tree := some { root := m, code := t.codeTable } } := by
    rw [hpb, finishBuild, em]
    simp only [finishTree]
    rw [habs]
    simp [hheap, State.enter]
  refine ⟨_, t, { root := m, code := t.codeTable }, f, l, r, hrun, ?_, hperm, rfl, ?_, hnode, ?_, ?_⟩
  · refine ⟨_, rfl, habs, rfl, hint, hnd, ?_, hF.written⟩
    show L.node.length = _
    omega
  · show m.toNat = L.node.length - 1
    rw [hroot, BitVec.toNat_ofNat]; omega
  · have := hmem.2
    rw [State.freqAt, hnode] at this
    rw [show f = _ from this]
    have e := (hperm.map fun v => (s.freq.read v).toNat).sum_eq
    rw [sum_present, ← HTree.weight] at e
    rw [e]
  · rw [e1, hA]
    simp [State.enter]

theorem procBuild_insufficient (s : State) (h2 : (presentBytes s.freq).length < 2) :
    procBuild s = .raised .insufficientAlphabet { s.enter .building with
      node := [], heap := s.startBuilding.addLeaves.heap, tree := none } := by
  have hf := leafForest s
  have hcn := hf.count
  rw [List.length_map] at hcn
  have hA := addLeaves_eq s
  have hpb : procBuild s = ((checkAlphabet s.startBuilding.addLeaves).onRaise State.discardTree).bind fun _ s =>
    finishBuild (State.mergeLoop s.heap.length s) := by rw [procBuild]
  generalize s.startBuilding.addLeaves = A at *
  rw [hpb, checkAlphabet, show decide (Config.minLeaves ≤ A.node.length) = false by
      rw [decide_eq_false_iff_not, Config.minLeaves]; omega]
  simp only [require_false, Run.onRaise_raised, Run.bind_raised]
  rw [hA]
  simp [State.discardTree, State.enter]

end Sys2Proof.Machine
end

