-- ==== Sys2Proof/Laws/Parse.lean ====
section
/-! SUPPORT. Shape bits, well-formed triples, and Parse (30_encoding.md R107, 42_tree_codec.md R156). -/

namespace Sys2Proof.Machine

theorem HTree.shape_length (t : HTree) : t.shape.length + 1 = 2 * t.leaves.length := by
  induction t with
  | leaf => rfl
  | node l r ihl ihr =>
    simp only [HTree.shape, HTree.leaves, List.length_cons, List.length_append]
    omega

theorem HTree.count_false_shape (t : HTree) : t.shape.count false = t.leaves.length := by
  induction t with
  | leaf => rfl
  | node l r ihl ihr => simp [HTree.shape, HTree.leaves, ihl, ihr]

theorem HTree.shape_pos (t : HTree) : 1 ≤ t.shape.length := by
  have := t.shape_length
  have := t.leaves_pos
  omega

theorem HTree.shape_head (t : HTree) : t.shape.head? = some t.isInternal := by
  cases t <;> rfl

theorem describesTrees_shape (t : HTree) : ∀ (bs : List Bool) (k : Nat),
    describesTrees (t.shape ++ bs) (k + 1) = describesTrees bs k := by
  induction t with
  | leaf => intro bs k; rfl
  | node l r ihl ihr =>
    intro bs k
    show describesTrees ((l.shape ++ r.shape) ++ bs) (k + 2) = _
    rw [List.append_assoc, ihl, ihr]

/-- Bits that describe `k` trees are the shapes of `k` trees, whose leaves carry any values of that number. -/
theorem exists_trees_of_describes : ∀ (bs : List Bool) (k : Nat) (vs : List Byte), describesTrees bs k = true →
    vs.length = bs.count false →
    ∃ ts : List HTree, ts.length = k ∧ ts.flatMap HTree.shape = bs ∧ ts.flatMap HTree.leaves = vs
  | [], 0, vs, h, hv => by
    simp at hv
    exact ⟨[], rfl, rfl, by simp [hv]⟩
  | [], k + 1, vs, h, hv => by simp [describesTrees] at h
  | b :: bs, 0, vs, h, hv => by simp [describesTrees] at h
  | true :: bs, k + 1, vs, h, hv => by
    obtain ⟨ts, hl, hs, hvv⟩ := exists_trees_of_describes bs (k + 2) vs (by exact h) (by simpa using hv)
    match ts, hl with
    | l :: r :: ts, hl =>
      refine ⟨.node l r :: ts, by simpa using hl, ?_, ?_⟩
      · simpa [HTree.shape] using hs
      · simpa [HTree.leaves] using hvv
  | false :: bs, k + 1, vs, h, hv => by
    match vs, hv with
    | [], hv => simp at hv
    | v :: vs, hv =>
      obtain ⟨ts, hl, hs, hvv⟩ := exists_trees_of_describes bs k vs (by exact h) (by simpa using hv)
      exact ⟨.leaf v :: ts, by simpa using hl, by simpa [HTree.shape] using hs, by simpa [HTree.leaves] using hvv⟩

theorem SerTree.exists_tree {c : SerTree} (h : c.wellFormed = true) :
    ∃ t : HTree, t.shape = c.shape ∧ t.leaves = c.leafv ∧ t.isInternal = true ∧ t.leaves.Nodup := by
  simp only [SerTree.wellFormed, Bool.and_eq_true, decide_eq_true_eq] at h
  obtain ⟨⟨⟨⟨⟨_, _⟩, hh⟩, hd⟩, hc⟩, hn⟩ := h
  obtain ⟨ts, hl, hs, hv⟩ := exists_trees_of_describes c.shape 1 c.leafv hd hc
  match ts, hl with
  | [t], _ =>
    simp at hs hv
    refine ⟨t, hs, hv, ?_, hv ▸ hn⟩
    have := t.shape_head
    rw [hs] at this
    simp [this] at hh
    exact hh

theorem HTree.wellFormed_of {t : HTree} (hi : t.isInternal = true) (hn : t.leaves.Nodup) :
    ({ shape := t.shape, leafv := t.leaves } : SerTree).wellFormed = true := by
  have h1 := t.shape_length
  have h2 := leaves_length_le hn
  have h3 : 2 ≤ t.leaves.length := by
    cases t with
    | leaf => simp [HTree.isInternal] at hi
    | node l r =>
      have := l.leaves_pos
      have := r.leaves_pos
      simp only [HTree.leaves, List.length_append]; omega
  have h4 : describesTrees t.shape 1 = true := by
    have := describesTrees_shape t [] 0
    rw [List.append_nil] at this
    rw [this]; rfl
  simp only [SerTree.wellFormed, Bool.and_eq_true, decide_eq_true_eq, t.shape_head, hi, h4, t.count_false_shape, Config.maxNodes]
  exact ⟨⟨⟨⟨⟨(by omega : 3 ≤ t.shape.length), decide_eq_true (by omega : t.shape.length ≤ 511)⟩, by decide⟩, trivial⟩, trivial⟩, hn⟩

/-! the nodes Deserialize writes -/

/-- NODE as Parse fills it for `t` from index `b` on: pre-order, frequencies 0 (R156). -/
def HTree.layout : HTree → Nat → List Node
  | .leaf v, _ => [.leaf v 0]
  | .node l r, b =>
    .internal 0 (BitVec.ofNat 9 (b + 1)) (BitVec.ofNat 9 (b + 1 + l.shape.length))
      :: (l.layout (b + 1) ++ r.layout (b + 1 + l.shape.length))

theorem HTree.layout_length (t : HTree) : ∀ b, (t.layout b).length = t.shape.length := by
  induction t with
  | leaf => intro b; rfl
  | node l r ihl ihr => intro b; simp [HTree.layout, HTree.shape, ihl, ihr]

theorem HTree.layout_freq (t : HTree) : ∀ b, ∀ n ∈ t.layout b, n.freq = 0 := by
  induction t with
  | leaf => intro b n h; simp [HTree.layout] at h; subst h; rfl
  | node l r ihl ihr =>
    intro b n h
    simp only [HTree.layout, List.mem_cons, List.mem_append] at h
    rcases h with rfl | h | h
    · rfl
    · exact ihl _ n h
    · exact ihr _ n h

theorem HTree.rep_layout (t : HTree) : ∀ (pre post : List (Option Node)), pre.length + t.shape.length ≤ 512 →
    Rep (pre ++ (t.layout pre.length).map some ++ post) (BitVec.ofNat 9 pre.length) t := by
  induction t with
  | leaf v =>
    intro pre post h
    simp [HTree.shape] at h
    refine .leaf (f := 0) ?_
    rw [BitVec.toNat_ofNat, Nat.mod_eq_of_lt (by omega)]
    simp [HTree.layout]
  | node l r ihl ihr =>
    intro pre post h
    simp only [HTree.shape, List.length_cons, List.length_append] at h
    have hl := l.shape_pos
    have hr := r.shape_pos
    refine .node (f := 0) (l := BitVec.ofNat 9 (pre.length + 1)) (r := BitVec.ofNat 9 (pre.length + 1 + l.shape.length)) ?_ ?_ ?_
    · rw [BitVec.toNat_ofNat, Nat.mod_eq_of_lt (by omega)]
      simp [HTree.layout]
    · have := ihl (pre ++ [some (.internal 0 (BitVec.ofNat 9 (pre.length + 1)) (BitVec.ofNat 9 (pre.length + 1 + l.shape.length)))])
        ((r.layout (pre.length + 1 + l.shape.length)).map some ++ post) (by simp; omega)
      simpa [HTree.layout] using this
    · have := ihr (pre ++ [some (.internal 0 (BitVec.ofNat 9 (pre.length + 1)) (BitVec.ofNat 9 (pre.length + 1 + l.shape.length)))]
        ++ (l.layout (pre.length + 1)).map some) post (by simp [HTree.layout_length]; omega)
      simpa [HTree.layout, HTree.layout_length, ← Nat.add_assoc, Nat.add_right_comm _ l.shape.length 1] using this

/-! Parse -/

/-- What holds between the calls of Parse (R156): `used` are the leaf values consumed. -/
structure Parsing (t : SerTree) (s : State) (used : List Byte) : Prop where
  shapePos : s.des.shapePos.toNat = s.node.length
  small : t.shape.length ≤ 511
  within : s.node.length ≤ t.shape.length
  leafPos : s.des.leafPos.toNat = used.length
  nodup : used.Nodup
  taken : used <+: t.leafv
  seen : ∀ v : Byte, s.des.seen.getLsbD v.toNat = decide (v ∈ used)

/-- Parse changes NODE and its scratch only, and can only raise MalformedTree (R156). -/
theorem parseLeaf_frame (lv : List Byte) (i : NodeIdx) (s : State) :
    (∃ u, parseLeaf lv i s = .ok () u ∧ u = { s with node := u.node, des := u.des }) ∨
    (∃ u, parseLeaf lv i s = .raised .malformedTree u ∧ u = { s with node := u.node, des := u.des }) := by
  simp only [parseLeaf]
  split
  · exact .inr ⟨_, rfl, rfl⟩
  · split
    · exact .inr ⟨_, rfl, rfl⟩
    · exact .inl ⟨_, rfl, rfl⟩

theorem parse_frame (t : SerTree) : ∀ (n : Nat) (s : State),
    (∃ i u, parse t n s = .ok i u ∧ u = { s with node := u.node, des := u.des }) ∨
    (∃ u, parse t n s = .raised .malformedTree u ∧ u = { s with node := u.node, des := u.des })
  | 0, s => .inr ⟨_, rfl, rfl⟩
  | n + 1, s => by
    rw [parse]
    split
    · exact .inr ⟨_, rfl, rfl⟩
    · simp only
      split
      · rcases parse_frame t n s.takeShapeBit with ⟨i, u, h, hu⟩ | ⟨u, h, hu⟩
        · rw [h]; simp only [Run.bind_ok]
          rcases parse_frame t n u with ⟨j, w, h2, hw⟩ | ⟨w, h2, hw⟩
          · rw [h2]
            refine .inl ⟨_, _, rfl, ?_⟩
            rw [hw, hu]; rfl
          · rw [h2]
            refine .inr ⟨_, rfl, ?_⟩
            rw [hw, hu]; rfl
        · rw [h]; exact .inr ⟨_, rfl, by rw [hu]; rfl⟩
      · rcases parseLeaf_frame t.leafv (BitVec.ofNat 9 s.node.length) s.takeShapeBit with ⟨u, h, hu⟩ | ⟨u, h, hu⟩
        · rw [h]; exact .inl ⟨_, _, rfl, by rw [hu]; rfl⟩
        · rw [h]; exact .inr ⟨_, rfl, by rw [hu]; rfl⟩

theorem toNat_succ_of_lt {w : Nat} {x : BitVec w} {n : Nat} (h : x.toNat = n) (hn : n + 1 < 2 ^ w) : (x + 1).toNat = n + 1 := by
  have : 1 < 2 ^ w := by omega
  have h1 : (1 : BitVec w).toNat = 1 := by
    show (BitVec.ofNat w 1).toNat = 1
    rw [BitVec.toNat_ofNat, Nat.mod_eq_of_lt this]
  rw [BitVec.toNat_add, h, h1, Nat.mod_eq_of_lt hn]

theorem set_append_none (pre post : List (Option Node)) (n : Node) (h : pre.length < 512) :
    (pre ++ none :: post).set (BitVec.ofNat 9 pre.length : NodeIdx).toNat (some n) = pre ++ some n :: post := by
  rw [BitVec.toNat_ofNat, Nat.mod_eq_of_lt (by omega)]
  simp

theorem Parsing.take {t : SerTree} {s : State} {used : List Byte} (h : Parsing t s used) (hlt : s.node.length < t.shape.length) :
    Parsing t s.takeShapeBit used where
  shapePos := by
    have := h.small
    simp only [State.takeShapeBit, List.length_append, List.length_singleton]
    exact toNat_succ_of_lt h.shapePos (by omega)
  small := h.small
  within := by simp only [State.takeShapeBit, List.length_append, List.length_singleton]; omega
  leafPos := h.leafPos
  nodup := h.nodup
  taken := h.taken
  seen := h.seen

theorem prefix_snoc_iff {α : Type} {l m : List α} {x : α} (h : l <+: m) : l ++ [x] <+: m ↔ m[l.length]? = some x := by
  obtain ⟨r, rfl⟩ := h
  cases r with
  | nil =>
    simp
    intro h; have := h.length_le; simp at this
  | cons y r => simp [List.cons_prefix_cons, eq_comm]

theorem getLsbD_seen (seen : BitVec 256) (v w : Byte) :
    (seen ||| (1#256 <<< v.toNat)).getLsbD w.toNat = (seen.getLsbD w.toNat || decide (w = v)) := by
  have hv := v.isLt
  have hw := w.isLt
  rw [BitVec.getLsbD_or, BitVec.getLsbD_shiftLeft, BitVec.getLsbD_one]
  by_cases h : w = v
  · subst h; simp; right; exact hv
  · have : w.toNat ≠ v.toNat := fun e => h (BitVec.eq_of_toNat_eq e)
    congr 1
    simp only [h, decide_false]
    by_cases h2 : w.toNat < v.toNat
    · simp [h2]
    · simp; omega

theorem parseLeaf_ok {t : SerTree} {s u : State} {used : List Byte} (h : Parsing t s used) (pre : List (Option Node))
    (hpre : s.node = pre ++ [none])
    (hok : parseLeaf t.leafv (BitVec.ofNat 9 pre.length) s = .ok () u) :
    ∃ v, u = { s with node := pre ++ [some (.leaf v 0)], des := u.des } ∧ Parsing t u (used ++ [v]) := by
  have hlen : s.node.length = pre.length + 1 := by simp [hpre]
  have := h.small
  have := h.within
  simp only [parseLeaf] at hok
  split at hok
  · simp at hok
  · rename_i v hv
    split at hok
    · simp at hok
    · rename_i hseen
      simp only [Run.ok.injEq, true_and] at hok
      subst hok
      have hset : (s.node.set (BitVec.ofNat 9 pre.length : NodeIdx).toNat (some (.leaf v 0))) = pre ++ [some (.leaf v 0)] := by
        rw [hpre]; exact set_append_none pre [] _ (by omega)
      have hseen' : v ∉ used := by
        have := h.seen v
        intro hm
        rw [this] at hseen
        simp [hm] at hseen
      have hnd : (used ++ [v]).Nodup := by
        rw [List.nodup_append]
        refine ⟨h.nodup, by simp, ?_⟩
        intro a ha b hb; simp at hb; subst hb; rintro rfl; exact hseen' ha
      have hle := leaves_length_le hnd
      rw [List.length_append, List.length_singleton] at hle
      refine ⟨v, ?_, ?_⟩
      · simp only [State.writeNode, hset]
      · refine { shapePos := ?_, small := h.small, within := ?_, leafPos := ?_, nodup := hnd, taken := ?_, seen := ?_ }
        · simp only [State.writeNode, List.length_set]; exact h.shapePos
        · simp only [State.writeNode, List.length_set]; exact h.within
        · simp only [State.writeNode, List.length_append, List.length_singleton]
          exact toNat_succ_of_lt h.leafPos (by omega)
        · rw [prefix_snoc_iff h.taken, ← h.leafPos]; exact hv
        · intro w
          simp only [State.writeNode]
          rw [getLsbD_seen, h.seen]
          simp

theorem parseLeaf_complete {t : SerTree} {s : State} {used : List Byte} {v : Byte} (h : Parsing t s used) (i : NodeIdx)
    (hv : used ++ [v] <+: t.leafv) (hn : (used ++ [v]).Nodup) : ∃ u, parseLeaf t.leafv i s = .ok () u := by
  rw [prefix_snoc_iff h.taken, ← h.leafPos] at hv
  have hs : v ∉ used := by
    rw [List.nodup_append] at hn
    intro hm; exact hn.2.2 v hm v (by simp) rfl
  have h2 := h.seen v
  simp only [hs, decide_false] at h2
  simp [parseLeaf, hv, h2]

/-- Parse, when it returns, has read the shape and the leaves of one tree (R156). -/
theorem parse_ok (t : SerTree) : ∀ (n : Nat) {s u : State} {i : NodeIdx} {used : List Byte}, Parsing t s used →
    parse t n s = .ok i u → ∃ tr : HTree, i = BitVec.ofNat 9 s.node.length ∧ Parsing t u (used ++ tr.leaves)
      ∧ u = { s with node := s.node ++ (tr.layout s.node.length).map some, des := u.des }
      ∧ t.shape.drop s.node.length = tr.shape ++ t.shape.drop u.node.length
  | 0, s, u, i, used, hp, h => by simp [parse] at h
  | n + 1, s, u, i, used, hp, h => by
    rw [parse] at h
    split at h
    · simp at h
    · rename_i bit hbit
      rw [hp.shapePos] at hbit
      have hlt : s.node.length < t.shape.length := (List.getElem?_eq_some_iff.1 hbit).1
      have hdrop : t.shape.drop s.node.length = bit :: t.shape.drop (s.node.length + 1) := by
        rw [List.drop_eq_getElem_cons hlt]
        congr 1
        exact (List.getElem?_eq_some_iff.1 hbit).2
      have hsmall := hp.small
      simp only at h
      have htl : s.takeShapeBit.node.length = s.node.length + 1 := by simp [State.takeShapeBit]
      split at h
      · rename_i hb
        rcases parse_frame t n s.takeShapeBit with ⟨l, u1, h1, _⟩ | ⟨u1, h1, _⟩
        · rw [h1] at h
          simp only [Run.bind_ok] at h
          rcases parse_frame t n u1 with ⟨r, u2, h2, _⟩ | ⟨u2, h2, _⟩
          · rw [h2] at h
            simp only [Run.bind_ok, Run.ok.injEq] at h
            obtain ⟨rfl, rfl⟩ := h
            obtain ⟨tl, hl, hp1, e1, d1⟩ := parse_ok t n (hp.take hlt) h1
            obtain ⟨tr, hr, hp2, e2, d2⟩ := parse_ok t n hp1 h2
            have hn1 : u1.node = s.node ++ none :: (tl.layout (s.node.length + 1)).map some := by
              rw [e1]; simp [State.takeShapeBit]
            have hl1 : u1.node.length = s.node.length + 1 + tl.shape.length := by
              rw [hn1]; simp [HTree.layout_length]; omega
            have hn2 : u2.node = s.node ++ none :: ((tl.layout (s.node.length + 1)).map some ++
                (tr.layout (s.node.length + 1 + tl.shape.length)).map some) := by
              rw [e2]; simp only [hl1]; rw [hn1]; simp
            have hset : u2.node.set (BitVec.ofNat 9 s.node.length : NodeIdx).toNat (some (.internal 0 l r)) =
                s.node ++ ((HTree.node tl tr).layout s.node.length).map some := by
              rw [hn2, set_append_none _ _ _ (by omega), hl, hr, htl, hl1]
              simp [HTree.layout]
            refine ⟨.node tl tr, rfl, ?_, ?_, ?_⟩
            · rw [HTree.leaves, ← List.append_assoc]
              exact { shapePos := by simp only [State.writeNode, List.length_set]; exact hp2.shapePos
                      small := hp2.small
                      within := by simp only [State.writeNode, List.length_set]; exact hp2.within
                      leafPos := hp2.leafPos, nodup := hp2.nodup, taken := hp2.taken, seen := hp2.seen }
            · simp only [State.writeNode, hset]
              rw [e2, e1]; simp [State.takeShapeBit]
            · simp only [State.writeNode, List.length_set]
              rw [hdrop, ← htl, d1, d2, hb]
              simp [HTree.shape]
          · rw [h2] at h; simp at h
        · rw [h1] at h; simp at h
      · rename_i hb
        rcases parseLeaf_frame t.leafv (BitVec.ofNat 9 s.node.length) s.takeShapeBit with ⟨u1, h1, _⟩ | ⟨u1, h1, _⟩
        · rw [h1] at h
          simp only [Run.bind_ok, Run.ok.injEq] at h
          obtain ⟨rfl, rfl⟩ := h
          obtain ⟨v, e1, hp1⟩ := parseLeaf_ok (hp.take hlt) s.node rfl h1
          refine ⟨.leaf v, rfl, hp1, ?_, ?_⟩
          · rw [e1]; simp [State.takeShapeBit, HTree.layout]
          · rw [hdrop, e1]
            simp at hb
            simp [HTree.shape, hb]
        · rw [h1] at h; simp at h

/-- Parse reads a tree that is there (R156). -/
theorem parse_complete (t : SerTree) (tr : HTree) : ∀ (n : Nat) {s : State} {used : List Byte} (rest : List Bool), Parsing t s used →
    t.shape.drop s.node.length = tr.shape ++ rest → used ++ tr.leaves <+: t.leafv → (used ++ tr.leaves).Nodup →
    tr.height < n → ∃ u, parse t n s = .ok (BitVec.ofNat 9 s.node.length) u ∧ Parsing t u (used ++ tr.leaves)
      ∧ u.node = s.node ++ (tr.layout s.node.length).map some ∧ t.shape.drop u.node.length = rest := by
  induction tr with
  | leaf v =>
    intro n s used rest hp hd hl hn hh
    cases n with
    | zero => omega
    | succ n =>
      have hbit : t.shape[s.node.length]? = some false := by
        have := congrArg List.head? hd
        simpa [HTree.shape] using this
      have hlt : s.node.length < t.shape.length := (List.getElem?_eq_some_iff.1 hbit).1
      obtain ⟨u, hu⟩ := parseLeaf_complete (hp.take hlt) (BitVec.ofNat 9 s.node.length) hl hn
      have hrun : parse t (n + 1) s = .ok (BitVec.ofNat 9 s.node.length) u := by
        rw [parse, hp.shapePos, hbit]; simp [hu]
      obtain ⟨v', e1, hp1⟩ := parseLeaf_ok (hp.take hlt) s.node rfl hu
      have hv : v' = v := by
        have a := (prefix_snoc_iff hp.taken).1 hl
        have b := (prefix_snoc_iff hp.taken).1 hp1.taken
        rw [a] at b; simpa using b.symm
      subst hv
      refine ⟨u, hrun, hp1, by rw [e1]; simp [HTree.layout], ?_⟩
      rw [e1]
      simp only [List.length_append, List.length_singleton]
      have := congrArg List.tail hd
      simpa [HTree.shape] using this
  | node l r ihl ihr =>
    intro n s used rest hp hd hl hn hh
    cases n with
    | zero => omega
    | succ n =>
      simp only [HTree.height] at hh
      rw [HTree.leaves, ← List.append_assoc] at hl hn
      have hbit : t.shape[s.node.length]? = some true := by
        have := congrArg List.head? hd
        simpa [HTree.shape] using this
      have hlt : s.node.length < t.shape.length := (List.getElem?_eq_some_iff.1 hbit).1
      have htl : s.takeShapeBit.node.length = s.node.length + 1 := by simp [State.takeShapeBit]
      have hd1 : t.shape.drop s.takeShapeBit.node.length = l.shape ++ (r.shape ++ rest) := by
        rw [htl]
        have := congrArg List.tail hd
        simpa [HTree.shape] using this
      obtain ⟨u1, h1, hp1, n1, d1⟩ := ihl n _ (hp.take hlt) hd1 ((List.prefix_append _ _).trans hl)
        (hn.sublist (List.sublist_append_left _ _)) (by omega)
      obtain ⟨u2, h2, hp2, n2, d2⟩ := ihr n _ hp1 d1 hl hn (by omega)
      have hrun : parse t (n + 1) s = .ok (BitVec.ofNat 9 s.node.length) (u2.writeNode (BitVec.ofNat 9 s.node.length)
          (.internal 0 (BitVec.ofNat 9 s.takeShapeBit.node.length) (BitVec.ofNat 9 u1.node.length))) := by
        rw [parse, hp.shapePos, hbit]; simp [h1, h2]
      refine ⟨_, hrun, ?_, ?_, ?_⟩
      · rw [HTree.leaves, ← List.append_assoc]
        exact { shapePos := by simp only [State.writeNode, List.length_set]; exact hp2.shapePos
                small := hp2.small
                within := by simp only [State.writeNode, List.length_set]; exact hp2.within
                leafPos := hp2.leafPos, nodup := hp2.nodup, taken := hp2.taken, seen := hp2.seen }
      · have hsmall := hp.small
        have hl1 : u1.node.length = s.node.length + 1 + l.shape.length := by
          rw [n1, List.length_append, List.length_map, HTree.layout_length, htl]
        simp only [State.writeNode]
        rw [n2, hl1, n1, htl]
        have := set_append_none s.node ((l.layout (s.node.length + 1)).map some ++ (r.layout (s.node.length + 1 + l.shape.length)).map some)
          (.internal 0 (BitVec.ofNat 9 (s.node.length + 1)) (BitVec.ofNat 9 (s.node.length + 1 + l.shape.length))) (by omega)
        simpa [State.takeShapeBit, HTree.layout] using this
      · simp only [State.writeNode, List.length_set]; exact d2

end Sys2Proof.Machine
end

