-- ==== Sys2Proof/Laws/Codec.lean ====
section
/-! SUPPORT. Deserialize accepts exactly the well-formed triples (42_tree_codec.md R157, R158). -/

namespace Sys2Proof.Machine

/-- The checks of Deserialize pass on a well-formed triple (R157, R158). -/
theorem parseTree_complete {c : SerTree} {tr : HTree} (hc : c.wellFormed = true) (hs : tr.shape = c.shape) (hl : tr.leaves = c.leafv)
    {s : State} (hn : s.node = []) : ∃ u, parseTree c s = .ok 0 u
      ∧ u = { s with node := (tr.layout 0).map some, des := u.des } := by
  simp only [SerTree.wellFormed, Bool.and_eq_true, decide_eq_true_eq] at hc
  obtain ⟨⟨⟨⟨⟨h3, h511⟩, hh⟩, hd⟩, hcount⟩, hnd⟩ := hc
  have hp : Parsing c s.startParsing [] :=
    { shapePos := by simp [State.startParsing, hn], small := h511, within := by simp [State.startParsing, hn]
      leafPos := by simp [State.startParsing], nodup := .nil, taken := List.nil_prefix, seen := by simp [State.startParsing] }
  have hlen := tr.shape_length
  have hht := tr.height_lt_leaves
  obtain ⟨u, hu, hpu, hun, hud⟩ := parse_complete c tr (Config.maxNodes + 1) [] hp
    (by simp [State.startParsing, hn, hs]) (by simp [hl]) (by simp [hl]; exact hnd) (by rw [hs] at hlen; simp only [Config.maxNodes] at *; omega)
  have hnode : s.startParsing.node = [] := hn
  rw [hnode] at hun hu
  simp at hun
  have hunl : u.node.length = c.shape.length := by rw [hun, List.length_map, HTree.layout_length, hs]
  have hrun : parseTree c s = .ok 0 u := by
    simp only [parseTree]
    rw [show decide (c.shape.length ≤ Config.maxNodes) = true by simpa using h511,
      show decide (1 ≤ c.shape.length) = true by simp; omega, hh]
    simp only [require_true, Run.bind_ok]
    rw [hu]
    simp only [Run.bind_ok]
    rw [show decide (u.des.shapePos.toNat = c.shape.length) = true by simp [hpu.shapePos, hunl]]
    simp only [require_true, Run.bind_ok]
    rw [show decide (u.des.leafPos.toNat = c.leafv.length) = true by simp [hpu.leafPos, hl]]
    rfl
  refine ⟨u, hrun, ?_⟩
  rcases parse_frame c (Config.maxNodes + 1) s.startParsing with ⟨i, w, h, hw⟩ | ⟨w, h, hw⟩
  · rw [h] at hu; cases hu
    rw [hw]; simp only [State.startParsing]; rw [hun]
  · rw [h] at hu; cases hu

/-- Deserialize's checks pass only on a well-formed triple (R157, R158). -/
theorem parseTree_sound {c : SerTree} {s u : State} {i : NodeIdx} (hn : s.node = []) (h : parseTree c s = .ok i u) :
    c.wellFormed = true := by
  simp only [parseTree] at h
  by_cases h511 : c.shape.length ≤ Config.maxNodes
  · rw [show decide (c.shape.length ≤ Config.maxNodes) = true by simpa using h511] at h
    simp only [require_true, Run.bind_ok] at h
    by_cases h1 : 1 ≤ c.shape.length
    · rw [show decide (1 ≤ c.shape.length) = true by simpa using h1] at h
      simp only [require_true, Run.bind_ok] at h
      by_cases hh : c.shape.head? = some true
      · rw [show (c.shape.head? == some true) = true by simp [hh]] at h
        simp only [require_true, Run.bind_ok] at h
        rcases parse_frame c (Config.maxNodes + 1) s.startParsing with ⟨j, w, hw, _⟩ | ⟨w, hw, _⟩
        · rw [hw] at h
          simp only [Run.bind_ok] at h
          by_cases hs : w.des.shapePos.toNat = c.shape.length
          · rw [show decide (w.des.shapePos.toNat = c.shape.length) = true by simpa using hs] at h
            simp only [require_true, Run.bind_ok] at h
            by_cases hl : w.des.leafPos.toNat = c.leafv.length
            · have hp : Parsing c s.startParsing [] :=
                { shapePos := by simp [State.startParsing, hn], small := h511, within := by simp [State.startParsing, hn]
                  leafPos := by simp [State.startParsing], nodup := .nil, taken := List.nil_prefix, seen := by simp [State.startParsing] }
              obtain ⟨tr, _, hpw, ew, hd⟩ := parse_ok c _ hp hw
              have hnode : s.startParsing.node = [] := hn
              rw [hnode, ← hpw.shapePos, hs, List.length_nil, List.drop_zero, List.drop_length, List.append_nil] at hd
              have hlv : tr.leaves = c.leafv := by
                have := hpw.taken
                rw [List.nil_append] at this
                exact this.eq_of_length (by rw [← hl, hpw.leafPos, List.nil_append])
              have hi : tr.isInternal = true := by
                have := tr.shape_head
                rw [← hd, hh] at this
                simpa using this.symm
              have := hpw.nodup
              rw [List.nil_append] at this
              have w := HTree.wellFormed_of hi this
              rw [← hd, hlv] at w
              exact w
            · rw [show decide (w.des.leafPos.toNat = c.leafv.length) = false by simpa using hl] at h
              simp [require] at h
          · rw [show decide (w.des.shapePos.toNat = c.shape.length) = false by simpa using hs] at h
            simp [require] at h
        · rw [hw] at h; simp at h
      · rw [show (c.shape.head? == some true) = false by simp [hh]] at h
        simp [require] at h
    · rw [show decide (1 ≤ c.shape.length) = false by simpa using h1] at h
      simp [require] at h
  · rw [show decide (c.shape.length ≤ Config.maxNodes) = false by simpa using h511] at h
    simp [require] at h

theorem require_cases (c : Bool) (t : Failure) (s : State) :
    (c = true ∧ require c t s = .ok () s) ∨ (c = false ∧ require c t s = .raised t s) := by
  cases c <;> simp

theorem parseTree_frame (c : SerTree) (s : State) :
    (∃ i u, parseTree c s = .ok i u ∧ u = { s with node := u.node, des := u.des }) ∨
    (∃ u, parseTree c s = .raised .malformedTree u ∧ u = { s with node := u.node, des := u.des }) := by
  simp only [parseTree]
  rcases require_cases (decide (c.shape.length ≤ Config.maxNodes)) .malformedTree s with ⟨-, h⟩ | ⟨-, h⟩ <;> rw [h]
  swap
  · exact .inr ⟨_, rfl, rfl⟩
  simp only [Run.bind_ok]
  rcases require_cases (decide (1 ≤ c.shape.length)) .malformedTree s.startParsing with ⟨-, h⟩ | ⟨-, h⟩ <;> rw [h]
  swap
  · exact .inr ⟨_, rfl, rfl⟩
  simp only [Run.bind_ok]
  rcases require_cases (c.shape.head? == some true) .malformedTree s.startParsing with ⟨-, h⟩ | ⟨-, h⟩ <;> rw [h]
  swap
  · exact .inr ⟨_, rfl, rfl⟩
  simp only [Run.bind_ok]
  rcases parse_frame c (Config.maxNodes + 1) s.startParsing with ⟨j, w, hw, e⟩ | ⟨w, hw, e⟩ <;> rw [hw]
  swap
  · exact .inr ⟨_, rfl, by rw [e]; rfl⟩
  have e2 : w = { s with node := w.node, des := w.des } := by rw [e]; rfl
  simp only [Run.bind_ok]
  rcases require_cases (decide (w.des.shapePos.toNat = c.shape.length)) .malformedTree w with ⟨-, h⟩ | ⟨-, h⟩ <;> rw [h]
  swap
  · exact .inr ⟨_, rfl, e2⟩
  simp only [Run.bind_ok]
  rcases require_cases (decide (w.des.leafPos.toNat = c.leafv.length)) .malformedTree w with ⟨-, h⟩ | ⟨-, h⟩ <;> rw [h]
  swap
  · exact .inr ⟨_, rfl, e2⟩
  exact .inl ⟨_, _, rfl, e2⟩

/-- Deserialize on a well-formed triple (R157). -/
theorem procDeserialize_ok {c : SerTree} {tr : HTree} (hc : c.wellFormed = true) (hs : tr.shape = c.shape) (hl : tr.leaves = c.leafv)
    {s : State} (hser : s.ser = some c) : ∃ des : DesRegs, procDeserialize s = .ok () { s.enter .deriving_ with
      node := (tr.layout 0).map some, tree := some { root := 0, code := tr.codeTable }, des := des } := by
  obtain ⟨u, hu, eu⟩ := parseTree_complete hc hs hl (s := (s.enter .deserializing).discardTree) rfl
  have hrep := tr.rep_layout [] [] (by
    simp only [SerTree.wellFormed, Bool.and_eq_true, decide_eq_true_eq, Config.maxNodes] at hc
    obtain ⟨⟨⟨⟨⟨_, h511⟩, _⟩, _⟩, _⟩, _⟩ := hc; rw [hs, List.length_nil]; have : c.shape.length ≤ 511 := of_decide_eq_true h511; omega)
  rw [List.nil_append, List.append_nil, List.length_nil] at hrep
  have hnd : tr.leaves.Nodup := by
    simp only [SerTree.wellFormed, Bool.and_eq_true, decide_eq_true_eq] at hc
    rw [hl]; exact hc.2
  have habs := hrep.absTree_eq (leaves_length_le hnd)
  refine ⟨u.des, ?_⟩
  simp only [procDeserialize, hser, hu, Run.onRaise_ok, Run.bind_ok, finishTree]
  rw [show u.node = (tr.layout 0).map some by rw [eu]]
  rw [show absTree ((tr.layout 0).map some) 0 = some tr from habs]
  simp only
  rw [eu]
  simp [State.enter, State.discardTree]

theorem procDeserialize_malformed {c : SerTree} (hc : c.wellFormed = false) {s : State} (hser : s.ser = some c) :
    ∃ des : DesRegs, procDeserialize s = .raised .malformedTree { s.enter .deserializing with node := [], tree := none, des := des } := by
  rcases parseTree_frame c (s.enter .deserializing).discardTree with ⟨i, u, h, e⟩ | ⟨u, h, e⟩
  · have := parseTree_sound rfl h
    rw [hc] at this; cases this
  · refine ⟨u.des, ?_⟩
    simp only [procDeserialize, hser, h, Run.onRaise_raised, Run.bind_raised]
    rw [e]
    simp [State.enter, State.discardTree]

theorem layout_holds {s : State} {tr : HTree} (hi : tr.isInternal = true) (hn : tr.leaves.Nodup)
    (hnode : s.node = (tr.layout 0).map some) (ht : s.tree = some { root := 0, code := tr.codeTable }) : s.holdsTree tr := by
  have hle := leaves_length_le hn
  have hl := tr.shape_length
  have hrep := tr.rep_layout [] [] (by rw [List.length_nil]; omega)
  rw [List.nil_append, List.append_nil, List.length_nil] at hrep
  refine ⟨_, ht, ?_, rfl, hi, hn, ?_, ?_⟩
  · rw [hnode]; exact hrep.absTree_eq hle
  · rw [hnode, List.length_map, HTree.layout_length]; omega
  · rw [hnode]; intro e he; simp only [List.mem_map] at he
    obtain ⟨n, _, rfl⟩ := he; rfl

end Sys2Proof.Machine
end

