-- ==== Sys2Proof/Laws/Header.lean ====
section
/-! SUPPORT. Byte order and the file header (20_memory.md R68, 45_file_format.md R216, R219). -/

namespace Sys2Proof.Machine

theorem packBits_length (bits : List Bool) : (packBits bits).length = (bits.length + 7) / 8 := by
  simp [packBits, ceilDiv8]

/-- Bit k of a packed sequence (R69, R70). -/
theorem packBits_bit (bits : List Bool) (k : Nat) :
    ((packBits bits).getD (k / 8) 0).getLsbD (k % 8) = bits.getD k false := by
  by_cases h : k / 8 < (packBits bits).length
  · rw [List.getD_eq_getElem _ _ h]
    simp only [packBits, List.getElem_map, List.getElem_range]
    rw [getLsbD_packByte _ _ _ (by omega), show 8 * (k / 8) + k % 8 = k by omega]
  · rw [List.getD_eq_default _ _ (by omega), List.getD_eq_default]
    · simp
    · rw [packBits_length] at h; omega

theorem unpackBits_length (n : Nat) (bytes : List Byte) : (unpackBits n bytes).length = n := by simp [unpackBits]

theorem unpackBits_packBits (bits : List Bool) : unpackBits bits.length (packBits bits) = bits := by
  apply List.ext_getElem (by simp [unpackBits])
  intro k h1 h2
  simp only [unpackBits, List.getElem_map, List.getElem_range]
  rw [packBits_bit, List.getD_eq_getElem _ _ h2]

theorem ofBe_snoc (bs : List Byte) (b : Byte) : ofBe (bs ++ [b]) = 256 * ofBe bs + b.toNat := by simp [ofBe]

theorem be16_eq (v : BitVec 16) : be16 v = [BitVec.ofNat 8 (v.toNat / 256), BitVec.ofNat 8 v.toNat] := by
  simp only [be16, List.cons.injEq, and_true]
  constructor <;> apply BitVec.eq_of_toNat_eq <;> simp [Nat.shiftRight_eq_div_pow]

theorem ofBe_be16 (v : BitVec 16) : ofBe (be16 v) = v.toNat := by
  have := v.isLt
  rw [be16_eq]; simp only [ofBe, List.foldl_cons, List.foldl_nil, BitVec.toNat_ofNat]; omega

theorem be64_eq (v : Word64) : be64 v = [7, 6, 5, 4, 3, 2, 1, 0].map fun t => BitVec.ofNat 8 (v.toNat / 256 ^ t) := by
  rw [be64]
  apply List.map_congr_left
  intro t _
  apply BitVec.eq_of_toNat_eq
  rw [BitVec.extractLsb'_toNat, Nat.shiftRight_eq_div_pow, BitVec.toNat_ofNat, Nat.pow_mul]

theorem ofBe_be64 (v : Word64) : ofBe (be64 v) = v.toNat := by
  have := v.isLt
  rw [be64_eq]; simp only [ofBe, List.map_cons, List.map_nil, List.foldl_cons, List.foldl_nil, BitVec.toNat_ofNat]; omega

theorem be16_length (v : BitVec 16) : (be16 v).length = 2 := rfl
theorem be64_length (v : Word64) : (be64 v).length = 8 := rfl

theorem headerBytes_length (c : SerTree) (n : Word64) :
    (headerBytes c n).length = 10 + (c.shape.length + 7) / 8 + c.leafv.length := by
  simp [headerBytes, be16_length, be64_length, packBits_length]; omega

theorem guarded_true {i : Instr} {body : Proc Unit} {s : State} (h : precondition i s = true) : guarded i body s = body s := by
  simp [guarded, h]

theorem guarded_false {i : Instr} {body : Proc Unit} {s : State} (h : precondition i s = false) :
    guarded i body s = .raised .protocolError s := by
  simp [guarded, h]

theorem procWriteHeader_quiet {s : State} {c : SerTree} {n : Word64} {k : Sink} (hc : s.ser = some c) (hn : s.origLen = some n)
    (hk : s.env.snk = .bound k) (hq : s.env.answers = []) :
    procWriteHeader s = .ok () { s.enter .writingHeader with
      ctl.outCount := s.ctl.outCount + BitVec.ofNat 64 (headerBytes c n).length, env.snk := .bound (k.append (headerBytes c n)) } := by
  simp only [procWriteHeader, hc, hn]
  rw [putAll_quiet (headerBytes c n) (k := k) (by exact hk) (by exact hq)]
  rfl

/-- ReadHeader over the four fields (R219). -/
theorem procReadHeader_quiet {s : State} {src : Source} (n : BitVec 16) (packed leafv rest : List Byte) (len : Word64)
    (h : s.env.src = .bound src) (hq : s.env.answers = []) (hr : src.rest = be16 n ++ packed ++ leafv ++ be64 len ++ rest)
    (hn : n.toNat ≤ 511) (hp : packed.length = (n.toNat + 7) / 8) (hl : leafv.length = (unpackBits n.toNat packed).count false)
    (h256 : leafv.length ≤ 256) :
    procReadHeader s = .ok () { s.enter .readingHeader with
      ctl.inCount := s.ctl.inCount + BitVec.ofNat 64 (10 + packed.length + leafv.length),
      env.src := .bound (src.advance (10 + packed.length + leafv.length)),
      ser := some { shape := unpackBits n.toNat packed, leafv := leafv }, origLen := some len } := by
  have r1 := srcReadBytes_quiet .truncatedStream (be16 n) (packed ++ leafv ++ be64 len ++ rest)
    (s := (s.enter .readingHeader).discardSer.discardLen) (src := src) h hq (by simpa using hr)
  rw [be16_length] at r1
  rw [procReadHeader, r1]
  simp only [Run.bind_ok, ofBe_be16]
  rw [show decide (n.toNat ≤ Config.maxNodes) = true from decide_eq_true hn]
  simp only [require_true, Run.bind_ok]
  have e2 : (src.advance 2).rest = packed ++ (leafv ++ be64 len ++ rest) := by
    rw [Source.rest_advance, hr]; simp [be16]
  rw [show ceilDiv8 n.toNat = packed.length from hp.symm, srcReadBytes_quiet .malformedTree packed _ (src := src.advance 2) rfl (by exact hq) e2]
  simp only [Run.bind_ok, ← hl]
  rw [show decide (leafv.length ≤ Config.maxLeaves) = true from decide_eq_true h256]
  simp only [require_true, Run.bind_ok]
  have e3 : ((src.advance 2).advance packed.length).rest = leafv ++ (be64 len ++ rest) := by
    rw [Source.rest_advance, e2]; simp
  rw [srcReadBytes_quiet .malformedTree leafv _ (src := (src.advance 2).advance packed.length) rfl (by exact hq) e3]
  simp only [Run.bind_ok]
  have e4 : (((src.advance 2).advance packed.length).advance leafv.length).rest = be64 len ++ rest := by
    rw [Source.rest_advance, e3]; simp
  have r4 := fun (st : State) h1 h2 => srcReadBytes_quiet .truncatedStream (be64 len) _ (s := st)
    (src := ((src.advance 2).advance packed.length).advance leafv.length) h1 h2 e4
  rw [be64_length] at r4
  rw [r4 _ rfl (by exact hq)]
  simp only [Run.bind_ok, ofBe_be64, BitVec.ofNat_toNat, BitVec.setWidth_eq, Source.advance_advance, State.enter, State.discardLen, State.discardSer]
  have e5 : 2 + packed.length + leafv.length + 8 = 10 + packed.length + leafv.length := by omega
  have e6 : s.ctl.inCount + BitVec.ofNat 64 2 + BitVec.ofNat 64 packed.length + BitVec.ofNat 64 leafv.length + BitVec.ofNat 64 8
      = s.ctl.inCount + BitVec.ofNat 64 (10 + packed.length + leafv.length) := by
    apply BitVec.eq_of_toNat_eq
    simp only [BitVec.toNat_add, BitVec.toNat_ofNat]; omega
  rw [e5, e6]

end Sys2Proof.Machine
end

