-- ==== Sys2Proof/Laws/Decoding.lean ====
section
/-! SUPPORT. The decoder on a faithful payload (44_bit_decoder.md R198 to R202). -/

namespace Sys2Proof.Machine

theorem allBits_length (bytes : List Byte) : (allBits bytes).length = 8 * bytes.length := by simp [allBits, unpackBits]

theorem allBits_getElem? (bytes : List Byte) (m : Nat) (h : m < 8 * bytes.length) :
    (allBits bytes)[m]? = some ((bytes.getD (m / 8) 0).getLsbD (m % 8)) := by
  simp [allBits, unpackBits, h]

/-- The state of Decode after `m` payload bits and the symbols `out`, from `s` with the Source `src` and the Sink `k`. -/
def decSt (s : State) (src : Source) (k : Sink) (m : Nat) (cur : NodeIdx) (st : DState) (out : List Byte) : State :=
  { s with
    dec := { cur := cur, dstate := st, inByte := if m = 0 then 0 else src.rest.getD ((m - 1) / 8) 0
             inPos := if m = 0 then 8 else ⟨(m - 1) % 8 + 1, by omega⟩ }
    ctl := { s.ctl with
      inCount := s.ctl.inCount + BitVec.ofNat 64 ((m + 7) / 8), outCount := s.ctl.outCount + BitVec.ofNat 64 out.length }
    env := { s.env with src := .bound (src.advance ((m + 7) / 8)), snk := .bound (k.append out) } }

theorem inPos_eq_iff {m : Nat} : ((if m = 0 then 8 else ⟨(m - 1) % 8 + 1, by omega⟩ : Fin 9) = 8) ↔ m % 8 = 0 := by
  by_cases h : m = 0
  · simp [h]
  · simp [h, Fin.ext_iff]; omega

theorem nextBit_decSt {s : State} {src : Source} {k : Sink} {m : Nat} {cur : NodeIdx} {st : DState} {out : List Byte} {b : Bool}
    (hq : s.env.answers = []) (hb : (allBits src.rest)[m]? = some b) :
    nextBit (decSt s src k m cur st out) = .ok b (decSt s src k (m + 1) cur st out) := by
  have hm : m < 8 * src.rest.length := by
    have := (List.getElem?_eq_some_iff.1 hb).1
    rwa [allBits_length] at this
  rw [allBits_getElem? _ _ hm, Option.some.injEq] at hb
  simp only [nextBit, decSt, inPos_eq_iff]
  by_cases h8 : m % 8 = 0
  · rw [if_pos h8]
    have hr : (src.advance ((m + 7) / 8)).rest = src.rest[m / 8]'(by omega) :: src.rest.drop (m / 8 + 1) := by
      rw [Source.rest_advance, show (m + 7) / 8 = m / 8 by omega, List.drop_eq_getElem_cons]
    rw [srcReadByte_cons _ (by rfl) (by exact hq) hr]
    simp only [Run.bind_ok, takeBit, Source.advance_advance]
    have hg : src.rest.getD (m / 8) 0 = src.rest[m / 8]'(by omega) := List.getD_eq_getElem _ _ (by omega)
    have e1 : (m + 7) / 8 + 1 = (m + 1 + 7) / 8 := by omega
    have e2 : s.ctl.inCount + BitVec.ofNat 64 ((m + 7) / 8) + 1 = s.ctl.inCount + BitVec.ofNat 64 ((m + 1 + 7) / 8) := by
      rw [← e1]; apply BitVec.eq_of_toNat_eq; simp; omega
    rw [h8, hg] at hb
    simp only [e1, e2, Nat.add_sub_cancel, hg, h8]
    congr 1
  · rw [if_neg h8]
    have h0 : m ≠ 0 := by rintro rfl; simp at h8
    have e0 : (m - 1) % 8 + 1 = m % 8 := by omega
    have e1 : (m + 7) / 8 = (m + 1 + 7) / 8 := by omega
    have e2 : (m - 1) / 8 = m / 8 := by omega
    simp only [takeBit, h0, if_false, e0, e1, e2, Nat.succ_ne_zero, Nat.add_sub_cancel]
    rw [hb]
    congr 3
    simp [Fin.ext_iff, Fin.add_def]
    omega

theorem nextBit_end {s : State} {src : Source} {k : Sink} {cur : NodeIdx} {st : DState} {out : List Byte}
    (hq : s.env.answers = []) :
    nextBit (decSt s src k (8 * src.rest.length) cur st out) = .raised .truncatedStream (decSt s src k (8 * src.rest.length) cur st out) := by
  have hp : (decSt s src k (8 * src.rest.length) cur st out).dec.inPos = 8 := by
    simp only [decSt]; rw [inPos_eq_iff]; omega
  rw [nextBit, if_pos hp, srcReadByte_nil (src := src.advance ((8 * src.rest.length + 7) / 8)) _ (by rfl) (by exact hq)
    (by rw [Source.rest_advance, List.drop_eq_nil_iff]; omega)]
  rfl

theorem arrive_leaf {s : State} {src : Source} {k : Sink} {m : Nat} {cur root c : NodeIdx} {st : DState} {out : List Byte}
    (hq : s.env.answers = []) {v : Byte} {f : Word64} (hc : s.nodeAt c = some (.leaf v f)) :
    arrive root c (decSt s src k m cur st out) = .ok () (decSt s src k m root .atRoot (out ++ [v])) := by
  have : (decSt s src k m cur st out).nodeAt c = some (.leaf v f) := hc
  simp only [arrive, this]
  rw [put_quiet (k := k.append out) (by rfl) (by exact hq)]
  simp only [Run.bind_ok, decSt, Sink.append_append, List.length_append, List.length_singleton]
  congr 3
  apply BitVec.eq_of_toNat_eq; simp; omega

theorem arrive_internal {s : State} {src : Source} {k : Sink} {m : Nat} {cur root c : NodeIdx} {st : DState} {out : List Byte}
    {f : Word64} {l r : NodeIdx} (hc : s.nodeAt c = some (.internal f l r)) :
    arrive root c (decSt s src k m cur st out) = .ok () (decSt s src k m c .descending out) := by
  have : (decSt s src k m cur st out).nodeAt c = some (.internal f l r) := hc
  simp only [arrive, this]
  rfl

theorem nodeAt_of {s : State} {i : NodeIdx} {n : Node} (h : s.node[i.toNat]? = some (some n)) : s.nodeAt i = some n := by
  rw [State.nodeAt, h]; rfl

theorem decodeStep_bit {s : State} {src : Source} {k : Sink} {m : Nat} {cur root l r : NodeIdx} {st : DState} {out : List Byte} {b : Bool}
    {f : Word64} (hc : s.nodeAt cur = some (.internal f l r)) (hq : s.env.answers = []) (hb : (allBits src.rest)[m]? = some b) :
    decodeStep root (decSt s src k m cur st out) = arrive root (if b then r else l) (decSt s src k (m + 1) cur st out) := by
  have : (decSt s src k m cur st out).nodeAt (decSt s src k m cur st out).dec.cur = some (.internal f l r) := hc
  simp only [decodeStep, this]
  rw [nextBit_decSt hq hb]
  rfl

/-- One symbol: the bits of its path, from a node on. -/
theorem decodeLoop_symbol {s : State} {src : Source} {k : Sink} {root : NodeIdx} {len : Word64} (hq : s.env.answers = []) {v : Byte} (t : HTree) :
    ∀ (p : List Bool) {m : Nat} {cur : NodeIdx} {st : DState} {out : List Byte} {emitted : Word64} (n : Nat),
    Rep s.node cur t → t.isInternal = true → t.path v = some p → (∀ j, j < p.length → (allBits src.rest)[m + j]? = p[j]?) →
    emitted < len →
    decodeLoop root len (n + p.length) emitted (decSt s src k m cur st out) =
      decodeLoop root len n (emitted + 1) (decSt s src k (m + p.length) root .atRoot (out ++ [v])) := by
  induction t with
  | leaf => intro p m cur st out emitted n _ hi; simp [HTree.isInternal] at hi
  | node l r ihl ihr =>
    intro p m cur st out emitted n hrep _ hp hbits hlt
    obtain ⟨f, li, ri, hnode, hl, hr⟩ : ∃ f li ri, s.node[cur.toNat]? = some (some (.internal f li ri)) ∧ Rep s.node li l ∧ Rep s.node ri r := by
      cases hrep with
      | node h1 h2 h3 => exact ⟨_, _, _, h1, h2, h3⟩
    have side : ∀ (b : Bool) (c : NodeIdx) (tc : HTree) (q : List Bool), p = b :: q → (if b then ri else li) = c → Rep s.node c tc →
        tc.path v = some q →
        (∀ (p : List Bool) {m : Nat} {cur : NodeIdx} {st : DState} {out : List Byte} {emitted : Word64} (n : Nat),
          Rep s.node cur tc → tc.isInternal = true → tc.path v = some p → (∀ j, j < p.length → (allBits src.rest)[m + j]? = p[j]?) →
          emitted < len →
          decodeLoop root len (n + p.length) emitted (decSt s src k m cur st out) =
            decodeLoop root len n (emitted + 1) (decSt s src k (m + p.length) root .atRoot (out ++ [v]))) →
        decodeLoop root len (n + p.length) emitted (decSt s src k m cur st out) =
          decodeLoop root len n (emitted + 1) (decSt s src k (m + p.length) root .atRoot (out ++ [v])) := by
      intro b c tc q hpq hc hrc hq' ih
      subst hpq
      have hb : (allBits src.rest)[m]? = some b := by
        have := hbits 0 (by simp); simpa using this
      rw [List.length_cons, ← Nat.add_assoc, decodeLoop, if_pos hlt, decodeStep_bit (nodeAt_of hnode) hq hb, hc]
      cases tc with
      | leaf w =>
        obtain ⟨f, hleaf⟩ : ∃ f, s.node[c.toNat]? = some (some (.leaf w f)) := by
          cases hrc with
          | leaf h => exact ⟨_, h⟩
        have hwv : w = v ∧ q = [] := by
          simp only [HTree.path] at hq'
          split at hq' <;> simp_all
        obtain ⟨rfl, rfl⟩ := hwv
        rw [arrive_leaf hq (nodeAt_of hleaf)]
        simp [decSt]
      | node tl tr =>
        obtain ⟨f, li, ri, hin⟩ : ∃ f li ri, s.node[c.toNat]? = some (some (.internal f li ri)) := by
          cases hrc with
          | node h1 _ _ => exact ⟨_, _, _, h1⟩
        rw [arrive_internal (nodeAt_of hin)]
        simp only [Run.bind_ok]
        rw [show (decSt s src k (m + 1) c DState.descending out).dec.dstate = .descending from rfl, if_neg (by simp)]
        rw [ih q n hrc rfl hq' (fun j hj => by
          have := hbits (j + 1) (by simpa using hj)
          rw [show m + 1 + j = m + (j + 1) by omega, this]; rfl) hlt]
        rw [show m + (q.length + 1) = m + 1 + q.length by omega]
    simp only [HTree.path] at hp
    split at hp
    · rename_i q hq'
      exact side false li l q (by simpa using hp.symm) rfl hl hq' ihl
    · rw [Option.map_eq_some_iff] at hp
      obtain ⟨q, hq', hpq⟩ := hp
      exact side true ri r q hpq.symm rfl hr hq' ihr

/-- The symbols `xs`. -/
theorem decodeLoop_symbols {s : State} {src : Source} {k : Sink} {root : NodeIdx} {len : Word64} {t : HTree} (hq : s.env.answers = [])
    (hrep : Rep s.node root t) (hi : t.isInternal = true) (hn : t.leaves.Nodup) :
    ∀ (xs : List Byte) {m : Nat} {out : List Byte} {e : Nat} (n : Nat), (∀ x ∈ xs, x ∈ t.leaves) →
    (∀ j, j < (streamBits t.codeTable xs).length → (allBits src.rest)[m + j]? = (streamBits t.codeTable xs)[j]?) →
    e + xs.length ≤ len.toNat →
    decodeLoop root len (n + (streamBits t.codeTable xs).length) (BitVec.ofNat 64 e) (decSt s src k m root .atRoot out) =
      decodeLoop root len n (BitVec.ofNat 64 (e + xs.length)) (decSt s src k (m + (streamBits t.codeTable xs).length) root .atRoot (out ++ xs))
  | [], m, out, e, n, _, _, _ => by simp [streamBits]
  | x :: xs, m, out, e, n, hx, hbits, he => by
    obtain ⟨p, hp⟩ := Option.isSome_iff_exists.1 ((t.path_isSome_iff x).2 (hx x (by simp)))
    have hem := t.emission_codeTable hn hp
    have hsb : streamBits t.codeTable (x :: xs) = p ++ streamBits t.codeTable xs := by simp [streamBits, hem]
    rw [hsb] at hbits ⊢
    simp only [List.length_append, List.length_cons] at *
    have hlen := len.isLt
    rw [show n + (p.length + (streamBits t.codeTable xs).length) = (n + (streamBits t.codeTable xs).length) + p.length by omega]
    rw [decodeLoop_symbol hq t p _ hrep hi hp (fun j hj => by rw [hbits j (by omega), List.getElem?_append_left hj])
      (by rw [BitVec.lt_def, BitVec.toNat_ofNat, Nat.mod_eq_of_lt (by omega)]; omega)]
    rw [show BitVec.ofNat 64 e + 1 = BitVec.ofNat 64 (e + 1) by apply BitVec.eq_of_toNat_eq; simp]
    rw [decodeLoop_symbols hq hrep hi hn xs n (fun y hy => hx y (by simp [hy]))
      (fun j hj => by rw [show m + p.length + j = m + (p.length + j) by omega, hbits _ (by omega), List.getElem?_append_right (by omega)]; congr 1; omega) (by omega)]
    rw [show m + (p.length + (streamBits t.codeTable xs).length) = m + p.length + (streamBits t.codeTable xs).length by omega,
      show e + (xs.length + 1) = e + 1 + xs.length by omega]
    simp

/-- The bits end before a leaf is reached. -/
theorem decodeLoop_truncated {s : State} {src : Source} {k : Sink} {root : NodeIdx} {len : Word64} (hq : s.env.answers = []) (t : HTree) :
    ∀ (tail : List Bool) {m : Nat} {cur : NodeIdx} {st : DState} {out : List Byte} {emitted : Word64} (n : Nat),
    Rep s.node cur t → t.isInternal = true → t.leaves.Nodup → (∀ v p, t.path v = some p → ¬ p <+: tail) → m + tail.length = 8 * src.rest.length →
    (∀ j, j < tail.length → (allBits src.rest)[m + j]? = tail[j]?) → emitted < len → tail.length < n →
    ∃ dec : DecRegs, decodeLoop root len n emitted (decSt s src k m cur st out) =
      .raised .truncatedStream { decSt s src k (8 * src.rest.length) cur st out with dec := dec } := by
  induction t with
  | leaf => intro tail m cur st out emitted n _ hi; simp [HTree.isInternal] at hi
  | node l r ihl ihr =>
    intro tail m cur st out emitted n hrep _ hnd hp hm hbits hlt hn
    obtain ⟨f, li, ri, hnode, hl, hr⟩ : ∃ f li ri, s.node[cur.toNat]? = some (some (.internal f li ri)) ∧ Rep s.node li l ∧ Rep s.node ri r := by
      cases hrep with
      | node h1 h2 h3 => exact ⟨_, _, _, h1, h2, h3⟩
    cases n with
    | zero => omega
    | succ n =>
    cases tail with
    | nil =>
      simp at hm
      subst hm
      have hc : (decSt s src k (8 * src.rest.length) cur st out).nodeAt (decSt s src k (8 * src.rest.length) cur st out).dec.cur
          = some (.internal f li ri) := nodeAt_of hnode
      refine ⟨(decSt s src k (8 * src.rest.length) cur st out).dec, ?_⟩
      rw [decodeLoop, if_pos hlt, decodeStep, hc]
      simp only
      rw [nextBit_end hq]
      rfl
    | cons b tail =>
      have hb : (allBits src.rest)[m]? = some b := by
        have := hbits 0 (by simp); simpa using this
      rw [decodeLoop, if_pos hlt, decodeStep_bit (nodeAt_of hnode) hq hb]
      have side : ∀ (c : NodeIdx) (tc : HTree), (if b then ri else li) = c → Rep s.node c tc → tc.leaves.Nodup →
          (∀ v p, tc.path v = some p → ∃ w, (HTree.node l r).path w = some (b :: p)) →
          (∀ (tail : List Bool) {m : Nat} {cur : NodeIdx} {st : DState} {out : List Byte} {emitted : Word64} (n : Nat),
            Rep s.node cur tc → tc.isInternal = true → tc.leaves.Nodup → (∀ v p, tc.path v = some p → ¬ p <+: tail) → m + tail.length = 8 * src.rest.length →
            (∀ j, j < tail.length → (allBits src.rest)[m + j]? = tail[j]?) → emitted < len → tail.length < n →
            ∃ dec : DecRegs, decodeLoop root len n emitted (decSt s src k m cur st out) =
              .raised .truncatedStream { decSt s src k (8 * src.rest.length) cur st out with dec := dec }) →
          ∃ dec : DecRegs, ((arrive root (if b then ri else li) (decSt s src k (m + 1) cur st out)).bind fun _ s =>
            decodeLoop root len n (if s.dec.dstate = .atRoot then emitted + 1 else emitted) s) =
              .raised .truncatedStream { decSt s src k (8 * src.rest.length) cur st out with dec := dec } := by
        intro c tc hc hrc hndc hpath ih
        rw [hc]
        cases tc with
        | leaf w =>
          obtain ⟨w', hw⟩ := hpath w [] (by simp [HTree.path])
          exact absurd (by simp) (hp w' _ hw)
        | node tl tr =>
          obtain ⟨f, li, ri, hin⟩ : ∃ f li ri, s.node[c.toNat]? = some (some (.internal f li ri)) := by
            cases hrc with
            | node h1 _ _ => exact ⟨_, _, _, h1⟩
          rw [arrive_internal (nodeAt_of hin)]
          simp only [Run.bind_ok]
          rw [show (decSt s src k (m + 1) c DState.descending out).dec.dstate = .descending from rfl, if_neg (by simp)]
          obtain ⟨dec, h⟩ := ih tail (m := m + 1) (cur := c) (st := .descending) (out := out) (emitted := emitted) n hrc rfl hndc
            (fun v p hv hpre => by
              obtain ⟨w, hw⟩ := hpath v p hv
              exact hp w _ hw (List.cons_prefix_cons.2 ⟨rfl, hpre⟩))
            (by rw [List.length_cons] at hm; omega)
            (fun j hj => by
              have := hbits (j + 1) (by simpa using hj)
              rw [show m + 1 + j = m + (j + 1) by omega, this]; rfl) hlt (by rw [List.length_cons] at hn; omega)
          exact ⟨dec, h⟩
      rw [HTree.leaves, List.nodup_append] at hnd
      obtain ⟨hndl, hndr, hdis⟩ := hnd
      cases b with
      | false =>
        exact side li l rfl hl hndl (fun v p hv => ⟨v, by simp [HTree.path, hv]⟩) ihl
      | true =>
        refine side ri r rfl hr hndr (fun v p hv => ⟨v, ?_⟩) ihr
        have : l.path v = none := by
          rw [← Option.not_isSome_iff_eq_none, l.path_isSome_iff]
          exact fun hvl => hdis v hvl v ((r.path_isSome_iff v).1 (by simp [hv])) rfl
        simp [HTree.path, hv, this]

theorem decSt_zero {s : State} {src : Source} {k : Sink} {root : NodeIdx} (hs : s.env.src = .bound src) (hk : s.env.snk = .bound k) :
    decSt s src k 0 root .atRoot [] = { s with dec := { cur := root, dstate := .atRoot, inByte := 0, inPos := 8 } } := by
  obtain ⟨ctl, freq, node, heap, tree, ser, origLen, enc, dec, des, env⟩ := s
  obtain ⟨src, snk, answers, events⟩ := env
  simp at hs hk
  simp [decSt, hs, hk]

/-- Decode of the codes of `xs` (R201). -/
theorem procDecode_ok {s : State} {src : Source} {k : Sink} {h : TreeHead} {t : HTree} {xs : List Byte} (hs : s.env.src = .bound src)
    (hk : s.env.snk = .bound k) (hq : s.env.answers = []) (ht : s.tree = some h) (habs : absTree s.node h.root = some t)
    (hi : t.isInternal = true) (hn : t.leaves.Nodup) (hlen : xs.length < 2 ^ 64) (ho : s.origLen = some (BitVec.ofNat 64 xs.length))
    (hx : ∀ x ∈ xs, x ∈ t.leaves) (hb : streamBits t.codeTable xs <+: allBits src.rest) :
    procDecode s = .ok () (decSt (s.enter .decoding) src k (streamBits t.codeTable xs).length h.root .atRoot xs) := by
  have hrep : Rep s.node h.root t := Rep.of_treeAt habs
  have hbl := hb.length_le
  rw [allBits_length] at hbl
  simp only [procDecode, ht, ho]
  have e0 := decSt_zero (s := s.enter .decoding) (root := h.root) hs hk
  rw [State.startDecoding, ← e0]
  rw [show 8 * s.srcLeft + 1 = (8 * s.srcLeft + 1 - (streamBits t.codeTable xs).length) + (streamBits t.codeTable xs).length by
    rw [State.srcLeft_bound hs]; omega]
  have := decodeLoop_symbols (s := s.enter .decoding) (src := src) (k := k) (root := h.root) (len := BitVec.ofNat 64 xs.length) hq hrep hi hn xs
    (m := 0) (out := []) (e := 0) (8 * s.srcLeft + 1 - (streamBits t.codeTable xs).length) hx
    (fun j hj => by
      rw [Nat.zero_add]
      obtain ⟨r, hr⟩ := hb
      rw [← hr, List.getElem?_append_left hj])
    (by rw [BitVec.toNat_ofNat, Nat.mod_eq_of_lt hlen]; omega)
  rw [show (BitVec.ofNat 64 0) = (0 : Word64) from rfl] at this
  rw [this]
  rw [show 8 * s.srcLeft + 1 - (streamBits t.codeTable xs).length = (8 * s.srcLeft - (streamBits t.codeTable xs).length) + 1 by
    rw [State.srcLeft_bound hs]; omega]
  rw [decodeLoop, if_neg (by rw [BitVec.lt_def]; simp)]
  simp

theorem procDecode_truncated {s : State} {src : Source} {k : Sink} {h : TreeHead} {t : HTree} {xs : List Byte} {tail : List Bool} {n : Word64}
    (hs : s.env.src = .bound src) (hk : s.env.snk = .bound k) (hq : s.env.answers = []) (ht : s.tree = some h)
    (habs : absTree s.node h.root = some t) (hi : t.isInternal = true) (hn : t.leaves.Nodup) (ho : s.origLen = some n)
    (hlt : xs.length < n.toNat) (hx : ∀ x ∈ xs, x ∈ t.leaves) (hb : allBits src.rest = streamBits t.codeTable xs ++ tail)
    (hp : ∀ v p, t.path v = some p → ¬ p <+: tail) :
    ∃ dec : DecRegs, procDecode s = .raised .truncatedStream
      { decSt (s.enter .decoding) src k (8 * src.rest.length) h.root .atRoot xs with dec := dec } := by
  have hrep : Rep s.node h.root t := Rep.of_treeAt habs
  have hbl := congrArg List.length hb
  rw [allBits_length, List.length_append] at hbl
  simp only [procDecode, ht, ho]
  have e0 := decSt_zero (s := s.enter .decoding) (root := h.root) hs hk
  rw [State.startDecoding, ← e0]
  rw [show 8 * s.srcLeft + 1 = (tail.length + 1) + (streamBits t.codeTable xs).length by
    rw [State.srcLeft_bound hs]; omega]
  have := decodeLoop_symbols (s := s.enter .decoding) (src := src) (k := k) (root := h.root) (len := n) hq hrep hi hn xs
    (m := 0) (out := []) (e := 0) (tail.length + 1) hx
    (fun j hj => by rw [Nat.zero_add, hb, List.getElem?_append_left hj]) (by omega)
  rw [show (BitVec.ofNat 64 0) = (0 : Word64) from rfl] at this
  rw [this]
  have hnl := n.isLt
  obtain ⟨dec, hd⟩ := decodeLoop_truncated (s := s.enter .decoding) (src := src) (k := k) (root := h.root) (len := n) hq t tail
    (m := 0 + (streamBits t.codeTable xs).length) (cur := h.root) (st := .atRoot) (out := [] ++ xs) (emitted := BitVec.ofNat 64 (0 + xs.length))
    (tail.length + 1) hrep hi hn hp (by omega)
    (fun j hj => by rw [Nat.zero_add, hb, List.getElem?_append_right (by omega), Nat.add_sub_cancel_left])
    (by rw [BitVec.lt_def, BitVec.toNat_ofNat, Nat.zero_add, Nat.mod_eq_of_lt (by omega)]; exact hlt) (by omega)
  exact ⟨dec, hd⟩

end Sys2Proof.Machine
end

