-- ==== Sys2Proof/Laws/WholeFile.lean ====
section
/-! SUPPORT. The whole-file bodies on a faithful Source (45_file_format.md R225, R226). -/

namespace Sys2Proof.Machine

theorem fullBytes_eq_take (bits : List Bool) : fullBytes bits = (packBits bits).take (bits.length / 8) := by
  rw [packBits_eq, List.take_append_of_le_length (by simp [fullBytes])]
  rw [List.take_of_length_le (by simp [fullBytes])]

theorem encodeWith_uncoded {s : State} {code : ByteTable CodeEntry} {src : Source} {k : Sink} {xs rest : List Byte} {x : Byte}
    (hs : s.env.src = .bound src) (hk : s.env.snk = .bound k) (hq : s.env.answers = []) (hr : src.rest = xs ++ x :: rest)
    (hc : ∀ x ∈ xs, (code.read x).len ≠ 0) (hx : (code.read x).len = 0) (he : s.enc = { pend := 0, pendN := 0 }) :
    encodeWith code s = .raised .protocolError (encSt (encRead s src (xs.length + 1)) k (streamBits code xs)) := by
  have e0 : encSt s k [] = s := by rw [encSt_nil s k hk, ← he]
  rw [encodeWith, State.srcLeft_bound hs]
  have e1 := forEachByte_encode code k xs (rest.length + 2) (x :: rest) (s := s) (src := src) [] hs hq hr hc
  rw [e0] at e1
  rw [show src.rest.length + 1 = (rest.length + 2) + xs.length by simp [hr]; omega, e1, List.nil_append, forEachByte,
    srcRead_cons (src := src.advance xs.length) (b := x) (bs := rest) rfl (by exact hq) (by rw [Source.rest_advance, hr]; simp)]
  simp only [Run.bind_ok, encodeByte]
  rw [show ((code.read x).len != 0) = false by simp [hx]]
  simp only [require_false, Run.bind_raised]
  rw [← encRead_encRead s src xs.length 1]
  rfl

/-- Appends up to an `IoError` answer. -/
theorem putAll_ioError (e : IoErr) (l : List Answer) : ∀ (j : Nat) (bs : List Byte) {s : State} {k : Sink}, s.env.snk = .bound k →
    j < bs.length → s.env.answers = List.replicate j .ok ++ .ioError e :: l →
    putAll bs s = .raised .ioFailure { s with
      ctl := { s.ctl with ioerr := e, outCount := s.ctl.outCount + BitVec.ofNat 64 j },
      env := { s.env with snk := .bound (k.append (bs.take j)), answers := l } }
  | _, [], s, k, h, hj, ha => by simp at hj
  | 0, b :: bs, s, k, h, hj, ha => by
    obtain ⟨ctl, freq, node, heap, tree, ser, origLen, enc, dec, des, env⟩ := s
    obtain ⟨src, snk, answers, events⟩ := env
    simp at h ha
    simp [putAll, put, snkAppend, callSink, h, answerCall, ha, ioError]
  | j + 1, b :: bs, s, k, h, hj, ha => by
    have e1 : put b s = .ok () { s with ctl.outCount := s.ctl.outCount + 1, env := { s.env with snk := .bound (k.append [b]), answers := List.replicate j .ok ++ .ioError e :: l } } := by
      simp [put, snkAppend, callSink, h, answerCall, ha, List.replicate_succ, Sink.append]
    rw [putAll, e1]
    simp only [Run.bind_ok]
    rw [putAll_ioError e l j bs (k := k.append [b]) rfl (by simpa using hj) rfl]
    simp [ofNat_succ64]

/-- Appends that go through, and use up one answer each. -/
theorem putAll_oks (l : List Answer) : ∀ (bs : List Byte) {s : State} {k : Sink}, s.env.snk = .bound k →
    s.env.answers = List.replicate bs.length .ok ++ l →
    putAll bs s = .ok () { s with
      ctl.outCount := s.ctl.outCount + BitVec.ofNat 64 bs.length, env := { s.env with snk := .bound (k.append bs), answers := l } }
  | [], s, k, h, ha => by
    obtain ⟨ctl, freq, node, heap, tree, ser, origLen, enc, dec, des, env⟩ := s
    obtain ⟨src, snk, answers, events⟩ := env
    simp at h ha
    simp [putAll, h, ha]
  | b :: bs, s, k, h, ha => by
    have e1 : put b s = .ok () { s with ctl.outCount := s.ctl.outCount + 1, env := { s.env with snk := .bound (k.append [b]), answers := List.replicate bs.length .ok ++ l } } := by
      simp [put, snkAppend, callSink, h, answerCall, ha, List.replicate_succ, Sink.append]
    rw [putAll, e1]
    simp only [Run.bind_ok]
    rw [putAll_oks l bs (k := k.append [b]) rfl rfl]
    simp [ofNat_succ64]

/-! COMPRESS -/

theorem presentBytes_tallied (bs : List Byte) (h : bs.length < 2 ^ 64) (v : Byte) : v ∈ presentBytes (tallied zeroFreq bs) ↔ v ∈ bs := by
  simp only [presentBytes, List.mem_filter, mem_allBytes, true_and, bne_iff_ne, ne_eq]
  rw [read_tallied, read_zeroFreq, ← List.count_pos_iff]
  have := List.count_le_length (a := v) (l := bs)
  rw [← BitVec.toNat_inj]
  simp only [BitVec.toNat_add, BitVec.toNat_ofNat]
  rw [show (0 : Word64).toNat = 0 from rfl, Nat.zero_add, Nat.mod_mod, Nat.mod_eq_of_lt (by omega)]
  omega

theorem procEncode_some {s : State} {h : TreeHead} (ht : s.tree = some h) : procEncode s = encodeWith h.code s.startEncoding := by
  simp [procEncode, ht]

theorem presentBytes_length (bs : List Byte) (h : bs.length < 2 ^ 64) : (presentBytes (tallied zeroFreq bs)).length = bs.dedup.length := by
  refine List.Perm.length_eq ?_
  rw [List.perm_ext_iff_of_nodup (presentBytes_nodup _) (List.nodup_dedup _)]
  intro v
  rw [presentBytes_tallied bs h, List.mem_dedup]

theorem faithful_rest (bs : List Byte) : (Source.faithful bs).rest = bs := rfl

/-- The first pass on a faithful Source. -/
theorem procCount_faithful {s : State} {bs : List Byte} (h : s.inputIs bs) (hq : s.quiet) (h0 : s.ctl.inCount = 0) :
    procCount s = .ok () { s.enter .counting with
      freq := tallied zeroFreq bs, origLen := some (BitVec.ofNat 64 bs.length),
      ctl := { (s.enter .counting).ctl with inCount := BitVec.ofNat 64 bs.length },
      env := { s.env with src := .bound ((Source.faithful bs).advance bs.length) } } := by
  have := procCount_quiet (s := s) h.1 hq
  rw [faithful_rest, h0, show (0 : Word64) + BitVec.ofNat 64 bs.length = BitVec.ofNat 64 bs.length by simp,
    show (BitVec.ofNat 64 bs.length == (Source.faithful bs).len) = true by simp [Source.faithful]] at this
  rw [this]
  rfl

theorem holdsTree_congr {s u : State} {t : HTree} (h : s.holdsTree t) (h1 : u.tree = s.tree) (h2 : u.node = s.node) : u.holdsTree t := by
  simpa only [State.holdsTree, h1, h2] using h

theorem procSerialize_ok {s : State} {t : HTree} (h : s.holdsTree t) :
    procSerialize s = .ok () { s.enter .serializing with ser := some { shape := t.shape, leafv := t.leaves } } := by
  obtain ⟨hd, ht, ha, _⟩ := h
  simp [procSerialize, ht, ha]

theorem Source.rewind_advance (src : Source) (n : Nat) : (src.advance n).rewind = src.rewind := by
  simp only [Source.rewind, Source.advance]

/-- COMPRESS up to its second pass, on a Source whose first pass reads SrcLen() bytes of two distinct values or more
(R225): the header is in the Sink and the rewound Source is about to be encoded. -/
theorem compressBody_encoding {s : State} {src : Source} {k : Sink} (hs : s.env.src = .bound src) (hk : s.env.snk = .bound k)
    (hq : s.quiet) (hlt : src.rest.length < 2 ^ 64) (hlen : src.len = BitVec.ofNat 64 src.rest.length) (h2 : 2 ≤ src.rest.dedup.length) :
    ∃ (tr : HTree) (header : List Byte) (w : State),
      compressBody (s.begin (some .compress))
        = (encodeWith tr.codeTable w).bind (fun _ s => (verifyPass s).bind fun _ s => discardStep s)
      ∧ tr.leaves.Nodup ∧ tr.isInternal = true ∧ (∀ v, v ∈ tr.leaves ↔ v ∈ src.rest)
      ∧ header = headerBytes { shape := tr.shape, leafv := tr.leaves } src.len
      ∧ w = { s with
          ctl := { s.ctl with busy := true, phase := .encoding, inCount := 0, outCount := BitVec.ofNat 64 header.length, running := some .compress }
          freq := tallied zeroFreq src.rest, node := w.node, heap := [], tree := w.tree, ser := w.ser, origLen := some src.len
          enc := { pend := 0, pendN := 0 }
          env := { s.env with src := .bound src.rewind, snk := .bound (k.append header) } } := by
  have hc := procCount_quiet (s := (s.begin (some .compress)).discardAll) (src := src) hs hq
  have h0 : ((s.begin (some .compress)).discardAll).ctl.inCount + BitVec.ofNat 64 src.rest.length = BitVec.ofNat 64 src.rest.length := by
    show (0 : Word64) + _ = _
    simp
  rw [h0, show (BitVec.ofNat 64 src.rest.length == src.len) = true by simp [hlen]] at hc
  simp only [require_true, Run.bind_ok] at hc
  rw [compressBody, hc]
  simp only [Run.bind_ok]
  generalize hs1 : ({ (s.begin (some .compress)).discardAll with
      ctl := _, freq := _, origLen := _, env := _ } : State) = s1
  have hf1 : s1.freq = tallied zeroFreq src.rest := by rw [← hs1]
  obtain ⟨u, t, hd, f, l, r, hrun, hh, hp, ht, -, -, -, hu⟩ := procBuild_ok s1 (by rw [hf1, presentBytes_length _ hlt]; exact h2)
  rw [hrun]
  simp only [Run.bind_ok]
  rw [procSerialize_ok hh]
  simp only [Run.bind_ok]
  have hn : t.leaves.Nodup := hp.nodup_iff.2 (presentBytes_nodup _)
  have hi : t.isInternal = true := by obtain ⟨_, _, _, _, hi, _⟩ := hh; exact hi
  have hmem : ∀ v, v ∈ t.leaves ↔ v ∈ src.rest := fun v => by rw [hp.mem_iff, hf1, presentBytes_tallied _ hlt]
  have hcode : hd.code = t.codeTable := by
    obtain ⟨h', h1, _, hc, _⟩ := hh
    rw [ht] at h1; cases h1; exact hc
  have hk1 : s1.env.snk = .bound k := by rw [← hs1]; exact hk
  have hq1 : s1.env.answers = [] := by rw [← hs1]; exact hq
  have ho1 : s1.origLen = some src.len := by rw [← hs1]
  have hku : u.env.snk = .bound k := by rw [hu]; exact hk1
  have hqu : u.env.answers = [] := by rw [hu]; exact hq1
  have hou : u.origLen = some src.len := by rw [hu]; exact ho1
  have hsu : u.env.src = .bound (src.advance src.rest.length) := by rw [hu, ← hs1]; rfl
  rw [procWriteHeader_quiet (c := { shape := t.shape, leafv := t.leaves }) (n := src.len) (k := k) rfl
    (by exact hou) (by exact hku) (by exact hqu)]
  simp only [Run.bind_ok, srcRewind]
  rw [callSource_quiet _ (src := src.advance src.rest.length) (by exact hsu) (by exact hqu)]
  simp only [Run.bind_ok]
  rw [procEncode_some (h := hd) (by exact ht), hcode, Source.rewind_advance]
  refine ⟨t, _, _, rfl, hn, hi, hmem, rfl, ?_⟩
  have hout1 : s1.ctl.outCount = 0 := by rw [← hs1]; rfl
  simp only [State.startEncoding, State.enter]
  rw [hu]
  simp only [State.enter, hout1]
  rw [← hs1]
  simp [State.begin, State.discardAll, State.discardLen, State.discardSer, State.discardTree]

/-- All of COMPRESS but its Finish when every byte of the second pass has a code (R225). -/
theorem compressBody_coded {s : State} {src : Source} {k : Sink} (hs : s.env.src = .bound src) (hk : s.env.snk = .bound k)
    (hq : s.quiet) (hlt : src.rest.length < 2 ^ 64) (hlen : src.len = BitVec.ofNat 64 src.rest.length) (h2 : 2 ≤ src.rest.dedup.length)
    (hc : ∀ y ∈ src.rewind.rest, y ∈ src.rest) :
    ∃ (tr : HTree) (file : List Byte) (u : State),
      compressBody (s.begin (some .compress)) = (verifyPass u).bind (fun _ s => discardStep s)
      ∧ tr.leaves.Nodup ∧ tr.isInternal = true ∧ (∀ v, v ∈ tr.leaves ↔ v ∈ src.rest)
      ∧ file = headerBytes { shape := tr.shape, leafv := tr.leaves } src.len ++ packBits (streamBits tr.codeTable src.rewind.rest)
      ∧ u = { s with
          ctl := { s.ctl with busy := true, phase := .encoding, inCount := BitVec.ofNat 64 src.rewind.rest.length, outCount := BitVec.ofNat 64 file.length, running := some .compress }
          freq := tallied zeroFreq src.rest, node := u.node, heap := [], tree := u.tree, ser := u.ser, origLen := some src.len
          enc := { pend := 0, pendN := 0 }
          env := { s.env with src := .bound (src.rewind.advance src.rewind.rest.length), snk := .bound (k.append file) } } := by
  obtain ⟨tr, header, w, hb, hn, hi, hm, hh, hw⟩ := compressBody_encoding hs hk hq hlt hlen h2
  have e := encodeWith_all (s := w) (code := tr.codeTable) (src := src.rewind) (k := k.append header) (by rw [hw]) (by rw [hw])
    (by rw [hw]; exact hq) (by intro x hx; rw [tr.code_ne_zero hi hn, hm]; exact hc x hx) (by rw [hw])
  rw [e] at hb
  simp only [Run.bind_ok, Sink.append_append] at hb
  refine ⟨tr, header ++ packBits (streamBits tr.codeTable src.rewind.rest), _, hb, hn, hi, hm, by rw [hh], ?_⟩
  rw [hw]
  simp only [List.length_append, packBits_length]
  rw [BitVec.ofNat_add, show (0 : Word64) + BitVec.ofNat 64 src.rewind.rest.length = BitVec.ofNat 64 src.rewind.rest.length by simp]

/-- All of COMPRESS but its Finish, on an input of two distinct byte values or more (R225). -/
theorem compressBody_ok {s : State} {bs : List Byte} {k : Sink} (h : s.inputIs bs) (hk : s.env.snk = .bound k) (hq : s.quiet)
    (h2 : 2 ≤ bs.dedup.length) :
    ∃ (tr : HTree) (file : List Byte) (u : State),
      compressBody (s.begin (some .compress)) = .ok () u ∧ tr.leaves.Nodup ∧ tr.isInternal = true ∧ (∀ v, v ∈ tr.leaves ↔ v ∈ bs)
      ∧ file = headerBytes { shape := tr.shape, leafv := tr.leaves } (BitVec.ofNat 64 bs.length) ++ packBits (streamBits tr.codeTable bs)
      ∧ u = { s with
          ctl := { s.ctl with busy := true, phase := .encoding, inCount := BitVec.ofNat 64 bs.length, outCount := BitVec.ofNat 64 file.length, running := some .compress }
          freq := tallied zeroFreq bs, node := [], heap := [], tree := none, ser := none, origLen := none
          enc := { pend := 0, pendN := 0 }
          env := { s.env with src := .bound ((Source.faithful bs).advance bs.length), snk := .bound (k.append file) } } := by
  have hrw : (Source.faithful bs).rewind = Source.faithful bs := rfl
  obtain ⟨tr, file, u, hb, hn, hi, hm, hf, hu⟩ := compressBody_coded h.1 hk hq (by rw [faithful_rest]; exact h.2) rfl
    (by rw [faithful_rest]; exact h2) (by rw [hrw]; exact fun _ h => h)
  rw [hrw, faithful_rest] at hu hf
  rw [verifyPass, show (u.origLen == some u.ctl.inCount) = true by rw [hu]; simp [Source.faithful]] at hb
  simp only [require_true, Run.bind_ok, discardStep] at hb
  refine ⟨tr, file, _, hb, hn, hi, hm, hf, ?_⟩
  rw [hu]
  simp [State.discardAll, State.discardLen, State.discardSer, State.discardTree]

/-! DECOMPRESS -/

theorem decompressBody_ok {s : State} {src : Source} {k : Sink} {tr : HTree} {xs payload : List Byte} (hs : s.env.src = .bound src)
    (hk : s.env.snk = .bound k) (hq : s.quiet) (hi : tr.isInternal = true) (hn : tr.leaves.Nodup) (hlen : xs.length < 2 ^ 64)
    (hx : ∀ x ∈ xs, x ∈ tr.leaves) (hb : streamBits tr.codeTable xs <+: allBits payload)
    (hr : src.rest = headerBytes { shape := tr.shape, leafv := tr.leaves } (BitVec.ofNat 64 xs.length) ++ payload) :
    ∃ u : State, decompressBody (s.begin (some .decompress)) = .ok () u ∧ u.tree = none ∧ u.ser = none ∧ u.origLen = none
      ∧ u.ctl.outCount = BitVec.ofNat 64 xs.length ∧ u.ctl.running = some .decompress ∧ u.env.answers = [] ∧ u.env.snk = .bound (k.append xs)
      ∧ u.env.src = .bound (src.advance (10 + (tr.shape.length + 7) / 8 + tr.leaves.length + ((streamBits tr.codeTable xs).length + 7) / 8)) := by
  have hwf := HTree.wellFormed_of hi hn
  have hll := leaves_length_le hn
  have hsl := tr.shape_length
  have hnt : (BitVec.ofNat 16 tr.shape.length).toNat = tr.shape.length := by
    rw [BitVec.toNat_ofNat]; omega
  rw [decompressBody]
  have r1 := procReadHeader_quiet (s := (s.begin (some .decompress)).discardAll) (src := src) (BitVec.ofNat 16 tr.shape.length) (packBits tr.shape) tr.leaves
    payload (BitVec.ofNat 64 xs.length) hs hq (by rw [hr]; simp [headerBytes, SerTree.serN]) (by rw [hnt]; omega)
    (by rw [hnt, packBits_length]) (by rw [hnt, unpackBits_packBits, tr.count_false_shape]) hll
  rw [hnt, unpackBits_packBits] at r1
  rw [r1]
  simp only [Run.bind_ok]
  generalize hs1 : ({ (State.enter _ Phase.readingHeader) with
      ctl := _, ser := _, origLen := _, env := _ } : State) = s1
  have h1ser : s1.ser = some { shape := tr.shape, leafv := tr.leaves } := by rw [← hs1]
  obtain ⟨des, hd⟩ := procDeserialize_ok hwf rfl rfl h1ser
  rw [hd]
  simp only [Run.bind_ok]
  generalize hs2 : ({ (s1.enter .deriving_) with node := _, tree := _, des := _ } : State) = s2
  have hh : s2.holdsTree tr := layout_holds hi hn (by rw [← hs2]) (by rw [← hs2])
  have ht2 : s2.tree = some { root := 0, code := tr.codeTable } := by rw [← hs2]
  have hrest : (src.advance (10 + (packBits tr.shape).length + tr.leaves.length)).rest = payload := by
    rw [Source.rest_advance, hr, show 10 + (packBits tr.shape).length + tr.leaves.length = (headerBytes { shape := tr.shape, leafv := tr.leaves } (BitVec.ofNat 64 xs.length)).length by
      rw [headerBytes_length, packBits_length]]
    simp
  have hs2s : s2.env.src = .bound (src.advance (10 + (packBits tr.shape).length + tr.leaves.length)) := by rw [← hs2, ← hs1]; rfl
  have hs2k : s2.env.snk = .bound k := by rw [← hs2, ← hs1]; exact hk
  have hs2q : s2.env.answers = [] := by rw [← hs2, ← hs1]; exact hq
  have hs2o : s2.origLen = some (BitVec.ofNat 64 xs.length) := by rw [← hs2, ← hs1]; rfl
  have habs : absTree s2.node 0 = some tr := by
    obtain ⟨h', h1, h2, _⟩ := hh
    rw [ht2] at h1; cases h1; exact h2
  rw [procDecode_ok (h := { root := 0, code := tr.codeTable }) hs2s hs2k hs2q ht2 habs hi hn hlen hs2o hx (by rw [hrest]; exact hb)]
  simp only [Run.bind_ok, verifyCount]
  have hout : s2.ctl.outCount = 0 := by rw [← hs2, ← hs1]; rfl
  rw [show ((decSt (s2.enter .decoding) (src.advance (10 + (packBits tr.shape).length + tr.leaves.length)) k (streamBits tr.codeTable xs).length 0 .atRoot xs).origLen ==
      some (decSt (s2.enter .decoding) (src.advance (10 + (packBits tr.shape).length + tr.leaves.length)) k (streamBits tr.codeTable xs).length 0 .atRoot xs).ctl.outCount) = true by
    simp [decSt, State.enter, hs2o, hout]]
  simp only [require_true, Run.bind_ok, discardStep]
  refine ⟨_, rfl, rfl, rfl, rfl, ?_, ?_, hs2q, rfl, ?_⟩
  · simp [decSt, State.enter, State.discardAll, State.discardLen, State.discardSer, State.discardTree, hout]
  · rw [← hs2, ← hs1]; rfl
  · simp [decSt, State.enter, State.discardAll, State.discardLen, State.discardSer, State.discardTree, packBits_length]

end Sys2Proof.Machine
end

