-- ==== Sys2Proof/Laws/Moves.lean ====
section
/-! SUPPORT. What a procedure may do to the streams and the control registers, however its calls are answered. -/

namespace Sys2Proof.Machine

/-- `e` is the error value of the last primitive call on the way from `s` to `u`: the last answer used up, or that of
an unbound stream (R66, R275). -/
def ErrFrom (s u : State) (e : IoErr) : Prop :=
  (∃ pre, s.env.answers = pre ++ .ioError e :: u.env.answers) ∨ (∃ x, s.env.src = .unbound e x) ∨ ∃ x, s.env.snk = .unbound e x

/-- What a procedure may do to the control registers and the Sink (R38, R64). -/
structure SnkMoves (s u : State) : Prop where
  ctl : u.ctl = { s.ctl with phase := u.ctl.phase, inCount := u.ctl.inCount, outCount := u.ctl.outCount }
  events : u.env.events = s.env.events
  answers : u.env.answers <:+ s.env.answers
  unboundSrc : ∀ e x, s.env.src = .unbound e x ↔ u.env.src = .unbound e x
  srcWf : ∀ src, s.env.src = .bound src → src.wf = true → ∃ src', u.env.src = .bound src' ∧ src'.wf = true
  unboundSnk : ∀ e x, s.env.snk = .unbound e x → u.env.snk = .unbound e x ∧ u.ctl.outCount = s.ctl.outCount
  boundSnk : ∀ k, s.env.snk = .bound k → ∃ bs, u.env.snk = .bound (k.append bs) ∧ u.ctl.outCount = s.ctl.outCount + BitVec.ofNat 64 bs.length

/-- And what one that does not rewind may do to the Source (R38, R62). -/
structure Moves (s u : State) : Prop extends SnkMoves s u where
  unboundIn : ∀ e x, s.env.src = .unbound e x → u.ctl.inCount = s.ctl.inCount
  boundSrc : ∀ src, s.env.src = .bound src → ∃ n, n ≤ src.rest.length ∧ u.env.src = .bound (src.advance n)
    ∧ u.ctl.inCount = s.ctl.inCount + BitVec.ofNat 64 n

theorem ofNat_add_64 (c : Word64) (a b : Nat) : c + BitVec.ofNat 64 a + BitVec.ofNat 64 b = c + BitVec.ofNat 64 (a + b) := by
  apply BitVec.eq_of_toNat_eq; simp; omega

theorem SnkMoves.refl (s : State) : SnkMoves s s :=
  ⟨rfl, rfl, List.suffix_refl _, fun _ _ => .rfl, fun src h hw => ⟨src, h, hw⟩, fun _ _ h => ⟨h, rfl⟩, fun k h => ⟨[], by simpa using h, by simp⟩⟩

theorem SnkMoves.trans {s u w : State} (h : SnkMoves s u) (h' : SnkMoves u w) : SnkMoves s w where
  ctl := by rw [h'.ctl, h.ctl]
  events := h'.events.trans h.events
  answers := h'.answers.trans h.answers
  unboundSrc e x := (h.unboundSrc e x).trans (h'.unboundSrc e x)
  srcWf src hs hw := by
    obtain ⟨src', h1, h2⟩ := h.srcWf src hs hw
    exact h'.srcWf src' h1 h2
  unboundSnk e x hs := by
    obtain ⟨h1, h2⟩ := h.unboundSnk e x hs
    obtain ⟨h3, h4⟩ := h'.unboundSnk e x h1
    exact ⟨h3, h4.trans h2⟩
  boundSnk k hs := by
    obtain ⟨bs, h1, h2⟩ := h.boundSnk k hs
    obtain ⟨cs, h3, h4⟩ := h'.boundSnk _ h1
    exact ⟨bs ++ cs, by simpa using h3, by rw [h4, h2, ofNat_add_64, List.length_append]⟩

theorem Moves.refl (s : State) : Moves s s :=
  ⟨.refl s, fun _ _ _ => rfl, fun src h => ⟨0, Nat.zero_le _, by simpa using h, by simp⟩⟩

theorem Moves.trans {s u w : State} (h : Moves s u) (h' : Moves u w) : Moves s w where
  toSnkMoves := h.toSnkMoves.trans h'.toSnkMoves
  unboundIn e x hs := (h'.unboundIn e x ((h.unboundSrc e x).1 hs)).trans (h.unboundIn e x hs)
  boundSrc src hs := by
    obtain ⟨n, h1, h2, h3⟩ := h.boundSrc src hs
    obtain ⟨m, h4, h5, h6⟩ := h'.boundSrc _ h2
    rw [Source.rest_advance, List.length_drop] at h4
    exact ⟨n + m, by omega, by simpa using h5, by rw [h6, h3, ofNat_add_64]⟩

theorem SnkMoves.errFrom {s u w : State} (h : SnkMoves s u) {e : IoErr} (he : ErrFrom u w e) : ErrFrom s w e := by
  rcases he with ⟨pre, he⟩ | ⟨x, he⟩ | ⟨x, he⟩
  · obtain ⟨pre', h'⟩ := h.answers
    exact .inl ⟨pre' ++ pre, by rw [← h', he, List.append_assoc]⟩
  · exact .inr (.inl ⟨x, (h.unboundSrc e x).2 he⟩)
  · refine .inr (.inr ⟨x, ?_⟩)
    cases hs : s.env.snk with
    | unbound e' x' =>
      have := (h.unboundSnk e' x' hs).1
      rw [he] at this; cases this; rfl
    | bound k =>
      obtain ⟨bs, h1, _⟩ := h.boundSnk k hs
      rw [he] at h1; cases h1

/-- A relation between states that a run of procedures builds up. -/
structure Builds (R : State → State → Prop) : Prop where
  refl : ∀ s, R s s
  trans : ∀ {s u w}, R s u → R u w → R s w
  moves : ∀ {s u}, R s u → SnkMoves s u

/-- Every way `r` ends is related to `s` by `R`; a raise of IoFailure has put the environment's error value into
IOERR, and nothing else does. -/
inductive Within (R : State → State → Prop) (s : State) {α : Type} : Run α → Prop where
  | ok {a : α} {u : State} : R s u → Within R s (.ok a u)
  | hung {st : Stream} {u : State} : R s u → Within R s (.hung st u)
  | raise {t : Failure} {u : State} : t ≠ .ioFailure → R s u → Within R s (.raised t u)
  | ioError {u : State} {e : IoErr} : R s u → ErrFrom s u e → Within R s (ioError e u)
  | stuck {x : Fault} : Within R s (.stuck x)

theorem Within.of_ok {R : State → State → Prop} {s u : State} {α : Type} {a : α} (h : Within R s (Run.ok a u)) : R s u := by
  generalize hr : Run.ok a u = r at h
  cases h <;> first | (cases hr; assumption) | cases hr

theorem Within.of_hung {R : State → State → Prop} {s u : State} {α : Type} {st : Stream} (h : Within R s (Run.hung st u : Run α)) : R s u := by
  generalize hr : Run.hung st u = r at h
  cases h <;> first | (cases hr; assumption) | cases hr

theorem Within.of_raised {R : State → State → Prop} {s u : State} {α : Type} {t : Failure} (h : Within R s (Run.raised t u : Run α)) :
    (t ≠ .ioFailure ∧ R s u) ∨ (t = .ioFailure ∧ ∃ w e, R s w ∧ ErrFrom s w e ∧ u = { w with ctl.ioerr := e }) := by
  generalize hr : Run.raised t u = r at h
  cases h with
  | ok => cases hr
  | hung => cases hr
  | stuck => cases hr
  | raise h1 h2 => cases hr; exact .inl ⟨h1, h2⟩
  | ioError h1 h2 => cases hr; exact .inr ⟨rfl, _, _, h1, h2, rfl⟩

theorem Within.bind {R : State → State → Prop} (hR : Builds R) {s : State} {α β : Type} {r : Run α} {k : α → State → Run β}
    (h : Within R s r) (hk : ∀ a u, r = .ok a u → R s u → Within R u (k a u)) : Within R s (r.bind k) := by
  cases h with
  | @ok a u h =>
    have h2 := hk a u rfl h
    show Within R s (k a u)
    generalize k a u = r2 at h2
    cases h2 with
    | ok h2 => exact .ok (hR.trans h h2)
    | hung h2 => exact .hung (hR.trans h h2)
    | raise ht h2 => exact .raise ht (hR.trans h h2)
    | ioError h2 he => exact .ioError (hR.trans h h2) ((hR.moves h).errFrom he)
    | stuck => exact .stuck
  | hung h => exact .hung h
  | raise ht h => exact .raise ht h
  | ioError h he => exact .ioError h he
  | stuck => exact .stuck

theorem Within.after {R : State → State → Prop} (hR : Builds R) {s u : State} {α : Type} {r : Run α} (h : R s u) (hr : Within R u r) :
    Within R s r :=
  Within.bind hR (r := Run.ok () u) (k := fun _ _ => r) (.ok h) (fun _ w e hw => by cases e; exact hr)

/-- A run that ends with no result as another run does, ends so under any continuation. -/
theorem Within.bind_noOk {R : State → State → Prop} {s : State} {α β : Type} {r : Run α} {k : α → State → Run β} (h : Within R s r)
    (hn : ∀ a u, r ≠ .ok a u) : Within R s (r.bind k) := by
  cases h with
  | ok h => exact absurd rfl (hn _ _)
  | hung h => exact .hung h
  | raise ht h => exact .raise ht h
  | ioError h he => exact .ioError h he
  | stuck => exact .stuck

/-- `f` sees neither the control registers nor the coming answers. -/
def AnswerBlind {β : Type} (f : State → β) : Prop :=
  ∀ (s : State) (c : Control) (l : List Answer), f { s with ctl := c, env := { s.env with answers := l } } = f s

/-- Nor the Source. -/
def SrcBlind {β : Type} (f : State → β) : Prop :=
  ∀ (s : State) (c : Control) (x : Binding Source) (l : List Answer), f { s with ctl := c, env := { s.env with src := x, answers := l } } = f s

/-- Nor the Sink. -/
def SnkBlind {β : Type} (f : State → β) : Prop :=
  ∀ (s : State) (c : Control) (x : Binding Sink) (l : List Answer), f { s with ctl := c, env := { s.env with snk := x, answers := l } } = f s

theorem SrcBlind.answer {β : Type} {f : State → β} (h : SrcBlind f) : AnswerBlind f := fun s c l => h s c s.env.src l
theorem SnkBlind.answer {β : Type} {f : State → β} (h : SnkBlind f) : AnswerBlind f := fun s c l => h s c s.env.snk l

/-- The streams and the control registers move, and what `f` sees stays. -/
def Eff {β : Type} (f : State → β) (s u : State) : Prop := Moves s u ∧ f u = f s
def SEff {β : Type} (f : State → β) (s u : State) : Prop := SnkMoves s u ∧ f u = f s

theorem Eff.builds {β : Type} (f : State → β) : Builds (Eff f) where
  refl s := ⟨.refl s, rfl⟩
  trans h h' := ⟨h.1.trans h'.1, h'.2.trans h.2⟩
  moves h := h.1.toSnkMoves

theorem SEff.builds {β : Type} (f : State → β) : Builds (SEff f) where
  refl s := ⟨.refl s, rfl⟩
  trans h h' := ⟨h.1.trans h'.1, h'.2.trans h.2⟩
  moves h := h.1

theorem Within.mono {R R' : State → State → Prop} (h : ∀ {s u}, R s u → R' s u) {s : State} {α : Type} {r : Run α} (hr : Within R s r) :
    Within R' s r := by
  cases hr with
  | ok hr => exact .ok (h hr)
  | hung hr => exact .hung (h hr)
  | raise ht hr => exact .raise ht (h hr)
  | ioError hr he => exact .ioError (h hr) he
  | stuck => exact .stuck

/-- Only the answers are consumed. -/
theorem Eff.answers {β : Type} {f : State → β} (hf : AnswerBlind f) (s : State) {l : List Answer} (hl : l <:+ s.env.answers) :
    Eff f s { s with env.answers := l } :=
  ⟨{ SnkMoves.refl s with
     answers := hl, ctl := rfl, events := rfl, unboundIn := fun _ _ _ => rfl,
     boundSrc := fun src h => ⟨0, Nat.zero_le _, by simpa using h, by simp⟩ }, hf s s.ctl _⟩

theorem answerCall_within {β : Type} {f : State → β} (hf : AnswerBlind f) (st : Stream) (s : State) : Within (Eff f) s (answerCall st s) := by
  simp only [answerCall]
  split
  · exact .ok ((Eff.builds f).refl s)
  · rename_i l h; exact .ok (Eff.answers hf s (by rw [h]; exact List.suffix_cons _ _))
  · rename_i e l h
    exact .ioError (Eff.answers hf s (l := l) (by rw [h]; exact List.suffix_cons _ _)) (.inl ⟨[], by simp [h]⟩)
  · rename_i l h; exact .hung <| Eff.answers hf s (by rw [h]; exact List.suffix_cons _ _)

theorem answerCall_ok {st : Stream} {s u : State} (h : answerCall st s = .ok () u) : u = { s with env.answers := u.env.answers } := by
  simp only [answerCall] at h
  split at h <;> first | (cases h; rfl) | simp [ioError] at h

/-- The way every call of the Source goes (R62, R66, R275). -/
theorem callSource_cases {α : Type} (g : Source → α × Source) (s : State) {β : Type} {f : State → β} (hf : SrcBlind f) :
    (∃ src l, s.env.src = .bound src ∧ Eff f s { s with env.answers := l } ∧
      callSource g s = .ok (g src).1 { s with env := { s.env with answers := l, src := .bound (g src).2 } }) ∨
    (Within (Eff f) s (callSource g s) ∧ ∀ a u, callSource g s ≠ .ok a u) := by
  have hor : (∃ e x, s.env.src = .unbound e x) ∨ ∃ x, s.env.src = .bound x := by
    cases s.env.src with
    | unbound e x => exact .inl ⟨e, x, rfl⟩
    | bound x => exact .inr ⟨x, rfl⟩
  rcases hor with ⟨e, x, hs⟩ | ⟨src, hs⟩
  · refine .inr ⟨?_, ?_⟩
    · simp only [callSource, hs]
      exact .ioError ((Eff.builds f).refl s) (.inr (.inl ⟨x, hs⟩))
    · simp [callSource, hs, ioError]
  · have h1 := answerCall_within hf.answer .source s
    have key : callSource g s = (answerCall .source s).bind fun _ s =>
        .ok (g src).1 { s with env.src := .bound (g src).2 } := by simp only [callSource, hs]
    rw [key]
    cases ha : answerCall .source s with
    | ok a u =>
      rw [ha] at h1
      have e := answerCall_ok ha
      refine .inl ⟨src, u.env.answers, hs, by rw [e] at h1; exact h1.of_ok, ?_⟩
      rw [e]; rfl
    | raised t u => rw [ha] at h1; exact .inr ⟨h1.bind_noOk (by simp), by simp⟩
    | hung st u => rw [ha] at h1; exact .inr ⟨h1.bind_noOk (by simp), by simp⟩
    | stuck x => exact .inr ⟨.stuck, by simp⟩

theorem callSink_cases (g : Sink → Sink) (s : State) {β : Type} {f : State → β} (hf : SnkBlind f) :
    (∃ k l, s.env.snk = .bound k ∧ Eff f s { s with env.answers := l } ∧
      callSink g s = .ok () { s with env := { s.env with answers := l, snk := .bound (g k) } }) ∨
    (Within (Eff f) s (callSink g s) ∧ ∀ a u, callSink g s ≠ .ok a u) := by
  have hor : (∃ e x, s.env.snk = .unbound e x) ∨ ∃ x, s.env.snk = .bound x := by
    cases s.env.snk with
    | unbound e x => exact .inl ⟨e, x, rfl⟩
    | bound x => exact .inr ⟨x, rfl⟩
  rcases hor with ⟨e, x, hs⟩ | ⟨k, hs⟩
  · refine .inr ⟨?_, ?_⟩
    · simp only [callSink, hs]
      exact .ioError ((Eff.builds f).refl s) (.inr (.inr ⟨x, hs⟩))
    · simp [callSink, hs, ioError]
  · have h1 := answerCall_within hf.answer .sink s
    have key : callSink g s = (answerCall .sink s).bind fun _ s => .ok () { s with env.snk := .bound (g k) } := by
      simp only [callSink, hs]
    rw [key]
    cases ha : answerCall .sink s with
    | ok a u =>
      rw [ha] at h1
      have e := answerCall_ok ha
      refine .inl ⟨k, u.env.answers, hs, by rw [e] at h1; exact h1.of_ok, ?_⟩
      rw [e]; rfl
    | raised t u => rw [ha] at h1; exact .inr ⟨h1.bind_noOk (by simp), by simp⟩
    | hung st u => rw [ha] at h1; exact .inr ⟨h1.bind_noOk (by simp), by simp⟩
    | stuck x => exact .inr ⟨.stuck, by simp⟩

theorem srcLen_within {β : Type} {f : State → β} (hf : SrcBlind f) (s : State) : Within (Eff f) s (srcLen s) := by
  rcases callSource_cases (fun src => (src.len, src)) s hf with ⟨src, l, hs, h1, h⟩ | ⟨h, -⟩
  · rw [srcLen, h]
    refine .ok ⟨?_, hf s s.ctl _ _⟩
    exact { SnkMoves.refl s with
      answers := h1.1.answers, ctl := rfl, events := rfl, unboundIn := fun _ _ _ => rfl
      unboundSrc := fun e x => by simp [hs]
      srcWf := fun src' h' hw => by rw [hs] at h'; cases h'; exact ⟨src, rfl, hw⟩
      boundSrc := fun src' h' => by rw [hs] at h'; cases h'; exact ⟨0, Nat.zero_le _, by simp, by simp⟩ }
  · exact h

theorem Source.wf_advance {src : Source} (h : src.wf = true) {n : Nat} (hn : n ≤ src.rest.length) : (src.advance n).wf = true := by
  simp [Source.wf, Source.rest, Source.advance] at *
  refine ⟨⟨decide_eq_true ?_, decide_eq_true h.1.2⟩, h.2⟩
  omega

theorem taken_moves {β : Type} {f : State → β} (hf : SrcBlind f) {s : State} {src : Source} (hs : s.env.src = .bound src) {l : List Answer}
    (hl : l <:+ s.env.answers) (hr : 1 ≤ src.rest.length) :
    Eff f s { s with ctl.inCount := s.ctl.inCount + 1, env := { s.env with answers := l, src := .bound (src.advance 1) } } := by
  refine ⟨?_, hf s _ _ _⟩
  exact { SnkMoves.refl s with
    answers := hl, ctl := rfl, events := rfl
    unboundIn := fun e x he => by rw [hs] at he; cases he
    unboundSrc := fun e x => by simp [hs]
    srcWf := fun src' h' hw => by rw [hs] at h'; cases h'; exact ⟨_, rfl, Source.wf_advance hw hr⟩
    boundSrc := fun src' h' => by rw [hs] at h'; cases h'; exact ⟨1, hr, rfl, rfl⟩ }

/-- A read, and the count of the byte it gives (R13, R122, R183, R198). -/
theorem srcRead_cases (s : State) {β : Type} {f : State → β} (hf : SrcBlind f) :
    (∃ b u, srcRead s = .ok (some b) u ∧ Eff f s { u with ctl.inCount := u.ctl.inCount + 1 }) ∨
    (∃ u, srcRead s = .ok none u ∧ Eff f s u) ∨
    (Within (Eff f) s (srcRead s) ∧ ∀ a u, srcRead s ≠ .ok a u) := by
  rcases callSource_cases (fun src =>
    match src.data[src.pos]? with
    | some b => (some b, { src with pos := src.pos + 1 })
    | none => (none, src)) s hf with ⟨src, l, hs, h1, h⟩ | h
  · cases hb : src.data[src.pos]? with
    | some b =>
      have h' : srcRead s = _ := h
      simp only [hb] at h'
      refine .inl ⟨b, _, h', ?_⟩
      rw [Source.getElem_pos] at hb
      have hr : 1 ≤ src.rest.length := by
        cases hc : src.rest with
        | nil => rw [hc] at hb; simp at hb
        | cons => simp
      exact taken_moves hf hs h1.1.answers hr
    | none =>
      have h' : srcRead s = _ := h
      simp only [hb] at h'
      refine .inr (.inl ⟨_, h', ?_⟩)
      have := State.ext_src (s := { s with env.answers := l }) (src := src) hs
      simp only at this
      rw [this]; exact h1
  · exact .inr (.inr h)

theorem srcReadByte_within {β : Type} {f : State → β} (hf : SrcBlind f) {t : Failure} (ht : t ≠ .ioFailure) (s : State) :
    Within (Eff f) s (srcReadByte t s) := by
  rw [srcReadByte]
  rcases srcRead_cases s hf with ⟨b, u, h, hu⟩ | ⟨u, h, hu⟩ | ⟨h, hn⟩
  · rw [h]; exact .ok hu
  · rw [h]; exact .raise ht hu
  · exact h.bind_noOk hn

theorem srcReadBytes_within {β : Type} {f : State → β} (hf : SrcBlind f) {t : Failure} (ht : t ≠ .ioFailure) : ∀ (n : Nat) (s : State),
    Within (Eff f) s (srcReadBytes t n s)
  | 0, s => .ok ((Eff.builds f).refl s)
  | n + 1, s => by
    rw [srcReadBytes]
    exact (srcReadByte_within hf ht s).bind (Eff.builds f) fun b u _ _ =>
      (srcReadBytes_within hf ht n u).bind (Eff.builds f) fun bs w _ _ => .ok ((Eff.builds f).refl w)

theorem put_within {β : Type} {f : State → β} (hf : SnkBlind f) (b : Byte) (s : State) : Within (Eff f) s (put b s) := by
  rw [put]
  rcases callSink_cases (fun k => { k with data := k.data ++ [b] }) s hf with ⟨k, l, hs, h1, h⟩ | ⟨h, hn⟩
  · rw [snkAppend, h]
    refine .ok ⟨?_, hf s _ _ _⟩
    exact { SnkMoves.refl s with
      answers := h1.1.answers, ctl := rfl, events := rfl, unboundIn := fun _ _ _ => rfl
      unboundSnk := fun e x he => by rw [hs] at he; cases he
      boundSnk := fun k' h' => by rw [hs] at h'; cases h'; exact ⟨[b], rfl, rfl⟩
      boundSrc := fun src h => ⟨0, Nat.zero_le _, by simpa using h, by simp⟩ }
  · exact Within.bind_noOk (r := snkAppend b s) h hn

theorem putAll_within {β : Type} {f : State → β} (hf : SnkBlind f) : ∀ (bs : List Byte) (s : State), Within (Eff f) s (putAll bs s)
  | [], s => .ok ((Eff.builds f).refl s)
  | b :: bs, s => by
    rw [putAll]
    exact (put_within hf b s).bind (Eff.builds f) fun _ u _ _ => putAll_within hf bs u

theorem srcRewind_within {β : Type} {f : State → β} (hf : SrcBlind f) (s : State) : Within (SEff f) s (srcRewind s) := by
  rcases callSource_cases (fun src => ((), src.rewind)) s hf with ⟨src, l, hs, h1, h⟩ | ⟨h, -⟩
  · rw [srcRewind, h]
    refine .ok ⟨?_, hf s s.ctl _ _⟩
    exact { SnkMoves.refl s with
      answers := h1.1.answers, ctl := rfl, events := rfl
      unboundSrc := fun e x => by simp [hs]
      srcWf := fun src' h' hw => by
        rw [hs] at h'; cases h'
        refine ⟨_, rfl, ?_⟩
        simp only [Source.rewind]
        split
        · simp [Source.wf] at hw ⊢
          exact ⟨hw.1.2, hw.2⟩
        · rename_i d ds hd
          simp [Source.wf, hd] at hw ⊢
          exact ⟨hw.2.1, hw.2.2⟩ }
  · exact Within.mono (fun h => ⟨h.1.toSnkMoves, h.2⟩) h

theorem forEachByte_within {β : Type} {f : State → β} (hf : SrcBlind f) {body : Byte → Proc Unit}
    (hb : ∀ b s, Within (Eff f) s (body b s)) : ∀ (n : Nat) (s : State), Within (Eff f) s (forEachByte body n s)
  | 0, s => .ok ((Eff.builds f).refl s)
  | n + 1, s => by
    rw [forEachByte]
    rcases srcRead_cases s hf with ⟨b, u, h, hu⟩ | ⟨u, h, hu⟩ | ⟨h, hn⟩
    · rw [h]
      exact Within.after (Eff.builds f) hu ((hb b _).bind (Eff.builds f) fun _ w _ _ => forEachByte_within hf hb n w)
    · rw [h]; exact .ok hu
    · exact h.bind_noOk hn

theorem require_within {R : State → State → Prop} (hR : Builds R) (c : Bool) {t : Failure} (ht : t ≠ .ioFailure) (s : State) :
    Within R s (require c t s) := by
  cases c
  · exact .raise ht (hR.refl s)
  · exact .ok (hR.refl s)

/-- A change of the registers that `f` does not see, and of PHASE. -/
theorem Eff.regs {β : Type} {f : State → β} {s u : State} (h1 : u.env = s.env) (h2 : u.ctl = { s.ctl with phase := u.ctl.phase }) (h3 : f u = f s) :
    Eff f s u := by
  refine ⟨?_, h3⟩
  have hin : u.ctl.inCount = s.ctl.inCount := by rw [h2]
  have hout : u.ctl.outCount = s.ctl.outCount := by rw [h2]
  exact {
    ctl := by rw [h2], events := by rw [h1], answers := by rw [h1]
    unboundSrc := by simp [h1], srcWf := fun src h hw => ⟨src, by rw [h1]; exact h, hw⟩
    unboundSnk := fun e x h => ⟨by rw [h1]; exact h, hout⟩
    boundSnk := fun k h => ⟨[], by rw [h1]; simpa using h, by simp [hout]⟩
    unboundIn := fun _ _ _ => hin
    boundSrc := fun src h => ⟨0, Nat.zero_le _, by rw [h1]; simpa using h, by simp [hin]⟩ }

end Sys2Proof.Machine
end

