-- ==== Sys2Proof/Laws/Effects.lean ====
section
/-! SUPPORT. What each procedure leaves unchanged, and every way a command ends (60_exceptions.md R248 to R250). -/

namespace Sys2Proof.Machine

/-! What each procedure leaves alone. -/
def keptByCount (s : State) := (s.env.snk, s.node, s.heap, s.tree, s.ser, s.enc, s.dec, s.des)
def keptByBuild (s : State) := (s.env, s.freq, s.ser, s.origLen, s.enc, s.dec, s.des)
def keptBySerialize (s : State) := (s.env, s.freq, s.node, s.heap, s.tree, s.origLen, s.enc, s.dec, s.des)
def keptByDeserialize (s : State) := (s.env, s.freq, s.heap, s.ser, s.origLen, s.enc, s.dec)
def keptByWriteHeader (s : State) := (s.env.src, s.freq, s.node, s.heap, s.tree, s.ser, s.origLen, s.enc, s.dec, s.des)
def keptByReadHeader (s : State) := (s.env.snk, s.freq, s.node, s.heap, s.tree, s.enc, s.dec, s.des)
def keptByEncode (s : State) := (s.freq, s.node, s.heap, s.tree, s.ser, s.origLen, s.dec, s.des)
def keptByDecode (s : State) := (s.freq, s.node, s.heap, s.tree, s.ser, s.origLen, s.enc, s.des)
def keptByCompress (s : State) := (s.dec, s.des)
def keptByDecompress (s : State) := (s.freq, s.heap, s.enc)

theorem Eff.mono {β γ : Type} {f : State → β} {g : State → γ} (h : ∀ {s u}, f u = f s → g u = g s) {s u : State} (he : Eff f s u) : Eff g s u :=
  ⟨he.1, h he.2⟩

theorem Eff.toSEff {β : Type} {f : State → β} {s u : State} (h : Eff f s u) : SEff f s u := ⟨h.1.toSnkMoves, h.2⟩

theorem procCount_within (s : State) : Within (Eff keptByCount) s (procCount s) := by
  have hf : SrcBlind keptByCount := fun _ _ _ _ => rfl
  have hB := Eff.builds keptByCount
  rw [procCount]
  refine Within.after hB (u := (s.enter .counting).discardLen) (Eff.regs rfl rfl rfl) ?_
  refine (srcLen_within hf _).bind hB fun len u _ _ => ?_
  refine Within.bind hB ?_ fun _ w _ _ => ?_
  · refine Within.after hB (u := { u with freq := zeroFreq }) (Eff.regs rfl rfl rfl) ?_
    refine forEachByte_within hf (fun b s => ?_) _ _
    exact .ok (Eff.regs rfl rfl rfl : Eff keptByCount s { s with freq := s.freq.write b (s.freq.read b + 1) })
  · refine (require_within hB _ (by decide) _).bind hB fun _ x _ _ => ?_
    exact .ok (Eff.regs rfl rfl rfl)

theorem procBuild_cases (s : State) : (∃ u t, procBuild s = .ok () u ∧ u.holdsTree t ∧ u = { s.enter .deriving_ with node := u.node, heap := [], tree := u.tree }) ∨
    (∃ h, procBuild s = .raised .insufficientAlphabet { s.enter .building with node := [], heap := h, tree := none }) := by
  by_cases h2 : 2 ≤ (presentBytes s.freq).length
  · obtain ⟨u, t, h, f, l, r, hrun, hh, hp, ht, hr, hn, hf, hu⟩ := procBuild_ok s h2
    exact .inl ⟨u, t, hrun, hh, hu⟩
  · have h := procBuild_insufficient s (by omega)
    generalize s.startBuilding.addLeaves.heap = hp at h
    exact .inr ⟨hp, h⟩

theorem procBuild_within (s : State) : Within (Eff keptByBuild) s (procBuild s) := by
  have hc := procBuild_cases s
  generalize procBuild s = r at *
  rcases hc with ⟨u, t, h, _, e⟩ | ⟨hp, h⟩
  · rw [h]; exact .ok (Eff.regs (by rw [e]; rfl) (by rw [e]; rfl) (by rw [e]; rfl))
  · rw [h]; exact .raise (by decide) (Eff.regs rfl rfl rfl)

theorem procSerialize_within (s : State) : Within (Eff keptBySerialize) s (procSerialize s) := by
  rw [procSerialize]
  split
  · exact .raise (by decide) ((Eff.builds _).refl s)
  · split
    · exact .stuck
    · exact .ok (Eff.regs rfl rfl rfl)

theorem procDeserialize_within (s : State) : Within (Eff keptByDeserialize) s (procDeserialize s) := by
  rw [procDeserialize]
  split
  · exact .raise (by decide) ((Eff.builds _).refl s)
  · rename_i c hc
    rcases parseTree_frame c (s.enter .deserializing).discardTree with ⟨i, u, h, e⟩ | ⟨u, h, e⟩
    · rw [h]
      simp only [Run.onRaise_ok, Run.bind_ok, finishTree]
      split
      · exact .stuck
      · rw [e]; exact .ok (Eff.regs rfl rfl rfl)
    · rw [h, e]
      exact .raise (by decide) (Eff.regs rfl rfl rfl)

theorem procWriteHeader_within (s : State) : Within (Eff keptByWriteHeader) s (procWriteHeader s) := by
  rw [procWriteHeader]
  split
  · exact Within.after (Eff.builds _) (u := s.enter .writingHeader) (Eff.regs rfl rfl rfl) (putAll_within (fun _ _ _ _ => rfl) _ _)
  · exact .raise (by decide) ((Eff.builds _).refl s)

theorem procReadHeader_within (s : State) : Within (Eff keptByReadHeader) s (procReadHeader s) := by
  have hf : SrcBlind keptByReadHeader := fun _ _ _ _ => rfl
  have hB := Eff.builds keptByReadHeader
  rw [procReadHeader]
  refine Within.after hB (u := (s.enter .readingHeader).discardSer.discardLen) (Eff.regs rfl rfl rfl) ?_
  refine (srcReadBytes_within hf (by decide) _ _).bind hB fun nc u _ _ => ?_
  refine (require_within hB _ (by decide) _).bind hB fun _ u _ _ => ?_
  refine (srcReadBytes_within hf (by decide) _ _).bind hB fun packed u _ _ => ?_
  refine (require_within hB _ (by decide) _).bind hB fun _ u _ _ => ?_
  refine (srcReadBytes_within hf (by decide) _ _).bind hB fun leafv u _ _ => ?_
  refine (srcReadBytes_within hf (by decide) _ _).bind hB fun lenBytes u _ _ => ?_
  exact .ok (Eff.regs rfl rfl rfl)

theorem putBit_within {β : Type} {f : State → β} (hf : SnkBlind f) (he : ∀ s e, f { s with enc := e } = f s) (b : Bool) (s : State) :
    Within (Eff f) s (putBit b s) := by
  have hB := Eff.builds f
  simp only [putBit]
  refine Within.after hB (u := { s with enc.pend := setBit s.enc.pend s.enc.pendN b }) (Eff.regs rfl rfl (he _ _)) ?_
  split
  · exact (put_within hf _ _).bind hB fun _ u _ _ => .ok (Eff.regs rfl rfl (he u _))
  · exact .ok (Eff.regs rfl rfl (by rw [he s]; exact (he s _).symm))

theorem putBits_within {β : Type} {f : State → β} (hf : SnkBlind f) (he : ∀ s e, f { s with enc := e } = f s) : ∀ (bs : List Bool) (s : State),
    Within (Eff f) s (putBits bs s)
  | [], s => .ok ((Eff.builds f).refl s)
  | b :: bs, s => by
    rw [putBits]
    exact (putBit_within hf he b s).bind (Eff.builds f) fun _ u _ _ => putBits_within hf he bs u

theorem procEncode_within (s : State) : Within (Eff keptByEncode) s (procEncode s) := by
  have hf : SrcBlind keptByEncode := fun _ _ _ _ => rfl
  have hk : SnkBlind keptByEncode := fun _ _ _ _ => rfl
  have hB := Eff.builds keptByEncode
  rw [procEncode]
  split
  · exact .raise (by decide) (hB.refl s)
  · refine Within.after hB (u := s.startEncoding) (Eff.regs rfl rfl rfl) ?_
    rw [encodeWith]
    refine (forEachByte_within hf (fun b s => ?_) _ _).bind hB fun _ u _ _ => ?_
    · rw [encodeByte]
      exact (require_within hB _ (by decide) _).bind hB fun _ u _ _ => putBits_within hk (fun _ _ => rfl) _ _
    · rw [flushPending]
      split
      · exact .ok (hB.refl u)
      · exact (put_within hk _ _).bind hB fun _ w _ _ => .ok (Eff.regs rfl rfl rfl)

theorem decodeStep_within (root : NodeIdx) (s : State) : Within (Eff keptByDecode) s (decodeStep root s) := by
  have hf : SrcBlind keptByDecode := fun _ _ _ _ => rfl
  have hk : SnkBlind keptByDecode := fun _ _ _ _ => rfl
  have hB := Eff.builds keptByDecode
  rw [decodeStep]
  split
  · refine Within.bind hB ?_ fun b u _ _ => ?_
    · rw [nextBit]
      split
      · refine (srcReadByte_within hf (by decide) s).bind hB fun x u _ _ => ?_
        exact .ok (Eff.regs rfl rfl rfl)
      · exact .ok (Eff.regs rfl rfl rfl)
    · simp only [arrive]
      split
      · refine Within.bind hB ?_ fun _ w _ _ => .ok (Eff.regs rfl rfl rfl)
        rename_i v f h
        refine Within.after hB (u := { u with dec := { u.dec with cur := _, dstate := .atLeaf } }) (Eff.regs rfl rfl rfl) (put_within hk _ _)
      · exact .ok (Eff.regs rfl rfl rfl)
  · exact .raise (by decide) (hB.refl s)

theorem decodeLoop_within (root : NodeIdx) (len : Word64) : ∀ (n : Nat) (e : Word64) (s : State), Within (Eff keptByDecode) s (decodeLoop root len n e s)
  | 0, e, s => by
    rw [decodeLoop]
    split
    · exact .raise (by decide) ((Eff.builds _).refl s)
    · exact .ok ((Eff.builds _).refl s)
  | n + 1, e, s => by
    rw [decodeLoop]
    split
    · exact (decodeStep_within root s).bind (Eff.builds _) fun _ u _ _ => decodeLoop_within root len n _ u
    · exact .ok ((Eff.builds _).refl s)

theorem procDecode_within (s : State) : Within (Eff keptByDecode) s (procDecode s) := by
  rw [procDecode]
  split
  · exact Within.after (Eff.builds _) (u := s.startDecoding _) (Eff.regs rfl rfl rfl) (decodeLoop_within _ _ _ _ _)
  · exact .raise (by decide) ((Eff.builds _).refl s)

theorem guarded_within {R : State → State → Prop} (hR : Builds R) {i : Instr} {body : Proc Unit} {s : State} (h : Within R s (body s)) :
    Within R s (guarded i body s) := by
  rw [guarded]
  cases hp : precondition i s
  · exact .raise (by decide) (hR.refl s)
  · exact h

theorem verifyCount_within {β : Type} (f : State → β) (s : State) : Within (Eff f) s (verifyCount s) :=
  require_within (Eff.builds f) _ (by decide) _

theorem SEff.ofEff {β γ : Type} {f : State → β} {g : State → γ} (h : ∀ {s u}, f u = f s → g u = g s) {s : State} {α : Type} {r : Run α}
    (hr : Within (Eff f) s r) : Within (SEff g) s r := hr.mono fun he => ⟨he.1.toSnkMoves, h he.2⟩

theorem procBuild_within' (s : State) : Within (SEff keptByCompress) s (procBuild s) := by
  have h := procBuild_within s
  generalize procBuild s = r at *
  exact SEff.ofEff (fun h => by simp only [keptByBuild, Prod.mk.injEq] at h; simp only [keptByCompress, h]) h

theorem compressBody_within (s : State) : Within (SEff keptByCompress) s (compressBody s) := by
  have hB := SEff.builds keptByCompress
  rw [compressBody]
  refine Within.after hB (u := s.discardAll) (Eff.regs rfl rfl rfl : Eff keptByCompress s s.discardAll).toSEff ?_
  refine Within.bind hB (SEff.ofEff (f := keptByCount) (fun h => by simp only [keptByCount, Prod.mk.injEq] at h; simp only [keptByCompress, h]) (procCount_within _)) fun _ u _ _ => ?_
  refine Within.bind hB (procBuild_within' _) fun _ u _ _ => ?_
  refine Within.bind hB (SEff.ofEff (f := keptBySerialize) (fun h => by simp only [keptBySerialize, Prod.mk.injEq] at h; simp only [keptByCompress, h]) (procSerialize_within _)) fun _ u _ _ => ?_
  refine Within.bind hB (SEff.ofEff (f := keptByWriteHeader) (fun h => by simp only [keptByWriteHeader, Prod.mk.injEq] at h; simp only [keptByCompress, h]) (procWriteHeader_within _)) fun _ u _ _ => ?_
  refine (srcRewind_within (fun _ _ _ _ => rfl) _).bind hB fun _ u _ _ => ?_
  refine Within.bind hB ?_ fun _ u _ _ => ?_
  · refine Within.after hB (u := { u with ctl.inCount := 0 }) ?_ (SEff.ofEff (f := keptByEncode) (fun h => by simp only [keptByEncode, Prod.mk.injEq] at h; simp only [keptByCompress, h]) (procEncode_within _))
    exact ⟨{ SnkMoves.refl u with ctl := rfl }, rfl⟩
  · refine (SEff.ofEff (f := keptByCompress) id (require_within (Eff.builds _) _ (by decide) _)).bind hB fun _ u _ _ => ?_
    exact .ok (Eff.regs rfl rfl rfl : Eff keptByCompress u u.discardAll).toSEff

theorem decompressBody_within (s : State) : Within (Eff keptByDecompress) s (decompressBody s) := by
  have hB := Eff.builds keptByDecompress
  rw [decompressBody]
  refine Within.after hB (u := s.discardAll) (Eff.regs rfl rfl rfl) ?_
  refine ((procReadHeader_within _).mono (Eff.mono fun h => by simp [keptByReadHeader] at h; simp [keptByDecompress, h])).bind hB fun _ u _ _ => ?_
  refine ((procDeserialize_within _).mono (Eff.mono fun h => by simp [keptByDeserialize] at h; simp [keptByDecompress, h])).bind hB fun _ u _ _ => ?_
  refine ((procDecode_within _).mono (Eff.mono fun h => by simp [keptByDecode] at h; simp [keptByDecompress, h])).bind hB fun _ u _ _ => ?_
  refine (verifyCount_within _ _).bind hB fun _ u _ _ => ?_
  exact .ok (Eff.regs rfl rfl rfl)

/-- The ways a command ends (R249, R250, R286). -/
theorem command_cases {β : Type} {f : State → β} {i : Instr} (hf : writesSink i = true → SnkBlind f) {R : State → State → Prop} (hR : Builds R) (hER : ∀ {s u}, Eff f s u → R s u)
    {body : Proc Unit} {s t : State} (hb : Within R (s.begin (some i)) (body (s.begin (some i)))) (h : command i body s = .next t) :
    ∃ w, R (s.begin (some i)) w ∧
      ((writesSink i = false ∧ t = w.settle .success)
      ∨ (writesSink i = true ∧ ∃ k, w.env.snk = .bound k ∧ t = { w with env.snk := .bound { k with durable := k.data.length } }.settle .success)
      ∨ (∃ T, T ≠ .ioFailure ∧ t = w.fail T)
      ∨ (∃ e, ErrFrom s w e ∧ t = { w with ctl.ioerr := e }.fail .ioFailure)
      ∨ (∃ st, t = { w with ctl.waiting := some st })) := by
  have herr : ∀ (w : State) e, ErrFrom (s.begin (some i)) w e → ErrFrom s w e := fun _ _ he => he
  rw [command] at h
  cases hr : body (s.begin (some i)) with
  | raised T u =>
    rw [hr] at h hb
    simp only [Run.bind_raised] at h
    cases h
    obtain ⟨hT, hw⟩ | ⟨rfl, w, e, hw, he, rfl⟩ := hb.of_raised
    · exact ⟨u, hw, .inr (.inr (.inl ⟨T, hT, rfl⟩))⟩
    · exact ⟨w, hw, .inr (.inr (.inr (.inl ⟨e, herr _ e he, rfl⟩)))⟩
  | hung st u =>
    rw [hr] at h hb
    simp only [Run.bind_hung] at h
    cases h
    exact ⟨u, hb.of_hung, .inr (.inr (.inr (.inr ⟨st, rfl⟩)))⟩
  | stuck x => rw [hr] at h; simp at h
  | ok a u =>
    rw [hr] at h hb
    have hbu : R (s.begin (some i)) u := hb.of_ok
    have hrun : u.ctl.running = some i := by rw [(hR.moves hbu).ctl]; rfl
    simp only [Run.bind_ok, finish, flushIfWriter, hrun] at h
    cases hw : writesSink i with
    | false =>
      rw [hw] at h
      simp only [Bool.false_eq_true, if_false, Run.bind_ok] at h
      cases h
      exact ⟨u, hbu, .inl ⟨rfl, rfl⟩⟩
    | true =>
      rw [hw] at h
      simp only [if_true, snkFlush] at h
      rcases callSink_cases (fun k => { k with durable := k.data.length }) u (hf hw) with ⟨k, l, hk, h1, h2⟩ | ⟨h1, h2⟩
      · rw [h2] at h
        simp only [Run.bind_ok] at h
        cases h
        refine ⟨_, hR.trans hbu (hER h1), .inr (.inl ⟨rfl, k, hk, rfl⟩)⟩
      · cases hc : callSink (fun k => { k with durable := k.data.length }) u with
        | ok a w => exact absurd hc (h2 a w)
        | raised T w =>
          rw [hc] at h h1
          simp only [Run.bind_raised] at h
          cases h
          obtain ⟨hT, hx⟩ | ⟨rfl, x, e, hx, he, rfl⟩ := h1.of_raised
          · exact ⟨_, hR.trans hbu (hER hx), .inr (.inr (.inl ⟨T, hT, rfl⟩))⟩
          · exact ⟨_, hR.trans hbu (hER hx), .inr (.inr (.inr (.inl ⟨e, herr _ e ((hR.moves hbu).errFrom he), rfl⟩)))⟩
        | hung st w =>
          rw [hc] at h h1
          simp only [Run.bind_hung] at h
          cases h
          exact ⟨_, hR.trans hbu (hER h1.of_hung), .inr (.inr (.inr (.inr ⟨st, rfl⟩)))⟩
        | stuck x => rw [hc] at h; simp at h

end Sys2Proof.Machine
end

