-- ==== Sys2Proof/Laws/Raises.lean ====
section
/-! SUPPORT. The failures each procedure can raise (60_exceptions.md R241 to R245). -/

namespace Sys2Proof.Machine

/-- The failures a run can raise are among those `T` names. -/
def Raises (T : Failure → Bool) {α : Type} (r : Run α) : Prop := ∀ t u, r = .raised t u → T t = true

theorem Raises.bind {T : Failure → Bool} {α β : Type} {r : Run α} {k : α → State → Run β} (h : Raises T r)
    (hk : ∀ a u, r = .ok a u → Raises T (k a u)) : Raises T (r.bind k) := by
  cases r with
  | ok a u => exact hk a u rfl
  | raised t u => intro t' u' e; cases e; exact h t u rfl
  | hung => intro t u e; cases e
  | stuck => intro t u e; cases e

theorem Raises.ok {T : Failure → Bool} {α : Type} {a : α} {s : State} : Raises T (Run.ok a s) := by intro t u e; cases e
theorem Raises.raised {T : Failure → Bool} {α : Type} {t : Failure} {s : State} (h : T t = true) : Raises T (Run.raised t s : Run α) := by
  intro t u e; cases e; exact h
theorem Raises.stuck {T : Failure → Bool} {α : Type} {x : Fault} : Raises T (Run.stuck x : Run α) := by intro t u e; cases e
theorem Raises.mono {T T' : Failure → Bool} {α : Type} {r : Run α} (h : Raises T r) (hT : ∀ t, T t = true → T' t = true) : Raises T' r :=
  fun t u e => hT t (h t u e)

theorem require_raises {T : Failure → Bool} {c : Bool} {t : Failure} (h : T t = true) (s : State) : Raises T (require c t s) := by
  cases c
  · exact .raised h
  · exact .ok

theorem answerCall_raises {T : Failure → Bool} (hT : T .ioFailure = true) (st : Stream) (s : State) : Raises T (answerCall st s) := by
  rw [answerCall]; split
  · exact .ok
  · exact .ok
  · exact .raised hT
  · intro t u e; cases e

theorem callSource_raises {T : Failure → Bool} (hT : T .ioFailure = true) {α : Type} (g : Source → α × Source) (s : State) :
    Raises T (callSource g s) := by
  rw [callSource]; split
  · exact .raised hT
  · exact (answerCall_raises hT _ _).bind fun _ _ _ => .ok

theorem callSink_raises {T : Failure → Bool} (hT : T .ioFailure = true) (g : Sink → Sink) (s : State) : Raises T (callSink g s) := by
  rw [callSink]; split
  · exact .raised hT
  · exact (answerCall_raises hT _ _).bind fun _ _ _ => .ok

theorem srcReadByte_raises {T : Failure → Bool} (hT : T .ioFailure = true) {t : Failure} (ht : T t = true) (s : State) :
    Raises T (srcReadByte t s) := by
  rw [srcReadByte]
  refine (callSource_raises hT _ _).bind fun r u _ => ?_
  cases r with
  | some b => exact .ok
  | none => exact .raised ht

theorem srcReadBytes_raises {T : Failure → Bool} (hT : T .ioFailure = true) {t : Failure} (ht : T t = true) : ∀ (n : Nat) (s : State),
    Raises T (srcReadBytes t n s)
  | 0, s => .ok
  | n + 1, s => by
    rw [srcReadBytes]
    exact (srcReadByte_raises hT ht s).bind fun _ u _ => (srcReadBytes_raises hT ht n u).bind fun _ _ _ => .ok

theorem put_raises {T : Failure → Bool} (hT : T .ioFailure = true) (b : Byte) (s : State) : Raises T (put b s) := by
  rw [put]; exact (callSink_raises hT _ _).bind fun _ _ _ => .ok

theorem putAll_raises {T : Failure → Bool} (hT : T .ioFailure = true) : ∀ (bs : List Byte) (s : State), Raises T (putAll bs s)
  | [], s => .ok
  | b :: bs, s => by rw [putAll]; exact (put_raises hT b s).bind fun _ u _ => putAll_raises hT bs u

theorem forEachByte_raises {T : Failure → Bool} (hT : T .ioFailure = true) {body : Byte → Proc Unit} (hb : ∀ b s, Raises T (body b s)) :
    ∀ (n : Nat) (s : State), Raises T (forEachByte body n s)
  | 0, s => .ok
  | n + 1, s => by
    rw [forEachByte]
    refine (callSource_raises hT _ _).bind fun r u _ => ?_
    cases r with
    | none => exact .ok
    | some b => exact (hb b _).bind fun _ w _ => forEachByte_raises hT hb n w

theorem procCount_raises (s : State) : Raises (mayRaise .count) (procCount s) := by
  rw [procCount]
  refine (callSource_raises rfl _ _).bind fun len u _ => ?_
  refine (forEachByte_raises rfl (fun _ _ => .ok) _ _).bind fun _ w _ => ?_
  exact (require_raises rfl _).bind fun _ _ _ => .ok

theorem procBuild_raises (s : State) : Raises (mayRaise .build) (procBuild s) := by
  have h := procBuild_cases s
  generalize procBuild s = r at h
  rcases h with ⟨u, t, h, _⟩ | ⟨hp, h⟩
  · rw [h]; exact .ok
  · rw [h]; exact .raised rfl

theorem procSerialize_raises (s : State) : Raises (mayRaise .serialize) (procSerialize s) := by
  rw [procSerialize]; split
  · exact .raised rfl
  · split
    · exact .stuck
    · exact .ok

theorem parseTree_raises (c : SerTree) (s : State) : Raises (fun t => t == .malformedTree) (parseTree c s) := by
  rcases parseTree_frame c s with ⟨i, u, h, _⟩ | ⟨u, h, _⟩ <;> rw [h]
  · exact .ok
  · exact .raised rfl

theorem finishTree_raises {T : Failure → Bool} (r : NodeIdx) (s : State) : Raises T (finishTree r s) := by
  rw [finishTree]; split
  · exact .stuck
  · exact .ok

theorem procDeserialize_raises_malformed {s : State} (hs : s.ser.isSome = true) : Raises (fun t => t == .malformedTree) (procDeserialize s) := by
  rw [procDeserialize]; split
  · rename_i h; rw [h] at hs; cases hs
  · rename_i c hc
    refine Raises.bind ?_ fun _ _ _ => finishTree_raises _ _
    rcases parseTree_frame c (s.enter .deserializing).discardTree with ⟨i, u, h, _⟩ | ⟨u, h, _⟩ <;> rw [h]
    · exact .ok
    · exact .raised rfl

theorem procDeserialize_raises (s : State) : Raises (mayRaise .deserialize) (procDeserialize s) := by
  cases hs : s.ser with
  | none => simp only [procDeserialize, hs]; exact .raised rfl
  | some c => exact (procDeserialize_raises_malformed (by rw [hs]; rfl)).mono (by intro t; cases t <;> decide)

theorem procWriteHeader_raises (s : State) : Raises (mayRaise .wrhdr) (procWriteHeader s) := by
  rw [procWriteHeader]; split
  · exact putAll_raises rfl _ _
  · exact .raised rfl

theorem procWriteHeader_raises_io {s : State} (h1 : s.ser.isSome = true) (h2 : s.origLen.isSome = true) :
    Raises (fun t => t == .ioFailure) (procWriteHeader s) := by
  rw [procWriteHeader]; split
  · exact putAll_raises rfl _ _
  · rename_i h
    obtain ⟨c, hc⟩ := Option.isSome_iff_exists.1 h1
    obtain ⟨n, hn⟩ := Option.isSome_iff_exists.1 h2
    exact absurd hn (h c n hc)

theorem procReadHeader_raises (s : State) : Raises (mayRaise .rdhdr) (procReadHeader s) := by
  rw [procReadHeader]
  refine (srcReadBytes_raises rfl rfl _ _).bind fun nc u _ => ?_
  refine (require_raises rfl _).bind fun _ u _ => ?_
  refine (srcReadBytes_raises rfl rfl _ _).bind fun nc u _ => ?_
  refine (require_raises rfl _).bind fun _ u _ => ?_
  refine (srcReadBytes_raises rfl rfl _ _).bind fun nc u _ => ?_
  exact (srcReadBytes_raises rfl rfl _ _).bind fun nc u _ => .ok

theorem putBits_raises {T : Failure → Bool} (hT : T .ioFailure = true) : ∀ (bs : List Bool) (s : State), Raises T (putBits bs s)
  | [], s => .ok
  | b :: bs, s => by
    rw [putBits]
    refine Raises.bind ?_ fun _ u _ => putBits_raises hT bs u
    simp only [putBit]
    split
    · exact (put_raises hT _ _).bind fun _ _ _ => .ok
    · exact .ok

theorem procEncode_raises (s : State) : Raises (mayRaise .encode) (procEncode s) := by
  rw [procEncode]; split
  · exact .raised rfl
  · rw [encodeWith]
    refine (forEachByte_raises rfl (fun b s => ?_) _ _).bind fun _ u _ => ?_
    · rw [encodeByte]
      exact (require_raises rfl _).bind fun _ _ _ => putBits_raises rfl _ _
    · rw [flushPending]; split
      · exact .ok
      · exact (put_raises rfl _ _).bind fun _ _ _ => .ok

theorem decodeStep_raises (root : NodeIdx) (s : State) : Raises (fun t => t == .truncatedStream || t == .ioFailure || t == .malformedTree) (decodeStep root s) := by
  rw [decodeStep]; split
  · refine Raises.bind ?_ fun b u _ => ?_
    · rw [nextBit]; split
      · exact (srcReadByte_raises rfl rfl _).bind fun _ _ _ => .ok
      · exact .ok
    · simp only [arrive]; split
      · exact (put_raises rfl _ _).bind fun _ _ _ => .ok
      · exact .ok
  · exact .raised rfl

theorem decodeLoop_raises (root : NodeIdx) (len : Word64) : ∀ (n : Nat) (e : Word64) (s : State),
    Raises (fun t => t == .truncatedStream || t == .ioFailure || t == .malformedTree) (decodeLoop root len n e s)
  | 0, e, s => by
    rw [decodeLoop]; split
    · exact .raised rfl
    · exact .ok
  | n + 1, e, s => by
    rw [decodeLoop]; split
    · exact (decodeStep_raises root s).bind fun _ u _ => decodeLoop_raises root len n _ u
    · exact .ok

theorem procDecode_raises_walk {s : State} (h1 : s.tree.isSome = true) (h2 : s.origLen.isSome = true) :
    Raises (fun t => t == .truncatedStream || t == .ioFailure || t == .malformedTree) (procDecode s) := by
  rw [procDecode]; split
  · exact decodeLoop_raises _ _ _ _ _
  · rename_i h
    obtain ⟨c, hc⟩ := Option.isSome_iff_exists.1 h1
    obtain ⟨n, hn⟩ := Option.isSome_iff_exists.1 h2
    exact absurd hn (h c n hc)

theorem procDecode_raises (s : State) : Raises (mayRaise .decode) (procDecode s) := by
  rw [procDecode]; split
  · exact (decodeLoop_raises _ _ _ _ _).mono (by intro t; cases t <;> decide)
  · exact .raised rfl

theorem guarded_raises {T : Failure → Bool} (hT : T .protocolError = true) {i : Instr} {body : Proc Unit} {s : State} (h : Raises T (body s)) :
    Raises T (guarded i body s) := by
  rw [guarded]; exact (require_raises hT _).bind fun _ u hu => by
    cases hp : precondition i s
    · rw [hp] at hu; cases hu
    · rw [hp] at hu; cases hu; exact h

theorem compressBody_raises (s : State) : Raises (mayRaise .compress) (compressBody s) := by
  rw [compressBody]
  refine ((procCount_raises _).mono (by intro t; cases t <;> decide)).bind fun _ u _ => ?_
  refine Raises.bind ((procBuild_raises u).mono (by intro t; cases t <;> decide)) fun _ u _ => ?_
  refine ((procSerialize_raises _).mono (by intro t; cases t <;> decide)).bind fun _ u _ => ?_
  refine ((procWriteHeader_raises _).mono (by intro t; cases t <;> decide)).bind fun _ u _ => ?_
  refine (callSource_raises rfl _ _).bind fun _ u _ => ?_
  refine ((procEncode_raises _).mono (by intro t; cases t <;> decide)).bind fun _ u _ => ?_
  exact (require_raises rfl _).bind fun _ _ _ => .ok

theorem verifyCount_raises {T : Failure → Bool} (hT : T .truncatedStream = true) (s : State) : Raises T (verifyCount s) := require_raises hT _

/-- After ReadHeader returns both valid flags are 1 (R219). -/
theorem procReadHeader_valid {s u : State} (h : procReadHeader s = .ok () u) : u.ser.isSome = true ∧ u.origLen.isSome = true := by
  rw [procReadHeader] at h
  have peel : ∀ {α β : Type} {r : Run α} {k : α → State → Run β} {b : β} {w : State}, r.bind k = .ok b w → ∃ a x, r = .ok a x ∧ k a x = .ok b w := by
    intro α β r k b w h
    cases r with
    | ok a x => exact ⟨a, x, rfl, h⟩
    | raised => cases h
    | hung => cases h
    | stuck => cases h
  obtain ⟨_, _, _, h⟩ := peel h
  obtain ⟨_, _, _, h⟩ := peel h
  obtain ⟨_, _, _, h⟩ := peel h
  obtain ⟨_, _, _, h⟩ := peel h
  obtain ⟨_, _, _, h⟩ := peel h
  obtain ⟨_, _, _, h⟩ := peel h
  cases h
  exact ⟨rfl, rfl⟩

theorem Run.bind_eq_ok {α β : Type} {r : Run α} {k : α → State → Run β} {b : β} {w : State} (h : r.bind k = .ok b w) :
    ∃ a x, r = .ok a x ∧ k a x = .ok b w := by
  cases r with
  | ok a x => exact ⟨a, x, rfl, h⟩
  | raised => cases h
  | hung => cases h
  | stuck => cases h

theorem finishTree_valid {root : NodeIdx} {s u : State} (h : finishTree root s = .ok () u) : u.tree.isSome = true := by
  rw [finishTree] at h
  split at h
  · cases h
  · cases h; rfl

theorem procDeserialize_valid {s u : State} (h : procDeserialize s = .ok () u) : u.tree.isSome = true := by
  rw [procDeserialize] at h
  split at h
  · cases h
  · obtain ⟨root, x, _, h⟩ := Run.bind_eq_ok h
    exact finishTree_valid h

theorem decompressBody_raises (s : State) : Raises (mayRaise .decompress) (decompressBody s) := by
  rw [decompressBody]
  refine ((procReadHeader_raises _).mono (by intro t; cases t <;> decide)).bind fun _ u hu => ?_
  obtain ⟨hser, hlen⟩ := procReadHeader_valid hu
  refine ((procDeserialize_raises_malformed hser).mono (by intro t; cases t <;> decide)).bind fun _ w hw => ?_
  have hk := procDeserialize_within u
  rw [hw] at hk
  have h2 := hk.of_ok.2
  simp only [keptByDeserialize, Prod.mk.injEq] at h2
  refine ((procDecode_raises_walk (procDeserialize_valid hw) (by rw [h2.2.2.2.2.1]; exact hlen)).mono (by intro t; cases t <;> decide)).bind fun _ x _ => ?_
  refine (verifyCount_raises rfl _).bind fun _ _ _ => .ok

end Sys2Proof.Machine
end

