-- ==== Sys2Proof/Laws/Exec.lean ====
section
/-! SUPPORT. exec, its body, and every way it ends. -/

namespace Sys2Proof.Machine

/-- The body of each command, between Begin and Finish. -/
def bodyOf : Instr → Proc Unit
  | .clear => clearBody
  | .count => procCount
  | .build => procBuild
  | .serialize => guarded .serialize procSerialize
  | .deserialize => guarded .deserialize procDeserialize
  | .wrhdr => guarded .wrhdr procWriteHeader
  | .rdhdr => procReadHeader
  | .encode => guarded .encode procEncode
  | .decode => guarded .decode decodeAndVerify
  | .compress => compressBody
  | .decompress => decompressBody

theorem exec_eq (i : Instr) (s : State) : exec i s = command i (bodyOf i) s := by cases i <;> rfl

theorem decodeAndVerify_within (s : State) : Within (Eff keptByDecode) s (decodeAndVerify s) := by
  rw [decodeAndVerify]
  exact Within.bind (Eff.builds _) (procDecode_within s) fun _ u _ _ => verifyCount_within _ u

/-- What every command but COMPRESS does to the streams. -/
theorem bodyOf_moves {i : Instr} (h : i ≠ .compress) (s : State) : Within (fun s u => Moves s u) s (bodyOf i s) := by
  have hB : Builds fun s u => Moves s u := ⟨.refl, .trans, fun h => h.toSnkMoves⟩
  have key : ∀ {β : Type} {f : State → β} {r : Run Unit}, Within (Eff f) s r → Within (fun s u => Moves s u) s r := fun h => h.mono fun h => h.1
  cases i with
  | clear => exact .ok (Eff.regs rfl rfl rfl : Eff (fun s => s.env) s { s with freq := zeroFreq }.discardAll).1
  | count => exact key (procCount_within s)
  | build => exact key (procBuild_within s)
  | serialize => exact guarded_within hB (key (procSerialize_within s))
  | deserialize => exact guarded_within hB (key (procDeserialize_within s))
  | wrhdr => exact guarded_within hB (key (procWriteHeader_within s))
  | rdhdr => exact key (procReadHeader_within s)
  | encode => exact guarded_within hB (key (procEncode_within s))
  | decode => exact guarded_within hB (key (decodeAndVerify_within s))
  | compress => exact absurd rfl h
  | decompress => exact key (decompressBody_within s)

theorem SnkMoves.builds : Builds fun s u => SnkMoves s u := ⟨.refl, .trans, id⟩
theorem Moves.builds : Builds fun s u => Moves s u := ⟨.refl, .trans, fun h => h.toSnkMoves⟩

theorem bodyOf_snkMoves (i : Instr) (s : State) : Within (fun s u => SnkMoves s u) s (bodyOf i s) := by
  by_cases h : i = .compress
  · subst h; exact (compressBody_within s).mono fun h => h.1
  · exact (bodyOf_moves h s).mono fun h => h.toSnkMoves

theorem bodyOf_raises (i : Instr) (s : State) : Raises (mayRaise i) (bodyOf i s) := by
  cases i with
  | clear => exact .ok
  | count => exact procCount_raises s
  | build => exact procBuild_raises s
  | serialize => exact guarded_raises rfl (procSerialize_raises s)
  | deserialize => exact guarded_raises rfl (procDeserialize_raises s)
  | wrhdr => exact guarded_raises rfl (procWriteHeader_raises s)
  | rdhdr => exact procReadHeader_raises s
  | encode => exact guarded_raises rfl (procEncode_raises s)
  | decode => exact guarded_raises rfl (Raises.bind (procDecode_raises s) fun _ u _ => verifyCount_raises rfl u)
  | compress => exact compressBody_raises s
  | decompress => exact decompressBody_raises s

theorem exec_cases (i : Instr) {s t : State} (h : exec i s = .next t) : ∃ w, SnkMoves (s.begin (some i)) w ∧
      ((writesSink i = false ∧ t = w.settle .success)
      ∨ (writesSink i = true ∧ ∃ k, w.env.snk = .bound k ∧ t = { w with env.snk := .bound { k with durable := k.data.length } }.settle .success)
      ∨ (∃ T, T ≠ .ioFailure ∧ t = w.fail T)
      ∨ (∃ e, ErrFrom s w e ∧ t = { w with ctl.ioerr := e }.fail .ioFailure)
      ∨ (∃ st, t = { w with ctl.waiting := some st })) := by
  rw [exec_eq] at h
  exact command_cases (f := fun _ => ()) (fun _ _ _ _ _ => rfl) SnkMoves.builds (fun h => h.1.toSnkMoves) (bodyOf_snkMoves i _) h

theorem exec_moves_cases {i : Instr} (hi : i ≠ .compress) {s t : State} (h : exec i s = .next t) : ∃ w, Moves (s.begin (some i)) w ∧
      ((writesSink i = false ∧ t = w.settle .success)
      ∨ (writesSink i = true ∧ ∃ k, w.env.snk = .bound k ∧ t = { w with env.snk := .bound { k with durable := k.data.length } }.settle .success)
      ∨ (∃ T, T ≠ .ioFailure ∧ t = w.fail T)
      ∨ (∃ e, ErrFrom s w e ∧ t = { w with ctl.ioerr := e }.fail .ioFailure)
      ∨ (∃ st, t = { w with ctl.waiting := some st })) := by
  rw [exec_eq] at h
  exact command_cases (f := fun _ => ()) (fun _ _ _ _ _ => rfl) Moves.builds (fun h => h.1) (bodyOf_moves hi _) h

/-- A command whose body keeps what `f` sees. -/
theorem exec_eff {β : Type} {f : State → β} {i : Instr} (hf : writesSink i = true → SnkBlind f) (hb : ∀ s, Within (Eff f) s (bodyOf i s)) {s t : State}
    (h : exec i s = .next t) : ∃ w, Eff f (s.begin (some i)) w ∧
      ((writesSink i = false ∧ t = w.settle .success)
      ∨ (writesSink i = true ∧ ∃ k, w.env.snk = .bound k ∧ t = { w with env.snk := .bound { k with durable := k.data.length } }.settle .success)
      ∨ (∃ T, T ≠ .ioFailure ∧ t = w.fail T)
      ∨ (∃ e, ErrFrom s w e ∧ t = { w with ctl.ioerr := e }.fail .ioFailure)
      ∨ (∃ st, t = { w with ctl.waiting := some st })) := by
  rw [exec_eq] at h
  exact command_cases hf (Eff.builds f) id (hb _) h

/-- The Sink of a state that a body reached. -/
theorem SnkMoves.sink {s w : State} (h : SnkMoves s w) : ∃ bs, w.sinkBytes = s.sinkBytes ++ bs
    ∧ w.ctl.outCount = s.ctl.outCount + BitVec.ofNat 64 bs.length ∧ w.sinkDurable = s.sinkDurable := by
  cases hs : s.env.snk with
  | unbound e x =>
    obtain ⟨h1, h2⟩ := h.unboundSnk e x hs
    exact ⟨[], by simp [State.sinkBytes, Binding.held, hs, h1], by simp [h2], by simp [State.sinkDurable, Binding.held, hs, h1]⟩
  | bound k =>
    obtain ⟨bs, h1, h2⟩ := h.boundSnk k hs
    exact ⟨bs, by simp [State.sinkBytes, Binding.held, hs, h1, Sink.append], h2, by simp [State.sinkDurable, Binding.held, hs, h1, Sink.append]⟩

theorem count_body (s : State) : Within (Eff keptByCount) s (bodyOf .count s) := procCount_within s
theorem build_body (s : State) : Within (Eff keptByBuild) s (bodyOf .build s) := procBuild_within s
theorem serialize_body (s : State) : Within (Eff keptBySerialize) s (bodyOf .serialize s) := guarded_within (Eff.builds _) (procSerialize_within s)
theorem deserialize_body (s : State) : Within (Eff keptByDeserialize) s (bodyOf .deserialize s) := guarded_within (Eff.builds _) (procDeserialize_within s)
theorem wrhdr_body (s : State) : Within (Eff keptByWriteHeader) s (bodyOf .wrhdr s) := guarded_within (Eff.builds _) (procWriteHeader_within s)
theorem rdhdr_body (s : State) : Within (Eff keptByReadHeader) s (bodyOf .rdhdr s) := procReadHeader_within s
theorem encode_body (s : State) : Within (Eff keptByEncode) s (bodyOf .encode s) := guarded_within (Eff.builds _) (procEncode_within s)
theorem decode_body (s : State) : Within (Eff keptByDecode) s (bodyOf .decode s) := guarded_within (Eff.builds _) (decodeAndVerify_within s)
theorem clear_body (s : State) : Within (Eff fun s => s.env) s (bodyOf .clear s) :=
  .ok (Eff.regs rfl rfl rfl : Eff (fun s => s.env) s { s with freq := zeroFreq }.discardAll)

theorem running_of {s w : State} {i : Instr} (h : SnkMoves (s.begin (some i)) w) : w.ctl.running = some i := by rw [h.ctl]; rfl

/-- A command that does not write the Sink leaves it alone. -/
theorem exec_snk {i : Instr} (hi : writesSink i = false) {s t : State} (h : exec i s = .next t) : t.env.snk = s.env.snk := by
  have key : ∀ {β : Type} {f : State → β} (_ : ∀ s, Within (Eff f) s (bodyOf i s)) (_ : ∀ {s u}, f u = f s → u.env.snk = s.env.snk), t.env.snk = s.env.snk := by
    intro β f hb hs
    obtain ⟨w, hw, hc⟩ := exec_eff (f := f) (fun h => by rw [hi] at h; cases h) hb h
    have e : w.env.snk = s.env.snk := hs (s := s.begin (some i)) hw.2
    rcases hc with ⟨_, rfl⟩ | ⟨h1, _⟩ | ⟨T, _, rfl⟩ | ⟨_, _, rfl⟩ | ⟨st, rfl⟩
    · exact e
    · rw [hi] at h1; cases h1
    · rw [State.fail_env]; exact e
    · rw [State.fail_env]; exact e
    · exact e
  cases i with
  | clear => exact key clear_body fun h => by rw [h]
  | count => exact key count_body fun h => by simp only [keptByCount, Prod.mk.injEq] at h; exact h.1
  | build => exact key build_body fun h => by simp only [keptByBuild, Prod.mk.injEq] at h; rw [h.1]
  | serialize => exact key serialize_body fun h => by simp only [keptBySerialize, Prod.mk.injEq] at h; rw [h.1]
  | deserialize => exact key deserialize_body fun h => by simp only [keptByDeserialize, Prod.mk.injEq] at h; rw [h.1]
  | rdhdr => exact key rdhdr_body fun h => by simp only [keptByReadHeader, Prod.mk.injEq] at h; exact h.1
  | wrhdr => cases hi
  | encode => cases hi
  | decode => cases hi
  | compress => cases hi
  | decompress => cases hi

end Sys2Proof.Machine
end

