-- ==== Sys2Proof/Laws/Answers.lean ====
section
/-! SUPPORT. Which answers a command uses up (20_memory.md R66, 60_exceptions.md R244, 70_reset_and_hazards.md R286): every
call that goes through takes an `ok`, an `IoError(e)` ends the command with e in IOERR, and a call that does not return
hangs it. -/

namespace Sys2Proof.Machine

/-- From `s` to `u` every call of a bound stream went through. -/
def Oks (s u : State) : Prop := ∃ n, s.env.answers = List.replicate n .ok ++ u.env.answers

/-- The answers a run used up, whichever way it ends. -/
inductive Spends (s : State) {α : Type} : Run α → Prop where
  | through {a : α} {u : State} : Oks s u → Spends s (.ok a u)
  | raise {t : Failure} {u : State} : Oks s u → Spends s (.raised t u)
  | io {u : State} : (∃ n, s.env.answers = List.replicate n .ok ++ .ioError u.ctl.ioerr :: u.env.answers) →
      Spends s (.raised .ioFailure u)
  | hung {st : Stream} {u : State} : (∃ n, s.env.answers = List.replicate n .ok ++ .never :: u.env.answers) → Spends s (.hung st u)
  | stuck {x : Fault} : Spends s (.stuck x)

theorem Oks.of_eq {s u : State} (h : u.env.answers = s.env.answers) : Oks s u := ⟨0, by simp [h]⟩

theorem Oks.answers_trans {s u : State} (h : Oks s u) {m : Nat} {l : List Answer} (hl : u.env.answers = List.replicate m .ok ++ l) :
    ∃ n, s.env.answers = List.replicate n .ok ++ l := by
  obtain ⟨n, h⟩ := h
  exact ⟨n + m, by rw [h, hl, ← List.append_assoc, List.replicate_append_replicate]⟩

/-- A run that begins where calls so far went through. -/
theorem Oks.spends {s u : State} (h : Oks s u) {α : Type} {r : Run α} (hr : Spends u r) : Spends s r := by
  cases hr with
  | through hr => obtain ⟨m, hm⟩ := hr; exact .through (h.answers_trans hm)
  | raise hr => obtain ⟨m, hm⟩ := hr; exact .raise (h.answers_trans hm)
  | io hr => obtain ⟨m, hm⟩ := hr; exact .io (h.answers_trans hm)
  | hung hr => obtain ⟨m, hm⟩ := hr; exact .hung (h.answers_trans hm)
  | stuck => exact .stuck

theorem Spends.bind {s : State} {α β : Type} {r : Run α} {k : α → State → Run β} (h : Spends s r)
    (hk : ∀ a u, r = .ok a u → Spends u (k a u)) : Spends s (r.bind k) := by
  cases h with
  | through h => exact h.spends (hk _ _ rfl)
  | raise h => exact .raise h
  | io h => exact .io h
  | hung h => exact .hung h
  | stuck => exact .stuck

/-- Registers may change before a run. -/
theorem Spends.after {α : Type} {s : State} {r : Run α} (u : State) (h : Spends u r) (he : u.env.answers = s.env.answers) : Spends s r :=
  (Oks.of_eq he).spends h

theorem Spends.ok {s u : State} {α : Type} {a : α} (h : u.env.answers = s.env.answers) : Spends s (Run.ok a u) := .through (.of_eq h)
theorem Spends.raised {s u : State} {α : Type} {t : Failure} (h : u.env.answers = s.env.answers) : Spends s (Run.raised t u : Run α) :=
  .raise (.of_eq h)

theorem require_spends (c : Bool) (t : Failure) (s : State) : Spends s (require c t s) := by
  cases c
  · exact .raised rfl
  · exact .ok rfl

theorem answerCall_spends (st : Stream) (s : State) : Spends s (answerCall st s) := by
  rw [answerCall]
  split
  · exact .ok rfl
  · rename_i h; exact .through ⟨1, by simpa using h⟩
  · rename_i h; exact .io ⟨0, by simpa using h⟩
  · rename_i h; exact .hung ⟨0, by simpa using h⟩

theorem callSource_spends {α : Type} (g : Source → α × Source) (s : State) : Spends s (callSource g s) := by
  rw [callSource]; split
  · exact .raised rfl
  · exact (answerCall_spends _ _).bind fun _ _ _ => .ok rfl

theorem callSink_spends (g : Sink → Sink) (s : State) : Spends s (callSink g s) := by
  rw [callSink]; split
  · exact .raised rfl
  · exact (answerCall_spends _ _).bind fun _ _ _ => .ok rfl

theorem srcReadByte_spends (t : Failure) (s : State) : Spends s (srcReadByte t s) := by
  rw [srcReadByte]
  refine (callSource_spends _ _).bind fun r u _ => ?_
  cases r with
  | some b => exact .ok rfl
  | none => exact .raised rfl

theorem srcReadBytes_spends (t : Failure) : ∀ (n : Nat) (s : State), Spends s (srcReadBytes t n s)
  | 0, s => .ok rfl
  | n + 1, s => by
    rw [srcReadBytes]
    exact (srcReadByte_spends t s).bind fun _ u _ => (srcReadBytes_spends t n u).bind fun _ _ _ => .ok rfl

theorem put_spends (b : Byte) (s : State) : Spends s (put b s) := by
  rw [put]; exact (callSink_spends _ _).bind fun _ _ _ => .ok rfl

theorem putAll_spends : ∀ (bs : List Byte) (s : State), Spends s (putAll bs s)
  | [], s => .ok rfl
  | b :: bs, s => by rw [putAll]; exact (put_spends b s).bind fun _ u _ => putAll_spends bs u

theorem forEachByte_spends {body : Byte → Proc Unit} (hb : ∀ b s, Spends s (body b s)) : ∀ (n : Nat) (s : State), Spends s (forEachByte body n s)
  | 0, s => .ok rfl
  | n + 1, s => by
    rw [forEachByte]
    refine (callSource_spends _ _).bind fun r u _ => ?_
    cases r with
    | none => exact .ok rfl
    | some b =>
      refine Spends.after ({ u with ctl.inCount := u.ctl.inCount + 1 }) ?_ rfl
      exact ((hb b _).bind fun _ w _ => forEachByte_spends hb n w)

theorem procCount_spends (s : State) : Spends s (procCount s) := by
  rw [procCount]
  refine Spends.after ((s.enter .counting).discardLen) ?_ rfl
  refine (callSource_spends _ _).bind fun len u _ => ?_
  refine Spends.after ({ u with freq := zeroFreq }) ?_ rfl
  refine (forEachByte_spends (body := tally) (fun b s => (.ok rfl : Spends s (tally b s))) _ _).bind fun _ w _ => ?_
  exact (require_spends _ _ _).bind fun _ _ _ => .ok rfl

theorem procBuild_spends (s : State) : Spends s (procBuild s) := by
  have h := procBuild_cases s
  generalize procBuild s = r at h
  rcases h with ⟨u, t, h, _, e⟩ | ⟨hp, h⟩
  · rw [h]; exact .ok (by rw [e]; rfl)
  · rw [h]; exact .raised rfl

theorem procSerialize_spends (s : State) : Spends s (procSerialize s) := by
  rw [procSerialize]; split
  · exact .raised rfl
  · split
    · exact .stuck
    · exact .ok rfl

theorem procDeserialize_spends (s : State) : Spends s (procDeserialize s) := by
  rw [procDeserialize]; split
  · exact .raised rfl
  · rename_i c hc
    rcases parseTree_frame c (s.enter .deserializing).discardTree with ⟨i, u, h, e⟩ | ⟨u, h, e⟩
    · rw [h]
      simp only [Run.onRaise_ok, Run.bind_ok, finishTree]
      split
      · exact .stuck
      · rw [e]; exact .ok rfl
    · rw [h, e]; exact .raised rfl

theorem procWriteHeader_spends (s : State) : Spends s (procWriteHeader s) := by
  rw [procWriteHeader]; split
  · refine Spends.after (s.enter .writingHeader) ?_ rfl
    exact (putAll_spends _ _)
  · exact .raised rfl

theorem procReadHeader_spends (s : State) : Spends s (procReadHeader s) := by
  rw [procReadHeader]
  refine Spends.after ((s.enter .readingHeader).discardSer.discardLen) ?_ rfl
  refine (srcReadBytes_spends _ _ _).bind fun nc u _ => ?_
  refine (require_spends _ _ _).bind fun _ u _ => ?_
  refine (srcReadBytes_spends _ _ _).bind fun packed u _ => ?_
  refine (require_spends _ _ _).bind fun _ u _ => ?_
  refine (srcReadBytes_spends _ _ _).bind fun leafv u _ => ?_
  exact (srcReadBytes_spends _ _ _).bind fun len u _ => .ok rfl

theorem putBits_spends : ∀ (bs : List Bool) (s : State), Spends s (putBits bs s)
  | [], s => .ok rfl
  | b :: bs, s => by
    rw [putBits]
    refine Spends.bind ?_ fun _ u _ => putBits_spends bs u
    simp only [putBit]
    refine Spends.after ({ s with enc.pend := setBit s.enc.pend s.enc.pendN b }) ?_ rfl
    split
    · exact (put_spends _ _).bind fun _ _ _ => .ok rfl
    · exact .ok rfl

theorem procEncode_spends (s : State) : Spends s (procEncode s) := by
  rw [procEncode]; split
  · exact .raised rfl
  · refine Spends.after (s.startEncoding) ?_ rfl
    rw [encodeWith]
    refine (forEachByte_spends (fun b s => ?_) _ _).bind fun _ u _ => ?_
    · rw [encodeByte]
      exact (require_spends _ _ _).bind fun _ _ _ => putBits_spends _ _
    · rw [flushPending]; split
      · exact .ok rfl
      · exact (put_spends _ _).bind fun _ _ _ => .ok rfl

theorem decodeStep_spends (root : NodeIdx) (s : State) : Spends s (decodeStep root s) := by
  rw [decodeStep]; split
  · refine Spends.bind ?_ fun b u _ => ?_
    · rw [nextBit]; split
      · exact (srcReadByte_spends _ _).bind fun _ _ _ => .ok rfl
      · exact .ok rfl
    · simp only [arrive]; split
      · rename_i v f h
        refine Spends.bind ?_ fun _ _ _ => .ok rfl
        exact Spends.after _ (put_spends _ _) rfl
      · exact .ok rfl
  · exact .raised rfl

theorem decodeLoop_spends (root : NodeIdx) (len : Word64) : ∀ (n : Nat) (e : Word64) (s : State), Spends s (decodeLoop root len n e s)
  | 0, e, s => by
    rw [decodeLoop]; split
    · exact .raised rfl
    · exact .ok rfl
  | n + 1, e, s => by
    rw [decodeLoop]; split
    · exact (decodeStep_spends root s).bind fun _ u _ => decodeLoop_spends root len n _ u
    · exact .ok rfl

theorem procDecode_spends (s : State) : Spends s (procDecode s) := by
  rw [procDecode]; split
  · exact Spends.after _ (decodeLoop_spends _ _ _ _ _) rfl
  · exact .raised rfl

theorem guarded_spends {i : Instr} {body : Proc Unit} {s : State} (h : Spends s (body s)) : Spends s (guarded i body s) := by
  rw [guarded]
  cases precondition i s
  · exact .raised rfl
  · exact h

theorem compressBody_spends (s : State) : Spends s (compressBody s) := by
  rw [compressBody]
  refine Spends.after (s.discardAll) ?_ rfl
  refine (procCount_spends _).bind fun _ u _ => ?_
  refine Spends.bind (procBuild_spends u) fun _ u _ => ?_
  refine (procSerialize_spends _).bind fun _ u _ => ?_
  refine (procWriteHeader_spends _).bind fun _ u _ => ?_
  refine (callSource_spends _ _).bind fun _ u _ => ?_
  refine Spends.after ({ u with ctl.inCount := 0 }) ?_ rfl
  refine (procEncode_spends _).bind fun _ u _ => ?_
  exact (require_spends _ _ _).bind fun _ _ _ => .ok rfl

theorem decompressBody_spends (s : State) : Spends s (decompressBody s) := by
  rw [decompressBody]
  refine Spends.after (s.discardAll) ?_ rfl
  refine (procReadHeader_spends _).bind fun _ u _ => ?_
  refine (procDeserialize_spends _).bind fun _ u _ => ?_
  refine (procDecode_spends _).bind fun _ u _ => ?_
  exact (require_spends _ _ _).bind fun _ _ _ => .ok rfl

theorem bodyOf_spends (i : Instr) (s : State) : Spends s (bodyOf i s) := by
  cases i with
  | clear => exact .ok rfl
  | count => exact procCount_spends s
  | build => exact procBuild_spends s
  | serialize => exact guarded_spends (procSerialize_spends s)
  | deserialize => exact guarded_spends (procDeserialize_spends s)
  | wrhdr => exact guarded_spends (procWriteHeader_spends s)
  | rdhdr => exact procReadHeader_spends s
  | encode => exact guarded_spends (procEncode_spends s)
  | decode => exact guarded_spends ((procDecode_spends s).bind fun _ u _ => require_spends _ _ u)
  | compress => exact compressBody_spends s
  | decompress => exact decompressBody_spends s

theorem finish_spends (s : State) : Spends s (finish s) := by
  rw [finish]
  refine Spends.bind ?_ fun _ _ _ => .ok rfl
  rw [flushIfWriter]
  split
  · split
    · exact callSink_spends _ _
    · exact .ok rfl
  · exact .ok rfl

/-- The answers a command uses up, and how it ends by the last of them. -/
theorem exec_spends {i : Instr} {s t : State} (h : exec i s = .next t) :
    (t.ctl.busy = false ∧ Oks s t)
    ∨ (t.ctl.busy = false ∧ t.ctl.outcome = .failure .ioFailure
        ∧ ∃ n, s.env.answers = List.replicate n .ok ++ .ioError t.ctl.ioerr :: t.env.answers)
    ∨ (t.ctl.busy = true ∧ ∃ n, s.env.answers = List.replicate n .ok ++ .never :: t.env.answers) := by
  rw [exec_eq, command] at h
  have hs : Spends (s.begin (some i)) ((bodyOf i (s.begin (some i))).bind fun _ s => finish s) :=
    (bodyOf_spends i _).bind fun _ u _ => finish_spends u
  have hf : ∀ u w : State, finish u = .ok () w → w.ctl.busy = false := by
    intro u w hw
    rw [finish] at hw
    obtain ⟨_, x, _, hw⟩ := Run.bind_eq_ok hw
    cases hw; rfl
  have hh : ∀ st u, ((bodyOf i (s.begin (some i))).bind fun _ s => finish s) = .hung st u → u.ctl.busy = true := by
    intro st u hu
    have hb := bodyOf_snkMoves i (s.begin (some i))
    cases hr : bodyOf i (s.begin (some i)) with
    | ok a w =>
      rw [hr] at hb hu
      simp only [Run.bind_ok, finish, flushIfWriter] at hu
      rw [show w.ctl.running = some i from running_of hb.of_ok] at hu
      simp only at hu
      split at hu
      · rcases callSink_cases (fun k => { k with durable := k.data.length }) w (f := fun _ => ()) (fun _ _ _ _ => rfl)
          with ⟨k, l, hk, h1, h2⟩ | ⟨h1, h2⟩
        · rw [snkFlush, h2] at hu; cases hu
        · cases hc : callSink (fun k => { k with durable := k.data.length }) w with
          | hung st' x =>
            rw [snkFlush, hc] at hu; cases hu
            rw [hc] at h1
            rw [h1.of_hung.1.ctl, hb.of_ok.ctl]; rfl
          | ok => rw [snkFlush, hc] at hu; cases hu
          | raised => rw [snkFlush, hc] at hu; cases hu
          | stuck => rw [snkFlush, hc] at hu; cases hu
      · cases hu
    | hung st' w => rw [hr] at hb hu; cases hu; rw [hb.of_hung.ctl]; rfl
    | raised => rw [hr] at hu; cases hu
    | stuck => rw [hr] at hu; cases hu
  cases hr : (bodyOf i (s.begin (some i))).bind fun _ s => finish s with
  | ok a u =>
    rw [hr] at h hs
    cases h
    obtain ⟨_, w, _, hw⟩ := Run.bind_eq_ok hr
    cases hs with
    | through hs => exact .inl ⟨hf w _ hw, hs⟩
  | raised T u =>
    rw [hr] at h hs
    cases h
    cases hs with
    | raise hs => exact .inl ⟨by rw [State.fail_ctl]; rfl, by obtain ⟨n, hn⟩ := hs; exact ⟨n, by rw [State.fail_env]; exact hn⟩⟩
    | io hs =>
      obtain ⟨n, hn⟩ := hs
      exact .inr (.inl ⟨by rw [State.fail_ctl]; rfl, by rw [State.fail_ctl]; rfl, n, by rw [State.fail_ctl, State.fail_env]; exact hn⟩)
  | hung st u =>
    rw [hr] at h hs
    cases h
    cases hs with
    | hung hs => exact .inr (.inr ⟨hh st u hr, hs⟩)
  | stuck x => rw [hr] at h; cases h

/-- The answers used up, with what an `IoError` and a call that does not return among them mean. -/
theorem exec_used {s t : State} {i : Instr} (h : exec i s = .next t) : ∃ used, s.env.answers = used ++ t.env.answers
    ∧ (t.ctl.busy = true ↔ .never ∈ used) ∧ ∀ e, .ioError e ∈ used → t.ctl.busy = false ∧ t.ctl.outcome = .failure .ioFailure ∧ t.ctl.ioerr = e := by
  rcases exec_spends h with ⟨hb, n, hn⟩ | ⟨hb, ho, n, hn⟩ | ⟨hb, n, hn⟩
  · exact ⟨_, hn, by simp [hb], fun e he => by simp at he⟩
  · refine ⟨List.replicate n .ok ++ [.ioError t.ctl.ioerr], by rw [hn]; simp, by simp [hb], fun e he => ?_⟩
    simp at he
    exact ⟨hb, ho, he.symm⟩
  · exact ⟨List.replicate n .ok ++ [.never], by rw [hn]; simp, by simp [hb], fun e he => by simp at he⟩

/-- Appends up to a call that does not return. -/
theorem putAll_never (l : List Answer) : ∀ (j : Nat) (bs : List Byte) {s : State} {k : Sink}, s.env.snk = .bound k →
    j < bs.length → s.env.answers = List.replicate j .ok ++ .never :: l →
    putAll bs s = .hung .sink { s with
      ctl := { s.ctl with outCount := s.ctl.outCount + BitVec.ofNat 64 j },
      env := { s.env with snk := .bound (k.append (bs.take j)), answers := l } }
  | _, [], s, k, h, hj, ha => by simp at hj
  | 0, b :: bs, s, k, h, hj, ha => by
    obtain ⟨ctl, freq, node, heap, tree, ser, origLen, enc, dec, des, env⟩ := s
    obtain ⟨src, snk, answers, events⟩ := env
    simp at h ha
    simp [putAll, put, snkAppend, callSink, h, answerCall, ha, Run.bind]
  | j + 1, b :: bs, s, k, h, hj, ha => by
    have e1 : put b s = .ok () { s with ctl.outCount := s.ctl.outCount + 1, env := { s.env with snk := .bound (k.append [b]), answers := List.replicate j .ok ++ .never :: l } } := by
      simp [put, snkAppend, callSink, h, answerCall, ha, List.replicate_succ, Sink.append]
    rw [putAll, e1]
    simp only [Run.bind_ok]
    rw [putAll_never l j bs (k := k.append [b]) rfl (by simpa using hj) rfl]
    simp [ofNat_succ64]

end Sys2Proof.Machine
end

