-- ==== Sys2Proof/Laws/Frames.lean ====
section
/-! SUPPORT. Helpers for frames: equality of states field by field. -/

namespace Sys2Proof.Machine

theorem State.ext_fields {s t : State} (h : s.ctl = t.ctl ∧ s.freq = t.freq ∧ s.node = t.node ∧ s.heap = t.heap ∧ s.tree = t.tree ∧ s.ser = t.ser
    ∧ s.origLen = t.origLen ∧ s.enc = t.enc ∧ s.dec = t.dec ∧ s.des = t.des ∧ s.env = t.env) : s = t := by
  cases s; cases t; simp_all

theorem Env.ext_fields {s t : Env} (h : s.src = t.src ∧ s.snk = t.snk ∧ s.answers = t.answers ∧ s.events = t.events) : s = t := by
  cases s; cases t; simp_all

theorem sameSource_of_moves {s w : State} (h : Moves s w) : sameSource s.env.src w.env.src := by
  cases hs : s.env.src with
  | unbound e x => exact (h.unboundSrc e x).1 hs
  | bound src =>
    obtain ⟨n, _, h2, _⟩ := h.boundSrc src hs
    exact ⟨_, h2⟩

theorem exec_sameSource {i : Instr} (hi : i ≠ .compress) {s t : State} (h : exec i s = .next t) : sameSource s.env.src t.env.src := by
  obtain ⟨w, hw, hc⟩ := exec_moves_cases hi h
  have := sameSource_of_moves hw
  rcases hc with ⟨_, rfl⟩ | ⟨_, k, hk, rfl⟩ | ⟨T, _, rfl⟩ | ⟨e, _, rfl⟩ | ⟨st, rfl⟩
  · exact this
  · exact this
  · rw [State.fail_env]; exact this
  · rw [State.fail_env]; exact this
  · exact this

end Sys2Proof.Machine
end

