-- ==== Sys2Proof/Laws/Forest.lean ====
section
/-! SUPPORT. The Tree Builder sees FREQ, NODE and HEAP only (41_tree_builder.md R135). -/

namespace Sys2Proof.Machine

/-! two states with the same FREQ -/

/-- Build's state, its NODE and HEAP. -/
def SameForest (s s' : State) : Prop := s.freq = s'.freq ∧ s.node = s'.node ∧ s.heap = s'.heap

theorem SameForest.addNode {s s' : State} (h : SameForest s s') (n : Node) : SameForest (s.addNode n) (s'.addNode n) := by
  obtain ⟨h1, h2, h3⟩ := h
  simp [SameForest, State.addNode, State.heapInsert, h1, h2, h3]

theorem SameForest.freqAt {s s' : State} (h : s.node = s'.node) (i : NodeIdx) : s.freqAt i = s'.freqAt i := by
  simp [State.freqAt, State.nodeAt, h]

theorem SameForest.minMember {s s' : State} (h : s.node = s'.node) : ∀ l, s.minMember l = s'.minMember l
  | [] => rfl
  | i :: is => by
    simp only [State.minMember, SameForest.minMember h is, State.keyLt, SameForest.freqAt h]
    cases s'.minMember is <;> rfl

theorem SameForest.mergeStep {s s' : State} (h : SameForest s s') : SameForest s.mergeStep s'.mergeStep := by
  obtain ⟨h1, h2, h3⟩ := h
  simp only [State.mergeStep, State.heapExtractMin, SameForest.minMember h2, h3]
  cases hm : s'.minMember s'.heap with
  | none => exact ⟨h1, h2, h3⟩
  | some a =>
    simp only [Option.map_some]
    have h2' : ({ s with heap := s'.heap.erase a } : State).node = ({ s' with heap := s'.heap.erase a } : State).node := h2
    rw [SameForest.minMember h2']
    cases hm2 : ({ s' with heap := s'.heap.erase a } : State).minMember (s'.heap.erase a) with
    | none => exact ⟨h1, h2, h3⟩
    | some b =>
      simp only [Option.map_some]
      have e : ∀ i, ({ s with heap := (s'.heap.erase a).erase b } : State).freqAt i = ({ s' with heap := (s'.heap.erase a).erase b } : State).freqAt i :=
        SameForest.freqAt h2
      rw [e, e]
      exact SameForest.addNode (s := { s with heap := (s'.heap.erase a).erase b }) (s' := { s' with heap := (s'.heap.erase a).erase b }) ⟨h1, h2, rfl⟩ _

theorem SameForest.mergeLoop : ∀ (n : Nat) {s s' : State}, SameForest s s' → SameForest (State.mergeLoop n s) (State.mergeLoop n s')
  | 0, _, _, h => h
  | n + 1, s, s', h => by
    rw [State.mergeLoop, State.mergeLoop, h.2.2]
    split
    · exact SameForest.mergeLoop n h.mergeStep
    · exact h

theorem SameForest.foldl_addLeaf : ∀ (bs : List Byte) {s s' : State}, SameForest s s' → SameForest (bs.foldl State.addLeaf s) (bs.foldl State.addLeaf s')
  | [], _, _, h => h
  | b :: bs, s, s', h => by
    rw [List.foldl_cons, List.foldl_cons]
    apply SameForest.foldl_addLeaf bs
    simp only [State.addLeaf, h.1]
    split
    · exact h.addNode _
    · exact h

end Sys2Proof.Machine
end

