-- ==== Sys2Proof/Laws/Invariant.lean ====
section
/-! SUPPORT. What every procedure keeps of the invariant, and how a command ends (10_state.md R24, R26, R31, R34, R36). -/

namespace Sys2Proof.Machine

/-! Sums of frequencies -/

theorem sum_map_succ {l : List Byte} (hl : l.Nodup) (g : Byte → Nat) (b : Byte) (y : Nat) (hy : y ≤ g b + 1) :
    (l.map fun v => if b = v then y else g v).sum ≤ (l.map g).sum + 1 := by
  induction l with
  | nil => simp
  | cons a l ih =>
    rw [List.nodup_cons] at hl
    have := ih hl.2
    simp only [List.map_cons, List.sum_cons]
    split
    · rename_i h
      subst h
      have e : (l.map fun v => if b = v then y else g v) = l.map g := by
        apply List.map_congr_left
        intro v hv
        rw [if_neg]
        intro e; subst e; exact hl.1 hv
      rw [e]; omega
    · omega

/-- Counting one byte adds at most 1 to the sum of FREQ (R122, R134). -/
theorem freqSum_tally (freq : ByteTable Word64) (b : Byte) : freqSum (freq.write b (freq.read b + 1)) ≤ freqSum freq + 1 := by
  have e : (fun v => ((freq.write b (freq.read b + 1)).read v).toNat) =
      fun v => if b = v then (freq.read b + 1).toNat else (freq.read v).toNat := by
    funext v
    rw [ByteTable.read_write]
    split <;> rfl
  rw [freqSum, e]
  exact sum_map_succ allBytes_nodup (fun v => (freq.read v).toNat) b _ (by
    rw [BitVec.toNat_add]; exact Nat.mod_le _ _)

theorem freqSum_zero : freqSum zeroFreq = 0 := by
  rw [freqSum]
  have : (allBytes.map fun v => (zeroFreq.read v).toNat) = allBytes.map fun _ => 0 := by
    apply List.map_congr_left; intro v _; rw [read_zeroFreq]; rfl
  rw [this]; simp

/-! The two kinds of primitive call, split by how the environment answers -/

theorem callSource_split {α : Type} (f : Source → α × Source) (s : State) :
    (∃ e l, callSource f s = .raised .ioFailure { s with ctl.ioerr := e, env.answers := l })
    ∨ (∃ l, callSource f s = .hung .source { s with env.answers := l })
    ∨ ∃ src l, s.env.src = .bound src
        ∧ callSource f s = .ok (f src).1 { s with env := { s.env with src := .bound (f src).2, answers := l } } := by
  simp only [callSource]
  split
  · exact .inl ⟨_, s.env.answers, rfl⟩
  · rename_i src hs
    simp only [answerCall]
    split
    · exact .inr (.inr ⟨src, s.env.answers, hs, rfl⟩)
    · rename_i l _; exact .inr (.inr ⟨src, l, hs, rfl⟩)
    · rename_i e l _; exact .inl ⟨e, l, rfl⟩
    · rename_i l _; exact .inr (.inl ⟨l, rfl⟩)

theorem callSink_split (f : Sink → Sink) (s : State) :
    (∃ e l, callSink f s = .raised .ioFailure { s with ctl.ioerr := e, env.answers := l })
    ∨ (∃ l, callSink f s = .hung .sink { s with env.answers := l })
    ∨ ∃ snk l, s.env.snk = .bound snk
        ∧ callSink f s = .ok () { s with env := { s.env with snk := .bound (f snk), answers := l } } := by
  simp only [callSink]
  split
  · exact .inl ⟨_, s.env.answers, rfl⟩
  · rename_i snk hs
    simp only [answerCall]
    split
    · exact .inr (.inr ⟨snk, s.env.answers, hs, rfl⟩)
    · rename_i l _; exact .inr (.inr ⟨snk, l, hs, rfl⟩)
    · rename_i e l _; exact .inl ⟨e, l, rfl⟩
    · rename_i l _; exact .inr (.inl ⟨l, rfl⟩)

/-! Running states -/

/-- The control registers of a running command that has entered its phase (R24, R34, R248). -/
def Running (s : State) : Prop :=
  s.heap = [] ∧ s.ctl.busy = true ∧ s.ctl.running.isSome = true ∧ s.ctl.phase ≠ .idle

/-- The same, before a phase is entered. -/
def Started (s : State) : Prop := s.heap = [] ∧ s.ctl.busy = true ∧ s.ctl.running.isSome = true

theorem Running.started {s : State} (h : Running s) : Started s := ⟨h.1, h.2.1, h.2.2.1⟩
theorem Started.enter {s : State} (h : Started s) {p : Phase} (hp : p ≠ .idle) : Running (s.enter p) := ⟨h.1, h.2.1, h.2.2, hp⟩

/-- Every way a run ends is in `D`, and it is still running unless it raised; it stops only if `stop`. -/
inductive Ends (stop : Prop) (D : State → Prop) {α : Type} : Run α → Prop where
  | ok {a : α} {u : State} : D u → Running u → Ends stop D (.ok a u)
  | hung {st : Stream} {u : State} : D u → Running u → Ends stop D (.hung st u)
  | raised {t : Failure} {u : State} : D u → Ends stop D (.raised t u)
  | stuck {f : Fault} : stop → Ends stop D (.stuck f)

theorem Ends.bind {stop : Prop} {D E : State → Prop} {α β : Type} {r : Run α} {k : α → State → Run β} (h : Ends stop D r)
    (hDE : ∀ s, D s → E s) (hk : ∀ a u, r = .ok a u → D u → Running u → Ends stop E (k a u)) : Ends stop E (r.bind k) := by
  cases h with
  | ok h1 h2 => exact hk _ _ rfl h1 h2
  | hung h1 h2 => exact .hung (hDE _ h1) h2
  | raised h => exact .raised (hDE _ h)
  | stuck h => exact .stuck h

theorem Ends.bind' {stop : Prop} {D : State → Prop} {α β : Type} {r : Run α} {k : α → State → Run β} (h : Ends stop D r)
    (hk : ∀ a u, r = .ok a u → D u → Running u → Ends stop D (k a u)) : Ends stop D (r.bind k) := h.bind (fun _ => id) hk

/-- What the streams and the counts of a run may do to a predicate that does not see them. -/
structure Settled (D : State → Prop) : Prop where
  ctl : ∀ (s : State) (c : Control), D s → D { s with ctl := c }
  answers : ∀ (s : State) (l : List Answer), D s → D { s with env.answers := l }
  take : ∀ (s : State) (src : Source), s.env.src = .bound src → src.rest ≠ [] → D s → D { s with env.src := .bound (src.advance 1) }
  sink : ∀ (s : State) (k k' : Sink), s.env.snk = .bound k → (k.wf = true → k'.wf = true) → D s → D { s with env.snk := .bound k' }
  enc : ∀ (s : State) (e : EncRegs), D s → D { s with enc := e }
  dec : ∀ (s : State) (d : DecRegs), D s → D { s with dec := d }

variable {stop : Prop} {D : State → Prop}

theorem srcLen_ends (hD : Settled D) {s : State} (h : D s) (hr : Running s) : Ends stop D (srcLen s) := by
  rw [srcLen]
  rcases callSource_split (fun src => (src.len, src)) s with ⟨e, l, hc⟩ | ⟨l, hc⟩ | ⟨src, l, hs, hc⟩ <;> rw [hc]
  · exact .raised (hD.answers _ l (hD.ctl s { s.ctl with ioerr := e } h))
  · exact .hung (hD.answers s l h) hr
  · have : ({ s with env := { s.env with src := .bound src, answers := l } } : State) = { s with env.answers := l } := by rw [← hs]
    simp only [this]
    exact .ok (hD.answers s l h) hr

/-- A read: Eof, a byte, or no result. -/
theorem srcRead_split (s : State) :
    (∃ e l, srcRead s = .raised .ioFailure { s with ctl.ioerr := e, env.answers := l })
    ∨ (∃ l, srcRead s = .hung .source { s with env.answers := l })
    ∨ (∃ l, srcRead s = .ok none { s with env.answers := l })
    ∨ ∃ src b l, s.env.src = .bound src ∧ src.rest ≠ []
        ∧ srcRead s = .ok (some b) { s with env := { s.env with src := .bound (src.advance 1), answers := l } } := by
  rcases callSource_split (fun src => match src.data[src.pos]? with
    | some b => (some b, { src with pos := src.pos + 1 })
    | none => (none, src)) s with ⟨e, l, hc⟩ | ⟨l, hc⟩ | ⟨src, l, hs, hc⟩
  · exact .inl ⟨e, l, hc⟩
  · exact .inr (.inl ⟨l, hc⟩)
  · cases hb : src.data[src.pos]? with
    | none =>
      refine .inr (.inr (.inl ⟨l, ?_⟩))
      simp only [hb] at hc
      rw [← hs] at hc
      exact hc
    | some b =>
      simp only [hb] at hc
      refine .inr (.inr (.inr ⟨src, b, l, hs, ?_, hc⟩))
      rw [Source.getElem_pos] at hb
      intro e; rw [e] at hb; cases hb

theorem srcReadByte_ends (hD : Settled D) {s : State} (h : D s) (hr : Running s) (t : Failure) : Ends stop D (srcReadByte t s) := by
  rw [srcReadByte]
  rcases srcRead_split s with ⟨e, l, hc⟩ | ⟨l, hc⟩ | ⟨l, hc⟩ | ⟨src, b, l, hs, hne, hc⟩ <;> rw [hc]
  · exact .raised (hD.answers _ l (hD.ctl s { s.ctl with ioerr := e } h))
  · exact .hung (hD.answers s l h) hr
  · exact .raised (hD.answers s l h)
  · exact .ok (hD.ctl _ _ (hD.answers _ l (hD.take s src hs hne h))) hr

theorem srcReadBytes_ends (hD : Settled D) (t : Failure) : ∀ (n : Nat) {s : State}, D s → Running s → Ends stop D (srcReadBytes t n s)
  | 0, s, h, hr => .ok h hr
  | n + 1, s, h, hr => by
    rw [srcReadBytes]
    exact (srcReadByte_ends hD h hr t).bind' fun b u _ hu hru =>
      (srcReadBytes_ends hD t n hu hru).bind' fun bs w _ hw hrw => .ok hw hrw

theorem Sink.wf_append {k : Sink} (h : k.wf = true) (bs : List Byte) : (k.append bs).wf = true := by
  simp only [Sink.wf, Sink.append, decide_eq_true_eq, List.length_append] at *
  omega

theorem put_ends (hD : Settled D) {s : State} (h : D s) (hr : Running s) (b : Byte) : Ends stop D (put b s) := by
  rw [put, snkAppend]
  rcases callSink_split (fun k => { k with data := k.data ++ [b] }) s with ⟨e, l, hc⟩ | ⟨l, hc⟩ | ⟨k, l, hs, hc⟩ <;> rw [hc]
  · exact .raised (hD.answers _ l (hD.ctl s { s.ctl with ioerr := e } h))
  · exact .hung (hD.answers s l h) hr
  · exact .ok (hD.ctl _ _ (hD.answers _ l (hD.sink s k _ hs (fun hw => Sink.wf_append hw [b]) h))) hr

theorem putAll_ends (hD : Settled D) : ∀ (bs : List Byte) {s : State}, D s → Running s → Ends stop D (putAll bs s)
  | [], s, h, hr => .ok h hr
  | b :: bs, s, h, hr => by
    rw [putAll]
    exact (put_ends hD h hr b).bind' fun _ u _ hu hru => putAll_ends hD bs hu hru

theorem require_ends {s : State} (h : D s) (hr : Running s) (c : Bool) (t : Failure) : Ends stop D (require c t s) := by
  cases c
  · exact .raised h
  · exact .ok h hr

/-- The loop that reads to Eof, with `E` holding between a read and the end of the body. -/
theorem forEachByte_ends (hD : Settled D) {E : State → Prop} {body : Byte → Proc Unit}
    (ht : ∀ (s : State) (src : Source) (l : List Answer) (c : Control), s.env.src = .bound src → src.rest ≠ [] → D s →
      E { s with ctl := c, env := { s.env with src := .bound (src.advance 1), answers := l } })
    (hb : ∀ b s, E s → Running s → Ends stop D (body b s)) :
    ∀ (n : Nat) {s : State}, D s → Running s → Ends stop D (forEachByte body n s)
  | 0, s, h, hr => .ok h hr
  | n + 1, s, h, hr => by
    rw [forEachByte]
    rcases srcRead_split s with ⟨e, l, hc⟩ | ⟨l, hc⟩ | ⟨l, hc⟩ | ⟨src, b, l, hs, hne, hc⟩ <;> rw [hc]
    · exact .raised (hD.answers _ l (hD.ctl s { s.ctl with ioerr := e } h))
    · exact .hung (hD.answers s l h) hr
    · exact .ok (hD.answers s l h) hr
    · refine Ends.bind' (r := body b _) (hb b _ (ht s src l _ hs hne h) hr) fun _ u _ hu hru => forEachByte_ends hD ht hb n hu hru

theorem procWriteHeader_ends (hD : Settled D) {s : State} (h : D s) (hr : Started s) : Ends stop D (procWriteHeader s) := by
  rw [procWriteHeader]
  split
  · exact putAll_ends hD _ (hD.ctl s _ h) (hr.enter (by decide))
  · exact .raised h

theorem putBits_ends (hD : Settled D) : ∀ (bs : List Bool) {s : State}, D s → Running s → Ends stop D (putBits bs s)
  | [], s, h, hr => .ok h hr
  | b :: bs, s, h, hr => by
    rw [putBits]
    refine Ends.bind' ?_ fun _ u _ hu hru => putBits_ends hD bs hu hru
    simp only [putBit]
    have h' := hD.enc s { s.enc with pend := setBit s.enc.pend s.enc.pendN b } h
    split
    · exact (put_ends hD h' hr _).bind' fun _ u _ hu hru => .ok (hD.enc u _ hu) hru
    · exact .ok (hD.enc s _ h) hr

theorem procEncode_ends (hD : Settled D) {s : State} (h : D s) (hr : Started s) : Ends stop D (procEncode s) := by
  rw [procEncode]
  split
  · exact .raised h
  · rw [encodeWith]
    have h0 : D s.startEncoding := hD.enc _ _ (hD.ctl s _ h)
    refine (forEachByte_ends hD (E := D) ?_ ?_ _ h0 (hr.enter (p := .encoding) (by decide))).bind' fun _ u _ hu hru => ?_
    · intro s src l c hs hne h
      exact hD.ctl _ c (hD.answers _ l (hD.take s src hs hne h))
    · intro b s h hr
      rw [encodeByte]
      exact (require_ends h hr _ _).bind' fun _ u _ hu hru => putBits_ends hD _ hu hru
    · rw [flushPending]
      split
      · exact .ok hu hru
      · exact (put_ends hD hu hru _).bind' fun _ w _ hw hrw => .ok (hD.enc w _ hw) hrw

theorem decodeStep_ends (hD : Settled D) (root : NodeIdx) {s : State} (h : D s) (hr : Running s) : Ends stop D (decodeStep root s) := by
  rw [decodeStep]
  split
  · refine Ends.bind' ?_ fun b u _ hu hru => ?_
    · rw [nextBit]
      split
      · exact (srcReadByte_ends hD h hr _).bind' fun x u _ hu hru => .ok (hD.dec u _ hu) hru
      · exact .ok (hD.dec s _ h) hr
    · simp only [arrive]
      split
      · refine (put_ends hD ?_ ?_ _).bind' fun _ w _ hw hrw => .ok (hD.dec w _ hw) hrw
        · exact hD.dec u _ hu
        · exact hru
      · exact .ok (hD.dec u _ hu) hru
  · exact .raised h

theorem decodeLoop_ends (hD : Settled D) (root : NodeIdx) (len : Word64) : ∀ (n : Nat) (e : Word64) {s : State}, D s → Running s →
    Ends stop D (decodeLoop root len n e s)
  | 0, e, s, h, hr => by
    rw [decodeLoop]
    split
    · exact .raised h
    · exact .ok h hr
  | n + 1, e, s, h, hr => by
    rw [decodeLoop]
    split
    · exact (decodeStep_ends hD root h hr).bind' fun _ u _ hu hru => decodeLoop_ends hD root len n _ hu hru
    · exact .ok h hr

theorem procDecode_ends (hD : Settled D) {s : State} (h : D s) (hr : Started s) : Ends stop D (procDecode s) := by
  rw [procDecode]
  split
  · exact decodeLoop_ends hD _ _ _ _ (hD.dec _ _ (hD.ctl s _ h)) (hr.enter (p := .decoding) (by decide))
  · exact .raised h

theorem decodeAndVerify_ends (hD : Settled D) {s : State} (h : D s) (hr : Started s) : Ends stop D (decodeAndVerify s) := by
  rw [decodeAndVerify]
  exact (procDecode_ends hD h hr).bind' fun _ u _ hu hru => require_ends hu hru _ _

theorem guarded_ends {i : Instr} {body : Proc Unit} {s : State} (h : D s) (hb : Ends stop D (body s)) : Ends stop D (guarded i body s) := by
  rw [guarded]
  cases precondition i s
  · exact .raised h
  · exact hb

/-! The data half of the invariant (R26, R31, R36, R61, R134) -/

/-- What the invariant says about everything but the control registers and HEAP. -/
def Data (s : State) : Prop := s.treeOk ∧ s.serOk ∧ s.envOk ∧ s.freqOk

theorem data_settled : Settled Data where
  ctl _ _ h := h
  answers _ _ h := h
  take s src hs hne h := by
    refine ⟨h.1, h.2.1, ⟨fun src' h' => ?_, h.2.2.1.2⟩, h.2.2.2⟩
    cases h'
    exact Source.wf_advance (h.2.2.1.1 src (by rw [hs]; rfl)) (List.length_pos_iff.2 hne)
  sink s k k' hs hk h := by
    refine ⟨h.1, h.2.1, ⟨h.2.2.1.1, fun k'' h' => ?_⟩, h.2.2.2⟩
    cases h'
    exact hk (h.2.2.1.2 k (by rw [hs]; rfl))
  enc _ _ h := h
  dec _ _ h := h

/-- While counting: the bytes counted and the bytes left are fewer than 2^64 (R61, R134). -/
def Tallying (s : State) : Prop := s.treeOk ∧ s.serOk ∧ s.envOk ∧ freqSum s.freq + s.srcLeft < 2 ^ 64

theorem Tallying.data {s : State} (h : Tallying s) : Data s := ⟨h.1, h.2.1, h.2.2.1, by
  have := h.2.2.2; rw [State.freqOk]; omega⟩

theorem tallying_settled : Settled Tallying where
  ctl _ _ h := h
  answers _ _ h := h
  take s src hs hne h := by
    have hd := data_settled.take s src hs hne h.data
    refine ⟨hd.1, hd.2.1, hd.2.2.1, ?_⟩
    have h4 := h.2.2.2
    rw [State.srcLeft_bound hs] at h4
    rw [State.srcLeft_bound (src := src.advance 1) rfl, Source.rest_advance, List.length_drop]
    show freqSum s.freq + _ < _
    omega
  sink s k k' hs hk h := by
    have hd := data_settled.sink s k k' hs hk h.data
    exact ⟨hd.1, hd.2.1, hd.2.2.1, h.2.2.2⟩
  enc _ _ h := h
  dec _ _ h := h

theorem State.envOk.srcLeft_lt {s : State} (h : s.envOk) : s.srcLeft < 2 ^ 64 := by
  cases hs : s.env.src with
  | unbound e x => simp [State.srcLeft, hs]
  | bound src =>
    have := h.1 src (by rw [hs]; rfl)
    simp only [Source.wf, Bool.and_eq_true, decide_eq_true_eq] at this
    rw [State.srcLeft_bound hs, Source.rest, List.length_drop]
    omega

theorem procCount_data {s : State} (h : Data s) (hr : Started s) : Ends stop Data (procCount s) := by
  rw [procCount]
  have h0 : Data (s.enter .counting).discardLen := h
  refine (srcLen_ends data_settled h0 (hr.enter (p := .counting) (by decide))).bind' fun len u _ hu hru => ?_
  have hz : Tallying { u with freq := zeroFreq } := ⟨hu.1, hu.2.1, hu.2.2.1, by
    rw [show ({ u with freq := zeroFreq } : State).freq = zeroFreq from rfl, freqSum_zero, Nat.zero_add]; exact hu.2.2.1.srcLeft_lt⟩
  refine Ends.bind (D := Tallying) (forEachByte_ends tallying_settled (E := fun s => s.treeOk ∧ s.serOk ∧ s.envOk ∧ freqSum s.freq + s.srcLeft + 1 < 2 ^ 64) ?_ ?_ _ hz hru)
    (fun _ => Tallying.data) fun _ w _ hw hrw => ?_
  · intro s src l c hs hne h
    have hd := data_settled.take s src hs hne h.data
    refine ⟨hd.1, hd.2.1, hd.2.2.1, ?_⟩
    have h4 := h.2.2.2
    rw [State.srcLeft_bound hs] at h4
    rw [State.srcLeft_bound (src := src.advance 1) rfl, Source.rest_advance, List.length_drop]
    have := List.length_pos_iff.2 hne
    show freqSum s.freq + _ + 1 < _
    omega
  · intro b s h hr
    refine .ok ⟨h.1, h.2.1, h.2.2.1, ?_⟩ hr
    have := freqSum_tally s.freq b
    have h4 := h.2.2.2
    show freqSum (s.freq.write b (s.freq.read b + 1)) + s.srcLeft < _
    omega
  · exact (require_ends hw.data hrw _ _).bind' fun _ x _ hx hrx => .ok hx hrx

theorem State.holdsTree.treeOk {s : State} {t : HTree} (h : s.holdsTree t) : s.treeOk :=
  ⟨fun _ => ⟨t, h⟩, fun hn => by obtain ⟨hd, ht, _⟩ := h; rw [hn] at ht; cases ht⟩

theorem procBuild_data {s : State} (h : Data s) (hr : Started s) : Ends stop Data (procBuild s) := by
  have hc := procBuild_cases s
  generalize procBuild s = r at *
  rcases hc with ⟨u, t, hu, ht, e⟩ | ⟨hp, hu⟩ <;> rw [hu]
  · rw [e] at ht ⊢
    exact .ok ⟨ht.treeOk, h.2.1, h.2.2.1, h.2.2.2⟩ ⟨rfl, hr.2.1, hr.2.2, fun h => by cases h⟩
  · exact .raised ⟨⟨fun h => (by cases h), fun _ => rfl⟩, h.2.1, h.2.2.1, h.2.2.2⟩

theorem procSerialize_data {s : State} (h : Data s) (hr : Started s) : Ends stop Data (procSerialize s) := by
  cases ht : s.tree with
  | none => rw [procSerialize, ht]; exact .raised h
  | some hd =>
    obtain ⟨t, hh⟩ := h.1.1 (by rw [ht]; rfl)
    rw [procSerialize_ok hh]
    refine .ok ⟨h.1, ?_, h.2.2.1, h.2.2.2⟩ (hr.enter (p := .serializing) (by decide))
    intro c hc
    cases hc
    obtain ⟨_, _, _, _, _, hn, _⟩ := hh
    have := leaves_length_le hn
    have := t.shape_length
    refine ⟨?_, ?_, ?_⟩ <;> simp only [Config.maxNodes, Config.maxLeaves]
    · omega
    · omega
    · exact t.count_false_shape.symm

theorem procDeserialize_data {s : State} (h : Data s) (hr : Started s) : Ends stop Data (procDeserialize s) := by
  cases hc : s.ser with
  | none => rw [procDeserialize, hc]; exact .raised h
  | some c =>
    cases hw : c.wellFormed with
    | true =>
      obtain ⟨tr, hs, hl, hi, hn⟩ := SerTree.exists_tree hw
      obtain ⟨des, e⟩ := procDeserialize_ok hw hs hl hc
      rw [e]
      refine .ok ⟨?_, h.2.1, h.2.2.1, h.2.2.2⟩ (hr.enter (p := .deriving_) (by decide))
      exact (layout_holds hi hn rfl rfl : State.holdsTree _ tr).treeOk
    | false =>
      obtain ⟨des, e⟩ := procDeserialize_malformed hw hc
      rw [e]
      exact .raised ⟨⟨fun h => (by cases h), fun _ => rfl⟩, h.2.1, h.2.2.1, h.2.2.2⟩

theorem srcReadBytes_length {t : Failure} : ∀ {n : Nat} {s u : State} {bs : List Byte}, srcReadBytes t n s = .ok bs u → bs.length = n
  | 0, s, u, bs, h => by simp only [srcReadBytes, Run.ok.injEq] at h; rw [← h.1]; rfl
  | n + 1, s, u, bs, h => by
    rw [srcReadBytes] at h
    obtain ⟨b, v, _, h⟩ := Run.bind_eq_ok h
    obtain ⟨cs, w, h1, h⟩ := Run.bind_eq_ok h
    simp only [Run.ok.injEq] at h
    rw [← h.1, List.length_cons, srcReadBytes_length h1]

theorem require_true_of_ok {c : Bool} {t : Failure} {s u : State} (h : require c t s = .ok () u) : c = true := by
  cases c
  · cases h
  · rfl

theorem procReadHeader_data {s : State} (h : Data s) (hr : Started s) : Ends stop Data (procReadHeader s) := by
  rw [procReadHeader]
  have h0 : Data ((s.enter .readingHeader).discardSer.discardLen) :=
    ⟨h.1, fun _ hc => (by cases hc), h.2.2.1, h.2.2.2⟩
  refine (srcReadBytes_ends data_settled _ _ h0 (hr.enter (p := .readingHeader) (by decide))).bind' fun nc u _ hu hru => ?_
  refine (require_ends hu hru _ _).bind' fun _ u hn hu hru => ?_
  have hn := require_true_of_ok hn
  refine (srcReadBytes_ends data_settled _ _ hu hru).bind' fun packed u _ hu hru => ?_
  refine (require_ends hu hru _ _).bind' fun _ u hl hu hru => ?_
  have hl := require_true_of_ok hl
  refine (srcReadBytes_ends data_settled _ _ hu hru).bind' fun leafv u hb hu hru => ?_
  have hb := srcReadBytes_length hb
  refine (srcReadBytes_ends data_settled _ _ hu hru).bind' fun lenBytes u _ hu hru => ?_
  refine .ok ⟨hu.1, ?_, hu.2.2.1, hu.2.2.2⟩ hru
  intro c hc
  cases hc
  refine ⟨?_, ?_, hb⟩
  · rw [unpackBits_length]; exact of_decide_eq_true hn
  · show leafv.length ≤ _
    rw [hb]; exact of_decide_eq_true hl

theorem Source.wf_rewind {src : Source} (h : src.wf = true) : src.rewind.wf = true := by
  simp only [Source.rewind]
  split
  · simp [Source.wf] at h ⊢
    exact ⟨h.1.2, h.2⟩
  · rename_i d ds hd
    simp [Source.wf, hd] at h ⊢
    exact ⟨h.2.1, h.2.2⟩

theorem srcRewind_data {s : State} (h : Data s) (hr : Running s) : Ends stop Data (srcRewind s) := by
  rw [srcRewind]
  rcases callSource_split (fun src => ((), src.rewind)) s with ⟨e, l, hc⟩ | ⟨l, hc⟩ | ⟨src, l, hs, hc⟩ <;> rw [hc]
  · exact .raised h
  · exact .hung h hr
  · refine .ok ⟨h.1, h.2.1, ⟨fun src' h' => ?_, h.2.2.1.2⟩, h.2.2.2⟩ hr
    cases h'
    exact Source.wf_rewind (h.2.2.1.1 src (by rw [hs]; rfl))

theorem State.discardAll_data {s : State} (h : Data s) : Data s.discardAll :=
  ⟨⟨fun h => (by cases h), fun _ => rfl⟩, fun _ hc => (by cases hc), h.2.2.1, h.2.2.2⟩

theorem compressBody_data {s : State} (h : Data s) (hr : Started s) : Ends stop Data (compressBody s) := by
  rw [compressBody]
  refine (procCount_data (State.discardAll_data h) hr).bind' fun _ u _ hu hru => ?_
  refine Ends.bind' (procBuild_data hu hru.started) fun _ u _ hu hru => ?_
  refine (procSerialize_data hu hru.started).bind' fun _ u _ hu hru => ?_
  refine (procWriteHeader_ends data_settled hu hru.started).bind' fun _ u _ hu hru => ?_
  refine (srcRewind_data hu hru).bind' fun _ u _ hu hru => ?_
  refine (procEncode_ends data_settled (s := { u with ctl.inCount := 0 }) hu hru.started).bind' fun _ u _ hu hru => ?_
  refine (require_ends hu hru _ _).bind' fun _ u _ hu hru => ?_
  exact .ok (State.discardAll_data hu) hru

theorem decompressBody_data {s : State} (h : Data s) (hr : Started s) : Ends stop Data (decompressBody s) := by
  rw [decompressBody]
  refine (procReadHeader_data (State.discardAll_data h) hr).bind' fun _ u _ hu hru => ?_
  refine (procDeserialize_data hu hru.started).bind' fun _ u _ hu hru => ?_
  refine (procDecode_ends data_settled hu hru.started).bind' fun _ u _ hu hru => ?_
  refine (require_ends hu hru _ _).bind' fun _ u _ hu hru => ?_
  exact .ok (State.discardAll_data hu) hru

theorem bodyOf_data {i : Instr} (hi : i ≠ .clear) {s : State} (h : Data s) (hr : Started s) : Ends False Data (bodyOf i s) := by
  cases i with
  | clear => exact absurd rfl hi
  | count => exact procCount_data h hr
  | build => exact procBuild_data h hr
  | serialize => exact guarded_ends h (procSerialize_data h hr)
  | deserialize => exact guarded_ends h (procDeserialize_data h hr)
  | wrhdr => exact guarded_ends h (procWriteHeader_ends data_settled h hr)
  | rdhdr => exact procReadHeader_data h hr
  | encode => exact guarded_ends h (procEncode_ends data_settled h hr)
  | decode => exact guarded_ends h (decodeAndVerify_ends data_settled h hr)
  | compress => exact compressBody_data h hr
  | decompress => exact decompressBody_data h hr

theorem flushIfWriter_ends (hD : Settled D) {s : State} (h : D s) (hr : Running s) : Ends stop D (flushIfWriter s) := by
  rw [flushIfWriter]
  split
  · split
    · rw [snkFlush]
      rcases callSink_split (fun k => { k with durable := k.data.length }) s with ⟨e, l, hc⟩ | ⟨l, hc⟩ | ⟨k, l, hs, hc⟩ <;> rw [hc]
      · exact .raised (hD.answers _ l (hD.ctl s { s.ctl with ioerr := e } h))
      · exact .hung (hD.answers s l h) hr
      · exact .ok (hD.answers _ l (hD.sink s k _ hs (fun _ => by simp [Sink.wf]) h)) hr
    · exact .ok h hr
  · exact .ok h hr

theorem State.fail_data {s : State} (h : Data s) (t : Failure) : Data (s.fail t) := by
  rw [State.fail]
  simp only [State.flagsAfterFailure]
  split
  · split
    · exact State.discardAll_data (s := { s with heap := [] }) h
    · exact h
  · exact h

theorem State.settle_controlOk {s : State} (h : s.heap = []) (o : CmdOutcome) : (s.settle o).controlOk := by
  refine ⟨?_, ?_, ?_, h⟩ <;> simp [State.settle]

theorem State.fail_controlOk (s : State) (t : Failure) : (s.fail t).controlOk := by
  refine ⟨?_, ?_, ?_, State.fail_heap s t⟩ <;> simp [State.fail_ctl, State.settle]

theorem Running.hung_controlOk {s : State} (h : Running s) (st : Stream) : ({ s with ctl.waiting := some st } : State).controlOk := by
  obtain ⟨h1, h2, h3, h4⟩ := h
  refine ⟨?_, ?_, ?_, h1⟩ <;> simp [h2, h3, h4]

/-- How a command that is not CLEAR ends, from the ends of its body (R249, R250, R286). -/
theorem command_ends {stop : Prop} {D : State → Prop} (hD : Settled D) {i : Instr} {body : Proc Unit} {s : State}
    (hb : Ends stop D (body (s.begin (some i)))) :
    (∃ u o, D u ∧ u.heap = [] ∧ command i body s = .next (u.settle o))
    ∨ (∃ u t, D u ∧ command i body s = .next (u.fail t))
    ∨ (∃ u st, D u ∧ Running u ∧ command i body s = .next { u with ctl.waiting := some st })
    ∨ stop := by
  rw [command]
  cases hr : body (s.begin (some i)) with
  | ok a u =>
    rw [hr] at hb
    obtain ⟨hu, hru⟩ : D u ∧ Running u := by cases hb; exact ⟨‹_›, ‹_›⟩
    have hf := flushIfWriter_ends (stop := stop) hD hu hru
    simp only [Run.bind_ok, finish]
    cases hq : flushIfWriter u with
    | ok a w =>
      rw [hq] at hf
      obtain ⟨hw, hrw⟩ : D w ∧ Running w := by cases hf; exact ⟨‹_›, ‹_›⟩
      exact .inl ⟨w, _, hw, hrw.1, rfl⟩
    | hung st w => rw [hq] at hf; cases hf; exact .inr (.inr (.inl ⟨_, _, ‹_›, ‹_›, rfl⟩))
    | raised t w => rw [hq] at hf; cases hf; exact .inr (.inl ⟨_, _, ‹_›, rfl⟩)
    | stuck f => rw [hq] at hf; cases hf; exact .inr (.inr (.inr ‹_›))
  | hung st w => rw [hr] at hb; cases hb; exact .inr (.inr (.inl ⟨_, _, ‹_›, ‹_›, rfl⟩))
  | raised t w => rw [hr] at hb; cases hb; exact .inr (.inl ⟨_, _, ‹_›, rfl⟩)
  | stuck f => rw [hr] at hb; cases hb; exact .inr (.inr (.inr ‹_›))

theorem begin_started {s : State} (h : s.heap = []) (i : Instr) : Started (s.begin (some i)) := ⟨h, rfl, rfl⟩

end Sys2Proof.Machine
end

