-- ==== Sys2Proof/Laws/Merge.lean ====
section
/-! SUPPORT. What Build's HEAP picks, and what its merges leave in NODE (10_state.md R34, 41_tree_builder.md R131, R132). -/

namespace Sys2Proof.Machine

theorem State.keyLt_iff (s : State) (i j : NodeIdx) : s.keyLt i j = true ↔ s.keyBefore i j := by
  simp [State.keyLt, State.keyBefore, BitVec.toNat_inj]

theorem State.minMember_least (s : State) : ∀ {l : List NodeIdx} {m : NodeIdx}, s.minMember l = some m →
    ∀ j ∈ l, j ≠ m → s.keyBefore m j
  | [], m, h => by simp [State.minMember] at h
  | i :: is, m, h => by
    intro j hj hne
    simp only [State.minMember] at h
    split at h
    · rename_i hnone
      cases h
      have : is = [] := by
        by_contra hi
        obtain ⟨m', hm'⟩ := s.minMember_ne_none hi
        rw [hm'] at hnone; cases hnone
      subst this
      simp at hj; exact absurd hj hne
    · rename_i m' hm'
      have ih := s.minMember_least hm'
      split at h
      · rename_i hlt
        cases h
        rw [List.mem_cons] at hj
        rcases hj with rfl | hj
        · exact (s.keyLt_iff _ _).1 hlt
        · exact ih j hj hne
      · rename_i hnlt
        obtain rfl : m = i := by cases h; rfl
        rw [s.keyLt_iff] at hnlt
        rw [List.mem_cons] at hj
        rcases hj with rfl | hj
        · exact absurd rfl hne
        · have hne' : m.toNat ≠ j.toNat := fun e => hne (BitVec.eq_of_toNat_eq e.symm)
          by_cases hjm' : j = m'
          · subst hjm'; simp only [State.keyBefore] at *; omega
          · have := ih j hj hjm'
            simp only [State.keyBefore] at *; omega

/-- What `heapExtractMin` answers on a HEAP with a member: the member of least key (R34). -/
theorem State.heapExtractMin_least (s : State) (h : s.heap ≠ []) :
    ∃ m, m ∈ s.heap ∧ (∀ j ∈ s.heap, j ≠ m → s.keyBefore m j)
      ∧ s.heapExtractMin = some (m, { s with heap := s.heap.erase m }) := by
  obtain ⟨m, hm⟩ := s.minMember_ne_none h
  exact ⟨m, s.minMember_mem hm, s.minMember_least hm, by simp [State.heapExtractMin, hm]⟩

/-! the record of the merges in NODE -/

/-- Entry `k` merges the two entries of least key that no merge below `k` took (R132). -/
def State.mergedAt (s : State) (k : Nat) : Prop :=
  ∃ l r, s.node[k]? = some (some (.internal (s.freqAt l + s.freqAt r) l r)) ∧ l.toNat < k ∧ r.toNat < k
    ∧ ¬ s.takenBelow k l ∧ ¬ s.takenBelow k r ∧ s.keyBefore l r
    ∧ ∀ j : NodeIdx, j.toNat < k → ¬ s.takenBelow k j → j ≠ l → j ≠ r → s.keyBefore r j

/-- What holds through the merge loop: HEAP is the entries no merge took, and every merge so far is on record. -/
structure Merging (n : Nat) (s : State) : Prop where
  nodup : s.heap.Nodup
  members : ∀ j : NodeIdx, j ∈ s.heap ↔ j.toNat < s.node.length ∧ ¬ s.takenBelow s.node.length j
  below : ∀ (m : Nat) (f : Word64) (l r : NodeIdx), s.node[m]? = some (some (.internal f l r)) → l.toNat < m ∧ r.toNat < m
  merged : ∀ k, n ≤ k → k < s.node.length → s.mergedAt k

theorem freqAt_append {s u : State} {ext : List (Option Node)} (he : u.node = s.node ++ ext) {i : NodeIdx}
    (hi : i.toNat < s.node.length) : u.freqAt i = s.freqAt i := by
  simp [State.freqAt, State.nodeAt, he, List.getElem?_append_left hi]

theorem keyBefore_append {s u : State} {ext : List (Option Node)} (he : u.node = s.node ++ ext) {i j : NodeIdx}
    (hi : i.toNat < s.node.length) (hj : j.toNat < s.node.length) : u.keyBefore i j ↔ s.keyBefore i j := by
  rw [State.keyBefore, State.keyBefore, freqAt_append he hi, freqAt_append he hj]

theorem takenBelow_append {s u : State} {ext : List (Option Node)} (he : u.node = s.node ++ ext) {k : Nat} {j : NodeIdx}
    (hk : k ≤ s.node.length) : u.takenBelow k j ↔ s.takenBelow k j := by
  have : ∀ m < k, u.node[m]? = s.node[m]? := fun m hm => by rw [he, List.getElem?_append_left (by omega)]
  constructor <;> rintro ⟨m, hm, f, l, r, h, hj⟩
  · exact ⟨m, hm, f, l, r, by rw [← this m hm]; exact h, hj⟩
  · exact ⟨m, hm, f, l, r, by rw [this m hm]; exact h, hj⟩

theorem mergedAt_append {s u : State} {ext : List (Option Node)} (he : u.node = s.node ++ ext) {k : Nat}
    (hk : k < s.node.length) (h : s.mergedAt k) : u.mergedAt k := by
  obtain ⟨l, r, hn, hl, hr, tl, tr, hb, hmin⟩ := h
  refine ⟨l, r, ?_, hl, hr, by rwa [takenBelow_append he hk.le], by rwa [takenBelow_append he hk.le],
    (keyBefore_append he (by omega) (by omega)).2 hb, fun j hj tj jl jr => ?_⟩
  · rw [he, List.getElem?_append_left hk, hn, freqAt_append he (by omega), freqAt_append he (by omega)]
  · rw [takenBelow_append he hk.le] at tj
    exact (keyBefore_append he (by omega) (by omega)).2 (hmin j hj tj jl jr)

/-- One merge takes the two members of least key, the first on the left (R132). -/
theorem Merging.mergeStep {n : Nat} {s : State} (h : Merging n s) (hl : s.node.length < 512) (h2 : 2 ≤ s.heap.length) :
    Merging n s.mergeStep ∧ ∃ e, s.mergeStep.node = s.node ++ [some e] := by
  have hne : s.heap ≠ [] := by intro e; simp [e] at h2
  obtain ⟨a, ha, la, ea⟩ := s.heapExtractMin_least hne
  have hl1 : (s.heap.erase a).length = s.heap.length - 1 := List.length_erase_of_mem ha
  have hne1 : ({ s with heap := s.heap.erase a } : State).heap ≠ [] := by
    intro e; rw [show s.heap.erase a = [] from e, List.length_nil] at hl1; omega
  obtain ⟨b, hb, lb, eb⟩ := State.heapExtractMin_least _ hne1
  have hb' := h.nodup.mem_erase_iff.1 hb
  have hA := (h.members a).1 ha
  have hB := (h.members b).1 hb'.2
  have hidx : (BitVec.ofNat 9 s.node.length : NodeIdx).toNat = s.node.length := by
    rw [BitVec.toNat_ofNat, Nat.mod_eq_of_lt (by omega)]
  have e : s.mergeStep = { s with
      node := s.node ++ [some (.internal (s.freqAt a + s.freqAt b) a b)]
      heap := (s.heap.erase a).erase b ++ [BitVec.ofNat 9 s.node.length] } := by
    simp only [State.mergeStep, ea, eb]; rfl
  have en : s.mergeStep.node = s.node ++ [some (.internal (s.freqAt a + s.freqAt b) a b)] := by rw [e]
  have eh : s.mergeStep.heap = (s.heap.erase a).erase b ++ [BitVec.ofNat 9 s.node.length] := by rw [e]
  have elen : s.mergeStep.node.length = s.node.length + 1 := by rw [en]; simp
  have enew : s.mergeStep.node[s.node.length]? = some (some (.internal (s.freqAt a + s.freqAt b) a b)) := by rw [en]; simp
  have hmem : ∀ j, j ∈ (s.heap.erase a).erase b ↔ j ≠ a ∧ j ≠ b ∧ j ∈ s.heap := by
    intro j; rw [(h.nodup.erase a).mem_erase_iff, h.nodup.mem_erase_iff]; tauto
  have htaken : ∀ j, s.mergeStep.takenBelow (s.node.length + 1) j ↔ s.takenBelow s.node.length j ∨ j = a ∨ j = b := by
    intro j
    rw [← takenBelow_append en (Nat.le_refl _)]
    constructor
    · rintro ⟨m, hm, f, l, r, hn, hj⟩
      by_cases hmk : m = s.node.length
      · subst hmk
        rw [enew] at hn
        simp only [Option.some.injEq, Node.internal.injEq] at hn
        obtain ⟨-, rfl, rfl⟩ := hn
        exact .inr hj
      · exact .inl ⟨m, by omega, f, l, r, hn, hj⟩
    · rintro (⟨m, hm, f, l, r, hn, hj⟩ | hj)
      · exact ⟨m, by omega, f, l, r, hn, hj⟩
      · exact ⟨s.node.length, by omega, _, a, b, enew, hj⟩
  refine ⟨⟨?_, ?_, ?_, ?_⟩, _, en⟩
  · rw [eh, List.nodup_append]
    refine ⟨(h.nodup.erase a).erase b, by simp, fun x hx y hy => ?_⟩
    rw [List.mem_singleton] at hy
    rintro rfl
    subst hy
    have := ((h.members _).1 ((hmem _).1 hx).2.2).1
    omega
  · intro j
    rw [eh, elen, List.mem_append, hmem, List.mem_singleton, htaken, h.members]
    constructor
    · rintro (⟨h1, h3, h4, h5⟩ | rfl)
      · exact ⟨by omega, by tauto⟩
      · refine ⟨by omega, ?_⟩
        rintro (⟨m, hm, f, l, r, hn, hj⟩ | hj | hj)
        · have := h.below m f l r hn
          rcases hj with hj | hj <;> rw [← hj] at this <;> omega
        · rw [← hj] at hA; omega
        · rw [← hj] at hB; omega
    · rintro ⟨h1, h3⟩
      by_cases hj : j.toNat = s.node.length
      · exact .inr (BitVec.eq_of_toNat_eq (by omega))
      · exact .inl ⟨by tauto, by tauto, by omega, by tauto⟩
  · intro m f l r hn
    by_cases hmk : m < s.node.length
    · rw [en, List.getElem?_append_left hmk] at hn
      exact h.below m f l r hn
    · have : m < s.mergeStep.node.length := (List.getElem?_eq_some_iff.1 hn).1
      obtain rfl : m = s.node.length := by omega
      rw [enew] at hn
      simp only [Option.some.injEq, Node.internal.injEq] at hn
      obtain ⟨-, rfl, rfl⟩ := hn
      exact ⟨hA.1, hB.1⟩
  · intro k hk hkl
    by_cases hk' : k < s.node.length
    · exact mergedAt_append en hk' (h.merged k hk hk')
    · obtain rfl : k = s.node.length := by omega
      refine ⟨a, b, ?_, hA.1, hB.1, ?_, ?_, ?_, fun j hj tj ja jb => ?_⟩
      · rw [enew, freqAt_append en hA.1, freqAt_append en hB.1]
      · rw [takenBelow_append en (Nat.le_refl _)]; exact hA.2
      · rw [takenBelow_append en (Nat.le_refl _)]; exact hB.2
      · rw [keyBefore_append en hA.1 hB.1]; exact la b hb'.2 hb'.1
      · rw [takenBelow_append en (Nat.le_refl _)] at tj
        rw [keyBefore_append en hB.1 hj]
        exact lb j (h.nodup.mem_erase_iff.2 ⟨ja, (h.members j).2 ⟨hj, tj⟩⟩) jb

/-- The merge loop, on a HEAP that NODE has room for. -/
theorem Merging.mergeLoop {n : Nat} : ∀ (k : Nat) {s : State}, Merging n s → s.node.length + s.heap.length ≤ 512 →
    Merging n (State.mergeLoop k s) ∧ ∃ ext, (State.mergeLoop k s).node = s.node ++ ext
  | 0, s, h, _ => ⟨h, [], by simp [State.mergeLoop]⟩
  | k + 1, s, h, hl => by
    rw [State.mergeLoop]
    by_cases h2 : 1 < s.heap.length
    · rw [if_pos h2]
      obtain ⟨h', e, he⟩ := h.mergeStep (by omega) h2
      have hl' := State.mergeStep_heap_length h2
      have hn : s.mergeStep.node.length = s.node.length + 1 := by rw [he]; simp
      obtain ⟨h3, ext, hx⟩ := Merging.mergeLoop k h' (by omega)
      exact ⟨h3, some e :: ext, by rw [hx, he]; simp⟩
    · rw [if_neg h2]; exact ⟨h, [], by simp⟩

/-- The leaves of R131, in ascending byte value, and HEAP with every one of them. -/
theorem addLeaves_node (s : State) :
    s.startBuilding.addLeaves.node = (presentBytes s.freq).map (fun v => some (.leaf v (s.freq.read v)))
      ∧ s.startBuilding.addLeaves.heap = (List.range (presentBytes s.freq).length).map (BitVec.ofNat 9) := by
  have key : ∀ (bs vs : List Byte) (u : State), u.freq = s.freq → u.node = vs.map (fun v => some (.leaf v (s.freq.read v))) →
      u.heap = (List.range vs.length).map (BitVec.ofNat 9) →
      (bs.foldl State.addLeaf u).node = (vs ++ bs.filter fun v => s.freq.read v != 0).map (fun v => some (.leaf v (s.freq.read v)))
        ∧ (bs.foldl State.addLeaf u).heap
          = (List.range (vs ++ bs.filter fun v => s.freq.read v != 0).length).map (BitVec.ofNat 9) := by
    intro bs
    induction bs with
    | nil => intro vs u _ h1 h2; simpa using ⟨h1, h2⟩
    | cons b bs ih =>
      intro vs u hf h1 h2
      by_cases hb : s.freq.read b = 0#64
      · have e : u.addLeaf b = u := by simp [State.addLeaf, hf, hb]
        rw [List.foldl_cons, e, List.filter_cons_of_neg (by simp [hb])]
        exact ih vs u hf h1 h2
      · have e : u.addLeaf b = u.addNode (.leaf b (s.freq.read b)) := by simp [State.addLeaf, hf, hb]
        rw [List.foldl_cons, e, List.filter_cons_of_pos (by simp [hb])]
        have := ih (vs ++ [b]) (u.addNode (.leaf b (s.freq.read b))) hf
          (by simp [State.addNode, State.heapInsert, h1])
          (by simp [State.addNode, State.heapInsert, h1, h2, List.range_succ])
        simpa using this
  exact key allBytes [] s.startBuilding rfl rfl rfl

theorem Merging.addLeaves (s : State) : Merging (presentBytes s.freq).length s.startBuilding.addLeaves := by
  obtain ⟨hn, hh⟩ := addLeaves_node s
  have hle := leaves_length_le (presentBytes_nodup s.freq)
  have hleaf : ∀ (m : Nat) (f : Word64) (l r : NodeIdx), s.startBuilding.addLeaves.node[m]? ≠ some (some (.internal f l r)) := by
    intro m f l r h
    rw [hn, List.getElem?_map, Option.map_eq_some_iff] at h
    obtain ⟨v, -, h⟩ := h
    cases h
  have hlen : s.startBuilding.addLeaves.node.length = (presentBytes s.freq).length := by rw [hn]; simp
  refine ⟨?_, fun j => ?_, fun m f l r h => absurd h (hleaf m f l r), fun k hk hkl => by omega⟩
  · rw [hh, List.nodup_map_iff_inj_on List.nodup_range]
    intro a ha b hb h
    simp at ha hb
    have := congrArg BitVec.toNat h
    simpa [Nat.mod_eq_of_lt (show a < 512 by omega), Nat.mod_eq_of_lt (show b < 512 by omega)] using this
  · rw [hh, hlen, List.mem_map]
    constructor
    · rintro ⟨a, ha, rfl⟩
      rw [List.mem_range] at ha
      refine ⟨by rw [BitVec.toNat_ofNat, Nat.mod_eq_of_lt (by omega)]; exact ha, ?_⟩
      rintro ⟨m, _, f, l, r, h, _⟩
      exact hleaf m f l r h
    · rintro ⟨h, -⟩
      exact ⟨j.toNat, List.mem_range.2 h, by simp⟩

/-- What Build leaves in NODE (R131, R132). -/
theorem procBuild_builtFrom {s u : State} (h : procBuild s = .ok () u) : u.builtFrom s.freq := by
  have h2 : 2 ≤ (presentBytes s.freq).length := by
    by_contra hc
    rw [procBuild_insufficient s (by omega)] at h; cases h
  have hM := Merging.addLeaves s
  obtain ⟨hn, hh⟩ := addLeaves_node s
  have hle := leaves_length_le (presentBytes_nodup s.freq)
  obtain ⟨u', _, _, _, _, _, hu', _, _, _, hroot, _, _, _⟩ := procBuild_ok s h2
  have hp : procBuild s = ((checkAlphabet s.startBuilding.addLeaves).onRaise State.discardTree).bind fun _ s =>
    finishBuild (State.mergeLoop s.heap.length s) := by rw [procBuild]
  have hF := (leafForest s).mergeLoop hle s.startBuilding.addLeaves.heap.length (by omega) (by rw [hh]; simp; omega)
  generalize s.startBuilding.addLeaves = A at *
  have hAl : A.node.length = (presentBytes s.freq).length := by rw [hn]; simp
  have hhl : A.heap.length = (presentBytes s.freq).length := by rw [hh]; simp
  obtain ⟨hL, ext, hx⟩ := hM.mergeLoop A.heap.length (by omega)
  rw [h, checkAlphabet, show decide (Config.minLeaves ≤ A.node.length) = true by
    rw [decide_eq_true_iff, Config.minLeaves]; omega] at hp
  simp only [require_true, Run.onRaise_ok, Run.bind_ok] at hp
  generalize State.mergeLoop A.heap.length A = L at *
  obtain ⟨t, hF⟩ := hF
  have hc := hF.count
  rw [List.length_singleton] at hc
  have hun : u.node = L.node := by
    simp only [finishBuild] at hp
    split at hp
    · cases hp
    · rename_i root w hw
      simp only [State.heapExtractMin, Option.map_eq_some_iff, Prod.mk.injEq] at hw
      obtain ⟨_, _, _, rfl⟩ := hw
      simp only [finishTree] at hp
      split at hp
      · cases hp
      · cases hp; rfl
  have hM' : ∀ k, L.mergedAt k → u.mergedAt k := fun k hk => by
    obtain ⟨l, r, hk⟩ := hk
    refine ⟨l, r, ?_⟩
    simpa only [State.takenBelow, State.keyBefore, State.freqAt, State.nodeAt, hun] using hk
  refine ⟨fun j hj => ?_, by rw [hun]; omega, fun k hk hkl => hM' k (hL.merged k hk (by rw [← hun]; exact hkl))⟩
  rw [hun, hx, List.getElem?_append_left (by omega), hn, List.getElem?_map, List.getElem?_eq_getElem hj]
  rfl

end Sys2Proof.Machine
end

