-- ==== Sys2Proof/Laws/PerInstr.lean ====
section
/-! SUPPORT. Per-instruction lemmas: the encoding of each command (30_encoding.md R90, R91). -/

namespace Sys2Proof.Laws.Encoding

/-- The command's word is well formed, is read back as the command, alone, before more bytes and as the opcode
table numbers it. -/
def Statement (i : Instr) : Prop :=
  i.wf = true ∧ commandWordWf (encode i) = true ∧ decodeWord (encode i) = some i
    ∧ (∀ rest, decodeBytes (encode i :: rest) = some (i, rest)) ∧ decodeTableWord 8 (encode i).toNat = some i

theorem clear : Statement .clear := ⟨rfl, by decide, rfl, fun _ => rfl, rfl⟩
theorem count : Statement .count := ⟨rfl, by decide, rfl, fun _ => rfl, rfl⟩
theorem build : Statement .build := ⟨rfl, by decide, rfl, fun _ => rfl, rfl⟩
theorem serialize : Statement .serialize := ⟨rfl, by decide, rfl, fun _ => rfl, rfl⟩
theorem deserialize : Statement .deserialize := ⟨rfl, by decide, rfl, fun _ => rfl, rfl⟩
theorem wrhdr : Statement .wrhdr := ⟨rfl, by decide, rfl, fun _ => rfl, rfl⟩
theorem rdhdr : Statement .rdhdr := ⟨rfl, by decide, rfl, fun _ => rfl, rfl⟩
theorem encode : Statement .encode := ⟨rfl, by decide, rfl, fun _ => rfl, rfl⟩
theorem decode : Statement .decode := ⟨rfl, by decide, rfl, fun _ => rfl, rfl⟩
theorem compress : Statement .compress := ⟨rfl, by decide, rfl, fun _ => rfl, rfl⟩
theorem decompress : Statement .decompress := ⟨rfl, by decide, rfl, fun _ => rfl, rfl⟩

end Sys2Proof.Laws.Encoding
end

