-- ==== Sys2Proof/Tests/Slice0.lean ====
section
/-! SUPPORT. Tests of the model against the written-out encodings and vectors of spec/ (30_encoding.md,
95_test_vectors.md), the smoke test of WellFormed, and a witness for the hypotheses of each statement. -/

set_option Elab.async false

namespace Sys2Proof.Tests

open Sys2Proof Sys2Proof.Machine

/-! ### Small states -/

/-- `f` of the next state, if there is one. -/
def result {α : Type} (f : State → α) : Host.Outcome State Fault Refusal → Option α
  | .next s => some (f s)
  | .fault _ => none
  | .refused _ => none

/-- An empty Sink. -/
def noBytes : Sink := { data := [], durable := 0 }

/-- After reset, with a Source holding `bs` and an empty Sink bound (`.source`, `.sink` of R94). -/
def bound (bs : List Byte) : State :=
  { State.reset with env := { src := .bound (Source.faithful bs), snk := .bound noBytes, answers := [], events := [] } }

/-- The tree of "xy" (T1) and its code table. -/
def xy : HTree := .node (.leaf 0x78) (.leaf 0x79)

def xyCode : ByteTable CodeEntry := xy.codeTable

/-- CODE[78] = (0, 1), CODE[79] = (1, 1), and no code for 0x41 (T1, T60). -/
theorem test_xyCode : [xyCode.read 0x78, xyCode.read 0x79, xyCode.read 0x41]
    = [{ bits := 0, len := 1 }, { bits := 1, len := 1 }, { bits := 0, len := 0 }] := by decide +kernel

def xySer : SerTree := { shape := [true, false, false], leafv := [0x78, 0x79] }

/-- The state after COUNT, BUILD, SERIALIZE of "xy", with a Source holding `bs` and an empty Sink. -/
def loaded (bs : List Byte) : State :=
  { bound bs with
    freq := (zeroFreq.write 0x78 1).write 0x79 1
    node := [some (.leaf 0x78 1), some (.leaf 0x79 1), some (.internal 2 0 1)]
    tree := some { root := 2, code := xyCode }, ser := some xySer, origLen := some 2 }

theorem loaded_holds (bs : List Byte) : (loaded bs).holdsTree xy :=
  ⟨{ root := 2, code := xyCode }, rfl, rfl, rfl, rfl, by decide, rfl,
    show ∀ e ∈ [some (Node.leaf 0x78 1), some (.leaf 0x79 1), some (.internal 2 0 1)], e.isSome = true by decide⟩

/-- What the Sink holds and the Source's position, the STATUS and RCOUNT. -/
def view (s : State) : List Byte × Option Nat × Nat × Nat :=
  (s.sinkBytes, match s.env.src with | .bound src => some src.pos | .unbound _ _ => none, s.status.toNat, s.ctl.rcount.toNat)

/-- `s` with the events `l` to come. -/
def withEvents (s : State) (l : List Event) : State := { s with env.events := l }

/-- `s` with the coming calls answered as `l` says. -/
def withAnswers (s : State) (l : List Answer) : State := { s with env.answers := l }

/-- A COUNT that hangs in its second read, and a WRHDR that hangs in its first append. -/
def hungOnSource : State :=
  { bound [0x78, 0x79] with
    ctl := { State.reset.ctl with busy := true, phase := .counting, inCount := 1, running := some .count, waiting := some .source } }

def hungOnSink : State :=
  { loaded [] with
    ctl := { State.reset.ctl with busy := true, phase := .writingHeader, running := some .wrhdr, waiting := some .sink } }

/-! ### WellFormed -/

theorem test_wf_words : ([0x00, 0x0C, 0x80, 0xFF].map commandWordWf) = [false, false, false, false] := by decide
theorem test_wf_words_accepted : ([0x01, 0x0B].map commandWordWf) = [true, true] := by decide
theorem test_wf_instr : Instr.wf .compress = true := by decide
/-- T20 and the least tree (R106). -/
theorem test_wf_tree : xySer.wellFormed = true := by decide
/-- Fewer than 3 shape bits (T33 has N = 1). -/
theorem test_wf_short : ({ shape := [true], leafv := [] } : SerTree).wellFormed = false := by decide
/-- More than 511 shape bits. -/
theorem test_wf_long : ({ shape := List.replicate 512 true, leafv := [] } : SerTree).wellFormed = false := by decide +kernel
/-- T31: first bit 0. -/
theorem test_wf_first : ({ shape := [false, true, true], leafv := [0x41] } : SerTree).wellFormed = false := by decide
/-- T39: the shape bits are exhausted. -/
theorem test_wf_exhausted : ({ shape := [true, true, true, true, true], leafv := [] } : SerTree).wellFormed = false := by decide
/-- T37: one shape bit left over. -/
theorem test_wf_left : ({ shape := [true, false, false, false], leafv := [0x78, 0x79, 0x7A] } : SerTree).wellFormed = false := by
  decide
/-- T35, T38: too few and too many leaf values. -/
theorem test_wf_few : ({ shape := [true, false, false], leafv := [0x78] } : SerTree).wellFormed = false := by decide
theorem test_wf_many : ({ shape := [true, false, false], leafv := [0x78, 0x79, 0x7A] } : SerTree).wellFormed = false := by
  decide
/-- T36: a leaf value twice. -/
theorem test_wf_twice : ({ shape := [true, false, false], leafv := [0x78, 0x78] } : SerTree).wellFormed = false := by decide
/-- What a host may not bind (R61, R65). -/
theorem test_wf_source : ({ data := [], pos := 1, len := 0, later := [] } : Source).wf = false := by decide
theorem test_wf_sink : ({ data := [], durable := 1 } : Sink).wf = false := by decide

/-! ### Decode: the code column of R91 written out bit by bit -/

theorem test_decode_clear : decodeWord 0b00000001 = some .clear := by decide
theorem test_decode_count : decodeWord 0b00000010 = some .count := by decide
theorem test_decode_build : decodeWord 0b00000011 = some .build := by decide
theorem test_decode_serialize : decodeWord 0b00000100 = some .serialize := by decide
theorem test_decode_deserialize : decodeWord 0b00000101 = some .deserialize := by decide
theorem test_decode_wrhdr : decodeWord 0b00000110 = some .wrhdr := by decide
theorem test_decode_rdhdr : decodeWord 0b00000111 = some .rdhdr := by decide
theorem test_decode_encode : decodeWord 0b00001000 = some .encode := by decide
theorem test_decode_decode : decodeWord 0b00001001 = some .decode := by decide
theorem test_decode_compress : decodeWord 0b00001010 = some .compress := by decide
theorem test_decode_decompress : decodeWord 0b00001011 = some .decompress := by decide
/-- T120, T121. -/
theorem test_decode_reserved : ([0x00, 0x0C, 0x80, 0xFF].map decodeWord) = [none, none, none, none] := by decide
theorem test_decode_bytes : decodeBytes [0x0A, 0x0B] = some (.compress, [0x0B]) := by decide
theorem test_table_word : decodeTableWord 8 0x0B = some .decompress ∧ decodeTableWord 8 0x0C = none := by decide
/-- The host's fetch of COMPRESS after reset: no Source is bound, so it fails with IoFailure (R275). -/
theorem test_fetch : result (fun t => t.status.toNat) (step (State.reset.withFetchWord 8 0x0A)) = some 0x0024 := by decide +kernel

/-! ### Commands -/

/-- T127. -/
theorem test_clear : result view (exec .clear (loaded [])) = some ([], some 0, 0x0002, 0) := by decide +kernel

/-- T41. -/
theorem test_count : result (fun t => ((view t).2, [0x20, 0x21, 0x61, 0x62, 0x63, 0x64].map fun v => (t.freq.read v).toNat,
    t.origLen.map BitVec.toNat)) (exec .count (bound [0x61, 0x62, 0x20, 0x61, 0x62, 0x20, 0x63, 0x61, 0x62, 0x21]))
    = some ((some 10, 0x0102, 0), [2, 1, 3, 3, 1, 0], some 10) := by decide +kernel
/-- T45: the third read is answered IoError (the first call is SrcLen). -/
theorem test_count_ioError : result (fun t => (t.status.toNat, (t.freq.read 0x61).toNat, (t.freq.read 0x62).toNat))
    (exec .count (withAnswers (bound [0x61, 0x62, 0x63]) [.ok, .ok, .ok, .ioError 0xE5]))
    = some (0x0024, 1, 1) := by decide +kernel

/-- T2: NODE[5], NODE[8], ROOT, the codes of '!' and 'b'. -/
theorem test_build : result (fun t => ([t.nodeAt 5, t.nodeAt 8], t.tree.map fun h =>
      [(h.root.toNat, 0), ((h.code.read 0x21).bits.toNat, (h.code.read 0x21).len.toNat),
        ((h.code.read 0x62).bits.toNat, (h.code.read 0x62).len.toNat)]))
    (exec .build { State.reset with
      freq := ((((zeroFreq.write 0x20 2).write 0x21 1).write 0x61 3).write 0x62 3).write 0x63 1 })
    = some ([some (.internal 2 1 4), some (.internal 10 6 7)],
        some [(8, 0), (2, 3), (3, 2)]) := by decide +kernel
/-- T11: first removed is the leaf of 'z', so z = 0 and a = 1. -/
theorem test_build_order : result (fun t => (t.nodeAt 2, t.tree.map fun h => (h.code.read 0x7A, h.code.read 0x61)))
    (exec .build { State.reset with freq := (zeroFreq.write 0x61 4).write 0x7A 1 })
    = some (some (.internal 5 1 0), some ({ bits := 0, len := 1 }, { bits := 1, len := 1 })) := by decide +kernel

/-- T21: the tree of T2. -/
theorem test_serialize : result (fun t => t.ser) (exec .serialize { State.reset with
      node := [some (.leaf 0x20 2), some (.leaf 0x21 1), some (.leaf 0x61 3), some (.leaf 0x62 3), some (.leaf 0x63 1),
        some (.internal 2 1 4), some (.internal 4 0 5), some (.internal 6 2 3), some (.internal 10 6 7)]
      tree := some { root := 8, code := xyCode } })
    = some (some { shape := [true, true, false, true, false, false, true, false, false]
                   leafv := [0x20, 0x21, 0x63, 0x61, 0x62] }) := by decide +kernel
/-- T122. -/
theorem test_serialize_noTree : result (fun t => t.status.toNat) (exec .serialize State.reset) = some 0x002C := by decide

/-- T21 rebuilt: NODE in pre-order, every frequency 0. -/
theorem test_deserialize : result (fun t => (t.node, t.tree.map fun h => (h.root.toNat, h.code.read 0x63)))
    (exec .deserialize { State.reset with
      ser := some { shape := [true, true, false, true, false, false, true, false, false]
                    leafv := [0x20, 0x21, 0x63, 0x61, 0x62] } })
    = some ([some (.internal 0 1 6), some (.internal 0 2 3), some (.leaf 0x20 0), some (.internal 0 4 5), some (.leaf 0x21 0),
        some (.leaf 0x63 0), some (.internal 0 7 8), some (.leaf 0x61 0), some (.leaf 0x62 0)],
        some (0, { bits := 3, len := 3 })) := by decide +kernel
/-- T36, duplicate leaf value: MalformedTree, SER_VALID stays. -/
theorem test_deserialize_twice : result (fun t => (t.status.toNat, t.node))
    (exec .deserialize { State.reset with ser := some { shape := [true, false, false], leafv := [0x78, 0x78] } })
    = some (0x0094, []) := by decide +kernel

/-- The header of T71 (R217's example), appended after what the Sink holds. -/
theorem test_wrhdr : result (fun t => (view t, t.sinkDurable)) (exec .wrhdr { State.reset with
      ser := some { shape := [true, true, false, true, false, false, true, false, false]
                    leafv := [0x20, 0x21, 0x63, 0x61, 0x62] }
      origLen := some 10, env.snk := .bound { data := [0xAA], durable := 0 } })
    = some (([0xAA, 0x00, 0x09, 0x4B, 0x00, 0x20, 0x21, 0x63, 0x61, 0x62, 0, 0, 0, 0, 0, 0, 0, 0x0A], none, 0x0182, 17), 18) := by
  decide +kernel
/-- T124. -/
theorem test_wrhdr_noSer : result view (exec .wrhdr { bound [] with origLen := some 0 })
    = some ([], some 0, 0x012C, 0) := by decide +kernel

/-- R220's example, with the padding bits of the shape byte set as in T92. -/
theorem test_rdhdr : result (fun t => ((view t).2, t.ser, t.origLen.map BitVec.toNat))
    (exec .rdhdr (bound [0x00, 0x03, 0xF9, 0x78, 0x79, 0, 0, 0, 0, 0, 0, 0, 0x02, 0x02]))
    = some ((some 13, 0x0182, 0), some xySer, some 2) := by decide +kernel
/-- T111: check H3, before any leaf byte. -/
theorem test_rdhdr_tooManyLeaves : result view (exec .rdhdr (bound ([0x01, 0xFF] ++ List.replicate 64 0x00)))
    = some ([], some 66, 0x0014, 0) := by decide +kernel

/-- T50. -/
theorem test_encode : result (fun t => (view t, t.sinkDurable)) (exec .encode (loaded [0x78, 0x79]))
    = some (([0x02], some 2, 0x01C2, 1), 1) := by decide +kernel
/-- T60: no code for 0x41. -/
theorem test_encode_noCode : result (fun t => (view t, t.sinkDurable)) (exec .encode (loaded [0x78, 0x41, 0x79]))
    = some (([], some 2, 0x01EC, 0), 0) := by decide +kernel

/-- T91's payload: padding bits all 1. -/
theorem test_decode : result view (exec .decode (loaded [0xFE])) = some ([0x78, 0x79], some 1, 0x01C2, 2) := by decide +kernel
/-- ORIG_LEN = 9 and one payload byte: eight symbols, then TruncatedStream (R202). -/
theorem test_decode_truncated : result view (exec .decode { loaded [0x02] with origLen := some 9 })
    = some ([0x78, 0x79, 0x78, 0x78, 0x78, 0x78, 0x78, 0x78], some 1, 0x01DC, 8) := by decide +kernel

/-- T71. -/
theorem test_compress : result view (exec .compress (bound [0x61, 0x62, 0x20, 0x61, 0x62, 0x20, 0x63, 0x61, 0x62, 0x21]))
    = some ([0x00, 0x09, 0x4B, 0x00, 0x20, 0x21, 0x63, 0x61, 0x62, 0, 0, 0, 0, 0, 0, 0, 0x0A, 0x4D, 0xE3, 0x16], some 10,
        0x0002, 20) := by decide +kernel
/-- T81. -/
theorem test_compress_oneSymbol : result view (exec .compress (bound [0x61, 0x61, 0x61, 0x61]))
    = some ([], some 4, 0x000C, 0) := by decide +kernel

/-- T96: original_length one too large, so two padding bits decode as ' '. -/
theorem test_decompress : result view (exec .decompress (bound
      [0x00, 0x09, 0x4B, 0x00, 0x20, 0x21, 0x63, 0x61, 0x62, 0, 0, 0, 0, 0, 0, 0, 0x0B, 0x4D, 0xE3, 0x16]))
    = some ([0x61, 0x62, 0x20, 0x61, 0x62, 0x20, 0x63, 0x61, 0x62, 0x21, 0x20], some 20, 0x0002, 11) := by decide +kernel
/-- T99. -/
theorem test_decompress_malformed : result view (exec .decompress (bound [0x00, 0x01, 0x00, 0x41, 0, 0, 0, 0, 0, 0, 0, 0x01, 0x00]))
    = some ([], some 12, 0x0014, 0) := by decide +kernel

/-- T120: a reserved code. -/
theorem test_reserved : result view (step (withEvents (loaded []) [.writeCmd 0x00])) = some ([], some 0, 0x01EC, 0) := by
  decide +kernel
/-- T128: a write while BUSY = 1. -/
theorem test_busy : step (withEvents hungOnSource [.writeCmd 0x01]) = .next hungOnSource := rfl

/-- P3: every failing line but the last says `; continue`, and a directive stands behind a failure. -/
theorem test_script_continue : result view (runScript [.source [0x61, 0x61, 0x61, 0x61], .sink, .run .count false,
      .run .build true, .run .serialize true, .run .encode true, .write 0x00 true, .rewind, .run .compress true,
      .run .clear false] State.reset) = some ([], some 4, 0x0002, 0) := by decide +kernel
/-- R94: without `; continue` the failing BUILD of P3 is the last line that runs. -/
theorem test_script_stops : result view (runScript [.source [0x61, 0x61, 0x61, 0x61], .sink, .run .count false,
      .run .build false, .run .clear false] State.reset) = some ([], some 4, 0x010C, 0) := by decide +kernel
/-- R94, R279: behind a command that hangs no line runs. -/
theorem test_script_hung : runScript [.run .clear false] hungOnSource = .next hungOnSource := rfl
/-- R64: closing the Sink removes no byte. -/
theorem test_closeSink : result State.sinkBytes (step (withEvents
      { loaded [] with env.snk := .bound { data := [0xAA], durable := 1 } } [.closeSink 7])) = some [0xAA] := by decide +kernel
/-- R67: chunks of up to two bytes. -/
theorem test_chunks : (Source.faithful [1, 2, 3]).chunks 2 = [[1, 2], [3]] := by decide
/-- R75: the map from addresses to registers is the host's. -/
theorem test_busWrite : busWrite (fun a => if a = 0x40 then some .cmd else none) 0x40 0x0A = some (.writeCmd 0x0A) := by decide

/-! ### Witnesses: states and operands that meet all hypotheses of a statement together -/

theorem loaded_inv : (loaded [0x78, 0x79]).Inv :=
  ⟨⟨by decide, by decide, by decide, rfl⟩, ⟨fun _ => ⟨xy, loaded_holds _⟩, fun h => by cases h⟩,
    fun t h => by cases h; decide, ⟨fun src h => by cases h; decide, fun snk h => by cases h; decide⟩,
    by rw [State.freqOk]; decide +kernel⟩

theorem loaded_serOk (bs : List Byte) : (loaded bs).serOk := fun t h => by cases h; decide

theorem bound_input (bs : List Byte) (h : bs.length < 2 ^ 64) : (bound bs).inputIs bs := ⟨rfl, h⟩

theorem witness_StepRunsDecodedCommand :
    (withEvents (loaded []) [.writeCmd 0x0B]).env.events = [.writeCmd 0x0B] ∧ (loaded []).ctl.busy = false
      ∧ decodeWord 0x0B = some .decompress := ⟨rfl, rfl, by decide⟩

/-- The reserved words next to the command codes, and the last one. -/
theorem witness_ReservedCodeFailsWithProtocolError :
    (∀ w ∈ [0x00, 0x0C, 0xFF], commandWordWf w = false) ∧ (loaded []).ctl.busy = false
      ∧ (withEvents (loaded []) [.writeCmd 0x00]).env.events = [.writeCmd 0x00] := ⟨by decide, rfl, rfl⟩

theorem witness_CommandWrittenWhileBusyIsIgnored :
    (withEvents hungOnSource [.writeCmd 0x01]).env.events = [.writeCmd 0x01]
      ∧ (withEvents hungOnSource [.writeCmd 0x01]).ctl.busy = true := ⟨rfl, rfl⟩

theorem witness_DecodeEncodeAgree : decodeWord 0x01 = some .clear ∧ decodeWord 0x0B = some .decompress := by decide

theorem witness_ResetEventKeepsStreams : (withEvents hungOnSource [.reset]).env.events = [.reset] := rfl

theorem witness_StreamMovesRefusedWhileBusy :
    ((withEvents hungOnSource [.rewindSource]).ctl.busy = true
      ∧ (withEvents hungOnSource [.rewindSource]).env.events = [.rewindSource]
      ∧ (withEvents hungOnSource [.seekSource 0]).env.events = [.seekSource 0]
      ∧ (withEvents hungOnSource [.bindSource (Source.faithful [])]).env.events = [.bindSource (Source.faithful [])]
      ∧ (withEvents hungOnSource [.bindSink noBytes]).env.events = [.bindSink noBytes])
    ∧ ((withEvents (loaded [0x78]) [.rewindSource]).ctl.busy = false
      ∧ (Source.faithful [0x78]).wf = true ∧ ({ Source.faithful [0x78] with pos := 2 } : Source).wf = false
      ∧ noBytes.wf = true ∧ ({ data := [], durable := 1 } : Sink).wf = false
      ∧ (withEvents (loaded [0x78]) [.rewindSource]).env.src = .bound (Source.faithful [0x78])
      ∧ 1 ≤ (Source.faithful [0x78]).data.length ∧ (Source.faithful [0x78]).data.length < 2
      ∧ (withEvents State.reset [.rewindSource]).env.src = .unbound IoErr.zero none) :=
  ⟨⟨rfl, rfl, rfl, rfl, rfl⟩, rfl, by decide, by decide, by decide, by decide, rfl, by decide, by decide, rfl⟩

theorem witness_ClosingTheStreamAborts :
    ((withEvents hungOnSource [.closeSource 7]).ctl.busy = true
      ∧ (withEvents hungOnSource [.closeSource 7]).env.events = [.closeSource 7] ∧ hungOnSource.ctl.waiting = some .source)
    ∧ ((withEvents hungOnSink [.closeSink 7]).ctl.busy = true
      ∧ (withEvents hungOnSink [.closeSink 7]).env.events = [.closeSink 7] ∧ hungOnSink.ctl.waiting = some .sink) :=
  ⟨⟨rfl, rfl, rfl⟩, rfl, rfl, rfl⟩

/-- A first read that does not return, for COUNT, RDHDR, COMPRESS, DECOMPRESS, ENCODE and DECODE; the first append of WRHDR
and the flush after the last of its 13; and two steps of a hung HCC: one that leaves it hung, and one that ends it. -/
theorem witness_HungStaysBusy :
    ((withAnswers (loaded [0x78]) [.never]).env.src = .bound (Source.faithful [0x78])
      ∧ (withAnswers (loaded [0x78]) [.never]).env.answers = .never :: []
      ∧ (withAnswers (loaded [0x78]) [.never]).tree.isSome = true ∧ (withAnswers (loaded [0x78]) [.never]).holdsTree xy
      ∧ (withAnswers (loaded [0x78]) [.never]).origLen = some 2 ∧ (2 : Word64) ≠ 0)
    ∧ ((withAnswers (loaded []) [.never]).ser = some xySer ∧ (withAnswers (loaded []) [.never]).env.snk = .bound noBytes
      ∧ (withAnswers (loaded []) [.never]).env.answers = List.replicate 0 .ok ++ .never :: [] ∧ 13 ≤ (headerBytes xySer 2).length
      ∧ (withAnswers (loaded []) (List.replicate 13 .ok ++ [.never])).env.answers = List.replicate 13 .ok ++ .never :: [])
    ∧ (result (fun t => t.ctl.busy) (exec .wrhdr (withAnswers (loaded []) [.never])) = some true
      ∧ result (fun t => t.ctl.busy) (exec .wrhdr (loaded [])) = some false)
    ∧ (withEvents hungOnSource [.decideAnswers []]).ctl.busy = true
      ∧ result (fun t => t.ctl.busy) (step (withEvents hungOnSource [.decideAnswers []])) = some true
      ∧ result (fun t => t.ctl.busy) (step (withEvents hungOnSource [.closeSource 7])) = some false :=
  ⟨⟨rfl, rfl, rfl, loaded_holds [], rfl, by decide⟩, ⟨rfl, rfl, rfl, by decide +kernel, rfl⟩,
    ⟨by decide +kernel, by decide +kernel⟩, rfl, by decide +kernel, by decide +kernel⟩

/-- The three outcomes of STATUS. -/
theorem witness_StatusFields :
    State.reset.ctl.outcome = .none ∧ result (fun t => t.ctl.outcome) (exec .clear State.reset) = some .success
      ∧ result (fun t => t.ctl.outcome) (exec .serialize State.reset) = some (.failure .protocolError) := by decide +kernel

/-- Idle and busy, the flags cleared, and an address with no register and one with one. -/
theorem witness_HostReads :
    (loaded []).ctl.busy = false ∧ hungOnSource.ctl.busy = true ∧ HostReg.cmd ≠ .status ∧ State.reset.origLen = none
      ∧ State.reset.ser = none ∧ State.reset.tree = none ∧ ((fun _ => none) : RegMap) 0 = none
      ∧ ((fun _ => some .cmd) : RegMap) 0 = some .cmd := ⟨rfl, rfl, by decide, rfl, rfl, rfl, rfl, rfl⟩

/-- The flags set, with the last entry of each table that holds a value and the first that holds none. -/
theorem witness_HostReads_valid :
    (loaded []).origLen = some 2 ∧ (loaded []).ser = some xySer ∧ 2 < xySer.shape.length ∧ xySer.shape.length ≤ 3
      ∧ 1 < xySer.leafv.length ∧ xySer.leafv.length ≤ 2 ∧ (loaded []).tree = some { root := 2, code := xyCode }
      ∧ (loaded []).nodeAt 2 = some (.internal 2 0 1) ∧ (loaded []).nodeAt 3 = none :=
  ⟨rfl, rfl, by decide, by decide, by decide, by decide, rfl, rfl, rfl⟩

/-- A Source whose length is SrcLen(), and one (T46) whose position makes it differ; the least K; pieces, an empty one
among them. -/
theorem witness_CountCountsTheSource :
    (bound [0x61, 0x62]).env.src = .bound (Source.faithful [0x61, 0x62]) ∧ (bound [0x61, 0x62]).quiet ∧ 1 ≤ 1
      ∧ [[(0x61 : Byte)], [], [0x62]].flatten = (Source.faithful [0x61, 0x62]).rest
      ∧ BitVec.ofNat 64 (Source.faithful [0x61, 0x62]).rest.length = (Source.faithful [0x61, 0x62]).len
      ∧ BitVec.ofNat 64 ((Source.faithful [0x61, 0x62]).advance 1).rest.length ≠ ((Source.faithful [0x61, 0x62]).advance 1).len :=
  ⟨rfl, rfl, Nat.le_refl 1, rfl, by decide, by decide⟩

/-- Two members of equal freq: the lower index leaves first. -/
theorem witness_HeapExtractsTheLeastKey :
    ({ loaded [] with heap := [1, 0] } : State).heapExtractMin = some (0, { loaded [] with heap := [1] }) := rfl

theorem witness_BuildMakesATree : 2 ≤ (presentBytes (loaded []).freq).length := by decide +kernel

/-- Two byte values of equal frequency, and two (T11) of which the second is rarer. -/
theorem witness_BuildMakesATree_corner :
    (presentBytes (loaded []).freq = [0x78, 0x79] ∧ (loaded []).freq.read 0x78 ≤ (loaded []).freq.read 0x79)
      ∧ presentBytes ((zeroFreq.write 0x61 4).write 0x7A 1) = [0x61, 0x7A]
      ∧ ((zeroFreq.write 0x61 4).write 0x7A 1).read 0x7A < ((zeroFreq.write 0x61 4).write 0x7A 1).read 0x61 := by
  decide +kernel

/-- One byte value present. -/
theorem witness_BuildNeedsTwoByteValues : (presentBytes (zeroFreq.write 0x61 4)).length < 2 := by decide +kernel

theorem build_loaded (bs : List Byte) : ∃ t tr, exec .build (loaded bs) = .next t ∧ t.holdsTree tr := by
  obtain ⟨u, tr, _, _, _, _, hu, ht, _, _, _, _, _, e⟩ :=
    procBuild_ok ((loaded bs).begin (some .build)) witness_BuildMakesATree
  refine ⟨_, tr, ?_, holdsTree_congr (u := u.settle .success) ht rfl rfl⟩
  rw [exec_eq]
  exact command_of_ok hu (by rw [e]; rfl) rfl

theorem witness_BuildDependsOnFreqOnly :
    (loaded [0x41]).freq = (loaded []).freq ∧ (∃ t, exec .build (loaded [0x41]) = .next t)
      ∧ ∃ t, exec .build (loaded []) = .next t :=
  ⟨rfl, (build_loaded _).imp fun _ h => h.choose_spec.1, (build_loaded _).imp fun _ h => h.choose_spec.1⟩

/-- The tree BUILD makes of "xy", against the mirrored tree. -/
theorem witness_BuiltTreeIsOptimal :
    (loaded []).freqOk ∧ 2 ≤ (presentBytes (loaded []).freq).length
      ∧ (∃ t tr, exec .build (loaded []) = .next t ∧ t.holdsTree tr)
      ∧ (HTree.node (.leaf 0x79) (.leaf 0x78)).leaves.Nodup
      ∧ (HTree.node (.leaf 0x79) (.leaf 0x78)).leaves.Perm (presentBytes (loaded []).freq) := by
  exact ⟨loaded_inv.2.2.2.2, witness_BuildMakesATree, build_loaded [], by decide, by decide +kernel⟩

theorem witness_CodesAreThePaths :
    (loaded []).holdsTree xy ∧ (loaded []).tree = some { root := 2, code := xyCode } ∧ (0x78 : Byte) ∈ xy.leaves
      ∧ (0x7A : Byte) ∉ xy.leaves := ⟨loaded_holds [], rfl, by decide, by decide⟩

theorem witness_CodesArePrefixFree :
    (loaded []).holdsTree xy ∧ (loaded []).tree = some { root := 2, code := xyCode } ∧ (0x78 : Byte) ∈ xy.leaves
      ∧ (0x79 : Byte) ∈ xy.leaves ∧ (0x78 : Byte) ≠ 0x79 := ⟨loaded_holds [], rfl, by decide, by decide, by decide⟩

theorem witness_SerializeWritesTheTree : (loaded []).holdsTree xy := loaded_holds []

/-- A well-formed triple, and T36, which is not. -/
theorem witness_DeserializeAcceptsExactlyTheWellFormed :
    (loaded []).ser = some xySer ∧ xySer.wellFormed = true
      ∧ ({ shape := [true, false, false], leafv := [0x78, 0x78] } : SerTree).wellFormed = false := by decide

theorem witness_TreeRoundTrip :
    ((loaded []).holdsTree xy ∧ (loaded []).tree = some { root := 2, code := xyCode })
      ∧ (loaded []).ser = some xySer ∧ xySer.wellFormed = true := ⟨⟨loaded_holds [], rfl⟩, rfl, by decide⟩

/-- The last bit of a byte and the first padding bit after it. -/
theorem witness_PackedBitsUnpack : 7 < (List.replicate 8 true).length ∧ (List.replicate 8 true).length ≤ 8 := by decide

theorem witness_EncodeAppendsThePackedCodes :
    (loaded [0x78, 0x79]).holdsTree xy ∧ (loaded [0x78, 0x79]).tree = some { root := 2, code := xyCode }
      ∧ (loaded [0x78, 0x79]).env.src = .bound (Source.faithful [0x78, 0x79]) ∧ (loaded [0x78, 0x79]).env.snk = .bound noBytes
      ∧ (loaded [0x78, 0x79]).quiet ∧ ∀ x ∈ (Source.faithful [0x78, 0x79]).rest, x ∈ xy.leaves :=
  ⟨loaded_holds _, rfl, rfl, rfl, rfl, by decide⟩

/-- T60: the first byte has a code, the second has none. -/
theorem witness_EncodeStopsAtAnUncodedByte :
    (loaded [0x78, 0x41, 0x79]).holdsTree xy ∧ (loaded [0x78, 0x41, 0x79]).tree = some { root := 2, code := xyCode }
      ∧ (loaded [0x78, 0x41, 0x79]).env.src = .bound (Source.faithful [0x78, 0x41, 0x79])
      ∧ (loaded [0x78, 0x41, 0x79]).env.snk = .bound noBytes ∧ (loaded [0x78, 0x41, 0x79]).quiet
      ∧ (Source.faithful [0x78, 0x41, 0x79]).rest = [0x78] ++ 0x41 :: [0x79] ∧ (∀ y ∈ [(0x78 : Byte)], y ∈ xy.leaves)
      ∧ (0x41 : Byte) ∉ xy.leaves := ⟨loaded_holds _, rfl, rfl, rfl, rfl, rfl, by decide, by decide⟩

/-- A decoder at the root with one byte loaded: bit 0 goes to a leaf. -/
def atRoot : State := { loaded [] with dec := { cur := 2, dstate := .atRoot, inByte := 0xFE, inPos := 0 } }

/-- A decoder at the root of the tree of "aabc" (T3), whose right child is Internal, at the last bit of its byte. -/
def atRootDeep : State :=
  { atRoot with
    node := [some (.leaf 0x61 2), some (.leaf 0x62 1), some (.leaf 0x63 1), some (.internal 2 1 2), some (.internal 4 0 3)]
    dec := { cur := 4, dstate := .atRoot, inByte := 0xFE, inPos := 7 } }

theorem witness_DecodeStepMovesToAChild :
    (atRoot.nodeAt atRoot.dec.cur = some (.internal 2 0 1) ∧ atRoot.dec.inPos ≠ 8
      ∧ atRoot.dec.inByte.getLsbD atRoot.dec.inPos = false ∧ atRoot.nodeAt 0 = some (.leaf 0x78 1)
      ∧ atRoot.env.snk = .bound noBytes ∧ atRoot.quiet)
    ∧ atRootDeep.nodeAt atRootDeep.dec.cur = some (.internal 4 0 3) ∧ atRootDeep.dec.inPos ≠ 8
      ∧ atRootDeep.dec.inByte.getLsbD atRootDeep.dec.inPos = true ∧ atRootDeep.nodeAt 3 = some (.internal 2 1 2)
      ∧ atRootDeep.env.snk = .bound noBytes ∧ atRootDeep.quiet :=
  ⟨⟨rfl, by decide, by decide, rfl, rfl, rfl⟩, rfl, by decide, by decide, rfl, rfl, rfl⟩

theorem witness_DecodeNeverRaisesMalformedTreeWithAValidTree :
    (loaded [0xFE]).holdsTree xy ∧ result (fun t => t.ctl.busy) (exec .decode (loaded [0xFE])) = some false :=
  ⟨loaded_holds _, by decide +kernel⟩

theorem witness_DecodeInvertsTheCodes :
    (loaded [0xFE]).holdsTree xy ∧ (loaded [0xFE]).tree = some { root := 2, code := xyCode }
      ∧ (loaded [0xFE]).env.src = .bound (Source.faithful [0xFE]) ∧ (loaded [0xFE]).env.snk = .bound noBytes
      ∧ (loaded [0xFE]).quiet ∧ [(0x78 : Byte), 0x79].length < 2 ^ 64
      ∧ (loaded [0xFE]).origLen = some (BitVec.ofNat 64 [(0x78 : Byte), 0x79].length)
      ∧ (∀ x ∈ [(0x78 : Byte), 0x79], x ∈ xy.leaves)
      ∧ streamBits xyCode [0x78, 0x79] <+: allBits (Source.faithful [0xFE]).rest :=
  ⟨loaded_holds _, rfl, rfl, rfl, rfl, by decide, rfl, by decide, by decide +kernel⟩

/-- No payload at all, and two bytes asked for. -/
theorem witness_DecodeOfAShortPayloadIsTruncated :
    (loaded []).holdsTree xy ∧ (loaded []).tree = some { root := 2, code := xyCode }
      ∧ (loaded []).env.src = .bound (Source.faithful []) ∧ (loaded []).env.snk = .bound noBytes ∧ (loaded []).quiet
      ∧ (loaded []).origLen = some 2 ∧ ([] : List Byte).length < (2 : Word64).toNat
      ∧ (∀ x ∈ ([] : List Byte), x ∈ xy.leaves) ∧ allBits (Source.faithful []).rest = streamBits xyCode [] ++ []
      ∧ ∀ v ∈ xy.leaves, ¬ (xyCode.read v).emission <+: [] :=
  ⟨loaded_holds _, rfl, rfl, rfl, rfl, rfl, by decide, by decide, rfl, by decide +kernel⟩

theorem witness_WriteHeaderAppendsTheHeader :
    (loaded []).ser = some xySer ∧ (loaded []).origLen = some 2 ∧ (loaded []).env.snk = .bound noBytes ∧ (loaded []).quiet :=
  ⟨rfl, rfl, rfl, rfl⟩

/-- The first append, and the flush after the last of the 13. -/
theorem witness_WriteHeaderStopsAtASinkError :
    (withAnswers (loaded []) [.ioError 7]).ser = some xySer ∧ (withAnswers (loaded []) [.ioError 7]).origLen = some 2
      ∧ (withAnswers (loaded []) [.ioError 7]).env.snk = .bound noBytes ∧ 0 ≤ (headerBytes xySer 2).length
      ∧ (withAnswers (loaded []) [.ioError 7]).env.answers = List.replicate 0 .ok ++ .ioError 7 :: []
      ∧ 13 ≤ (headerBytes xySer 2).length
      ∧ (withAnswers (loaded []) (List.replicate 13 .ok ++ [.ioError 7])).env.answers = List.replicate 13 .ok ++ .ioError 7 :: [] :=
  ⟨rfl, rfl, rfl, by decide +kernel, rfl, by decide +kernel, rfl⟩

/-- The header of T70, and a header with node_count 0. -/
theorem witness_ReadHeaderTakesTheHeader :
    ((Source.faithful [0x00, 0x03, 0x01, 0x78, 0x79, 0, 0, 0, 0, 0, 0, 0, 0x02, 0x02]).rest
        = be16 3 ++ [0x01] ++ [0x78, 0x79] ++ be64 2 ++ [0x02]
      ∧ (3 : BitVec 16).toNat ≤ 511 ∧ [(0x01 : Byte)].length = ((3 : BitVec 16).toNat + 7) / 8
      ∧ [(0x78 : Byte), 0x79].length = (unpackBits (3 : BitVec 16).toNat [0x01]).count false ∧ [(0x78 : Byte), 0x79].length ≤ 256)
    ∧ (bound [0x00, 0x03]).env.src = .bound (Source.faithful [0x00, 0x03]) ∧ (bound [0x00, 0x03]).quiet
    ∧ (Source.faithful [0, 0, 0, 0, 0, 0, 0, 0, 0, 0]).rest = be16 0 ++ [] ++ [] ++ be64 0 ++ []
      ∧ ([] : List Byte).length = (unpackBits (0 : BitVec 16).toNat []).count false :=
  ⟨by decide, rfl, rfl, by decide, by decide⟩

/-- The least node count above 511 (T105), and a Source of one byte and of none (T110). -/
theorem witness_ReadHeaderRefusesABadNodeCount :
    (bound [0x02, 0x00]).env.src = .bound (Source.faithful [0x02, 0x00]) ∧ (bound [0x02, 0x00]).quiet
      ∧ (Source.faithful [0x02, 0x00]).rest = be16 512 ++ [] ∧ 511 < (512 : BitVec 16).toNat
      ∧ (Source.faithful [0x00]).rest.length < 2 ∧ (Source.faithful []).rest.length < 2 :=
  ⟨rfl, rfl, by decide, by decide, by decide, by decide⟩

/-- Checks H2 to H5: no shape byte; 257 zero bits in 257 (and 511 nodes); one leaf byte of two; seven length bytes. -/
theorem witness_ReadHeaderRefusesABadNodeCount_fields :
    ((Source.faithful [0x00, 0x03]).rest = be16 3 ++ [] ∧ (3 : BitVec 16).toNat ≤ 511
      ∧ ([] : List Byte).length < ((3 : BitVec 16).toNat + 7) / 8)
    ∧ ((Source.faithful ([0x01, 0x01] ++ List.replicate 33 0)).rest = be16 257 ++ List.replicate 33 0 ++ []
      ∧ (List.replicate 33 (0 : Byte)).length = ((257 : BitVec 16).toNat + 7) / 8
      ∧ 256 < (unpackBits (257 : BitVec 16).toNat (List.replicate 33 0)).count false ∧ (511 : BitVec 16).toNat ≤ 511)
    ∧ ((Source.faithful [0x00, 0x03, 0x01, 0x78]).rest = be16 3 ++ [0x01] ++ [0x78]
      ∧ [(0x01 : Byte)].length = ((3 : BitVec 16).toNat + 7) / 8 ∧ (unpackBits (3 : BitVec 16).toNat [0x01]).count false ≤ 256
      ∧ [(0x78 : Byte)].length < (unpackBits (3 : BitVec 16).toNat [0x01]).count false)
    ∧ (Source.faithful [0x00, 0x03, 0x01, 0x78, 0x79, 0, 0, 0, 0, 0, 0, 0]).rest
        = be16 3 ++ [0x01] ++ [0x78, 0x79] ++ List.replicate 7 0
      ∧ [(0x78 : Byte), 0x79].length = (unpackBits (3 : BitVec 16).toNat [0x01]).count false
      ∧ (List.replicate 7 (0 : Byte)).length < 8 := by decide +kernel

theorem witness_HeaderRoundTrip :
    (loaded []).serOk ∧ (loaded []).ser = some xySer ∧ (loaded []).origLen = some 2 ∧ (loaded []).env.snk = .bound noBytes
      ∧ noBytes.data = [] ∧ (loaded []).quiet
      ∧ (bound [0x00, 0x03, 0x01, 0x78, 0x79, 0, 0, 0, 0, 0, 0, 0, 0x02]).quiet
      ∧ result State.sinkBytes (exec .wrhdr (loaded [])) = some [0x00, 0x03, 0x01, 0x78, 0x79, 0, 0, 0, 0, 0, 0, 0, 0x02]
      ∧ (bound [0x00, 0x03, 0x01, 0x78, 0x79, 0, 0, 0, 0, 0, 0, 0, 0x02]).env.src
          = .bound (Source.faithful ([0x00, 0x03, 0x01, 0x78, 0x79, 0, 0, 0, 0, 0, 0, 0, 0x02] ++ [])) :=
  ⟨loaded_serOk [], rfl, rfl, rfl, rfl, rfl, rfl, by decide +kernel, rfl⟩

theorem witness_CompressWritesTheFile :
    (bound [0x78, 0x79]).inputIs [0x78, 0x79] ∧ (bound [0x78, 0x79]).env.snk = .bound noBytes ∧ (bound [0x78, 0x79]).quiet
      ∧ 2 ≤ [(0x78 : Byte), 0x79].dedup.length := ⟨bound_input _ (by decide), rfl, rfl, by decide⟩

/-- A Source that holds "xy" in its first pass and `bs` in its second. -/
def xyThen (bs : List Byte) : Source := { Source.faithful [0x78, 0x79] with later := [bs] }

/-- Second passes with a byte that has no code, one byte short, and of the same length. -/
theorem witness_CompressWritesTheFile_passes :
    ({ bound [] with env.src := .bound (xyThen [0x78]), env.events := [] } : State).env.src = .bound (xyThen [0x78])
      ∧ (xyThen [0x78]).rest.length < 2 ^ 64 ∧ (xyThen [0x78]).len = BitVec.ofNat 64 (xyThen [0x78]).rest.length
      ∧ 2 ≤ (xyThen [0x78]).rest.dedup.length
      ∧ ((xyThen [0x78, 0x41]).rewind.rest = [0x78] ++ 0x41 :: [] ∧ (∀ y ∈ [(0x78 : Byte)], y ∈ (xyThen [0x78, 0x41]).rest)
        ∧ (0x41 : Byte) ∉ (xyThen [0x78, 0x41]).rest)
      ∧ ((∀ y ∈ (xyThen [0x78]).rewind.rest, y ∈ (xyThen [0x78]).rest)
        ∧ BitVec.ofNat 64 (xyThen [0x78]).rewind.rest.length ≠ (xyThen [0x78]).len)
      ∧ (∀ y ∈ (xyThen [0x79, 0x78]).rewind.rest, y ∈ (xyThen [0x79, 0x78]).rest)
        ∧ BitVec.ofNat 64 (xyThen [0x79, 0x78]).rewind.rest.length = (xyThen [0x79, 0x78]).len :=
  ⟨rfl, by decide, by decide, by decide, by decide, by decide, by decide, by decide⟩

/-- The empty input (T80) and one byte value (T81); a first pass one byte short of SrcLen(). -/
theorem witness_CompressNeedsTwoByteValues :
    ((bound []).inputIs [] ∧ (bound []).quiet ∧ ([] : List Byte).dedup.length < 2
      ∧ (bound [0x61, 0x61]).inputIs [0x61, 0x61] ∧ [(0x61 : Byte), 0x61].dedup.length < 2)
    ∧ BitVec.ofNat 64 ((Source.faithful [0x61, 0x62]).advance 1).rest.length ≠ ((Source.faithful [0x61, 0x62]).advance 1).len :=
  ⟨⟨bound_input _ (by decide), rfl, by decide, bound_input _ (by decide), by decide⟩, by decide⟩

/-- The file of T91, with padding bits 1. -/
theorem witness_DecompressReadsTheFile :
    (bound [0x00, 0x03, 0x01, 0x78, 0x79, 0, 0, 0, 0, 0, 0, 0, 0x02, 0xFE]).env.src
        = .bound (Source.faithful [0x00, 0x03, 0x01, 0x78, 0x79, 0, 0, 0, 0, 0, 0, 0, 0x02, 0xFE])
      ∧ (bound [0x00, 0x03, 0x01, 0x78, 0x79, 0, 0, 0, 0, 0, 0, 0, 0x02, 0xFE]).env.snk = .bound noBytes
      ∧ (bound [0x00, 0x03, 0x01, 0x78, 0x79, 0, 0, 0, 0, 0, 0, 0, 0x02, 0xFE]).quiet
      ∧ xy.isInternal = true ∧ xy.leaves.Nodup ∧ [(0x78 : Byte), 0x79].length < 2 ^ 64 ∧ (∀ x ∈ [(0x78 : Byte), 0x79], x ∈ xy.leaves)
      ∧ streamBits xy.codeTable [0x78, 0x79] <+: allBits [0xFE]
      ∧ (Source.faithful [0x00, 0x03, 0x01, 0x78, 0x79, 0, 0, 0, 0, 0, 0, 0, 0x02, 0xFE]).rest
        = headerBytes { shape := xy.shape, leafv := xy.leaves } (BitVec.ofNat 64 [(0x78 : Byte), 0x79].length) ++ [0xFE] :=
  ⟨rfl, rfl, rfl, rfl, by decide, by decide, by decide, by decide +kernel, by decide +kernel⟩

theorem witness_CompressDecompressRoundTrip :
    (bound [0x78, 0x79]).inputIs [0x78, 0x79] ∧ 2 ≤ [(0x78 : Byte), 0x79].dedup.length ∧ (bound [0x78, 0x79]).quiet
      ∧ (bound [0x78, 0x79]).env.snk = .bound noBytes
      ∧ result State.sinkBytes (exec .compress (bound [0x78, 0x79]))
        = some ([] ++ [0x00, 0x03, 0x01, 0x78, 0x79, 0, 0, 0, 0, 0, 0, 0, 0x02, 0x02])
      ∧ (bound [0x00, 0x03, 0x01, 0x78, 0x79, 0, 0, 0, 0, 0, 0, 0, 0x02, 0x02]).env.src
        = .bound (Source.faithful [0x00, 0x03, 0x01, 0x78, 0x79, 0, 0, 0, 0, 0, 0, 0, 0x02, 0x02])
      ∧ (bound [0x00, 0x03, 0x01, 0x78, 0x79, 0, 0, 0, 0, 0, 0, 0, 0x02, 0x02]).quiet
      ∧ (bound [0x00, 0x03, 0x01, 0x78, 0x79, 0, 0, 0, 0, 0, 0, 0, 0x02, 0x02]).env.snk = .bound noBytes :=
  ⟨bound_input _ (by decide), by decide, rfl, rfl, by decide +kernel, rfl, rfl, rfl⟩

/-- An input COMPRESS succeeds on, one it fails on, and a Source that changes between the passes. -/
theorem witness_CompressEqualsItsUnitCommands :
    ((bound [0x78, 0x79]).ctl.busy = false ∧ (bound [0x78, 0x79]).inputIs [0x78, 0x79] ∧ (bound [0x78, 0x79]).env.snk = .bound noBytes
      ∧ (bound [0x78, 0x79]).quiet ∧ (bound []).inputIs []) ∧ (xyThen [0x78]).wf = true :=
  ⟨⟨rfl, bound_input _ (by decide), rfl, rfl, bound_input _ (by decide)⟩, by decide⟩

theorem witness_DecompressEqualsItsUnitCommands :
    (bound [0x00]).ctl.busy = false ∧ Answer.never ∉ (withAnswers (bound [0x00]) [.ok, .ioError 7]).env.answers := by decide

theorem witness_PreconditionFailureChangesNothing :
    State.reset.tree = none ∧ State.reset.ser = none ∧ State.reset.origLen = none
      ∧ ({ loaded [] with origLen := none } : State).origLen = none := ⟨rfl, rfl, rfl, rfl⟩

theorem witness_EachCommandRaisesOnlyItsFailures :
    result (fun t => (t.ctl.busy, t.ctl.outcome)) (exec .serialize State.reset) = some (false, .failure .protocolError) := by decide

/-- A first call answered IoError, with what the commands that read the Source and those that write the Sink ask for. -/
theorem witness_IoErrorOnTheFirstReadFails :
    (withAnswers (loaded []) [.ioError 7]).env.answers = .ioError 7 :: []
      ∧ (withAnswers (loaded []) [.ioError 7]).env.src = .bound (Source.faithful [])
      ∧ (withAnswers (loaded []) [.ioError 7]).env.snk = .bound noBytes
      ∧ (withAnswers (loaded []) [.ioError 7]).tree.isSome = true ∧ (withAnswers (loaded []) [.ioError 7]).holdsTree xy
      ∧ (withAnswers (loaded []) [.ioError 7]).origLen = some 2 ∧ (2 : Word64) ≠ 0
      ∧ (withAnswers (loaded []) [.ioError 7]).ser.isSome = true
      ∧ ({ withAnswers (loaded []) [.ioError 7] with origLen := some 0 } : State).origLen = some 0 :=
  ⟨rfl, rfl, rfl, rfl, loaded_holds [], rfl, by decide, rfl, rfl⟩

/-- No stream bound, with the tree of "xy" held: two bytes to decode, and none. -/
theorem witness_IoErrorOnTheFirstReadFails_unbound :
    (({ loaded [] with env := Env.atReset } : State).env.src = .unbound IoErr.zero none
      ∧ ({ loaded [] with env := Env.atReset } : State).tree.isSome = true
      ∧ ({ loaded [] with env := Env.atReset } : State).holdsTree xy
      ∧ ({ loaded [] with env := Env.atReset } : State).origLen = some 2 ∧ (2 : Word64) ≠ 0)
    ∧ ({ loaded [] with env := Env.atReset } : State).env.snk = .unbound IoErr.zero none
      ∧ ({ loaded [] with env := Env.atReset } : State).ser.isSome = true
      ∧ ({ loaded [] with env := Env.atReset } : State).origLen.isSome = true
      ∧ ({ loaded [] with env := Env.atReset, origLen := some 0 } : State).origLen = some 0 :=
  ⟨⟨rfl, rfl, loaded_holds [], rfl, by decide⟩, rfl, rfl, rfl, rfl⟩

/-- A command that fails with IoFailure and one that does not. -/
theorem witness_IoErrHoldsTheLastError :
    result (fun t => (t.ctl.busy, t.ctl.outcome)) (exec .wrhdr (withAnswers (loaded []) [.ioError 7]))
        = some (false, .failure .ioFailure)
      ∧ result (fun t => (t.ctl.busy, t.ctl.outcome)) (exec .wrhdr (loaded [])) = some (false, .success) := by decide +kernel

/-- R66, R244: an IoError at the second read of ENCODE, and at the append of DECODE, ends the command; no later answer is
used up. -/
theorem witness_IoErrHoldsTheLastError_later :
    result (fun t => (t.ctl.outcome, t.env.answers.length)) (exec .encode (withAnswers (loaded [0x78, 0x79]) [.ok, .ioError 7, .ok]))
        = some (.failure .ioFailure, 1)
      ∧ result (fun t => (t.ctl.outcome, t.env.answers.length)) (exec .decode (withAnswers (loaded [0xFE]) [.ok, .ioError 7, .ok]))
        = some (.failure .ioFailure, 1) := by decide +kernel

theorem witness_WholeFileCommandsLeaveNothingValid :
    result (fun t => t.ctl.busy) (exec .compress (withAnswers (loaded []) [.ioError 7])) = some false
      ∧ result (fun t => t.ctl.busy) (exec .decompress (loaded [])) = some false := by decide +kernel

theorem witness_SinkIsAppendOnly : result State.sinkBytes (exec .encode (loaded [0x78, 0x79])) = some [0x02]
    ∧ result State.sinkBytes (step (withEvents (loaded []) [.closeSink 7])) = some []
    ∧ ∀ snk, Event.closeSink 7 ≠ .bindSink snk :=
  ⟨by decide +kernel, by decide +kernel, fun _ h => by cases h⟩

theorem witness_RcountIsTheNumberOfBytesAppended :
    result (fun t => (t.ctl.busy, t.ctl.rcount.toNat)) (exec .encode (loaded [0x78, 0x79])) = some (false, 1) := by decide +kernel

/-- Success of a command that writes the Sink, a failure of one, and a command that does not write it. -/
theorem witness_FlushedExactlyOnSuccess :
    (result (fun t => (t.ctl.busy, t.ctl.outcome)) (exec .encode (loaded [0x78, 0x79])) = some (false, .success)
      ∧ writesSink .encode = true)
    ∧ result (fun t => (t.ctl.busy, t.ctl.outcome)) (exec .encode State.reset) = some (false, .failure .protocolError)
    ∧ result (fun t => t.ctl.busy) (exec .clear (loaded [])) = some false ∧ writesSink .clear = false := by decide +kernel

theorem witness_BytesAreTakenInOrder :
    Instr.decode ≠ .compress ∧ (loaded [0xFE]).env.src = .bound (Source.faithful [0xFE])
      ∧ result (fun t => t.ctl.inCount.toNat) (exec .decode (loaded [0xFE])) = some 1 := by decide +kernel

theorem witness_FrameOfRegisterCommands :
    (∃ t, exec .build (loaded []) = .next t) ∧ result (fun _ => true) (exec .serialize (loaded [])) = some true
      ∧ result (fun _ => true) (exec .deserialize (loaded [])) = some true :=
  ⟨(build_loaded _).imp fun _ h => h.choose_spec.1, by decide +kernel, by decide +kernel⟩

theorem witness_FrameOfCountAndHeaderCommands :
    (result (fun _ => true) (exec .count (loaded [])) = some true ∧ result (fun _ => true) (exec .rdhdr (loaded [])) = some true)
      ∧ result (fun _ => true) (exec .wrhdr (loaded [])) = some true := by decide +kernel

theorem witness_FrameOfEncodeAndDecode :
    result (fun _ => true) (exec .encode (loaded [])) = some true
      ∧ result (fun _ => true) (exec .decode (loaded [])) = some true := by decide +kernel

theorem witness_FrameOfWholeFileCommands :
    result (fun _ => true) (exec .compress (withAnswers (loaded []) [.ioError 7])) = some true
      ∧ result (fun _ => true) (exec .decompress (loaded [])) = some true := by decide +kernel

theorem witness_StepKeepsControlInvariant :
    (withEvents (loaded [0x78, 0x79]) [.writeCmd 0x08]).controlOk
      ∧ result (fun t => t.ctl.outcome) (step (withEvents (loaded [0x78, 0x79]) [.writeCmd 0x08])) = some .success :=
  ⟨loaded_inv.1, by decide +kernel⟩

theorem witness_StepKeepsInvariant :
    (withEvents (loaded [0x78, 0x79]) [.writeCmd 0x08]).Inv
      ∧ result (fun t => t.ctl.outcome) (step (withEvents (loaded [0x78, 0x79]) [.writeCmd 0x08])) = some .success :=
  ⟨loaded_inv, by decide +kernel⟩

theorem witness_NoStepFromTheInvariantFaults : (withEvents (loaded [0x78, 0x79]) [.writeCmd 0x04]).Inv := loaded_inv

end Sys2Proof.Tests
end

section
/-! PROOF. IOERR after a command (10_state.md R28, 20_memory.md R66, 60_exceptions.md R244). -/

namespace Sys2Proof.Machine

/-- What an idle end of a command says of IOERR: only IoFailure changes it, and then to the error value of the last call. -/
theorem exec_idle_ioerr {i : Instr} {s t : State} (h : exec i s = .next t) (hidle : t.ctl.busy = false) :
    (t.ctl.outcome ≠ .failure .ioFailure ∧ t.ctl.ioerr = s.ctl.ioerr)
    ∨ (t.ctl.outcome = .failure .ioFailure ∧ ErrFrom s t t.ctl.ioerr) := by
  obtain ⟨w, hw, hend⟩ := exec_cases i h
  have hkept : w.ctl.ioerr = s.ctl.ioerr := by rw [hw.ctl]; rfl
  have hbusy : w.ctl.busy = true := by rw [hw.ctl]; rfl
  rcases hend with ⟨_, rfl⟩ | ⟨_, k, _, rfl⟩ | ⟨T, hT, rfl⟩ | ⟨e, he, rfl⟩ | ⟨st, rfl⟩
  · exact .inl ⟨by simp, hkept⟩
  · exact .inl ⟨by simp, hkept⟩
  · exact .inl ⟨by simpa [State.fail_ctl] using hT, by rw [State.fail_ctl]; exact hkept⟩
  · refine .inr ⟨by rw [State.fail_ctl]; rfl, ?_⟩
    simpa [ErrFrom, State.fail_ctl, State.fail_env] using he
  · exact absurd hidle (by simp [hbusy])

end Sys2Proof.Machine

namespace Sys2Proof
open Sys2Proof.Machine

/-- Settles O47: IOERR from the ways a command ends, and what each `IoError` means from the answers it used up. -/
theorem ioErrHoldsTheLastError : Obligations.IoErrHoldsTheLastError := by
  refine ⟨fun i s t h hidle => ?_, fun i s t h => ?_⟩
  · rcases exec_idle_ioerr h hidle with ⟨hne, hkept⟩ | ⟨hio, hfrom⟩
    · exact ⟨fun _ => hkept, fun hio => absurd hio hne⟩
    · exact ⟨fun hne => absurd hio hne, fun _ => hfrom⟩
  · obtain ⟨used, hused, -, hlast⟩ := exec_used h
    exact ⟨used, hused, hlast⟩

end Sys2Proof
end

section
/-! PROOF. What a step can do, and that every step keeps the invariant and never faults (10_state.md R24, R26, R31, R34,
R36, 20_memory.md R61, R65, 41_tree_builder.md R134). -/

namespace Sys2Proof.Machine

/-! What a step can do -/

/-- The ways one event answers a next state: the streams and the coming answers change, a command runs, the failure rule is
applied, or HCC is reset. A stream that changes is left one the host may bind (R61, R65). -/
inductive StepsTo (s : State) : State → Prop where
  | outside {env : Env} : (s.envOk → ({ s with env := env } : State).envOk) → StepsTo s { s with env := env }
  | runs {i : Instr} {t : State} : exec i s = .next t → StepsTo s t
  | fails {ctl : Control} {env : Env} {T : Failure} : (s.envOk → ({ s with env := env } : State).envOk) →
      StepsTo s (State.fail { s with ctl := ctl, env := env } T)
  | resets : StepsTo s s.resetHcc

theorem State.envOk.bindSource {s : State} {src : Source} (hsrc : src.wf = true) (h : s.envOk) :
    ({ s with env.src := .bound src } : State).envOk :=
  ⟨fun _ hheld => Option.some.inj hheld ▸ hsrc, h.2⟩

theorem State.envOk.bindSink {s : State} {snk : Sink} (hsnk : snk.wf = true) (h : s.envOk) :
    ({ s with env.snk := .bound snk } : State).envOk :=
  ⟨h.1, fun _ hheld => Option.some.inj hheld ▸ hsnk⟩

theorem State.envOk.closeSource {s : State} (e : IoErr) (h : s.envOk) :
    ({ s with env.src := s.env.src.close e } : State).envOk :=
  ⟨fun src hheld => h.1 src (by simpa using hheld), h.2⟩

theorem State.envOk.closeSink {s : State} (e : IoErr) (h : s.envOk) :
    ({ s with env.snk := s.env.snk.close e } : State).envOk :=
  ⟨h.1, fun snk hheld => h.2 snk (by simpa using hheld)⟩

theorem whileIdle_next {s s' t : State} {legal : Bool} (h : whileIdle s legal s' = .next t) : legal = true ∧ t = s' := by
  rw [whileIdle] at h
  split at h
  · cases h
  · split at h
    · cases h; exact ⟨‹_›, rfl⟩
    · cases h

theorem moveSource_next {f : Source → Source} {s t : State} (h : moveSource f s = .next t) :
    ∃ src, (f src).wf = true ∧ t = { s with env.src := .bound (f src) } := by
  rw [moveSource] at h
  split at h
  · cases (whileIdle_next h).1
  · exact ⟨_, whileIdle_next h⟩

theorem moveSource_stepsTo {f : Source → Source} {s t : State} (h : moveSource f s = .next t) : StepsTo s t := by
  obtain ⟨src, hwf, rfl⟩ := moveSource_next h
  exact .outside (.bindSource hwf)

theorem writeCmd_stepsTo {w : Byte} {s t : State} (h : writeCmd w s = .next t) : StepsTo s t := by
  rw [writeCmd] at h
  split at h
  · cases h; exact .outside id
  · split at h
    · exact .runs h
    · cases h; exact .fails id

/-- Closing a stream changes that stream, and a command hung in a call of it fails (R66, R277). -/
theorem closeStream_stepsTo (st : Stream) (e : IoErr) (s : State) : StepsTo s (closeStream st e s) := by
  cases st with
  | source =>
    simp only [closeStream]
    split
    · exact .fails (.closeSource e)
    · exact .outside (.closeSource e)
  | sink =>
    simp only [closeStream]
    split
    · exact .fails (.closeSink e)
    · exact .outside (.closeSink e)

theorem perform_stepsTo {e : Event} {s t : State} (h : perform e s = .next t) : StepsTo s t := by
  cases e with
  | writeCmd w => exact writeCmd_stepsTo h
  | bindSource src =>
    obtain ⟨hwf, rfl⟩ := whileIdle_next h
    exact .outside (.bindSource hwf)
  | bindSink snk =>
    obtain ⟨hwf, rfl⟩ := whileIdle_next h
    exact .outside (.bindSink hwf)
  | rewindSource => exact moveSource_stepsTo h
  | seekSource pos => exact moveSource_stepsTo h
  | closeSource x => cases h; exact closeStream_stepsTo .source x s
  | closeSink x => cases h; exact closeStream_stepsTo .sink x s
  | decideAnswers l => cases h; exact .outside id
  | reset => cases h; exact .resets

/-- A step does nothing, or takes the next event away and does what that event can do. -/
theorem step_next {s t : State} (h : step s = .next t) :
    t = s ∨ ∃ rest, StepsTo { s with env.events := rest } t := by
  rw [step] at h
  split at h
  · cases h; exact .inl rfl
  · exact .inr ⟨_, perform_stepsTo h⟩

/-! Only a command can fault -/

theorem whileIdle_ne_fault (s s' : State) (legal : Bool) (f : Fault) : whileIdle s legal s' ≠ .fault f := by
  rw [whileIdle]
  split
  · nofun
  · split <;> nofun

theorem moveSource_ne_fault (g : Source → Source) (s : State) (f : Fault) : moveSource g s ≠ .fault f := by
  rw [moveSource]
  split <;> exact whileIdle_ne_fault _ _ _ _

theorem perform_fault {e : Event} {s : State} {f : Fault} (h : perform e s = .fault f) : ∃ i, exec i s = .fault f := by
  cases e with
  | writeCmd w =>
    simp only [perform, writeCmd] at h
    split at h
    · cases h
    · split at h
      · exact ⟨_, h⟩
      · cases h
  | bindSource src => exact absurd h (whileIdle_ne_fault _ _ _ _)
  | bindSink snk => exact absurd h (whileIdle_ne_fault _ _ _ _)
  | rewindSource => exact absurd h (moveSource_ne_fault _ _ _)
  | seekSource pos => exact absurd h (moveSource_ne_fault _ _ _)
  | closeSource x => cases h
  | closeSink x => cases h
  | decideAnswers l => cases h
  | reset => cases h

theorem step_fault {s : State} {f : Fault} (h : step s = .fault f) :
    ∃ i rest, exec i { s with env.events := rest } = .fault f := by
  rw [step] at h
  split at h
  · cases h
  · obtain ⟨i, hi⟩ := perform_fault h
    exact ⟨i, _, hi⟩

/-! A started command is running whenever its body returns or hangs -/

/-- A run that is in a phase and running when it returns or hangs; nothing is said of a raise or a stop. -/
abbrev StaysRunning {α : Type} (r : Run α) : Prop := Ends True (fun _ => True) r

theorem true_settled : Settled fun _ => True := by constructor <;> intros <;> trivial

theorem tally_staysRunning {s : State} (hr : Running s) (b : Byte) : StaysRunning (tally b s) := .ok trivial hr

theorem procCount_staysRunning {s : State} (hr : Started s) : StaysRunning (procCount s) := by
  rw [procCount]
  have hcounting : Running (s.enter .counting).discardLen := hr.enter (p := .counting) (by decide)
  refine (srcLen_ends true_settled trivial hcounting).bind' fun len u _ _ hu => ?_
  refine (forEachByte_ends (s := { u with freq := zeroFreq }) true_settled (E := fun _ => True) (fun _ _ _ _ _ _ _ => trivial)
    (fun _ _ _ hs => tally_staysRunning hs _) _ trivial hu).bind' fun _ u _ _ hu => ?_
  exact (require_ends trivial hu _ _).bind' fun _ _ _ _ hu => .ok trivial hu

theorem procBuild_staysRunning {s : State} (hr : Started s) : StaysRunning (procBuild s) := by
  have hcases := procBuild_cases s
  generalize procBuild s = r at *
  rcases hcases with ⟨u, t, rfl, -, hu⟩ | ⟨_, rfl⟩
  · obtain ⟨-, hbusy, hrunning⟩ := hr
    rw [hu]
    exact .ok trivial ⟨rfl, hbusy, hrunning, nofun⟩
  · exact .raised trivial

theorem procSerialize_staysRunning {s : State} (hr : Started s) : StaysRunning (procSerialize s) := by
  rw [procSerialize]
  split
  · exact .raised trivial
  · split
    · exact .stuck trivial
    · exact .ok trivial (hr.enter (p := .serializing) (by decide))

theorem finishTree_staysRunning {s : State} (hr : Started s) (root : NodeIdx) : StaysRunning (finishTree root s) := by
  rw [finishTree]
  split
  · exact .stuck trivial
  · exact .ok trivial (hr.enter (p := .deriving_) (by decide))

theorem procDeserialize_staysRunning {s : State} (hr : Started s) : StaysRunning (procDeserialize s) := by
  rw [procDeserialize]
  split
  · exact .raised trivial
  · rename_i c _
    rcases parseTree_frame c (s.enter .deserializing).discardTree with ⟨root, u, hok, hu⟩ | ⟨u, hraised, -⟩
    · rw [hok]
      exact finishTree_staysRunning (by rw [hu]; exact hr) root
    · rw [hraised]
      exact .raised trivial

theorem procReadHeader_staysRunning {s : State} (hr : Started s) : StaysRunning (procReadHeader s) := by
  rw [procReadHeader]
  have hreading : Running ((s.enter .readingHeader).discardSer.discardLen) := hr.enter (p := .readingHeader) (by decide)
  refine (srcReadBytes_ends true_settled _ _ trivial hreading).bind' fun nc u _ _ hu => ?_
  refine (require_ends trivial hu _ _).bind' fun _ u _ _ hu => ?_
  refine (srcReadBytes_ends true_settled _ _ trivial hu).bind' fun packed u _ _ hu => ?_
  refine (require_ends trivial hu _ _).bind' fun _ u _ _ hu => ?_
  refine (srcReadBytes_ends true_settled _ _ trivial hu).bind' fun leafv u _ _ hu => ?_
  exact (srcReadBytes_ends true_settled _ _ trivial hu).bind' fun lenBytes u _ _ hu => .ok trivial hu

theorem srcRewind_staysRunning {s : State} (hr : Running s) : StaysRunning (srcRewind s) := by
  rw [srcRewind]
  rcases callSource_split (fun src => ((), src.rewind)) s with ⟨e, l, hc⟩ | ⟨l, hc⟩ | ⟨src, l, -, hc⟩ <;> rw [hc]
  · exact .raised trivial
  · exact .hung trivial hr
  · exact .ok trivial hr

theorem compressBody_staysRunning {s : State} (hr : Started s) : StaysRunning (compressBody s) := by
  rw [compressBody]
  refine (procCount_staysRunning (s := s.discardAll) hr).bind' fun _ u _ _ hu => ?_
  refine Ends.bind' (procBuild_staysRunning hu.started) fun _ u _ _ hu => ?_
  refine (procSerialize_staysRunning hu.started).bind' fun _ u _ _ hu => ?_
  refine (procWriteHeader_ends true_settled trivial hu.started).bind' fun _ u _ _ hu => ?_
  refine (srcRewind_staysRunning hu).bind' fun _ u _ _ hu => ?_
  refine (procEncode_ends true_settled (s := { u with ctl.inCount := 0 }) trivial hu.started).bind' fun _ u _ _ hu => ?_
  exact (require_ends trivial hu _ _).bind' fun _ u _ _ hu => .ok trivial hu

theorem decompressBody_staysRunning {s : State} (hr : Started s) : StaysRunning (decompressBody s) := by
  rw [decompressBody]
  refine (procReadHeader_staysRunning (s := s.discardAll) hr).bind' fun _ u _ _ hu => ?_
  refine (procDeserialize_staysRunning hu.started).bind' fun _ u _ _ hu => ?_
  refine (procDecode_ends true_settled trivial hu.started).bind' fun _ u _ _ hu => ?_
  exact (require_ends trivial hu _ _).bind' fun _ u _ _ hu => .ok trivial hu

theorem bodyOf_staysRunning {i : Instr} (hi : i ≠ .clear) {s : State} (hr : Started s) : StaysRunning (bodyOf i s) := by
  cases i with
  | clear => exact absurd rfl hi
  | count => exact procCount_staysRunning hr
  | build => exact procBuild_staysRunning hr
  | serialize => exact guarded_ends trivial (procSerialize_staysRunning hr)
  | deserialize => exact guarded_ends trivial (procDeserialize_staysRunning hr)
  | wrhdr => exact guarded_ends trivial (procWriteHeader_ends true_settled trivial hr)
  | rdhdr => exact procReadHeader_staysRunning hr
  | encode => exact guarded_ends trivial (procEncode_ends true_settled trivial hr)
  | decode => exact guarded_ends trivial (decodeAndVerify_ends true_settled trivial hr)
  | compress => exact compressBody_staysRunning hr
  | decompress => exact decompressBody_staysRunning hr

/-- A run that did not stop ends in one of the other ways. -/
theorem Ends.of_not_stuck {stop : Prop} {D : State → Prop} {α : Type} {r : Run α} (h : Ends stop D r)
    (hne : ∀ f, r ≠ .stuck f) : Ends False D r := by
  cases h with
  | ok hD hr => exact .ok hD hr
  | hung hD hr => exact .hung hD hr
  | raised hD => exact .raised hD
  | stuck _ => exact absurd rfl (hne _)

/-! Commands -/

/-- CLEAR, which enters no phase (R121). -/
theorem exec_clear (s : State) :
    exec .clear s = .next (State.settle { s.begin (some .clear) with freq := zeroFreq }.discardAll .success) :=
  command_of_ok (i := .clear) (body := clearBody) (s := s) rfl rfl rfl

/-- A command started with an empty HEAP leaves the control registers as R24 and R34 say. -/
theorem exec_controlOk {i : Instr} {s t : State} (hheap : s.heap = []) (h : exec i s = .next t) : t.controlOk := by
  by_cases hi : i = .clear
  · subst hi
    rw [exec_clear] at h
    cases h
    exact State.settle_controlOk (s := { s.begin (some .clear) with freq := zeroFreq }.discardAll) hheap .success
  · rw [exec_eq] at h
    have hbody := (bodyOf_staysRunning hi (begin_started hheap i)).of_not_stuck fun f hstuck => by
      rw [command_of_stuck hstuck] at h
      cases h
    rcases command_ends true_settled hbody with
      ⟨u, o, -, hu, hend⟩ | ⟨u, T, -, hend⟩ | ⟨u, st, -, hu, hend⟩ | hfalse
    · cases hend.symm.trans h; exact State.settle_controlOk hu o
    · cases hend.symm.trans h; exact State.fail_controlOk u T
    · cases hend.symm.trans h; exact hu.hung_controlOk st
    · exact hfalse.elim

/-- A command started with the data half of the invariant ends, and keeps it. -/
theorem exec_data {s : State} (h : Data s) (hheap : s.heap = []) (i : Instr) : ∃ t, exec i s = .next t ∧ Data t := by
  by_cases hi : i = .clear
  · subst hi
    have hfreq : freqSum zeroFreq < 2 ^ 64 := by rw [freqSum_zero]; decide
    obtain ⟨htree, hser, henv, -⟩ := h
    exact ⟨_, exec_clear s,
      State.discardAll_data (s := { s.begin (some .clear) with freq := zeroFreq }) ⟨htree, hser, henv, hfreq⟩⟩
  · rw [exec_eq]
    have hbody := bodyOf_data hi (s := s.begin (some i)) h (begin_started hheap i)
    rcases command_ends data_settled hbody with
      ⟨u, o, hu, -, hend⟩ | ⟨u, T, hu, hend⟩ | ⟨u, st, hu, -, hend⟩ | hfalse
    · exact ⟨_, hend, hu⟩
    · exact ⟨_, hend, State.fail_data hu T⟩
    · exact ⟨_, hend, hu⟩
    · exact hfalse.elim

/-! Reset -/

theorem State.resetHcc_controlOk (s : State) : s.resetHcc.controlOk := by
  refine ⟨?_, ?_, ?_, rfl⟩ <;> simp [State.reset]

theorem State.resetHcc_data {s : State} (h : s.envOk) : Data s.resetHcc := by
  refine ⟨⟨nofun, fun _ => rfl⟩, nofun, h, ?_⟩
  show freqSum zeroFreq < 2 ^ 64
  rw [freqSum_zero]
  decide

theorem State.reset_envOk : State.reset.envOk := ⟨nofun, nofun⟩

/-! Steps -/

theorem State.controlOk.heap_empty {s : State} (h : s.controlOk) : s.heap = [] := by
  obtain ⟨-, -, -, hheap⟩ := h
  exact hheap

theorem StepsTo.controlOk {s t : State} (hs : s.controlOk) (h : StepsTo s t) : t.controlOk := by
  cases h with
  | outside _ => exact hs
  | runs hexec => exact exec_controlOk hs.heap_empty hexec
  | fails _ => exact State.fail_controlOk _ _
  | resets => exact s.resetHcc_controlOk

theorem StepsTo.data {s t : State} (hs : Data s) (hheap : s.heap = []) (h : StepsTo s t) : Data t := by
  obtain ⟨htree, hser, henv, hfreq⟩ := hs
  cases h with
  | outside hkeeps => exact ⟨htree, hser, hkeeps henv, hfreq⟩
  | @runs i _ hexec =>
    obtain ⟨t', hexec', ht⟩ := exec_data ⟨htree, hser, henv, hfreq⟩ hheap i
    cases hexec'.symm.trans hexec
    exact ht
  | @fails ctl env T hkeeps =>
    exact State.fail_data (s := { s with ctl := ctl, env := env }) ⟨htree, hser, hkeeps henv, hfreq⟩ T
  | resets => exact State.resetHcc_data henv

theorem step_controlOk {s t : State} (hs : s.controlOk) (h : step s = .next t) : t.controlOk := by
  rcases step_next h with rfl | ⟨rest, h⟩
  · exact hs
  · exact StepsTo.controlOk (s := { s with env.events := rest }) hs h

theorem step_data {s t : State} (hs : Data s) (hheap : s.heap = []) (h : step s = .next t) : Data t := by
  rcases step_next h with rfl | ⟨rest, h⟩
  · exact hs
  · exact StepsTo.data (s := { s with env.events := rest }) hs hheap h

end Sys2Proof.Machine

namespace Sys2Proof
open Sys2Proof.Machine

/-- Settles O57, by the ways one event can change the state. -/
theorem stepKeepsControlInvariant : Obligations.StepKeepsControlInvariant :=
  fun _ _ hs h => step_controlOk hs h

/-- Settles O58: the control half and the data half of the invariant are each kept. -/
theorem stepKeepsInvariant : Obligations.StepKeepsInvariant := by
  rintro s t ⟨hcontrol, hdata⟩ h
  exact ⟨step_controlOk hcontrol h, step_data hdata hcontrol.heap_empty h⟩

/-- Settles O59: the reset state is what a reset event makes of itself. -/
theorem invariantHoldsAtReset : Obligations.InvariantHoldsAtReset :=
  ⟨State.reset.resetHcc_controlOk, State.resetHcc_data State.reset_envOk⟩

/-- Settles O60: only a command can fault, and a command started with the invariant answers a next state. -/
theorem noStepFromTheInvariantFaults : Obligations.NoStepFromTheInvariantFaults := by
  rintro s f ⟨hcontrol, hdata⟩ hfault
  obtain ⟨i, rest, hexec⟩ := step_fault hfault
  obtain ⟨t, hnext, -⟩ := exec_data (s := { s with env.events := rest }) hdata hcontrol.heap_empty i
  rw [hnext] at hexec
  cases hexec

end Sys2Proof
end

section
/-! PROOF. STATUS and what the host reads, the reset values, and a word written to CMD (10_state.md R22, R23, R27, R42,
R45, 20_memory.md R75, 60_exceptions.md R240). -/

namespace Sys2Proof.Machine

/-! The fields of STATUS (R23) -/

theorem State.status_busy (s : State) : s.status.extractLsb' 0 1 = BitVec.ofBool s.ctl.busy := by
  rw [State.status, BitVec.extractLsb'_cast]
  exact BitVec.extractLsb'_append_eq_right

theorem State.status_outcome (s : State) : s.status.extractLsb' 1 2 = s.ctl.outcome.field := by
  rw [State.status, BitVec.extractLsb'_cast]
  rw [BitVec.extractLsb'_append_eq_of_le (by decide)]
  exact BitVec.extractLsb'_append_eq_right

theorem State.status_err (s : State) : s.status.extractLsb' 3 3 = s.ctl.outcome.err := by
  rw [State.status, BitVec.extractLsb'_cast]
  iterate 2 rw [BitVec.extractLsb'_append_eq_of_le (by decide)]
  exact BitVec.extractLsb'_append_eq_right

theorem State.status_treeValid (s : State) : s.status.extractLsb' 6 1 = BitVec.ofBool s.tree.isSome := by
  rw [State.status, BitVec.extractLsb'_cast]
  iterate 3 rw [BitVec.extractLsb'_append_eq_of_le (by decide)]
  exact BitVec.extractLsb'_append_eq_right

theorem State.status_serValid (s : State) : s.status.extractLsb' 7 1 = BitVec.ofBool s.ser.isSome := by
  rw [State.status, BitVec.extractLsb'_cast]
  iterate 4 rw [BitVec.extractLsb'_append_eq_of_le (by decide)]
  exact BitVec.extractLsb'_append_eq_right

theorem State.status_lenValid (s : State) : s.status.extractLsb' 8 1 = BitVec.ofBool s.origLen.isSome := by
  rw [State.status, BitVec.extractLsb'_cast]
  iterate 5 rw [BitVec.extractLsb'_append_eq_of_le (by decide)]
  exact BitVec.extractLsb'_append_eq_right

theorem State.status_hardwired (s : State) : s.status.extractLsb' 9 7 = 0 := by
  rw [State.status, BitVec.extractLsb'_cast]
  iterate 6 rw [BitVec.extractLsb'_append_eq_of_le (by decide)]
  exact BitVec.extractLsb'_eq_self

theorem CmdOutcome.field_ne_three (o : CmdOutcome) : o.field ≠ 3 := by
  cases o with
  | none => decide
  | success => decide
  | failure t => exact (by decide : (2 : BitVec 2) ≠ 3)

theorem CmdOutcome.err_of_field_ne_two {o : CmdOutcome} (h : o.field ≠ 2) : o.err = 0 := by
  cases o with
  | none => rfl
  | success => rfl
  | failure t => exact absurd rfl h

/-- ERR is at most 5 (R23, R240). -/
theorem CmdOutcome.err_le (o : CmdOutcome) : o.err.toNat ≤ 5 := by
  cases o with
  | none => decide
  | success => decide
  | failure t => cases t <;> decide

/-! Host reads (R42) -/

theorem State.hostRead_idle {s : State} (h : s.ctl.busy = false) (r : HostReg) (u : BitVec 16) :
    s.hostRead r u = s.readReg r := by
  cases r <;> simp [State.hostRead, State.hostStatus, State.readReg, h]

theorem State.hostRead_busy {s : State} (h : s.ctl.busy = true) {r : HostReg} (hr : r ≠ .status) (u : BitVec 16) :
    s.hostRead r u = none := by
  cases r with
  | status => exact absurd rfl hr
  | _ => simp [State.hostRead, h]

/-- A register that holds no value reads as none, whether HCC is idle or busy (R27). -/
theorem State.hostRead_of_readReg_none {s : State} {r : HostReg} (h : s.readReg r = none) (u : BitVec 16) :
    s.hostRead r u = none := by
  cases hbusy : s.ctl.busy with
  | false => rw [State.hostRead_idle hbusy, h]
  | true => exact State.hostRead_busy hbusy (by rintro rfl; cases h) u

theorem State.hostRead_status_busy {s : State} (h : s.ctl.busy = true) (u : BitVec 16) :
    s.hostRead .status u = some (.bits 16 ((u &&& 0x01FE) ||| 1).toNat) := by
  simp [State.hostRead, State.hostStatus, h]

/-- The bits of STATUS while BUSY = 1: bit 0 set, bits 8:1 free, the others 0 (R21, R23, R42). -/
theorem getLsbD_busyStatus (u : BitVec 16) (k : Nat) :
    ((u &&& 0x01FE) ||| 1).getLsbD k = (decide (k = 0) || (decide (k ≤ 8) && u.getLsbD k)) := by
  by_cases hk : k < 16
  · interval_cases k <;> simp
  · have h0 : k ≠ 0 := by omega
    have h8 : ¬ k ≤ 8 := by omega
    simp [h0, h8, BitVec.getLsbD_of_ge _ _ (by omega : 16 ≤ k)]

theorem State.readReg_serTree {s : State} {c : SerTree} (h : s.ser = some c) :
    s.readReg .serN = some (.bits 16 c.serN.toNat) ∧ s.readReg .serL = some (.bits 9 c.serL.toNat)
      ∧ (∀ k, s.readReg (.shape k) = c.shape[k]?.map fun b => .bits 1 b.toNat)
      ∧ ∀ j, s.readReg (.leafv j) = c.leafv[j]?.map fun v => .bits 8 v.toNat := by
  simp [State.readReg, h]

theorem State.readReg_tree {s : State} {h : TreeHead} (htree : s.tree = some h) :
    s.readReg .nodeUsed = some (.bits 10 s.node.length) ∧ s.readReg .root = some (.bits 9 h.root.toNat)
      ∧ (∀ i, s.readReg (.node i) = (s.nodeAt i).map .entry)
      ∧ ∀ v, s.readReg (.codeBits v) = some (.bits 255 (h.code.read v).bits.toNat)
        ∧ s.readReg (.codeLen v) = some (.bits 8 (h.code.read v).len.toNat) := by
  simp [State.readReg, State.nodeAt, htree]

theorem State.readReg_noSerTree {s : State} (h : s.ser = none) :
    s.readReg .serN = none ∧ s.readReg .serL = none ∧ ∀ k, s.readReg (.shape k) = none ∧ s.readReg (.leafv k) = none := by
  simp [State.readReg, h]

theorem State.readReg_noTree {s : State} (h : s.tree = none) :
    s.readReg .nodeUsed = none ∧ s.readReg .root = none ∧ (∀ i, s.readReg (.node i) = none)
      ∧ ∀ v, s.readReg (.codeBits v) = none ∧ s.readReg (.codeLen v) = none := by
  simp [State.readReg, h]

end Sys2Proof.Machine

namespace Sys2Proof
open Sys2Proof.Machine

/-- Settles O1, by the arm of a write to CMD. -/
theorem stepRunsDecodedCommand : Obligations.StepRunsDecodedCommand := by
  intro s w rest i hevents hidle hdecode
  simp [step, hevents, perform, writeCmd, hidle, hdecode]

/-- Settles O3, by the same arm. -/
theorem commandWrittenWhileBusyIsIgnored : Obligations.CommandWrittenWhileBusyIsIgnored := by
  intro s w rest hevents hbusy
  simp [step, hevents, perform, writeCmd, hbusy]

/-- Settles O6, from the values written in `State.reset`. -/
theorem resetLeavesIdleWithNothingValid : Obligations.ResetLeavesIdleWithNothingValid :=
  ⟨by decide, rfl, rfl, IoErr.zero_eq, read_zeroFreq, rfl, rfl, rfl, rfl, rfl, rfl⟩

/-- Settles O11, field by field. -/
theorem statusFields : Obligations.StatusFields := by
  refine ⟨⟨rfl, rfl, rfl, rfl, rfl⟩, fun s => ?_⟩
  have herr := s.ctl.outcome.err_le
  rw [s.status_outcome, s.status_err]
  refine ⟨s.status_busy, rfl, rfl, s.status_treeValid, s.status_serValid, s.status_lenValid, s.status_hardwired,
    s.ctl.outcome.field_ne_three, CmdOutcome.err_of_field_ne_two, fun h => ?_, fun h => ?_, fun f h => ?_,
    fun h => ?_, fun h => ?_⟩
  · rw [h]; rfl
  · rw [h]; rfl
  · rw [h]; exact ⟨rfl, rfl⟩
  · rw [h] at herr; exact absurd herr (by decide)
  · rw [h] at herr; exact absurd herr (by decide)

/-- Settles O12: an idle read is `readReg`, a busy one reads STATUS only, and a register without a value never reads. -/
theorem hostReads : Obligations.HostReads := by
  intro s u
  refine ⟨fun hidle => ?_, fun hbusy => ⟨⟨_, State.hostRead_status_busy hbusy u, ?_, ?_, ?_⟩, ?_⟩, fun hlen => ?_, fun hser => ?_,
    fun htree => ?_, fun regMap addr => ⟨?_, ?_⟩⟩
  · simp only [State.hostRead_idle hidle]
    refine ⟨rfl, rfl, rfl, rfl, fun _ => rfl, fun n hlen => ?_, fun c hser => ?_, fun h htree => ?_⟩
    · simp [State.readReg, hlen]
    · obtain ⟨hn, hl, hshape, hleafv⟩ := State.readReg_serTree hser
      refine ⟨hn, hl, fun k hk => ?_, fun j hj => ?_, fun k hk => ?_, fun j hj => ?_⟩
      · rw [hshape, List.getElem?_eq_getElem hk]; rfl
      · rw [hleafv, List.getElem?_eq_getElem hj]; rfl
      · rw [hshape, List.getElem?_eq_none hk]; rfl
      · rw [hleafv, List.getElem?_eq_none hj]; rfl
    · obtain ⟨hused, hroot, hnode, hcode⟩ := State.readReg_tree htree
      exact ⟨hused, hroot, fun i n hi => by rw [hnode, hi]; rfl, fun i hi => by rw [hnode, hi]; rfl, hcode⟩
  · rw [getLsbD_busyStatus]; rfl
  · intro k h1 h8
    rw [getLsbD_busyStatus]
    simp [h8, show k ≠ 0 by omega]
  · intro k h9
    rw [getLsbD_busyStatus]
    simp [show k ≠ 0 by omega, show ¬ k ≤ 8 by omega]
  · exact fun r hr => State.hostRead_busy hbusy hr u
  · exact State.hostRead_of_readReg_none (by simp [State.readReg, hlen]) u
  · obtain ⟨hn, hl, hlists⟩ := State.readReg_noSerTree hser
    exact ⟨State.hostRead_of_readReg_none hn u, State.hostRead_of_readReg_none hl u, fun k =>
      ⟨State.hostRead_of_readReg_none (hlists k).1 u, State.hostRead_of_readReg_none (hlists k).2 u⟩⟩
  · obtain ⟨hused, hroot, hnode, hcode⟩ := State.readReg_noTree htree
    exact ⟨State.hostRead_of_readReg_none hused u, State.hostRead_of_readReg_none hroot u,
      fun i => State.hostRead_of_readReg_none (hnode i) u, fun v =>
        ⟨State.hostRead_of_readReg_none (hcode v).1 u, State.hostRead_of_readReg_none (hcode v).2 u⟩⟩
  · intro haddr; simp [State.busRead, haddr]
  · intro r haddr; simp [State.busRead, haddr]

end Sys2Proof
end

section
/-! PROOF. HEAP's least member, codes that do not begin one another, RCOUNT, and the valid flags after a whole-file command (10_state.md R25,
R31, R34, 60_exceptions.md R250, R255). -/

namespace Sys2Proof.Machine

/-! A command that succeeds -/

/-- The flush of Finish changes the environment only. -/
theorem flushIfWriter_ok {s u : State} (h : flushIfWriter s = .ok () u) : u = { s with env := u.env } := by
  rw [flushIfWriter] at h
  split at h
  · split at h
    · rw [snkFlush] at h
      rcases callSink_split (fun snk => { snk with durable := snk.data.length }) s with ⟨e, l, hc⟩ | ⟨l, hc⟩ | ⟨k, l, -, hc⟩
        <;> rw [hc] at h <;> cases h
      rfl
    · cases h; rfl
  · cases h; rfl

/-- A command that ends with Success has run its body to its end, then the flush, which leaves the valid flags. -/
theorem exec_success {i : Instr} {s t : State} (h : exec i s = .next t) (hwait : t.ctl.waiting = none)
    (hok : t.ctl.outcome = .success) : ∃ u, bodyOf i (s.begin (some i)) = .ok () u
      ∧ t.tree = u.tree ∧ t.ser = u.ser ∧ t.origLen = u.origLen := by
  rw [exec_eq, command] at h
  split at h
  · rename_i w hrun
    cases h
    obtain ⟨_, u, hbody, hrun⟩ := Run.bind_eq_ok hrun
    rw [finish] at hrun
    obtain ⟨_, v, hflush, hrun⟩ := Run.bind_eq_ok hrun
    cases hrun
    refine ⟨u, hbody, ?_⟩
    rw [flushIfWriter_ok hflush]
    exact ⟨rfl, rfl, rfl⟩
  · cases h
    rw [State.fail_ctl] at hok
    cases hok
  · cases h; cases hwait
  · cases h

/-! Whole-file commands -/

/-- The three valid flags are 0. -/
def State.nothingValid (s : State) : Prop := s.tree = none ∧ s.ser = none ∧ s.origLen = none

theorem discardStep_nothingValid {s u : State} (h : discardStep s = .ok () u) : u.nothingValid := by
  cases h; exact ⟨rfl, rfl, rfl⟩

theorem compressBody_nothingValid {s u : State} (h : compressBody s = .ok () u) : u.nothingValid := by
  rw [compressBody] at h
  iterate 7 obtain ⟨_, _, -, h⟩ := Run.bind_eq_ok h
  exact discardStep_nothingValid h

theorem decompressBody_nothingValid {s u : State} (h : decompressBody s = .ok () u) : u.nothingValid := by
  rw [decompressBody] at h
  iterate 4 obtain ⟨_, _, -, h⟩ := Run.bind_eq_ok h
  exact discardStep_nothingValid h

theorem bodyOf_wholeFile_nothingValid {i : Instr} (hi : wholeFile i = true) {s u : State} (h : bodyOf i s = .ok () u) :
    u.nothingValid := by
  cases i with
  | compress => exact compressBody_nothingValid h
  | decompress => exact decompressBody_nothingValid h
  | _ => cases hi

theorem State.fail_nothingValid {s : State} {i : Instr} (hrun : s.ctl.running = some i) (hi : wholeFile i = true) (T : Failure) :
    (s.fail T).nothingValid := by
  rw [State.fail_whole hrun hi]
  exact ⟨rfl, rfl, rfl⟩

/-- A whole-file command that ends leaves nothing valid, whichever way it ends (R250, R255). -/
theorem exec_wholeFile_nothingValid {i : Instr} (hi : wholeFile i = true) {s t : State} (h : exec i s = .next t)
    (hidle : t.ctl.busy = false) : t.nothingValid := by
  have hsuccess (hw : t.ctl.waiting = none) (ho : t.ctl.outcome = .success) : t.nothingValid := by
    obtain ⟨u, hbody, htree, hser, hlen⟩ := exec_success h hw ho
    rw [State.nothingValid, htree, hser, hlen]
    exact bodyOf_wholeFile_nothingValid hi hbody
  obtain ⟨w, hw, hend⟩ := exec_cases i h
  have hrun : w.ctl.running = some i := running_of hw
  have hbusy : w.ctl.busy = true := by rw [hw.ctl]; rfl
  rcases hend with ⟨_, rfl⟩ | ⟨_, k, _, rfl⟩ | ⟨T, _, rfl⟩ | ⟨e, _, rfl⟩ | ⟨st, rfl⟩
  · exact hsuccess rfl rfl
  · exact hsuccess rfl rfl
  · exact State.fail_nothingValid hrun hi T
  · exact State.fail_nothingValid (s := { w with ctl.ioerr := e }) hrun hi _
  · exact absurd hidle (by simp [hbusy])

/-- What RCOUNT and the Sink are at an idle end of a command, by the state its body reached (R249, R250). -/
theorem exec_idle_sink {i : Instr} {s t : State} (h : exec i s = .next t) (hidle : t.ctl.busy = false) :
    ∃ w, SnkMoves (s.begin (some i)) w ∧ t.ctl.rcount = w.ctl.outCount ∧ t.sinkBytes = w.sinkBytes := by
  obtain ⟨w, hw, hend⟩ := exec_cases i h
  have hbusy : w.ctl.busy = true := by rw [hw.ctl]; rfl
  refine ⟨w, hw, ?_⟩
  rcases hend with ⟨_, rfl⟩ | ⟨_, k, hk, rfl⟩ | ⟨T, _, rfl⟩ | ⟨e, _, rfl⟩ | ⟨st, rfl⟩
  · exact ⟨rfl, rfl⟩
  · exact ⟨rfl, by simp [State.sinkBytes, hk]⟩
  · exact ⟨by rw [State.fail_ctl]; rfl, by rw [State.sinkBytes, State.fail_env]; rfl⟩
  · exact ⟨by rw [State.fail_ctl]; rfl, by rw [State.sinkBytes, State.fail_env]; rfl⟩
  · exact absurd hidle (by simp [hbusy])

end Sys2Proof.Machine

namespace Sys2Proof
open Sys2Proof.Machine

/-- Settles O15: the member removed is the least by `minMember_least`. -/
theorem heapExtractsTheLeastKey : Obligations.HeapExtractsTheLeastKey := by
  intro s u m hextract
  obtain ⟨m', hmin, heq⟩ := Option.map_eq_some_iff.1 hextract
  obtain ⟨rfl, rfl⟩ := Prod.mk.inj heq
  exact ⟨s.minMember_mem hmin, rfl, s.minMember_least hmin⟩

/-- Settles O21: the emission of a leaf's code is its path, and no path of a tree begins another. -/
theorem codesArePrefixFree : Obligations.CodesArePrefixFree := by
  intro s t h hheld htree v hv w hw hne hprefix
  obtain ⟨head, hhead, -, hcode, -, hnodup, -⟩ := hheld
  obtain rfl : head = h := Option.some.inj (hhead.symm.trans htree)
  obtain ⟨p, hp⟩ := Option.isSome_iff_exists.1 ((t.path_isSome_iff v).2 hv)
  obtain ⟨q, hq⟩ := Option.isSome_iff_exists.1 ((t.path_isSome_iff w).2 hw)
  rw [hcode, t.emission_codeTable hnodup hp, t.emission_codeTable hnodup hq] at hprefix
  exact hne (t.path_prefix_free hp hq hprefix)

/-- Settles O48: on success the body's last step discards everything, on failure the failure rule does. -/
theorem wholeFileCommandsLeaveNothingValid : Obligations.WholeFileCommandsLeaveNothingValid := by
  intro i s t hi h hidle
  have hwhole : wholeFile i = true := by rcases hi with rfl | rfl <;> rfl
  exact exec_wholeFile_nothingValid hwhole h hidle

/-- Settles O50: OUT_COUNT starts at 0 and counts every byte the Sink grows by. -/
theorem rcountIsTheNumberOfBytesAppended : Obligations.RcountIsTheNumberOfBytesAppended := by
  intro i s t h hidle
  obtain ⟨w, hw, hrcount, hsink⟩ := exec_idle_sink h hidle
  obtain ⟨bs, hbytes, hcount, -⟩ := hw.sink
  have hgrown : w.sinkBytes.length - s.sinkBytes.length = bs.length := by
    rw [hbytes, List.length_append]
    exact Nat.add_sub_cancel_left ..
  rw [hrcount, hsink, hgrown]
  simpa using hcount

end Sys2Proof
end

section
/-! PROOF. DECODE and DECOMPRESS of a faithful payload, packed bits, byte order, and the header commands (20_memory.md R68 to
R72, 44_bit_decoder.md R198 to R204, 45_file_format.md R216 to R220, R226). -/

namespace Sys2Proof.Machine

/-! The end of a command by its counts -/

/-- Ending a command puts the counts of its bytes into the registers (R249, R250). -/
theorem State.settle_eq_ended {s : State} {taken appended : Nat} (hin : s.ctl.inCount = BitVec.ofNat 64 taken)
    (hout : s.ctl.outCount = BitVec.ofNat 64 appended) (o : CmdOutcome) : s.settle o = s.ended o taken appended := by
  simp [State.settle, State.ended, hin, hout]

/-! DECODE -/

/-- After Decode of `xs` the byte count of R204 agrees. -/
theorem verifyCount_decSt {s : State} {src : Source} {k : Sink} {m : Nat} {cur : NodeIdx} {st : DState} {xs : List Byte}
    (hlen : s.origLen = some (BitVec.ofNat 64 xs.length)) (hout : s.ctl.outCount = 0) :
    verifyCount (decSt s src k m cur st xs) = .ok () (decSt s src k m cur st xs) := by
  simp [verifyCount, decSt, hlen, hout]

/-- DECODE's body when the Source's bits begin with the codes of `xs` and ORIG_LEN is their number (R201, R204). -/
theorem decode_body_ok {s : State} {src : Source} {k : Sink} {h : TreeHead} {t : HTree} {xs : List Byte}
    (hheld : s.holdsTree t) (htree : s.tree = some h) (hsrc : s.env.src = .bound src) (hsnk : s.env.snk = .bound k)
    (hquiet : s.quiet) (hlt : xs.length < 2 ^ 64) (hlen : s.origLen = some (BitVec.ofNat 64 xs.length))
    (hout : s.ctl.outCount = 0) (hxs : ∀ x ∈ xs, x ∈ t.leaves) (hbits : streamBits h.code xs <+: allBits src.rest) :
    bodyOf .decode s
      = .ok () (decSt (s.enter .decoding) src k (streamBits h.code xs).length h.root .atRoot xs) := by
  obtain ⟨head, hhead, habs, hcode, hinternal, hnodup, -⟩ := hheld
  obtain rfl : head = h := Option.some.inj (hhead.symm.trans htree)
  rw [hcode] at hbits ⊢
  have hpre : precondition .decode s = true := by simp [precondition, State.treeValid, State.lenValid, htree, hlen]
  rw [bodyOf, guarded_true hpre, decodeAndVerify,
    procDecode_ok hsrc hsnk hquiet htree habs hinternal hnodup hlt hlen hxs hbits]
  exact verifyCount_decSt (s := s.enter .decoding) hlen hout

/-! WRHDR -/

/-- WRHDR's body is the appends of the header bytes (R216). -/
theorem wrhdr_body_eq {s : State} {c : SerTree} {n : Word64} (hser : s.ser = some c) (hlen : s.origLen = some n) :
    bodyOf .wrhdr s = putAll (headerBytes c n) (s.enter .writingHeader) := by
  have hpre : precondition .wrhdr s = true := by simp [precondition, State.serValid, State.lenValid, hser, hlen]
  rw [bodyOf, guarded_true hpre]
  simp [procWriteHeader, hser, hlen]

end Sys2Proof.Machine

namespace Sys2Proof
open Sys2Proof.Machine

/-- Settles O31, from `decode_body_ok` and the flush of Finish. -/
theorem decodeInvertsTheCodes : Obligations.DecodeInvertsTheCodes := by
  intro s t h src snk xs hheld htree hsrc hsnk hquiet hlt hlen hxs hbits
  have hbody := decode_body_ok (s := s.begin (some .decode)) hheld htree hsrc hsnk hquiet hlt hlen rfl hxs hbits
  refine ⟨_, (exec_eq .decode s).trans (command_of_ok_writer hbody rfl rfl rfl hquiet), ?_⟩
  rw [State.settle_eq_ended (taken := ((streamBits h.code xs).length + 7) / 8) (appended := xs.length)
    (by simp [decSt]) (by simp [decSt])]
  rfl

/-- Settles O40, from `decompressBody_ok` and the flush of Finish. -/
theorem decompressReadsTheFile : Obligations.DecompressReadsTheFile := by
  intro s src snk tr xs payload hsrc hsnk hquiet hinternal hnodup hlt hxs hbits hrest
  obtain ⟨u, hbody, htree, hser, hlen, hout, hrun, hanswers, hsink, hsource⟩ :=
    decompressBody_ok hsrc hsnk hquiet hinternal hnodup hlt hxs hbits hrest
  exact ⟨_, (exec_eq .decompress s).trans (command_of_ok_writer hbody hrun rfl hsink hanswers), rfl, hout, rfl, htree, hser,
    hlen, hsource⟩

/-- Settles O25: `packBits_bit` gives every bit, those of the padding among them. -/
theorem packedBitsUnpack : Obligations.PackedBitsUnpack := by
  intro bits
  refine ⟨packBits_length bits, unpackBits_packBits bits, fun k hk => ?_, fun k hk => ?_⟩
  · rw [packBits_bit, List.getD_eq_getElem _ _ hk]
  · rw [packBits_bit, List.getD_eq_default _ _ hk]

/-- Settles O26, from the bytes of the two fields in stream order. -/
theorem headerIntegersAreBigEndian : Obligations.HeaderIntegersAreBigEndian := by
  refine ⟨fun v => ⟨be16_eq v, ofBe_be16 v⟩, fun v => ⟨be64_length v, ?_, ?_, ofBe_be64 v⟩⟩
  · rw [be64_eq]; rfl
  · rw [be64_eq]; simp

/-- Settles O34: the appends stop at the `IoError`, or all go through and the flush meets it. -/
theorem writeHeaderStopsAtASinkError : Obligations.WriteHeaderStopsAtASinkError := by
  intro s c n snk k e l hser hlen hsnk hk hanswers
  rw [exec_eq]
  have hbody := wrhdr_body_eq (s := s.begin (some .wrhdr)) hser hlen
  rcases Nat.lt_or_eq_of_le hk with hlt | rfl
  · have hraised := hbody.trans (putAll_ioError e l k _ (k := snk) hsnk hlt hanswers)
    rw [command_of_raised hraised, State.fail_unit (i := .wrhdr) rfl rfl,
      State.settle_eq_ended (taken := 0) (appended := k) rfl (by simp)]
    rfl
  · have happended := hbody.trans (putAll_oks (.ioError e :: l) _ (k := snk) hsnk hanswers)
    rw [command_flush_ioError happended rfl rfl rfl rfl, State.fail_unit (i := .wrhdr) rfl rfl,
      State.settle_eq_ended (taken := 0) (appended := (headerBytes c n).length) rfl (by simp), List.take_length]
    rfl

/-- Settles O35, from ReadHeader over the four fields. -/
theorem readHeaderTakesTheHeader : Obligations.ReadHeaderTakesTheHeader := by
  intro s src n packed leafv rest len hsrc hquiet hrest hn hpacked hleafv h256
  have hbody : bodyOf .rdhdr (s.begin (some .rdhdr)) = _ :=
    procReadHeader_quiet n packed leafv rest len hsrc hquiet hrest hn hpacked hleafv h256
  rw [exec_eq, command_of_ok hbody rfl rfl,
    State.settle_eq_ended (taken := 10 + packed.length + leafv.length) (appended := 0) (by simp) rfl]
  rfl

end Sys2Proof
end

section
/-! PROOF. The Sink only grows and is flushed on success, the Source is taken in order, and what each command leaves unchanged
(20_memory.md R60 to R65, R72, 60_exceptions.md R249, R250, 70_reset_and_hazards.md R276, R277). -/

namespace Sys2Proof.Machine

/-! How a command ends, from the state its body and its flush reached -/

/-- The ways of `exec_cases` in which command `i`, started in `s`, goes from the state `w` to its end `t`: Finish without
and with a flush, a failure, an `IoError`, a call that does not return (R249, R250, R286). -/
def Finishes (i : Instr) (s w t : State) : Prop :=
  (writesSink i = false ∧ t = w.settle .success)
  ∨ (writesSink i = true ∧ ∃ k, w.env.snk = .bound k ∧ t = { w with env.snk := .bound { k with durable := k.data.length } }.settle .success)
  ∨ (∃ T, T ≠ .ioFailure ∧ t = w.fail T)
  ∨ (∃ e, ErrFrom s w e ∧ t = { w with ctl.ioerr := e }.fail .ioFailure)
  ∨ (∃ st, t = { w with ctl.waiting := some st })

theorem exec_finishes {i : Instr} {s t : State} (h : exec i s = .next t) :
    ∃ w, SnkMoves (s.begin (some i)) w ∧ Finishes i s w t := exec_cases i h

/-- A failing command changes no more than the control registers, HEAP, and what the three valid flags cover (R250). -/
theorem State.fail_frame (s : State) (T : Failure) : s.fail T =
    { s with ctl := (s.fail T).ctl, heap := (s.fail T).heap, node := (s.fail T).node, tree := (s.fail T).tree,
             ser := (s.fail T).ser, origLen := (s.fail T).origLen } := by
  simp only [State.fail, State.flagsAfterFailure]
  split
  · split <;> rfl
  · rfl

/-- What the end of any command leaves as its body left it. -/
theorem Finishes.frame {i : Instr} {s w t : State} (h : Finishes i s w t) : t =
    { w with ctl := t.ctl, heap := t.heap, node := t.node, tree := t.tree, ser := t.ser, origLen := t.origLen,
             env := { w.env with snk := t.env.snk } } := by
  rcases h with ⟨_, rfl⟩ | ⟨_, k, _, rfl⟩ | ⟨T, _, rfl⟩ | ⟨e, _, rfl⟩ | ⟨st, rfl⟩
  · rfl
  · rfl
  · rw [State.fail_env]; exact w.fail_frame T
  · rw [State.fail_env]; exact State.fail_frame _ _
  · rfl

/-- A command that is no whole-file command also leaves what the valid flags cover (R250). -/
theorem Finishes.frame_unit {i : Instr} {s w t : State} (h : Finishes i s w t) (hrun : w.ctl.running = some i)
    (hi : wholeFile i = false) : t = { w with ctl := t.ctl, heap := t.heap, env := { w.env with snk := t.env.snk } } := by
  rcases h with ⟨_, rfl⟩ | ⟨_, k, _, rfl⟩ | ⟨T, _, rfl⟩ | ⟨e, _, rfl⟩ | ⟨st, rfl⟩
  · rfl
  · rfl
  · rw [State.fail_unit hrun hi]; rfl
  · rw [State.fail_unit (s := { w with ctl.ioerr := e }) hrun hi]; rfl
  · rfl

theorem Finishes.src {i : Instr} {s w t : State} (h : Finishes i s w t) : t.env.src = w.env.src := by
  rw [h.frame]

theorem Finishes.inCount {i : Instr} {s w t : State} (h : Finishes i s w t) : t.ctl.inCount = w.ctl.inCount := by
  rcases h with ⟨_, rfl⟩ | ⟨_, k, _, rfl⟩ | ⟨T, _, rfl⟩ | ⟨e, _, rfl⟩ | ⟨st, rfl⟩
  · rfl
  · rfl
  · rw [State.fail_ctl]; rfl
  · rw [State.fail_ctl]; rfl
  · rfl

/-! The Sink -/

theorem State.sinkBytes_of_snk {s t : State} (h : t.env.snk = s.env.snk) : t.sinkBytes = s.sinkBytes := by
  rw [State.sinkBytes, State.sinkBytes, h]

theorem State.sinkDurable_of_snk {s t : State} (h : t.env.snk = s.env.snk) : t.sinkDurable = s.sinkDurable := by
  rw [State.sinkDurable, State.sinkDurable, h]

theorem State.fail_sinkBytes (s : State) (T : Failure) : (s.fail T).sinkBytes = s.sinkBytes :=
  State.sinkBytes_of_snk (by rw [State.fail_env])

theorem State.fail_sinkDurable (s : State) (T : Failure) : (s.fail T).sinkDurable = s.sinkDurable :=
  State.sinkDurable_of_snk (by rw [State.fail_env])

/-- The end of a command appends no byte: the flush of Finish does not (R65, R249). -/
theorem Finishes.sinkBytes {i : Instr} {s w t : State} (h : Finishes i s w t) : t.sinkBytes = w.sinkBytes := by
  rcases h with ⟨_, rfl⟩ | ⟨_, k, hk, rfl⟩ | ⟨T, _, rfl⟩ | ⟨e, _, rfl⟩ | ⟨st, rfl⟩
  · rfl
  · simp [State.sinkBytes, hk]
  · exact w.fail_sinkBytes T
  · exact State.fail_sinkBytes { w with ctl.ioerr := e } _
  · rfl

theorem exec_sinkBytes_prefix {i : Instr} {s t : State} (h : exec i s = .next t) : s.sinkBytes <+: t.sinkBytes := by
  obtain ⟨w, hw, hend⟩ := exec_finishes h
  obtain ⟨bs, hbytes, -, -⟩ := hw.sink
  exact ⟨bs, by rw [hend.sinkBytes, hbytes]; rfl⟩

/-- What closing a stream leaves in the environment, whether or not a command hung on it (R66, R277). -/
theorem closeStream_env (st : Stream) (e : IoErr) (s : State) : (closeStream st e s).env = match st with
    | .source => { s.env with src := s.env.src.close e }
    | .sink => { s.env with snk := s.env.snk.close e } := by
  cases st with
  | source => simp only [closeStream]; split <;> [exact State.fail_env _ _; rfl]
  | sink => simp only [closeStream]; split <;> [exact State.fail_env _ _; rfl]

theorem closeStream_sinkBytes (st : Stream) (e : IoErr) (s : State) : (closeStream st e s).sinkBytes = s.sinkBytes := by
  rw [State.sinkBytes, closeStream_env]
  cases st with
  | source => rfl
  | sink => simp [State.sinkBytes]

theorem closeStream_sinkDurable (st : Stream) (e : IoErr) (s : State) : (closeStream st e s).sinkDurable = s.sinkDurable := by
  rw [State.sinkDurable, closeStream_env]
  cases st with
  | source => rfl
  | sink => simp [State.sinkDurable]

/-- Closing the stream a command hangs on ends that command with IoFailure (R66, R250, R277). -/
theorem closeStream_hung {s : State} {st : Stream} (e : IoErr) (hbusy : s.ctl.busy = true) (hwaiting : s.ctl.waiting = some st) :
    (closeStream st e s).ctl = (State.settle { s with ctl.ioerr := e } (.failure .ioFailure)).ctl := by
  cases st <;> simp [closeStream, hbusy, hwaiting, State.fail_ctl]

theorem writeCmd_sinkBytes_prefix {w : Byte} {s t : State} (h : writeCmd w s = .next t) : s.sinkBytes <+: t.sinkBytes := by
  rw [writeCmd] at h
  split at h
  · cases h; exact List.prefix_rfl
  · split at h
    · exact exec_sinkBytes_prefix h
    · cases h
      have hkept : (reservedCode s).sinkBytes = s.sinkBytes := State.fail_sinkBytes (s.begin none) _
      rw [hkept]

theorem moveSource_sinkBytes {f : Source → Source} {s t : State} (h : moveSource f s = .next t) : t.sinkBytes = s.sinkBytes := by
  obtain ⟨src, -, rfl⟩ := moveSource_next h
  rfl

/-- No event but the binding of a Sink takes a byte of the Sink away (R64, R276). -/
theorem perform_sinkBytes_prefix {e : Event} (he : ∀ snk, e ≠ .bindSink snk) {s t : State} (h : perform e s = .next t) :
    s.sinkBytes <+: t.sinkBytes := by
  cases e with
  | writeCmd w => exact writeCmd_sinkBytes_prefix h
  | bindSource src => obtain ⟨-, rfl⟩ := whileIdle_next h; exact List.prefix_rfl
  | bindSink snk => exact absurd rfl (he snk)
  | rewindSource => rw [moveSource_sinkBytes h]
  | seekSource pos => rw [moveSource_sinkBytes h]
  | closeSource x => cases h; rw [closeStream_sinkBytes]
  | closeSink x => cases h; rw [closeStream_sinkBytes]
  | decideAnswers l => cases h; exact List.prefix_rfl
  | reset => cases h; exact List.prefix_rfl

/-- What an idle end of a command says of the durable bytes: all of them on the success of a writer, as many as before
otherwise (R65, R249, R250). -/
theorem exec_idle_durable {i : Instr} {s t : State} (h : exec i s = .next t) (hidle : t.ctl.busy = false) :
    (t.ctl.outcome = .success ∧ (writesSink i = true → t.sinkDurable = t.sinkBytes.length))
    ∨ (t.ctl.outcome ≠ .success ∧ t.sinkDurable = s.sinkDurable) := by
  obtain ⟨w, hw, hend⟩ := exec_finishes h
  obtain ⟨-, -, -, hdurable⟩ := hw.sink
  have hbusy : w.ctl.busy = true := by rw [hw.ctl]; rfl
  rcases hend with ⟨hno, rfl⟩ | ⟨_, k, _, rfl⟩ | ⟨T, _, rfl⟩ | ⟨e, _, rfl⟩ | ⟨st, rfl⟩
  · exact .inl ⟨rfl, fun hyes => absurd (hno.symm.trans hyes) (by decide)⟩
  · exact .inl ⟨rfl, fun _ => by simp [State.sinkDurable, State.sinkBytes]⟩
  · exact .inr ⟨by rw [State.fail_ctl]; nofun, (w.fail_sinkDurable T).trans hdurable⟩
  · exact .inr ⟨by rw [State.fail_ctl]; nofun, (State.fail_sinkDurable { w with ctl.ioerr := e } _).trans hdurable⟩
  · exact absurd hidle (by simp [hbusy])

/-! The Source -/

/-- The bytes a command other than COMPRESS takes, from the moves of its body (R62, R72). -/
theorem exec_taken {i : Instr} (hi : i ≠ .compress) {s t : State} {src : Source} (hsrc : s.env.src = .bound src)
    (h : exec i s = .next t) :
    ∃ k, t.env.src = .bound (src.advance k) ∧ t.ctl.inCount = BitVec.ofNat 64 k ∧ k ≤ src.rest.length := by
  obtain ⟨w, hw, hend⟩ := exec_moves_cases hi h
  replace hend : Finishes i s w t := hend
  obtain ⟨k, hk, hpos, hcount⟩ := hw.boundSrc src hsrc
  exact ⟨k, hend.src.trans hpos, hend.inCount.trans (by simpa using hcount), hk⟩

end Sys2Proof.Machine

namespace Sys2Proof
open Sys2Proof.Machine

/-- Settles O49: by the ways a command ends, and event by event for a step. -/
theorem sinkIsAppendOnly : Obligations.SinkIsAppendOnly := by
  refine ⟨fun i s t h => exec_sinkBytes_prefix h, fun s t e rest hevents he h => ?_⟩
  rw [step, hevents] at h
  exact perform_sinkBytes_prefix (s := { s with env.events := rest }) he h

/-- Settles O51, from `exec_idle_durable` and, for a command that writes no Sink, `exec_snk`. -/
theorem flushedExactlyOnSuccess : Obligations.FlushedExactlyOnSuccess := by
  intro i s t h hidle
  rcases exec_idle_durable h hidle with ⟨hok, hall⟩ | ⟨hfail, hsame⟩
  · exact ⟨fun _ => hall, fun hne => absurd hok hne, fun hno => exec_snk hno h⟩
  · exact ⟨fun hok => absurd hok hfail, fun _ => hsame, fun hno => exec_snk hno h⟩

/-- Settles O52, by `exec_taken`. -/
theorem bytesAreTakenInOrder : Obligations.BytesAreTakenInOrder :=
  fun _ _ _ _ hi hsrc h => exec_taken hi hsrc h

/-- Settles O9: the failure rule is applied with the error value of the close, and it leaves the environment. -/
theorem closingTheStreamAborts : Obligations.ClosingTheStreamAborts := by
  intro s rest e hbusy
  let s' : State := { s with env.events := rest }
  refine ⟨fun hevents hwaiting => ⟨closeStream .source e s', by rw [step, hevents]; rfl, ?_⟩,
    fun hevents hwaiting => ⟨closeStream .sink e s', by rw [step, hevents]; rfl, ?_⟩⟩
  · rw [closeStream_hung (s := s') e hbusy hwaiting, closeStream_env]
    exact ⟨rfl, rfl, rfl, rfl, rfl⟩
  · rw [closeStream_hung (s := s') e hbusy hwaiting, closeStream_env, closeStream_sinkBytes, closeStream_sinkDurable]
    exact ⟨rfl, rfl, rfl, rfl, rfl, rfl, rfl⟩

end Sys2Proof
end

section
/-! PROOF. What each command leaves unchanged (20_memory.md R60, 60_exceptions.md R249, R250). -/

namespace Sys2Proof.Machine

/-! The failures a command can end with (R241 to R245) -/

theorem writesSink_mayRaise_io {i : Instr} (h : writesSink i = true) : mayRaise i .ioFailure = true := by
  cases i with
  | clear | count | build | serialize | deserialize | rdhdr => cases h
  | wrhdr | encode | decode | compress | decompress => rfl

theorem flushIfWriter_raises {i : Instr} {s : State} (hrun : s.ctl.running = some i) : Raises (mayRaise i) (flushIfWriter s) := by
  rw [flushIfWriter, hrun]
  cases hw : writesSink i with
  | false => simp only [hw]; exact .ok
  | true => simp only [hw]; exact callSink_raises (writesSink_mayRaise_io hw) _ _

/-- A command that ends with a failure ends with one of R241 to R245. -/
theorem exec_failure_mayRaise {i : Instr} {s t : State} {T : Failure} (h : exec i s = .next t) (hwait : t.ctl.waiting = none)
    (hfail : t.ctl.outcome = .failure T) : mayRaise i T = true := by
  have hruns := bodyOf_snkMoves i (s.begin (some i))
  have hraises : Raises (mayRaise i) ((bodyOf i (s.begin (some i))).bind fun _ s => finish s) := by
    refine (bodyOf_raises i _).bind fun _ u hu => ?_
    rw [hu] at hruns
    exact (flushIfWriter_raises (running_of hruns.of_ok)).bind fun _ _ _ => .ok
  rw [exec_eq, command] at h
  split at h
  · rename_i w hrun
    cases h
    obtain ⟨_, u, -, hrun⟩ := Run.bind_eq_ok hrun
    rw [finish] at hrun
    obtain ⟨_, v, -, hrun⟩ := Run.bind_eq_ok hrun
    cases hrun
    cases hfail
  · rename_i T' u hrun
    cases h
    rw [State.fail_ctl] at hfail
    cases hfail
    exact hraises _ _ hrun
  · cases h; cases hwait
  · cases h

/-- IOERR after a command that calls no primitive (R28). -/
theorem exec_ioerr_kept {i : Instr} (hi : mayRaise i .ioFailure = false) {s t : State} (h : exec i s = .next t) :
    t.ctl.ioerr = s.ctl.ioerr := by
  obtain ⟨w, hw, hend⟩ := exec_finishes h
  have hkept : w.ctl.ioerr = s.ctl.ioerr := by rw [hw.ctl]; rfl
  rcases hend with ⟨_, rfl⟩ | ⟨_, k, _, rfl⟩ | ⟨T, _, rfl⟩ | ⟨e, _, rfl⟩ | ⟨st, rfl⟩
  · exact hkept
  · exact hkept
  · rw [State.fail_ctl]; exact hkept
  · have hio := exec_failure_mayRaise (T := .ioFailure) h (by rw [State.fail_ctl]; rfl) (by rw [State.fail_ctl]; rfl)
    rw [hi] at hio
    cases hio
  · exact hkept

/-! Frames -/

/-- What a unit command whose body keeps `f` leaves, but for the control registers, HEAP and the Sink, is what a state `w` that
agrees with `s` on `f` and on the coming events holds. -/
theorem exec_frame_unit {β : Type} {f : State → β} {i : Instr} (hf : writesSink i = true → SnkBlind f)
    (hbody : ∀ s, Within (Eff f) s (bodyOf i s)) (hi : wholeFile i = false) {s t : State} (h : exec i s = .next t) :
    ∃ w, f w = f (s.begin (some i)) ∧ w.env.events = s.env.events
      ∧ t = { w with ctl := t.ctl, heap := t.heap, env := { w.env with snk := t.env.snk } } := by
  obtain ⟨w, ⟨hmoves, hkept⟩, hend⟩ := exec_eff hf hbody h
  exact ⟨w, hkept, hmoves.events, Finishes.frame_unit (i := i) (s := s) hend (running_of hmoves.toSnkMoves) hi⟩

/-- The same without a flush: a command that does not write the Sink leaves it alone. -/
theorem exec_frame_noSink {β : Type} {f : State → β} {i : Instr} (hbody : ∀ s, Within (Eff f) s (bodyOf i s))
    (hno : writesSink i = false) (hi : wholeFile i = false) {s t : State} (h : exec i s = .next t) :
    ∃ w, f w = f (s.begin (some i)) ∧ w.env.events = s.env.events
      ∧ t = { w with ctl := t.ctl, heap := t.heap, env := { w.env with snk := s.env.snk } } := by
  obtain ⟨w, hkept, hevents, ht⟩ := exec_frame_unit (fun hw => absurd (hno.symm.trans hw) (by decide)) hbody hi h
  rw [exec_snk hno h] at ht
  exact ⟨w, hkept, hevents, ht⟩

/-! BUILD, SERIALIZE, DESERIALIZE -/

theorem exec_build_heap {s t : State} (h : exec .build s = .next t) : t.heap = [] := by
  rw [exec_eq, bodyOf] at h
  rcases procBuild_cases (s.begin (some .build)) with ⟨u, tr, hok, -, hu⟩ | ⟨heap, hraised⟩
  · rw [command_of_ok hok (by rw [hu]; rfl) rfl] at h
    cases h
    rw [State.settle_heap, hu]
  · rw [command_of_raised hraised] at h
    cases h
    exact State.fail_heap _ _

theorem exec_build_frame {s t : State} (h : exec .build s = .next t) :
    t = { s.withControlOf t with node := t.node, heap := [], tree := t.tree } := by
  have hioerr := exec_ioerr_kept (i := .build) rfl h
  have hheap := exec_build_heap h
  obtain ⟨w, hkept, -, ht⟩ := exec_frame_noSink build_body rfl rfl h
  simp only [keptByBuild, Prod.mk.injEq] at hkept
  rw [ht]
  simp [State.withControlOf, hheap, ← hioerr, hkept]

theorem exec_serialize_frame {s t : State} (h : exec .serialize s = .next t) :
    t = { s.withControlOf t with ser := t.ser, heap := t.heap } := by
  have hioerr := exec_ioerr_kept (i := .serialize) rfl h
  obtain ⟨w, hkept, -, ht⟩ := exec_frame_noSink serialize_body rfl rfl h
  simp only [keptBySerialize, Prod.mk.injEq] at hkept
  rw [ht]
  simp [State.withControlOf, ← hioerr, hkept]

theorem exec_deserialize_frame {s t : State} (h : exec .deserialize s = .next t) :
    t = { s.withControlOf t with node := t.node, tree := t.tree, heap := t.heap, des := t.des } := by
  have hioerr := exec_ioerr_kept (i := .deserialize) rfl h
  obtain ⟨w, hkept, -, ht⟩ := exec_frame_noSink deserialize_body rfl rfl h
  simp only [keptByDeserialize, Prod.mk.injEq] at hkept
  rw [ht]
  simp [State.withControlOf, ← hioerr, hkept]

/-! COUNT, RDHDR, WRHDR -/

theorem exec_count_frame {s t : State} (h : exec .count s = .next t) :
    t = { s.withControlOf t with
          freq := t.freq, origLen := t.origLen, heap := t.heap, ctl.ioerr := t.ctl.ioerr,
          env := { s.env with src := t.env.src, answers := t.env.answers } } := by
  obtain ⟨w, hkept, hevents, ht⟩ := exec_frame_noSink count_body rfl rfl h
  simp only [keptByCount, Prod.mk.injEq] at hkept
  rw [ht]
  simp [State.withControlOf, hevents, hkept]

theorem exec_rdhdr_frame {s t : State} (h : exec .rdhdr s = .next t) :
    t = { s.withControlOf t with
          ser := t.ser, origLen := t.origLen, heap := t.heap, ctl.ioerr := t.ctl.ioerr,
          env := { s.env with src := t.env.src, answers := t.env.answers } } := by
  obtain ⟨w, hkept, hevents, ht⟩ := exec_frame_noSink rdhdr_body rfl rfl h
  simp only [keptByReadHeader, Prod.mk.injEq] at hkept
  rw [ht]
  simp [State.withControlOf, hevents, hkept]

theorem exec_wrhdr_frame {s t : State} (h : exec .wrhdr s = .next t) :
    t = { s.withControlOf t with
          heap := t.heap, ctl.ioerr := t.ctl.ioerr, env := { s.env with snk := t.env.snk, answers := t.env.answers } } := by
  obtain ⟨w, hkept, hevents, ht⟩ := exec_frame_unit (fun _ _ _ _ _ => rfl) wrhdr_body rfl h
  simp only [keptByWriteHeader, Prod.mk.injEq] at hkept
  rw [ht]
  simp [State.withControlOf, hevents, hkept]

/-! ENCODE, DECODE -/

theorem exec_encode_frame {s t : State} (h : exec .encode s = .next t) :
    t = { s.withControlOf t with
          enc := t.enc, heap := t.heap, ctl.ioerr := t.ctl.ioerr,
          env := { s.env with src := t.env.src, snk := t.env.snk, answers := t.env.answers } } := by
  obtain ⟨w, hkept, hevents, ht⟩ := exec_frame_unit (fun _ _ _ _ _ => rfl) encode_body rfl h
  simp only [keptByEncode, Prod.mk.injEq] at hkept
  rw [ht]
  simp [State.withControlOf, hevents, hkept]

theorem exec_decode_frame {s t : State} (h : exec .decode s = .next t) :
    t = { s.withControlOf t with
          dec := t.dec, heap := t.heap, ctl.ioerr := t.ctl.ioerr,
          env := { s.env with src := t.env.src, snk := t.env.snk, answers := t.env.answers } } := by
  obtain ⟨w, hkept, hevents, ht⟩ := exec_frame_unit (fun _ _ _ _ _ => rfl) decode_body rfl h
  simp only [keptByDecode, Prod.mk.injEq] at hkept
  rw [ht]
  simp [State.withControlOf, hevents, hkept]

/-! COMPRESS, DECOMPRESS -/

theorem exec_compress_frame {s t : State} (h : exec .compress s = .next t) :
    t = { s.withControlOf t with
          freq := t.freq, node := t.node, heap := t.heap, tree := t.tree, ser := t.ser, origLen := t.origLen,
          enc := t.enc, ctl.ioerr := t.ctl.ioerr,
          env := { s.env with src := t.env.src, snk := t.env.snk, answers := t.env.answers } } := by
  obtain ⟨w, ⟨hmoves, hkept⟩, hend⟩ := command_cases (f := keptByCompress) (fun _ _ _ _ _ => rfl) (SEff.builds keptByCompress)
    Eff.toSEff (compressBody_within _) h
  have ht := Finishes.frame (i := .compress) (s := s) hend
  have hevents : w.env.events = s.env.events := hmoves.events
  simp only [keptByCompress, Prod.mk.injEq] at hkept
  rw [ht]
  simp [State.withControlOf, hevents, hkept]

theorem exec_decompress_frame {s t : State} (h : exec .decompress s = .next t) :
    t = { s.withControlOf t with
          node := t.node, heap := t.heap, tree := t.tree, ser := t.ser, origLen := t.origLen,
          dec := t.dec, des := t.des, ctl.ioerr := t.ctl.ioerr,
          env := { s.env with src := t.env.src, snk := t.env.snk, answers := t.env.answers } } := by
  obtain ⟨w, ⟨hmoves, hkept⟩, hend⟩ := exec_eff (i := .decompress) (f := keptByDecompress) (fun _ _ _ _ _ => rfl)
    decompressBody_within h
  have ht := Finishes.frame (i := .decompress) (s := s) hend
  have hevents : w.env.events = s.env.events := hmoves.events
  simp only [keptByDecompress, Prod.mk.injEq] at hkept
  rw [ht]
  simp [State.withControlOf, hevents, hkept]

end Sys2Proof.Machine

namespace Sys2Proof
open Sys2Proof.Machine

/-- Settles O53, by the frames of the three commands. -/
theorem frameOfRegisterCommands : Obligations.FrameOfRegisterCommands :=
  fun _ _ => ⟨exec_build_frame, exec_serialize_frame, exec_deserialize_frame⟩

/-- Settles O54, by the frames of the three commands. -/
theorem frameOfCountAndHeaderCommands : Obligations.FrameOfCountAndHeaderCommands :=
  fun _ _ => ⟨fun h => ⟨exec_sameSource (by decide) h, exec_count_frame h⟩,
    fun h => ⟨exec_sameSource (by decide) h, exec_rdhdr_frame h⟩, fun h => ⟨exec_sinkBytes_prefix h, exec_wrhdr_frame h⟩⟩

/-- Settles O55, by the frames of the two commands. -/
theorem frameOfEncodeAndDecode : Obligations.FrameOfEncodeAndDecode :=
  fun _ _ => ⟨fun h => ⟨exec_sameSource (by decide) h, exec_sinkBytes_prefix h, exec_encode_frame h⟩,
    fun h => ⟨exec_sameSource (by decide) h, exec_sinkBytes_prefix h, exec_decode_frame h⟩⟩

/-- Settles O56, by the frames of the two commands. -/
theorem frameOfWholeFileCommands : Obligations.FrameOfWholeFileCommands :=
  fun _ _ => ⟨fun h => ⟨exec_sinkBytes_prefix h, exec_compress_frame h⟩,
    fun h => ⟨exec_sameSource (by decide) h, exec_sinkBytes_prefix h, exec_decompress_frame h⟩⟩

end Sys2Proof
end

section
/-! PROOF. A command whose first primitive call fails (20_memory.md R66, 60_exceptions.md R244, R249, R250,
70_reset_and_hazards.md R275). -/

namespace Sys2Proof.Machine

/-! A call that fails -/

/-- The next call of the Source fails with error value `e` and leaves the answers `l`: it is answered `IoError(e)`, or no
Source is bound, which uses up no answer (R66, R275). -/
def State.sourceFails (s : State) (e : IoErr) (l : List Answer) : Prop :=
  ((∃ src, s.env.src = .bound src) ∧ s.env.answers = .ioError e :: l)
    ∨ ((∃ x, s.env.src = .unbound e x) ∧ s.env.answers = l)

/-- The same of the Sink. -/
def State.sinkFails (s : State) (e : IoErr) (l : List Answer) : Prop :=
  ((∃ snk, s.env.snk = .bound snk) ∧ s.env.answers = .ioError e :: l)
    ∨ ((∃ x, s.env.snk = .unbound e x) ∧ s.env.answers = l)

/-- The state in which a failing call raises IoFailure (R13). -/
def State.callFailed (s : State) (e : IoErr) (l : List Answer) : State := { s with ctl.ioerr := e, env.answers := l }

theorem State.callFailed_of_answers {s : State} {l : List Answer} (h : s.env.answers = l) (e : IoErr) :
    s.callFailed e l = { s with ctl.ioerr := e } := by
  subst h; rfl

theorem callSource_fails {α : Type} (f : Source → α × Source) {s : State} {e : IoErr} {l : List Answer}
    (h : s.sourceFails e l) : callSource f s = .raised .ioFailure (s.callFailed e l) := by
  rcases h with ⟨⟨src, hsrc⟩, hanswers⟩ | ⟨⟨x, hsrc⟩, hanswers⟩
  · simp [callSource, hsrc, answerCall, hanswers, ioError, State.callFailed]
  · simp [callSource, hsrc, ioError, State.callFailed_of_answers hanswers]

theorem callSink_fails (f : Sink → Sink) {s : State} {e : IoErr} {l : List Answer}
    (h : s.sinkFails e l) : callSink f s = .raised .ioFailure (s.callFailed e l) := by
  rcases h with ⟨⟨snk, hsnk⟩, hanswers⟩ | ⟨⟨x, hsnk⟩, hanswers⟩
  · simp [callSink, hsnk, answerCall, hanswers, ioError, State.callFailed]
  · simp [callSink, hsnk, ioError, State.callFailed_of_answers hanswers]

theorem srcRead_fails {s : State} {e : IoErr} {l : List Answer} (h : s.sourceFails e l) :
    srcRead s = .raised .ioFailure (s.callFailed e l) := callSource_fails _ h

theorem srcReadByte_fails (T : Failure) {s : State} {e : IoErr} {l : List Answer} (h : s.sourceFails e l) :
    srcReadByte T s = .raised .ioFailure (s.callFailed e l) := by
  rw [srcReadByte, srcRead_fails h]; rfl

theorem srcReadBytes_fails (T : Failure) (n : Nat) {s : State} {e : IoErr} {l : List Answer} (h : s.sourceFails e l) :
    srcReadBytes T (n + 1) s = .raised .ioFailure (s.callFailed e l) := by
  rw [srcReadBytes, srcReadByte_fails T h]; rfl

theorem forEachByte_fails (body : Byte → Proc Unit) (n : Nat) {s : State} {e : IoErr} {l : List Answer}
    (h : s.sourceFails e l) : forEachByte body (n + 1) s = .raised .ioFailure (s.callFailed e l) := by
  rw [forEachByte, srcRead_fails h]; rfl

theorem putAll_fails {bs : List Byte} (hbs : bs ≠ []) {s : State} {e : IoErr} {l : List Answer} (h : s.sinkFails e l) :
    putAll bs s = .raised .ioFailure (s.callFailed e l) := by
  obtain ⟨b, bs, rfl⟩ := List.exists_cons_of_ne_nil hbs
  rw [putAll, put, snkAppend, callSink_fails _ h]; rfl

/-! The procedures whose first call fails -/

theorem procCount_fails {s : State} {e : IoErr} {l : List Answer} (h : s.sourceFails e l) :
    procCount s = .raised .ioFailure ((s.enter .counting).discardLen.callFailed e l) := by
  rw [procCount, srcLen, callSource_fails (s := (s.enter .counting).discardLen) _ h]; rfl

theorem procReadHeader_fails {s : State} {e : IoErr} {l : List Answer} (h : s.sourceFails e l) :
    procReadHeader s = .raised .ioFailure ((s.enter .readingHeader).discardSer.discardLen.callFailed e l) := by
  rw [procReadHeader, srcReadBytes_fails _ 1 (s := (s.enter .readingHeader).discardSer.discardLen) h]; rfl

theorem compressBody_fails {s : State} {e : IoErr} {l : List Answer} (h : s.sourceFails e l) :
    compressBody s = .raised .ioFailure ((s.discardAll.enter .counting).discardLen.callFailed e l) := by
  rw [compressBody, procCount_fails (s := s.discardAll) h]; rfl

theorem decompressBody_fails {s : State} {e : IoErr} {l : List Answer} (h : s.sourceFails e l) :
    decompressBody s = .raised .ioFailure ((s.discardAll.enter .readingHeader).discardSer.discardLen.callFailed e l) := by
  rw [decompressBody, procReadHeader_fails (s := s.discardAll) h]; rfl

theorem encode_body_fails {s : State} {e : IoErr} {l : List Answer} (h : s.sourceFails e l) (htree : s.tree.isSome = true) :
    bodyOf .encode s = .raised .ioFailure (s.startEncoding.callFailed e l) := by
  obtain ⟨head, hhead⟩ := Option.isSome_iff_exists.1 htree
  rw [bodyOf, guarded_true (by simpa [precondition, State.treeValid] using htree), procEncode_some hhead, encodeWith,
    forEachByte_fails _ _ (s := s.startEncoding) h]
  rfl

/-- The root of a held tree is an Internal entry of NODE (R31). -/
theorem State.holdsTree.root_internal {s : State} {t : HTree} (h : s.holdsTree t) :
    ∃ head f left right, s.tree = some head ∧ s.nodeAt head.root = some (.internal f left right) := by
  obtain ⟨head, hhead, habs, -, hinternal, -⟩ := h
  have hrep : Rep s.node head.root t := Rep.of_treeAt habs
  cases hrep with
  | leaf _ => cases hinternal
  | node hnode _ _ => exact ⟨head, _, _, _, hhead, nodeAt_of hnode⟩

/-- DECODE's first bit is read from the Source (R197, R198). -/
theorem decode_body_fails {s : State} {e : IoErr} {l : List Answer} {t : HTree} {n : Word64} (h : s.sourceFails e l)
    (hheld : s.holdsTree t) (hlen : s.origLen = some n) (hn : n ≠ 0) :
    ∃ root, bodyOf .decode s = .raised .ioFailure ((s.startDecoding root).callFailed e l) := by
  obtain ⟨head, f, left, right, hhead, hroot⟩ := hheld.root_internal
  have hpre : precondition .decode s = true := by simp [precondition, State.treeValid, State.lenValid, hhead, hlen]
  have hpos : (0 : Word64) < n := (BitVec.pos_iff_ne_zero n).2 hn
  have hread := srcReadByte_fails .truncatedStream (s := s.startDecoding head.root) h
  have hstep : decodeStep head.root (s.startDecoding head.root)
      = .raised .ioFailure ((s.startDecoding head.root).callFailed e l) := by
    have hcur : (s.startDecoding head.root).nodeAt (s.startDecoding head.root).dec.cur = some (.internal f left right) := hroot
    have hload : (s.startDecoding head.root).dec.inPos = 8 := rfl
    simp only [decodeStep, hcur]
    rw [nextBit, if_pos hload, hread]
    rfl
  refine ⟨head.root, ?_⟩
  rw [bodyOf, guarded_true hpre, decodeAndVerify]
  simp only [procDecode, hhead, hlen]
  rw [decodeLoop, if_pos hpos, hstep]
  rfl

theorem wrhdr_body_fails {s : State} {e : IoErr} {l : List Answer} (h : s.sinkFails e l) (hser : s.ser.isSome = true)
    (hlen : s.origLen.isSome = true) : bodyOf .wrhdr s = .raised .ioFailure ((s.enter .writingHeader).callFailed e l) := by
  obtain ⟨c, hc⟩ := Option.isSome_iff_exists.1 hser
  obtain ⟨n, hn⟩ := Option.isSome_iff_exists.1 hlen
  have hne : headerBytes c n ≠ [] := by simp [headerBytes, be16]
  rw [wrhdr_body_eq hc hn, putAll_fails hne (s := s.enter .writingHeader) h]

/-- With ORIG_LEN = 0 DECODE's body reads nothing and emits nothing (R201). -/
theorem decode_body_empty {s : State} (htree : s.tree.isSome = true) (hlen : s.origLen = some 0) (hout : s.ctl.outCount = 0) :
    ∃ root, bodyOf .decode s = .ok () (s.startDecoding root) := by
  obtain ⟨head, hhead⟩ := Option.isSome_iff_exists.1 htree
  have hpre : precondition .decode s = true := by simp [precondition, State.treeValid, State.lenValid, hhead, hlen]
  refine ⟨head.root, ?_⟩
  rw [bodyOf, guarded_true hpre, decodeAndVerify]
  simp only [procDecode, hhead, hlen]
  rw [decodeLoop, if_neg (by simp)]
  simp [verifyCount, hlen, hout]

/-! The commands whose first call fails -/

/-- How a command ends whose first call failed with error value `e` and left the answers `l` (R244, R250). -/
def FailedAtFirstCall (s t : State) (e : IoErr) (l : List Answer) : Prop :=
  t.ctl.outcome = .failure .ioFailure ∧ t.ctl.ioerr = e ∧ t.ctl.rcount = 0 ∧ t.ctl.busy = false ∧ t.env = { s.env with answers := l }

theorem fail_callFailed {s u : State} (e : IoErr) (l : List Answer) (henv : u.env = s.env) (hout : u.ctl.outCount = 0) :
    FailedAtFirstCall s ((u.callFailed e l).fail .ioFailure) e l := by
  rw [FailedAtFirstCall, State.fail_ctl, State.fail_env, ← henv]
  exact ⟨rfl, rfl, hout, rfl, rfl⟩

/-- The failure rule sets no valid flag (R250). -/
theorem State.fail_origLen_none {s : State} (h : s.origLen = none) (T : Failure) : (s.fail T).origLen = none := by
  simp only [State.fail, State.flagsAfterFailure]
  split
  · split
    · rfl
    · exact h
  · exact h

/-- The commands that begin with a call of the Source, in a state in which they reach it. -/
def readsFirst (s : State) (i : Instr) : Prop :=
  i = .count ∨ i = .rdhdr ∨ i = .compress ∨ i = .decompress ∨ (i = .encode ∧ s.tree.isSome = true)
    ∨ (i = .decode ∧ (∃ t, s.holdsTree t) ∧ ∃ n, s.origLen = some n ∧ n ≠ 0)

/-- The commands whose first call is one of the Sink, in a state in which they reach it. -/
def writesFirst (s : State) (i : Instr) : Prop :=
  (i = .wrhdr ∧ s.ser.isSome = true ∧ s.origLen.isSome = true)
    ∨ (i = .decode ∧ s.tree.isSome = true ∧ s.origLen = some 0)

/-- The commands whose procedure begins with LEN_VALID <- 0 (R122, R219, R225, R226). -/
def discardsLen (i : Instr) : Prop := i = .count ∨ i = .rdhdr ∨ i = .compress ∨ i = .decompress

theorem writesFirst_not_discardsLen {s : State} {i : Instr} (h : writesFirst s i) : ¬ discardsLen i := by
  rcases h with ⟨rfl, -⟩ | ⟨rfl, -⟩ <;> simp [discardsLen]

/-- The body of a command that reads first raises IoFailure at once; the four that discard ORIG_LEN have done so. -/
theorem readsFirst_body_fails {s : State} {i : Instr} {e : IoErr} {l : List Answer} (hi : readsFirst s i)
    (h : s.sourceFails e l) : ∃ u : State, bodyOf i (s.begin (some i)) = .raised .ioFailure (u.callFailed e l)
      ∧ u.env = s.env ∧ u.ctl.outCount = 0
      ∧ (discardsLen i → u.origLen = none) := by
  rcases hi with rfl | rfl | rfl | rfl | ⟨rfl, htree⟩ | ⟨rfl, ⟨t, hheld⟩, n, hlen, hn⟩
  · exact ⟨_, procCount_fails (s := s.begin (some .count)) h, rfl, rfl, fun _ => rfl⟩
  · exact ⟨_, procReadHeader_fails (s := s.begin (some .rdhdr)) h, rfl, rfl, fun _ => rfl⟩
  · exact ⟨_, compressBody_fails (s := s.begin (some .compress)) h, rfl, rfl, fun _ => rfl⟩
  · exact ⟨_, decompressBody_fails (s := s.begin (some .decompress)) h, rfl, rfl, fun _ => rfl⟩
  · exact ⟨_, encode_body_fails (s := s.begin (some .encode)) h htree, rfl, rfl, fun hi => absurd hi (by simp [discardsLen])⟩
  · obtain ⟨root, hbody⟩ := decode_body_fails (s := s.begin (some .decode)) h hheld hlen hn
    exact ⟨_, hbody, rfl, rfl, fun hi => absurd hi (by simp [discardsLen])⟩

theorem exec_sourceFails {s : State} {i : Instr} {e : IoErr} {l : List Answer} (hi : readsFirst s i) (h : s.sourceFails e l) :
    ∃ t, exec i s = .next t ∧ FailedAtFirstCall s t e l ∧ (discardsLen i → t.origLen = none) := by
  obtain ⟨u, hbody, henv, hout, hlen⟩ := readsFirst_body_fails hi h
  exact ⟨_, (exec_eq i s).trans (command_of_raised hbody), fail_callFailed e l henv hout, fun hi =>
    State.fail_origLen_none (s := u.callFailed e l) (hlen hi) _⟩

/-- A flush that fails ends the command (R249). -/
theorem command_flush_fails {i : Instr} {body : Proc Unit} {s u : State} {e : IoErr} {l : List Answer}
    (hbody : body (s.begin (some i)) = .ok () u) (hrun : u.ctl.running = some i) (hw : writesSink i = true)
    (h : u.sinkFails e l) : command i body s = .next ((u.callFailed e l).fail .ioFailure) := by
  rcases h with ⟨⟨snk, hsnk⟩, hanswers⟩ | ⟨⟨x, hsnk⟩, hanswers⟩
  · exact command_flush_ioError hbody hrun hw hsnk hanswers
  · rw [State.callFailed_of_answers hanswers]
    exact command_flush_unbound hbody hrun hw hsnk

theorem exec_sinkFails {s : State} {i : Instr} {e : IoErr} {l : List Answer} (hi : writesFirst s i) (h : s.sinkFails e l) :
    ∃ t, exec i s = .next t ∧ FailedAtFirstCall s t e l := by
  rcases hi with ⟨rfl, hser, hlen⟩ | ⟨rfl, htree, hlen⟩
  · have hbody := wrhdr_body_fails (s := s.begin (some .wrhdr)) h hser hlen
    exact ⟨_, (exec_eq .wrhdr s).trans (command_of_raised hbody), fail_callFailed e l rfl rfl⟩
  · obtain ⟨root, hbody⟩ := decode_body_empty (s := s.begin (some .decode)) htree hlen rfl
    exact ⟨_, (exec_eq .decode s).trans (command_flush_fails hbody rfl rfl h), fail_callFailed e l rfl rfl⟩

end Sys2Proof.Machine

namespace Sys2Proof
open Sys2Proof.Machine

/-- Settles O46: a call answered `IoError` and a call of an unbound stream fail alike, and the first call of each command is
the one its body or its flush makes. -/
theorem ioErrorOnTheFirstReadFails : Obligations.IoErrorOnTheFirstReadFails := by
  refine ⟨fun s e l i hanswers hfirst => ?_, fun s e i hfirst => ?_⟩
  · rcases hfirst with ⟨hbound, hi⟩ | ⟨hbound, hi⟩
    · obtain ⟨t, hnext, ⟨ho, he, hr, hb, henv⟩, hlen⟩ := exec_sourceFails hi (.inl ⟨hbound, hanswers⟩)
      exact ⟨t, hnext, ho, he, hr, hb, henv, hlen⟩
    · obtain ⟨t, hnext, ho, he, hr, hb, henv⟩ := exec_sinkFails hi (.inl ⟨hbound, hanswers⟩)
      exact ⟨t, hnext, ho, he, hr, hb, henv, fun hfour => absurd hfour (writesFirst_not_discardsLen hi)⟩
  · rcases hfirst with ⟨hunbound, hi⟩ | ⟨hunbound, hi⟩
    · obtain ⟨t, hnext, hfailed, -⟩ := exec_sourceFails hi (.inr ⟨hunbound, rfl⟩)
      exact ⟨t, hnext, hfailed⟩
    · exact exec_sinkFails hi (.inr ⟨hunbound, rfl⟩)

end Sys2Proof
end

section
/-! PROOF. The command words, the codes of a held tree, ENCODE, and COMPRESS (30_encoding.md R90 to R92, R105, R109, 43_bit_encoder.md
R183 to R186, 45_file_format.md R225). -/

namespace Sys2Proof.Machine

/-! Command words (R91, R92) -/

theorem encoding_holds (i : Instr) : Laws.Encoding.Statement i := by
  cases i with
  | clear => exact Laws.Encoding.clear
  | count => exact Laws.Encoding.count
  | build => exact Laws.Encoding.build
  | serialize => exact Laws.Encoding.serialize
  | deserialize => exact Laws.Encoding.deserialize
  | wrhdr => exact Laws.Encoding.wrhdr
  | rdhdr => exact Laws.Encoding.rdhdr
  | encode => exact Laws.Encoding.encode
  | decode => exact Laws.Encoding.decode
  | compress => exact Laws.Encoding.compress
  | decompress => exact Laws.Encoding.decompress

theorem decodeWord_encode (i : Instr) : decodeWord (encode i) = some i := by
  obtain ⟨_, _, hdecode, _⟩ := encoding_holds i
  exact hdecode

theorem commandWordWf_encode (i : Instr) : commandWordWf (encode i) = true := by
  obtain ⟨_, hwf, _⟩ := encoding_holds i
  exact hwf

/-- A word that decodes is the word of its command: each arm of the decoder names one number. -/
theorem encode_of_decodeWord {w : Byte} {i : Instr} (h : decodeWord w = some i) : encode i = w := by
  unfold decodeWord at h
  split at h <;> rename_i hw <;> cases h <;> exact BitVec.eq_of_toNat_eq hw.symm

theorem decodeWord_reserved {w : Byte} (h : commandWordWf w = false) : decodeWord w = none := by
  cases hdecode : decodeWord w with
  | none => rfl
  | some i =>
    rw [← encode_of_decodeWord hdecode, commandWordWf_encode] at h
    cases h

/-- A reserved code leaves the control registers as the failure rule sets them, and HEAP empty (R92, R250). -/
theorem reservedCode_eq (s : State) : reservedCode s = { s with heap := [] }.ended (.failure .protocolError) 0 0 := rfl

/-! Codes (R109) -/

theorem HTree.codeTable_read_leaf {t : HTree} (hn : t.leaves.Nodup) {v : Byte} {p : List Bool} (h : t.path v = some p) :
    t.codeTable.read v = entryOf p := by
  rw [t.codeTable_read hn, h]

theorem HTree.codeTable_read_of_notMem {t : HTree} (hn : t.leaves.Nodup) {v : Byte} (h : v ∉ t.leaves) :
    t.codeTable.read v = CodeEntry.noCode := by
  rw [← t.path_isSome_iff, Option.not_isSome_iff_eq_none] at h
  rw [t.codeTable_read hn, h]

/-- A path of a tree with distinct leaf values has at most MAX_INTERNAL bits (R9, R31). -/
theorem HTree.path_length_le {t : HTree} (hn : t.leaves.Nodup) {v : Byte} {p : List Bool} (h : t.path v = some p) :
    p.length ≤ Config.maxInternal := by
  have hlt := t.path_length_lt h
  have hle := leaves_length_le hn
  rw [Config.maxInternal]
  omega

/-! ENCODE -/

/-- ENCODE's body when every byte left in the Source has a code (R183, R184). -/
theorem encode_body_ok {s : State} {t : HTree} {h : TreeHead} {src : Source} {k : Sink} (hheld : s.holdsTree t)
    (htree : s.tree = some h) (hsrc : s.env.src = .bound src) (hsnk : s.env.snk = .bound k) (hquiet : s.quiet)
    (hxs : ∀ x ∈ src.rest, x ∈ t.leaves) :
    bodyOf .encode s = .ok () { s.startEncoding with
      ctl := { s.startEncoding.ctl with
        inCount := s.ctl.inCount + BitVec.ofNat 64 src.rest.length
        outCount := s.ctl.outCount + BitVec.ofNat 64 (((streamBits h.code src.rest).length + 7) / 8) }
      env := { s.env with
        src := .bound (src.advance src.rest.length), snk := .bound (k.append (packBits (streamBits h.code src.rest))) } } := by
  obtain ⟨head, hhead, -, hcode, hinternal, hnodup, -⟩ := hheld
  obtain rfl : head = h := Option.some.inj (hhead.symm.trans htree)
  have hcoded : ∀ x ∈ src.rest, (head.code.read x).len ≠ 0 := fun x hx => by
    rw [hcode, t.code_ne_zero hinternal hnodup]; exact hxs x hx
  have hpre : precondition .encode s = true := by simp [precondition, State.treeValid, htree]
  rw [bodyOf, guarded_true hpre, procEncode_some htree]
  exact encodeWith_all (s := s.startEncoding) hsrc hsnk hquiet hcoded rfl

/-! COMPRESS -/

/-- COMPRESS in `s` with its first pass over `src` done: the header of `tr` is in the Sink, and the second pass is to start
in `w` (R225). -/
structure SecondPass (s : State) (src : Source) (k : Sink) (tr : HTree) (header : List Byte) (w : State) : Prop where
  body : compressBody (s.begin (some .compress))
    = (encodeWith tr.codeTable w).bind fun _ s => (verifyPass s).bind fun _ s => discardStep s
  nodup : tr.leaves.Nodup
  internal : tr.isInternal = true
  mem_leaves : ∀ v, v ∈ tr.leaves ↔ v ∈ src.rest
  header_eq : header = headerBytes { shape := tr.shape, leafv := tr.leaves } src.len
  state : w = { s with
    ctl := { s.ctl with
      busy := true, phase := .encoding, inCount := 0, outCount := BitVec.ofNat 64 header.length, running := some .compress }
    freq := w.freq, node := w.node, heap := [], tree := w.tree, ser := w.ser, origLen := some src.len
    enc := { pend := 0, pendN := 0 }
    env := { s.env with src := .bound src.rewind, snk := .bound (k.append header) } }

/-- What COMPRESS leaves besides the control registers: FREQ, the encoder's scratch and the streams as given, nothing valid
(R225, R250). -/
def State.compressed (s : State) (freq : ByteTable Word64) (enc : EncRegs) (src : Source) (k : Sink) : State :=
  { s with
    freq := freq, node := [], heap := [], tree := none, ser := none, origLen := none, enc := enc,
    env.src := .bound src, env.snk := .bound k }

/-- The second pass, started in `s`, having taken `taken` bytes with `appended` bytes in the Sink. -/
def State.inPass (s : State) (enc : EncRegs) (src : Source) (k : Sink) (taken appended : Nat) : State :=
  { s with
    enc := enc
    ctl := { s.ctl with inCount := BitVec.ofNat 64 taken, outCount := BitVec.ofNat 64 appended }
    env := { s.env with src := .bound src, snk := .bound k } }

/-- The encoder's state after `taken` bytes and the bits `bits` is one of the pass. -/
theorem encSt_encRead_eq_inPass {w : State} {src : Source} {k : Sink} {bits : List Bool} {taken appended : Nat}
    (hin : w.ctl.inCount = 0) (hout : w.ctl.outCount = BitVec.ofNat 64 appended) :
    encSt (encRead w src taken) k bits = w.inPass (encSt w k bits).enc (src.advance taken) (k.append (fullBytes bits))
      taken (appended + bits.length / 8) := by
  simp [encSt, encRead, State.inPass, hin, hout, BitVec.ofNat_add]

namespace SecondPass

variable {s : State} {src : Source} {k : Sink} {tr : HTree} {header : List Byte} {w : State}

theorem exists_of_input (hsrc : s.env.src = .bound src) (hsnk : s.env.snk = .bound k) (hquiet : s.quiet)
    (hlt : src.rest.length < 2 ^ 64) (hlen : src.len = BitVec.ofNat 64 src.rest.length) (htwo : 2 ≤ src.rest.dedup.length) :
    ∃ tr header w, SecondPass s src k tr header w := by
  obtain ⟨tr, header, w, hbody, hnodup, hinternal, hmem, hheader, hw⟩ :=
    compressBody_encoding hsrc hsnk hquiet hlt hlen htwo
  refine ⟨tr, header, w, hbody, hnodup, hinternal, hmem, hheader, ?_⟩
  have hfreq : w.freq = tallied zeroFreq src.rest := by rw [hw]
  rw [hfreq]
  exact hw

theorem coded (h : SecondPass s src k tr header w) {x : Byte} : (tr.codeTable.read x).len ≠ 0 ↔ x ∈ src.rest := by
  rw [tr.code_ne_zero h.internal h.nodup, h.mem_leaves]

/-- A failure in the second pass ends COMPRESS with the bytes appended so far, unflushed (R250). -/
theorem fail_inPass (h : SecondPass s src k tr header w) (t : Failure) (enc : EncRegs) (src' : Source) (k' : Sink)
    (taken appended : Nat) : (w.inPass enc src' k' taken appended).fail t
      = (s.compressed w.freq enc src' k').ended (.failure t) taken appended := by
  have hrun : (w.inPass enc src' k' taken appended).ctl.running = some .compress := by rw [h.state]; rfl
  rw [State.fail_whole hrun rfl, State.settle_eq_ended (taken := taken) (appended := appended) rfl rfl, h.state]
  rfl

/-- A byte without a code ends COMPRESS where it is read (R186, R245). -/
theorem exec_uncoded (h : SecondPass s src k tr header w) (hquiet : s.quiet) {xs rest : List Byte} {x : Byte}
    (hrest : src.rewind.rest = xs ++ x :: rest) (hxs : ∀ y ∈ xs, y ∈ src.rest) (hx : x ∉ src.rest) :
    ∃ enc, exec .compress s = .next ((s.compressed w.freq enc (src.rewind.advance (xs.length + 1)) (k.append (header
        ++ (packBits (streamBits tr.codeTable xs)).take ((streamBits tr.codeTable xs).length / 8)))).ended
      (.failure .protocolError) (xs.length + 1) (header.length + (streamBits tr.codeTable xs).length / 8)) := by
  have hpass := encodeWith_uncoded (s := w) (code := tr.codeTable) (k := k.append header) (by rw [h.state]) (by rw [h.state])
    (by rw [h.state]; exact hquiet) hrest (fun y hy => h.coded.2 (hxs y hy)) (not_not.1 (mt h.coded.1 hx)) (by rw [h.state])
  rw [encSt_encRead_eq_inPass (appended := header.length) (by rw [h.state]) (by rw [h.state]), Sink.append_append,
    fullBytes_eq_take] at hpass
  have hbody : bodyOf .compress (s.begin (some .compress)) = _ := h.body
  rw [hpass] at hbody
  exact ⟨_, by rw [exec_eq, command_of_raised hbody, h.fail_inPass]⟩

/-- The second pass when every byte it shows has a code (R183, R184). -/
theorem encodeWith_coded (h : SecondPass s src k tr header w) (hquiet : s.quiet)
    (hxs : ∀ y ∈ src.rewind.rest, y ∈ src.rest) : encodeWith tr.codeTable w
      = .ok () (w.inPass { pend := 0, pendN := 0 } (src.rewind.advance src.rewind.rest.length)
        (k.append (header ++ packBits (streamBits tr.codeTable src.rewind.rest))) src.rewind.rest.length
        (header ++ packBits (streamBits tr.codeTable src.rewind.rest)).length) := by
  have henc : w.enc = { pend := 0, pendN := 0 } := by rw [h.state]
  have hin : w.ctl.inCount = 0 := by rw [h.state]
  have hout : w.ctl.outCount = BitVec.ofNat 64 header.length := by rw [h.state]
  rw [encodeWith_all (src := src.rewind) (k := k.append header) (by rw [h.state]) (by rw [h.state])
    (by rw [h.state]; exact hquiet) (fun y hy => h.coded.2 (hxs y hy)) henc]
  simp [State.inPass, henc, hin, hout, packBits_length, BitVec.ofNat_add]

theorem verifyPass_inPass (h : SecondPass s src k tr header w) (enc : EncRegs) (src' : Source) (k' : Sink) (taken appended : Nat) :
    verifyPass (w.inPass enc src' k' taken appended)
      = require (src.len == BitVec.ofNat 64 taken) .protocolError (w.inPass enc src' k' taken appended) := by
  have hlen : (w.inPass enc src' k' taken appended).origLen = some src.len := by rw [h.state]; rfl
  rw [verifyPass, hlen]
  rfl

/-- A second pass of another length is refused once all of it is appended (R245). -/
theorem exec_miscounted (h : SecondPass s src k tr header w) (hquiet : s.quiet) (hxs : ∀ y ∈ src.rewind.rest, y ∈ src.rest)
    (hne : BitVec.ofNat 64 src.rewind.rest.length ≠ src.len) :
    exec .compress s = .next ((s.compressed w.freq { pend := 0, pendN := 0 } (src.rewind.advance src.rewind.rest.length)
        (k.append (header ++ packBits (streamBits tr.codeTable src.rewind.rest)))).ended
      (.failure .protocolError) src.rewind.rest.length
      (header ++ packBits (streamBits tr.codeTable src.rewind.rest)).length) := by
  have hbody : bodyOf .compress (s.begin (some .compress)) = _ := h.body
  rw [h.encodeWith_coded hquiet hxs, Run.bind_ok, h.verifyPass_inPass, beq_false_of_ne hne.symm, require_false,
    Run.bind_raised] at hbody
  rw [exec_eq, command_of_raised hbody, h.fail_inPass]

/-- A second pass of SrcLen() bytes that all have codes is encoded and flushed (R225). -/
theorem exec_coded (h : SecondPass s src k tr header w) (hquiet : s.quiet) (hxs : ∀ y ∈ src.rewind.rest, y ∈ src.rest)
    (heq : BitVec.ofNat 64 src.rewind.rest.length = src.len) :
    exec .compress s = .next ((s.compressed w.freq { pend := 0, pendN := 0 } (src.rewind.advance src.rewind.rest.length)
        (k.appendFlushed (header ++ packBits (streamBits tr.codeTable src.rewind.rest)))).ended
      .success src.rewind.rest.length (header ++ packBits (streamBits tr.codeTable src.rewind.rest)).length) := by
  have hbody : bodyOf .compress (s.begin (some .compress)) = _ := h.body
  rw [h.encodeWith_coded hquiet hxs, Run.bind_ok, h.verifyPass_inPass, beq_iff_eq.2 heq.symm, require_true,
    Run.bind_ok, discardStep] at hbody
  rw [exec_eq, command_of_ok_writer hbody (by rw [h.state]; rfl) rfl rfl (by rw [h.state]; exact hquiet),
    State.settle_eq_ended (taken := src.rewind.rest.length)
      (appended := (header ++ packBits (streamBits tr.codeTable src.rewind.rest)).length) rfl rfl, h.state]
  rfl

/-- Whatever the second pass shows, COMPRESS ends: at its first byte without a code, or after all of it. -/
theorem exec_ends (h : SecondPass s src k tr header w) (hquiet : s.quiet) : ∃ t, exec .compress s = .next t := by
  cases hfind : src.rewind.rest.find? fun y => decide (y ∉ src.rest) with
  | some x =>
    obtain ⟨hx, xs, rest, hrest, hxs⟩ := List.find?_eq_some_iff_append.1 hfind
    obtain ⟨_, hexec⟩ := h.exec_uncoded hquiet hrest (by simpa using hxs) (by simpa using hx)
    exact ⟨_, hexec⟩
  | none =>
    have hxs : ∀ y ∈ src.rewind.rest, y ∈ src.rest := by simpa using hfind
    by_cases heq : BitVec.ofNat 64 src.rewind.rest.length = src.len
    · exact ⟨_, h.exec_coded hquiet hxs heq⟩
    · exact ⟨_, h.exec_miscounted hquiet hxs heq⟩

end SecondPass

end Sys2Proof.Machine

namespace Sys2Proof
open Sys2Proof.Machine

/-- Settles O4: the decoder gives each command's own word back, and each of its arms names one number. -/
theorem decodeEncodeAgree : Obligations.DecodeEncodeAgree :=
  ⟨decodeWord_encode, fun _ _ => encode_of_decodeWord⟩

/-- Settles O5: the eleven words are the encodings of R91, and the two others are reserved. -/
theorem tableWordsDecode : Obligations.TableWordsDecode :=
  ⟨decodeWord_encode .clear, decodeWord_encode .count, decodeWord_encode .build, decodeWord_encode .serialize,
    decodeWord_encode .deserialize, decodeWord_encode .wrhdr, decodeWord_encode .rdhdr, decodeWord_encode .encode,
    decodeWord_encode .decode, decodeWord_encode .compress, decodeWord_encode .decompress,
    decodeWord_reserved (by decide), decodeWord_reserved (by decide)⟩

/-- Settles O2: a reserved word decodes to no command, so the write to CMD is Begin and the failure rule. -/
theorem reservedCodeFailsWithProtocolError : Obligations.ReservedCodeFailsWithProtocolError := by
  intro s w rest hevents hidle hreserved
  simp [step, hevents, perform, writeCmd, hidle, decodeWord_reserved hreserved, reservedCode_eq]

/-- Settles O20: a leaf's entry is `entryOf` its path, and a path has 1 to 255 bits. -/
theorem codesAreThePaths : Obligations.CodesAreThePaths := by
  intro s t h hheld htree v
  obtain ⟨head, hhead, -, hcode, hinternal, hnodup, -⟩ := hheld
  obtain rfl : head = h := Option.some.inj (hhead.symm.trans htree)
  rw [hcode]
  refine ⟨fun hv => ?_, fun hv => HTree.codeTable_read_of_notMem hnodup hv⟩
  obtain ⟨p, hp⟩ := Option.isSome_iff_exists.1 ((t.path_isSome_iff v).2 hv)
  have hle : p.length ≤ Config.maxInternal := HTree.path_length_le hnodup hp
  have hlen : (entryOf p).len.toNat = p.length := len_entryOf (Nat.lt_succ_of_le hle)
  rw [t.emission_codeTable hnodup hp, HTree.codeTable_read_leaf hnodup hp, hlen]
  exact ⟨hp, List.length_pos_iff.2 (HTree.path_ne_nil hinternal hp), hle, pathInt_lt p⟩

/-- Settles O27, from `encode_body_ok` and the flush of Finish. -/
theorem encodeAppendsThePackedCodes : Obligations.EncodeAppendsThePackedCodes := by
  intro s t h src snk hheld htree hsrc hsnk hquiet hxs
  have hbody := encode_body_ok (s := s.begin (some .encode)) hheld htree hsrc hsnk hquiet hxs
  refine ⟨_, (exec_eq .encode s).trans (command_of_ok_writer hbody rfl rfl rfl hquiet), ?_⟩
  rw [State.settle_eq_ended (taken := src.rest.length) (appended := ((streamBits h.code src.rest).length + 7) / 8)
    (by simp) (by simp)]
  rfl

/-- Settles O38: the second pass ends at its first byte without a code or after all of it; on a faithful Source it shows the
input once more. -/
theorem compressWritesTheFile : Obligations.CompressWritesTheFile := by
  refine ⟨fun s bs snk hinput hsnk hquiet htwo => ?_, fun s src snk hsrc hsnk hquiet hlt hlen htwo => ?_⟩
  · obtain ⟨hsrc, hlt⟩ := hinput
    obtain ⟨tr, header, w, h⟩ := SecondPass.exists_of_input hsrc hsnk hquiet hlt rfl htwo
    exact ⟨_, tr, _, h.exec_coded hquiet (fun _ hy => hy) rfl, h.nodup, h.mem_leaves, by rw [h.header_eq]; rfl, rfl⟩
  · obtain ⟨tr, header, w, h⟩ := SecondPass.exists_of_input hsrc hsnk hquiet hlt hlen htwo
    obtain ⟨t, hexec⟩ := h.exec_ends hquiet
    refine ⟨t, tr, header, hexec, h.nodup, h.mem_leaves, by rw [h.header_eq, hlen]; rfl, fun xs x rest hrest hxs hx => ?_,
      fun hxs => ⟨fun hne => ?_, fun heq => ?_⟩⟩
    · obtain ⟨enc, huncoded⟩ := h.exec_uncoded hquiet hrest hxs hx
      cases hexec.symm.trans huncoded
      rfl
    · cases hexec.symm.trans (h.exec_miscounted hquiet hxs hne)
      rfl
    · cases hexec.symm.trans (h.exec_coded hquiet hxs heq)
      rfl

end Sys2Proof
end

section
/-! PROOF. CLEAR and COUNT as whole commands (40_frequency_model.md R121 to R123). -/

namespace Sys2Proof.Machine

/-! COUNT on a bound Source whose calls go through -/

/-- The state COUNT leaves but for the control registers, HEAP and ORIG_LEN: the tallies of what `src` had left, and `src`
at its end (R122). -/
def State.counted (s : State) (src : Source) : State :=
  { s with freq := tallied zeroFreq src.rest, env.src := .bound (src.advance src.rest.length) }

theorem read_tallied_zeroFreq (bs : List Byte) (v : Byte) :
    (tallied zeroFreq bs).read v = BitVec.ofNat 64 (bs.count v) := by
  rw [read_tallied, read_zeroFreq, zero_add]

section
variable {s : State} {src : Source}

/-- COUNT's body, its IN_COUNT started at 0 by Begin: the check of R122 (c) is what is left open. -/
theorem count_body_quiet (hsrc : s.env.src = .bound src) (hquiet : s.quiet) :
    bodyOf .count (s.begin (some .count)) =
      (require (BitVec.ofNat 64 src.rest.length == src.len) .protocolError
        { (s.begin (some .count)).counted src with
          ctl := { (s.begin (some .count)).ctl with phase := .counting, inCount := BitVec.ofNat 64 src.rest.length }
          origLen := none }).bind
        fun _ s => .ok () { s with origLen := some src.len } := by
  have hcount := procCount_quiet (s := s.begin (some .count)) hsrc hquiet
  have hzero : (s.begin (some .count)).ctl.inCount = 0 := rfl
  rw [hzero, zero_add] at hcount
  exact hcount

theorem exec_count_of_length_eq (hsrc : s.env.src = .bound src) (hquiet : s.quiet)
    (heq : BitVec.ofNat 64 src.rest.length = src.len) :
    exec .count s = .next ({ s.counted src with origLen := some src.len }.ended .success src.rest.length 0) := by
  have hbody := count_body_quiet hsrc hquiet
  rw [beq_iff_eq.2 heq, require_true, Run.bind_ok] at hbody
  rw [exec_eq, command_of_ok hbody rfl rfl, State.settle_eq_ended (taken := src.rest.length) (appended := 0) rfl rfl]
  rfl

theorem exec_count_of_length_ne (hsrc : s.env.src = .bound src) (hquiet : s.quiet)
    (hne : BitVec.ofNat 64 src.rest.length ≠ src.len) :
    exec .count s =
      .next ({ s.counted src with origLen := none, heap := [] }.ended (.failure .protocolError) src.rest.length 0) := by
  have hbody := count_body_quiet hsrc hquiet
  rw [beq_false_of_ne hne, require_false, Run.bind_raised] at hbody
  rw [exec_eq, command_of_raised hbody, State.fail_unit (i := .count) rfl rfl,
    State.settle_eq_ended (taken := src.rest.length) (appended := 0) rfl rfl]
  rfl

/-- Both ends of COUNT leave the same FREQ; the number of bytes left decides which end it is (R122, R123, R245). -/
theorem exec_count_quiet (hsrc : s.env.src = .bound src) (hquiet : s.quiet) :
    ∃ t, exec .count s = .next t ∧ t.freq = tallied zeroFreq src.rest
      ∧ (BitVec.ofNat 64 src.rest.length = src.len →
          t = { s.counted src with origLen := some src.len }.ended .success src.rest.length 0)
      ∧ (BitVec.ofNat 64 src.rest.length ≠ src.len →
          t = { s.counted src with origLen := none, heap := [] }.ended (.failure .protocolError) src.rest.length 0) := by
  by_cases heq : BitVec.ofNat 64 src.rest.length = src.len
  · exact ⟨_, exec_count_of_length_eq hsrc hquiet heq, rfl, fun _ => rfl, fun hne => absurd heq hne⟩
  · exact ⟨_, exec_count_of_length_ne hsrc hquiet heq, rfl, fun h => absurd h heq, fun _ => rfl⟩

end

end Sys2Proof.Machine

namespace Sys2Proof
open Sys2Proof.Machine

/-- Settles O14: FREQ holds the tallies of the bytes left, and a count is the sum of the counts over any pieces that make
those bytes up, the chunks of each K among them. -/
theorem countCountsTheSource : Obligations.CountCountsTheSource := by
  intro s src hsrc hquiet
  obtain ⟨t, hexec, hfreq, heq, hne⟩ := exec_count_quiet hsrc hquiet
  have hread : ∀ v, t.freq.read v = BitVec.ofNat 64 (src.rest.count v) := fun v => by
    rw [hfreq, read_tallied_zeroFreq]
  refine ⟨t, hexec, hread, fun K hK => ⟨chunksOf_length hK _ _, fun v => ?_⟩, fun pieces hpieces v => ?_, ?_, ?_⟩
  · rw [hread, src.chunks_count hK]
  · rw [hread, ← hpieces, List.count_flatten]
  · rw [hfreq]; exact heq
  · rw [hfreq]; exact hne

/-- Settles O13: CLEAR's body calls no primitive, so it runs to Finish from every state. -/
theorem clearDiscardsEverything : Obligations.ClearDiscardsEverything := by
  intro s
  have hbody : bodyOf .clear (s.begin (some .clear)) =
      .ok () ({ s.begin (some .clear) with freq := zeroFreq } : State).discardAll := rfl
  rw [exec_eq, command_of_ok hbody rfl rfl, State.settle_eq_ended (taken := 0) (appended := 0) rfl rfl]
  rfl

end Sys2Proof
end

section
/-! PROOF. Leaf depths of binary trees, and the merge of the two least weights in them (41_tree_builder.md R138). -/

namespace Sys2Proof.Machine

/-- The depths of the leaves of a binary tree: one leaf at the root, or a tree with one of its leaves split in two. -/
inductive LeafDepths : Multiset Nat → Prop where
  | root : LeafDepths {0}
  | split {d : Nat} {D : Multiset Nat} : LeafDepths (d ::ₘ D) → LeafDepths ((d + 1) ::ₘ (d + 1) ::ₘ D)

/-- The split that made the deepest leaves can be taken to be the last one. -/
theorem LeafDepths.deepest_split {D : Multiset Nat} (h : LeafDepths D) :
    D = {0} ∨ ∃ d D', D = (d + 1) ::ₘ (d + 1) ::ₘ D' ∧ LeafDepths (d ::ₘ D') ∧ ∀ e ∈ D', e ≤ d + 1 := by
  induction h with
  | root => exact .inl rfl
  | @split d D h ih =>
    right
    rcases ih with hroot | ⟨e, E, hE, hmerged, hmax⟩
    · obtain ⟨rfl, rfl⟩ := (Multiset.singleton_eq_cons_iff D).1 hroot.symm
      exact ⟨0, 0, rfl, h, by simp⟩
    have hle : ∀ x ∈ d ::ₘ D, x ≤ e + 1 := by
      rw [hE]
      simpa using hmax
    by_cases hed : e ≤ d
    · exact ⟨d, D, rfl, h, fun x hx => (hle x (Multiset.mem_cons_of_mem hx)).trans (by omega)⟩
    · have hde : d ≠ e + 1 := by have := hle d (Multiset.mem_cons_self d D); omega
      have hd : d ∈ E := by
        have hd := Multiset.mem_cons_self d D
        rw [hE] at hd
        simpa [hde] using hd
      obtain ⟨E, rfl⟩ := Multiset.exists_cons_of_mem hd
      have hD : D = (e + 1) ::ₘ (e + 1) ::ₘ E := by
        rw [Multiset.cons_swap _ d, Multiset.cons_swap _ d] at hE
        exact (Multiset.cons_inj_right d).1 hE
      refine ⟨e, (d + 1) ::ₘ (d + 1) ::ₘ E, ?_, ?_, fun x hx => ?_⟩
      · rw [hD]
        simp only [← Multiset.singleton_add]
        abel
      · rw [Multiset.cons_swap] at hmerged
        simpa only [Multiset.cons_swap e] using hmerged.split
      · rcases Multiset.mem_cons.1 hx with rfl | hx
        · omega
        rcases Multiset.mem_cons.1 hx with rfl | hx
        · omega
        exact hmax x (Multiset.mem_cons_of_mem hx)

/-- The sum of weight × depth over leaves given by weight and depth (R138). -/
def codeCost (P : Multiset (Nat × Nat)) : Nat := (P.map fun p => p.1 * p.2).sum

@[simp] theorem codeCost_cons (w d : Nat) (P : Multiset (Nat × Nat)) : codeCost ((w, d) ::ₘ P) = w * d + codeCost P := by
  simp [codeCost]

theorem exists_cons_of_map_fst {P : Multiset (Nat × Nat)} {w : Nat} (h : w ∈ P.map Prod.fst) : ∃ d Q, P = (w, d) ::ₘ Q := by
  obtain ⟨⟨_, d⟩, hp, rfl⟩ := Multiset.mem_map.1 h
  exact ⟨d, Multiset.exists_cons_of_mem hp⟩

theorem exists_cons_of_map_snd {P : Multiset (Nat × Nat)} {d : Nat} {D : Multiset Nat} (h : P.map Prod.snd = d ::ₘ D) :
    ∃ w Q, P = (w, d) ::ₘ Q ∧ Q.map Prod.snd = D := by
  obtain ⟨⟨w, _⟩, hp, rfl⟩ := Multiset.mem_map.1 (h ▸ Multiset.mem_cons_self d D)
  obtain ⟨Q, rfl⟩ := Multiset.exists_cons_of_mem hp
  exact ⟨w, Q, rfl, by simpa using h⟩

/-- Exchanging the weight at a deepest leaf with a weight that is no greater does not raise the cost. -/
theorem exchange_deepest {P : Multiset (Nat × Nat)} {x b e : Nat} (hmax : ∀ d ∈ P.map Prod.snd, d ≤ e)
    (hmem : b ∈ x ::ₘ P.map Prod.fst) (hle : b ≤ x) :
    ∃ Q : Multiset (Nat × Nat), Q.map Prod.snd = P.map Prod.snd ∧ b ::ₘ Q.map Prod.fst = x ::ₘ P.map Prod.fst
      ∧ b * e + codeCost Q ≤ x * e + codeCost P := by
  rcases Multiset.mem_cons.1 hmem with rfl | hmem
  · exact ⟨P, rfl, rfl, le_rfl⟩
  obtain ⟨i, R, rfl⟩ := exists_cons_of_map_fst hmem
  have hie : i ≤ e := hmax i (by simp)
  refine ⟨(x, i) ::ₘ R, by simp, by simpa using Multiset.cons_swap b x _, ?_⟩
  obtain ⟨y, rfl⟩ := Nat.exists_eq_add_of_le hle
  obtain ⟨j, rfl⟩ := Nat.exists_eq_add_of_le hie
  simp only [codeCost_cons]
  linarith [Nat.zero_le (y * j)]

/-- Merging the two least weights: from any tree over `a`, `b` and `ws` comes one over `a + b` and `ws` that costs less by
at least `a + b`. -/
theorem LeafDepths.merge_least {P : Multiset (Nat × Nat)} {a b : Nat} {ws : Multiset Nat} (h : LeafDepths (P.map Prod.snd))
    (hw : P.map Prod.fst = a ::ₘ b ::ₘ ws) (hab : a ≤ b) (hb : ∀ w ∈ ws, b ≤ w) :
    ∃ Q : Multiset (Nat × Nat), LeafDepths (Q.map Prod.snd) ∧ Q.map Prod.fst = (a + b) ::ₘ ws
      ∧ a + b + codeCost Q ≤ codeCost P := by
  rcases h.deepest_split with hroot | ⟨d, D, hD, hmerged, hmax⟩
  · have := congrArg Multiset.card hw
    rw [Multiset.card_map, ← Multiset.card_map Prod.snd, hroot] at this
    simp at this
  obtain ⟨x, P₁, rfl, hP₁⟩ := exists_cons_of_map_snd hD
  rw [Multiset.map_cons] at hw
  obtain ⟨Q₁, hdepths₁, hweights₁, hcost₁⟩ := exchange_deepest (P := P₁) (x := x) (b := a) (e := d + 1)
    (by rw [hP₁]; simpa using hmax) (by rw [hw]; simp) (by
      have hx : x ∈ a ::ₘ b ::ₘ ws := hw ▸ Multiset.mem_cons_self ..
      simp only [Multiset.mem_cons] at hx
      rcases hx with rfl | rfl | hx
      · exact le_rfl
      · exact hab
      · exact hab.trans (hb x hx))
  obtain ⟨y, P₂, rfl, hP₂⟩ := exists_cons_of_map_snd (hdepths₁.trans hP₁)
  have hw₂ : y ::ₘ P₂.map Prod.fst = b ::ₘ ws := by
    rw [hw] at hweights₁
    simpa using hweights₁
  obtain ⟨Q₂, hdepths₂, hweights₂, hcost₂⟩ := exchange_deepest (P := P₂) (x := y) (b := b) (e := d + 1)
    (by rwa [hP₂]) (by rw [hw₂]; simp) (by
      have hy : y ∈ b ::ₘ ws := hw₂ ▸ Multiset.mem_cons_self ..
      rcases Multiset.mem_cons.1 hy with rfl | hy
      · exact le_rfl
      · exact hb y hy)
  refine ⟨(a + b, d) ::ₘ Q₂, ?_, ?_, ?_⟩
  · rwa [Multiset.map_cons, hdepths₂, hP₂]
  · rw [hw₂, Multiset.cons_inj_right] at hweights₂
    rw [Multiset.map_cons, hweights₂]
  · simp only [codeCost_cons] at hcost₁ hcost₂ ⊢
    calc a + b + ((a + b) * d + codeCost Q₂) = a * (d + 1) + (b * (d + 1) + codeCost Q₂) := by ring
      _ ≤ a * (d + 1) + (y * (d + 1) + codeCost P₂) := Nat.add_le_add_left hcost₂ _
      _ ≤ _ := hcost₁

end Sys2Proof.Machine
end

section
/-! PROOF. The weighted code length of a tree, and that Build's merges keep the least one in reach (41_tree_builder.md R132,
R134, R138). -/

namespace Sys2Proof.Machine

/-! The cost of a tree -/

@[simp] theorem HTree.weight_leaf (freq : ByteTable Word64) (v : Byte) : (HTree.leaf v).weight freq = (freq.read v).toNat := by
  simp [HTree.weight, HTree.leaves]

@[simp] theorem HTree.weight_node (freq : ByteTable Word64) (l r : HTree) :
    (HTree.node l r).weight freq = l.weight freq + r.weight freq := by
  simp [HTree.weight, HTree.leaves]

/-- The code length of a byte value, as `HTree.cost` reads it. -/
def HTree.depth (t : HTree) (v : Byte) : Nat := ((t.path v).map List.length).getD 0

theorem HTree.path_eq_none {t : HTree} {v : Byte} (h : v ∉ t.leaves) : t.path v = none := by
  rwa [← Option.not_isSome_iff_eq_none, t.path_isSome_iff]

theorem HTree.depth_node_left {l r : HTree} {v : Byte} (h : v ∈ l.leaves) : (HTree.node l r).depth v = l.depth v + 1 := by
  obtain ⟨p, hp⟩ := Option.isSome_iff_exists.1 ((l.path_isSome_iff v).2 h)
  simp [HTree.depth, HTree.path, hp]

theorem HTree.depth_node_right {l r : HTree} {v : Byte} (hl : v ∉ l.leaves) (hr : v ∈ r.leaves) :
    (HTree.node l r).depth v = r.depth v + 1 := by
  obtain ⟨p, hp⟩ := Option.isSome_iff_exists.1 ((r.path_isSome_iff v).2 hr)
  simp [HTree.depth, HTree.path, hp, HTree.path_eq_none hl]

/-- The weights of a tree's internal nodes, added up: what its merges add to the weighted code length. -/
def HTree.mergeCost (freq : ByteTable Word64) : HTree → Nat
  | .leaf _ => 0
  | .node l r => l.mergeCost freq + r.mergeCost freq + (HTree.node l r).weight freq

/-- One level more under every leaf costs the tree's weight. -/
theorem HTree.sum_deeper {freq : ByteTable Word64} {t : HTree} {d : Byte → Nat} (h : ∀ v ∈ t.leaves, d v = t.depth v + 1) :
    (t.leaves.map fun v => (freq.read v).toNat * d v).sum = t.cost freq + t.weight freq := by
  rw [HTree.cost, HTree.weight, ← List.sum_map_add]
  congr 1
  refine List.map_congr_left fun v hv => ?_
  rw [h v hv, HTree.depth]
  ring

theorem HTree.cost_eq_mergeCost (freq : ByteTable Word64) {t : HTree} (h : t.leaves.Nodup) : t.cost freq = t.mergeCost freq := by
  induction t with
  | leaf v => simp [HTree.cost, HTree.leaves, HTree.path, HTree.mergeCost]
  | node l r ihl ihr =>
    rw [HTree.leaves, List.nodup_append] at h
    obtain ⟨hl, hr, hdisjoint⟩ := h
    have hnode : (HTree.node l r).cost freq =
        ((l.leaves ++ r.leaves).map fun v => (freq.read v).toNat * (HTree.node l r).depth v).sum := rfl
    rw [hnode, List.map_append, List.sum_append, HTree.sum_deeper fun v hv => HTree.depth_node_left hv,
      HTree.sum_deeper fun v hv => HTree.depth_node_right (fun hv' => hdisjoint v hv' v hv rfl) hv, ihl hl, ihr hr,
      HTree.mergeCost, HTree.weight_node]
    ring

/-- The leaves of a tree whose root is at depth `k`, by frequency and depth. -/
def HTree.weightedDepths (freq : ByteTable Word64) : HTree → Nat → Multiset (Nat × Nat)
  | .leaf v, k => {((freq.read v).toNat, k)}
  | .node l r, k => l.weightedDepths freq (k + 1) + r.weightedDepths freq (k + 1)

theorem HTree.weightedDepths_fst (freq : ByteTable Word64) (t : HTree) : ∀ k,
    (t.weightedDepths freq k).map Prod.fst = ↑(t.leaves.map fun v => (freq.read v).toNat) := by
  induction t with
  | leaf v => intro k; rfl
  | node l r ihl ihr =>
    intro k
    rw [HTree.weightedDepths, Multiset.map_add, ihl, ihr, HTree.leaves, List.map_append, Multiset.coe_add]

theorem HTree.codeCost_weightedDepths (freq : ByteTable Word64) (t : HTree) : ∀ k,
    codeCost (t.weightedDepths freq k) = t.mergeCost freq + k * t.weight freq := by
  induction t with
  | leaf v => intro k; simp [codeCost, HTree.weightedDepths, HTree.mergeCost, Nat.mul_comm]
  | node l r ihl ihr =>
    intro k
    have hadd : codeCost ((HTree.node l r).weightedDepths freq k) =
        codeCost (l.weightedDepths freq (k + 1)) + codeCost (r.weightedDepths freq (k + 1)) := by
      simp [codeCost, HTree.weightedDepths]
    rw [hadd, ihl, ihr, HTree.mergeCost, HTree.weight_node]
    ring

/-- Hanging a tree at a leaf of a tree gives the leaf depths of a tree. -/
theorem HTree.leafDepths (freq : ByteTable Word64) (t : HTree) : ∀ {k : Nat} {D : Multiset Nat}, LeafDepths (k ::ₘ D) →
    LeafDepths ((t.weightedDepths freq k).map Prod.snd + D) := by
  induction t with
  | leaf v => intro k D h; exact h
  | node l r ihl ihr =>
    intro k D h
    have hleft := ihl h.split
    rw [Multiset.add_cons] at hleft
    have hright := ihr hleft
    rwa [add_left_comm, ← add_assoc, ← Multiset.map_add] at hright

/-! The merges of Build -/

theorem forall₂_concat {α β : Type} {R : α → β → Prop} {l : List α} {m : List β} {x : α} {y : β}
    (h : List.Forall₂ R (l ++ [x]) (m ++ [y])) : List.Forall₂ R l m ∧ R x y := by
  rw [← List.forall₂_reverse_iff, List.reverse_concat, List.reverse_concat, List.forall₂_cons, List.forall₂_reverse_iff] at h
  exact h.symm

theorem exists_of_forall₂_right {α β : Type} [DecidableEq β] {R : α → β → Prop} {l : List α} {m : List β}
    (h : List.Forall₂ R l m) {y : β} (hy : y ∈ m) : ∃ x ∈ l, R x y := by
  obtain ⟨x, l', hxy, -, hperm⟩ := forall₂_erase (R := flip R) h.flip hy
  exact ⟨x, hperm.mem_iff.2 (List.mem_cons_self ..), hxy⟩

theorem Rep.unique {nodes : List (Option Node)} {i : NodeIdx} {t u : HTree} (ht : Rep nodes i t) (hu : Rep nodes i u) : t = u := by
  have ht := ht.treeAt_eq (n := t.height + u.height + 1) (by omega)
  have hu := hu.treeAt_eq (n := t.height + u.height + 1) (by omega)
  exact Option.some.inj (ht.symm.trans hu)

theorem Rep.of_internal {nodes : List (Option Node)} {i l r : NodeIdx} {f : Word64} {tl tr : HTree}
    (h : Rep nodes i (.node tl tr)) (hi : nodes[i.toNat]? = some (some (.internal f l r))) : Rep nodes l tl ∧ Rep nodes r tr := by
  cases h with
  | node hn hl hr =>
    rw [hi] at hn
    cases hn
    exact ⟨hl, hr⟩

/-- One turn of the merge loop takes the member of least key, then the least of those left (R132). -/
theorem State.mergeStep_least {s : State} (h2 : 2 ≤ s.heap.length) :
    ∃ a b, a ∈ s.heap ∧ b ∈ s.heap.erase a ∧ (∀ j ∈ s.heap, j ≠ a → s.keyBefore a j)
      ∧ (∀ j ∈ s.heap.erase a, j ≠ b → s.keyBefore b j)
      ∧ s.mergeStep = { s with
          node := s.node ++ [some (.internal (s.freqAt a + s.freqAt b) a b)]
          heap := (s.heap.erase a).erase b ++ [BitVec.ofNat 9 s.node.length] } := by
  have hne : s.heap ≠ [] := List.ne_nil_of_length_pos (by omega)
  obtain ⟨a, ha, hleast, hextract⟩ := s.heapExtractMin_least hne
  have hlen : (s.heap.erase a).length = s.heap.length - 1 := List.length_erase_of_mem ha
  have hne' : ({ s with heap := s.heap.erase a } : State).heap ≠ [] := List.ne_nil_of_length_pos (by simp only; omega)
  obtain ⟨b, hb, hleast', hextract'⟩ := State.heapExtractMin_least _ hne'
  refine ⟨a, b, ha, hb, hleast, hleast', ?_⟩
  simp only [State.mergeStep, hextract, hextract']
  rfl

/-- A member of HEAP has a tree of the forest under it. -/
theorem Forest.exists_tree {freq : ByteTable Word64} {vs : List Byte} {s : State} {ts : List HTree} (h : Forest freq vs s ts)
    {i : NodeIdx} (hi : i ∈ s.heap) : ∃ t ∈ ts, Member freq s i t := by
  obtain ⟨t, ts', hm, -, hp⟩ := forall₂_erase h.members hi
  exact ⟨t, hp.mem_iff.2 (List.mem_cons_self ..), hm⟩

theorem Forest.weight_lt {freq : ByteTable Word64} {vs : List Byte} {s : State} {ts : List HTree} (h : Forest freq vs s ts)
    (hlt : (vs.map fun v => (freq.read v).toNat).sum < 2 ^ 64) {t : HTree} (ht : t ∈ ts) : t.weight freq < 2 ^ 64 := by
  refine lt_of_le_of_lt ?_ hlt
  rw [← (h.leaves.map fun v => (freq.read v).toNat).sum_eq]
  exact ((List.sublist_flatten_of_mem (List.mem_map_of_mem ht)).map _).sum_le_sum (fun _ _ => Nat.zero_le _)

theorem Member.toNat_freqAt {freq : ByteTable Word64} {s : State} {i : NodeIdx} {t : HTree} (h : Member freq s i t)
    (hlt : t.weight freq < 2 ^ 64) : (s.freqAt i).toNat = t.weight freq := by
  obtain ⟨-, hfreq⟩ := h
  rw [hfreq, BitVec.toNat_ofNat, Nat.mod_eq_of_lt hlt]

theorem freqAt_le_of_least {s : State} {m : NodeIdx} {l : List NodeIdx} (h : ∀ j ∈ l, j ≠ m → s.keyBefore m j) {j : NodeIdx}
    (hj : j ∈ l) : (s.freqAt m).toNat ≤ (s.freqAt j).toNat := by
  by_cases hjm : j = m
  · rw [hjm]
  · rcases h j hj hjm with hlt | ⟨heq, -⟩
    · exact hlt.le
    · exact heq.le

/-- The two trees a merge joins are the two lightest, and no sum of frequencies overflows (R132, R134). -/
theorem Forest.mergeStep_lightest {freq : ByteTable Word64} {vs : List Byte} {s : State} {ts : List HTree}
    (h : Forest freq vs s ts) (hl : vs.length ≤ 256) (hlt : (vs.map fun v => (freq.read v).toNat).sum < 2 ^ 64)
    (h2 : 2 ≤ s.heap.length) :
    ∃ ta tb ts', ts.Perm (ta :: tb :: ts') ∧ Forest freq vs s.mergeStep (ts' ++ [.node ta tb])
      ∧ ta.weight freq ≤ tb.weight freq ∧ ∀ t ∈ ts', tb.weight freq ≤ t.weight freq := by
  obtain ⟨ta, tb, ts', hperm, hnext⟩ := h.mergeStep hl h2
  refine ⟨ta, tb, ts', hperm, hnext, ?_⟩
  obtain ⟨a, b, ha, hb, hleast, hleast', hstep⟩ := State.mergeStep_least h2
  have hb_mem : b ∈ s.heap := List.mem_of_mem_erase hb
  have hnode : s.mergeStep.node = s.node ++ [some (.internal (s.freqAt a + s.freqAt b) a b)] := by rw [hstep]
  have hheap : s.mergeStep.heap = (s.heap.erase a).erase b ++ [BitVec.ofNat 9 s.node.length] := by rw [hstep]
  have hroom : s.node.length < 512 := by
    have := h.count
    have := h.members.length_eq
    omega
  have hweight {i : NodeIdx} {t : HTree} (hi : i ∈ s.heap) (hrep : Rep s.mergeStep.node i t) :
      (s.freqAt i).toNat = t.weight freq := by
    obtain ⟨u, hu, hrepu, hfreq⟩ := h.exists_tree hi
    have hrep' := hrepu.append [some (.internal (s.freqAt a + s.freqAt b) a b)]
    rw [← hnode] at hrep'
    rw [hrep.unique hrep']
    exact Member.toNat_freqAt ⟨hrepu, hfreq⟩ (h.weight_lt hlt hu)
  have hmembers := hnext.members
  rw [hheap] at hmembers
  obtain ⟨hrest, hnew, -⟩ := forall₂_concat hmembers
  have hi : s.mergeStep.node[(BitVec.ofNat 9 s.node.length : NodeIdx).toNat]? =
      some (some (.internal (s.freqAt a + s.freqAt b) a b)) := by
    rw [hnode]
    exact new_index hroom
  obtain ⟨hrepa, hrepb⟩ := hnew.of_internal hi
  rw [← hweight ha hrepa, ← hweight hb_mem hrepb]
  refine ⟨freqAt_le_of_least hleast hb_mem, fun t ht => ?_⟩
  obtain ⟨j, hj, hrep, -⟩ := exists_of_forall₂_right hrest ht
  have hj := List.mem_of_mem_erase hj
  rw [← hweight (List.mem_of_mem_erase hj) hrep]
  exact freqAt_le_of_least hleast' hj

/-- `t` costs at most what the trees `ts` cost with any tree put on top of them. -/
def BestOver (freq : ByteTable Word64) (ts : List HTree) (t : HTree) : Prop :=
  ∀ P : Multiset (Nat × Nat), LeafDepths (P.map Prod.snd) → P.map Prod.fst = ↑(ts.map (HTree.weight freq)) →
    t.mergeCost freq ≤ (ts.map (HTree.mergeCost freq)).sum + codeCost P

theorem bestOver_singleton (freq : ByteTable Word64) (t : HTree) : BestOver freq [t] t := fun P _ _ => by simp

/-- Joining the two lightest trees loses nothing: any tree on top of them all comes down to one on top of the joined tree. -/
theorem BestOver.of_joined {freq : ByteTable Word64} {ts ts' : List HTree} {ta tb t : HTree} (hperm : ts.Perm (ta :: tb :: ts'))
    (hab : ta.weight freq ≤ tb.weight freq) (hb : ∀ u ∈ ts', tb.weight freq ≤ u.weight freq)
    (h : BestOver freq (ts' ++ [.node ta tb]) t) : BestOver freq ts t := by
  intro P hP hweights
  rw [Multiset.coe_eq_coe.2 (hperm.map _)] at hweights
  obtain ⟨Q, hQ, hQweights, hcost⟩ := hP.merge_least (ws := ↑(ts'.map (HTree.weight freq))) hweights hab (by simpa using hb)
  have hjoined : Q.map Prod.fst = ↑((ts' ++ [HTree.node ta tb]).map (HTree.weight freq)) := by
    rw [hQweights, Multiset.cons_coe, Multiset.coe_eq_coe, List.map_append, ← HTree.weight_node]
    exact (List.perm_append_singleton _ _).symm
  have hbest := h Q hQ hjoined
  rw [(hperm.map _).sum_eq]
  simp only [List.map_append, List.map_cons, List.map_nil, List.sum_append, List.sum_cons, List.sum_nil,
    HTree.mergeCost, HTree.weight_node] at hbest ⊢
  omega

theorem Forest.eq_singleton {freq : ByteTable Word64} {vs : List Byte} {s : State} {ts : List HTree}
    (h : Forest freq vs s ts) (h1 : s.heap.length = 1) : ∃ t, ts = [t] :=
  List.length_eq_one_iff.1 (h.members.length_eq.symm.trans h1)

/-- The merge loop makes one tree, and none put on top of the trees it starts from costs less. -/
theorem Forest.mergeLoop_bestOver {freq : ByteTable Word64} {vs : List Byte} (hl : vs.length ≤ 256)
    (hlt : (vs.map fun v => (freq.read v).toNat).sum < 2 ^ 64) (n : Nat) : ∀ {s : State} {ts : List HTree},
    Forest freq vs s ts → s.heap.length ≤ n + 1 → 1 ≤ s.heap.length →
    ∃ t, Forest freq vs (State.mergeLoop n s) [t] ∧ BestOver freq ts t := by
  induction n with
  | zero =>
    intro s ts h hn h1
    obtain ⟨t, rfl⟩ := h.eq_singleton (by omega)
    exact ⟨t, h, bestOver_singleton freq t⟩
  | succ n ih =>
    intro s ts h hn h1
    rw [State.mergeLoop]
    split
    · rename_i h2
      obtain ⟨ta, tb, ts', hperm, hnext, hab, hb⟩ := h.mergeStep_lightest hl hlt h2
      have hlen := State.mergeStep_heap_length h2
      obtain ⟨t, ht, hbest⟩ := ih hnext (by omega) (by omega)
      exact ⟨t, ht, hbest.of_joined hperm hab hb⟩
    · obtain ⟨t, rfl⟩ := h.eq_singleton (by omega)
      exact ⟨t, h, bestOver_singleton freq t⟩

end Sys2Proof.Machine
end

section
/-! PROOF. BUILD as a whole command: the tree it makes, what that tree depends on, and that it is optimal
(41_tree_builder.md R130 to R138). -/

namespace Sys2Proof.Machine

/-! BUILD's two ends -/

/-- The state of Build when its merges are done (R132). -/
def State.merged (s : State) : State := State.mergeLoop s.startBuilding.addLeaves.heap.length s.startBuilding.addLeaves

theorem procBuild_eq_finishBuild {s : State} (h2 : 2 ≤ (presentBytes s.freq).length) : procBuild s = finishBuild s.merged := by
  have hcheck : decide (Config.minLeaves ≤ s.startBuilding.addLeaves.node.length) = true := by
    rw [decide_eq_true_iff, (addLeaves_node s).1, List.length_map]
    exact h2
  rw [procBuild, checkAlphabet, hcheck, require_true, Run.onRaise_ok, Run.bind_ok, State.merged]

theorem finishBuild_ok {s u : State} (h : finishBuild s = .ok () u) :
    ∃ root t, s.minMember s.heap = some root ∧ absTree s.node root = some t ∧ u.node = s.node
      ∧ u.tree = some { root := root, code := t.codeTable } := by
  rw [finishBuild] at h
  split at h
  · cases h
  · rename_i root s' hextract
    obtain ⟨_, hmin, heq⟩ := Option.map_eq_some_iff.1 hextract
    cases heq
    rw [finishTree] at h
    split at h
    · cases h
    · rename_i t ht
      cases h
      exact ⟨root, t, hmin, ht, rfl, rfl⟩

/-- BUILD with two byte values present or more runs to Finish, which writes the control registers only (R137, R249). -/
theorem exec_build_of_procBuild {s u : State} (h : procBuild (s.begin (some .build)) = .ok () u) :
    exec .build s = .next (u.settle .success)
      ∧ u.settle .success = { s with node := u.node, heap := [], tree := u.tree }.ended .success 0 0 := by
  rcases procBuild_cases (s.begin (some .build)) with ⟨_, _, hok, -, hu⟩ | ⟨_, hraised⟩
  · cases hok.symm.trans h
    refine ⟨?_, ?_⟩
    · rw [exec_eq, bodyOf, command_of_ok h (by rw [hu]; rfl) rfl]
    · rw [hu]; rfl
  · cases hraised.symm.trans h

/-- What BUILD ends with is what the closing step makes of the merged NODE and HEAP (R133). -/
theorem finishBuild_of_exec_build {s t : State} (h2 : 2 ≤ (presentBytes s.freq).length) (h : exec .build s = .next t) :
    ∃ u, finishBuild (s.begin (some .build)).merged = .ok () u ∧ t = u.settle .success := by
  obtain ⟨u, _, _, _, _, _, hrun, -⟩ := procBuild_ok (s.begin (some .build)) h2
  refine ⟨u, (procBuild_eq_finishBuild (s := s.begin (some .build)) h2).symm.trans hrun, ?_⟩
  cases (exec_build_of_procBuild hrun).1.symm.trans h
  rfl

theorem exec_build_insufficient {s : State} (h : (presentBytes s.freq).length < 2) :
    exec .build s =
      .next ({ s with node := [], heap := [], tree := none }.ended (.failure .insufficientAlphabet) 0 0) := by
  rw [exec_eq, bodyOf, command_of_raised (procBuild_insufficient (s.begin (some .build)) h), State.fail_unit (i := .build) rfl rfl]
  rfl

theorem presentBytes_zeroFreq : presentBytes zeroFreq = [] := by
  simp [presentBytes, read_zeroFreq]

theorem State.builtFrom.congr {s u : State} {freq : ByteTable Word64} (h : s.builtFrom freq) (hnode : u.node = s.node) :
    u.builtFrom freq := by
  simpa only [State.builtFrom, State.takenBelow, State.keyBefore, State.freqAt, State.nodeAt, hnode] using h

/-- The whole effect of BUILD with two byte values present or more. -/
theorem exec_build_spec {s : State} (h2 : 2 ≤ (presentBytes s.freq).length) :
    ∃ t tr h f l r, exec .build s = .next t ∧ t.holdsTree tr ∧ tr.leaves.Perm (presentBytes s.freq)
      ∧ t.builtFrom s.freq ∧ t.tree = some h ∧ h.root.toNat = t.node.length - 1
      ∧ t.nodeAt h.root = some (.internal f l r) ∧ f = BitVec.ofNat 64 (freqSum s.freq)
      ∧ t = { s with node := t.node, heap := [], tree := t.tree }.ended .success 0 0 := by
  obtain ⟨u, tr, h, f, l, r, hrun, hheld, hperm, htree, hroot, hinternal, hf, -⟩ := procBuild_ok (s.begin (some .build)) h2
  obtain ⟨hexec, hended⟩ := exec_build_of_procBuild hrun
  have hheld : (u.settle .success).holdsTree tr := holdsTree_congr hheld rfl rfl
  have hbuilt : (u.settle .success).builtFrom s.freq := (procBuild_builtFrom hrun).congr rfl
  exact ⟨u.settle .success, tr, h, f, l, r, hexec, hheld, hperm, hbuilt, htree, hroot, hinternal, hf, hended⟩

/-! Build depends on FREQ alone (R135) -/

theorem SameForest.merged {s s' : State} (h : s.freq = s'.freq) : SameForest s.merged s'.merged := by
  have hleaves : SameForest s.startBuilding.addLeaves s'.startBuilding.addLeaves :=
    SameForest.foldl_addLeaf allBytes ⟨h, rfl, rfl⟩
  have ⟨_, _, hheap⟩ := hleaves
  rw [State.merged, State.merged, hheap]
  exact SameForest.mergeLoop _ hleaves

theorem SameForest.finishBuild {s s' u u' : State} (h : SameForest s s') (hu : Machine.finishBuild s = .ok () u)
    (hu' : Machine.finishBuild s' = .ok () u') : u.node = u'.node ∧ u.tree = u'.tree := by
  obtain ⟨-, hnode, hheap⟩ := h
  obtain ⟨root, t, hmin, ht, hn, htree⟩ := finishBuild_ok hu
  obtain ⟨root', t', hmin', ht', hn', htree'⟩ := finishBuild_ok hu'
  rw [SameForest.minMember hnode, hheap, hmin'] at hmin
  cases hmin
  rw [hnode, ht'] at ht
  cases ht
  exact ⟨by rw [hn, hn', hnode], by rw [htree, htree']⟩

/-! The tree of two byte values (R137) -/

section
variable {s : State} {freq : ByteTable Word64} {v₁ v₂ : Byte}

theorem State.keyBefore.ne {i j : NodeIdx} (h : s.keyBefore i j) : i ≠ j := by
  rintro rfl
  rcases h with hlt | ⟨-, hlt⟩
  · exact hlt.false
  · exact hlt.false

theorem NodeIdx.eq_zero_or_one {i : NodeIdx} (h : i.toNat < 2) : i = 0 ∨ i = 1 := by
  have hcases : i.toNat = 0 ∨ i.toNat = 1 := by omega
  exact hcases.imp BitVec.eq_of_toNat_eq BitVec.eq_of_toNat_eq

/-- NODE after one merge of two leaves: the one of lower frequency on the left, at a tie the one of lower index. -/
theorem State.builtFrom.node_of_two (h : s.builtFrom freq) (hp : presentBytes freq = [v₁, v₂]) :
    (freq.read v₁ ≤ freq.read v₂ → s.node = [some (.leaf v₁ (freq.read v₁)), some (.leaf v₂ (freq.read v₂)),
        some (.internal (freq.read v₁ + freq.read v₂) 0 1)])
      ∧ (freq.read v₂ < freq.read v₁ → s.node = [some (.leaf v₁ (freq.read v₁)), some (.leaf v₂ (freq.read v₂)),
        some (.internal (freq.read v₂ + freq.read v₁) 1 0)]) := by
  obtain ⟨hleaves, hlen, hmerges⟩ := h
  simp only [hp, List.length_cons, List.length_nil] at hleaves hlen hmerges
  have h0 : s.node[0]? = some (some (.leaf v₁ (freq.read v₁))) := hleaves 0 (by omega)
  have h1 : s.node[1]? = some (some (.leaf v₂ (freq.read v₂))) := hleaves 1 (by omega)
  have hf0 : s.freqAt 0 = freq.read v₁ := by simp [State.freqAt, State.nodeAt, h0, Node.freq]
  have hf1 : s.freqAt 1 = freq.read v₂ := by simp [State.freqAt, State.nodeAt, h1, Node.freq]
  obtain ⟨l, r, h2, hl, hr, -, -, hbefore, -⟩ := hmerges 2 (by omega) (by omega)
  obtain ⟨x, y, z, hnode⟩ := List.length_eq_three.1 hlen
  rw [hnode] at h0 h1 h2 ⊢
  cases h0
  cases h1
  cases h2
  have hne := hbefore.ne
  rw [State.keyBefore] at hbefore
  rcases NodeIdx.eq_zero_or_one hl with rfl | rfl <;> rcases NodeIdx.eq_zero_or_one hr with rfl | rfl
  · exact absurd rfl hne
  · rw [hf0, hf1] at hbefore ⊢
    refine ⟨fun _ => rfl, fun hlt => ?_⟩
    rw [BitVec.lt_def] at hlt
    omega
  · rw [hf0, hf1] at hbefore ⊢
    refine ⟨fun hle => ?_, fun _ => rfl⟩
    rw [BitVec.le_def] at hle
    rcases hbefore with hlt | ⟨-, hlt⟩
    · omega
    · exact absurd hlt (by decide)
  · exact absurd rfl hne

/-- The code table of a held tree whose root joins two leaves. -/
theorem State.holdsTree.codes_of_two {t : HTree} {h : TreeHead} {f : Word64} {l r : NodeIdx} (hheld : s.holdsTree t)
    (htree : s.tree = some h) (hroot : s.node[h.root.toNat]? = some (some (.internal f l r)))
    (hl : Rep s.node l (.leaf v₁)) (hr : Rep s.node r (.leaf v₂)) :
    h.code.read v₁ = { bits := 0, len := 1 } ∧ h.code.read v₂ = { bits := 1, len := 1 } := by
  obtain ⟨_, hhead, habs, hcode, -, hnodup, -⟩ := hheld
  cases hhead.symm.trans htree
  obtain rfl : t = .node (.leaf v₁) (.leaf v₂) := (Rep.of_treeAt habs).unique (.node hroot hl hr)
  have hne : v₁ ≠ v₂ := by simpa [HTree.leaves] using hnodup
  rw [hcode, HTree.codeTable_read _ hnodup, HTree.codeTable_read _ hnodup]
  simp only [HTree.path, hne, if_true, if_false, Option.map_some]
  exact ⟨rfl, rfl⟩

end

/-! The tree is optimal (R138) -/

theorem merged_bestOver {s : State} (h2 : 2 ≤ (presentBytes s.freq).length) (hfreq : s.freqOk) :
    ∃ t, Forest s.freq (presentBytes s.freq) s.merged [t] ∧ BestOver s.freq ((presentBytes s.freq).map HTree.leaf) t := by
  have hforest := leafForest s
  have hlen := hforest.members.length_eq
  rw [List.length_map] at hlen
  exact hforest.mergeLoop_bestOver (leaves_length_le (presentBytes_nodup s.freq)) (by rwa [sum_present]) _ (by omega) (by omega)

/-- The tree the closing step leaves is the one tree of the forest (R133). -/
theorem Forest.holdsTree_unique {freq : ByteTable Word64} {vs : List Byte} {s u : State} {t tr : HTree}
    (h : Forest freq vs s [t]) (hu : Machine.finishBuild s = .ok () u) (hheld : u.holdsTree tr) : tr = t := by
  obtain ⟨root, _, hmin, -, hnode, htree⟩ := finishBuild_ok hu
  obtain ⟨_, hhead, habs, -⟩ := hheld
  cases hhead.symm.trans htree
  obtain ⟨t', ht', hrep, -⟩ := h.exists_tree (s.minMember_mem hmin)
  rw [← List.mem_singleton.1 ht']
  rw [hnode] at habs
  exact (Rep.of_treeAt habs).unique hrep

/-- A tree no dearer than any tree over its leaves is no dearer than `other`. -/
theorem BestOver.cost_le {freq : ByteTable Word64} {vs : List Byte} {t other : HTree} (h : BestOver freq (vs.map HTree.leaf) t)
    (ht : t.leaves.Nodup) (hother : other.leaves.Nodup) (hperm : other.leaves.Perm vs) : t.cost freq ≤ other.cost freq := by
  have hdepths := HTree.leafDepths freq other LeafDepths.root
  have hweights : (other.weightedDepths freq 0).map Prod.fst = ↑((vs.map HTree.leaf).map (HTree.weight freq)) := by
    rw [other.weightedDepths_fst, Multiset.coe_eq_coe.2 (hperm.map _), List.map_map]
    rfl
  have hzero : ((vs.map HTree.leaf).map (HTree.mergeCost freq)).sum = 0 := by
    simp [Function.comp_def, HTree.mergeCost]
  have hbest := h _ (by simpa using hdepths) hweights
  rw [hzero, other.codeCost_weightedDepths] at hbest
  rw [HTree.cost_eq_mergeCost freq ht, HTree.cost_eq_mergeCost freq hother]
  omega

end Sys2Proof.Machine

namespace Sys2Proof
open Sys2Proof.Machine

/-- Settles O17: Build raises before its merges; CLEAR leaves every entry 0. -/
theorem buildNeedsTwoByteValues : Obligations.BuildNeedsTwoByteValues := by
  refine ⟨fun s h => exec_build_insufficient h, fun s => ⟨_, exec_clear s, rfl, read_zeroFreq, ?_⟩⟩
  exact exec_build_insufficient (by simp [presentBytes_zeroFreq])

/-- Settles O18: the merged NODE and HEAP come from FREQ, and the closing step reads nothing else. -/
theorem buildDependsOnFreqOnly : Obligations.BuildDependsOnFreqOnly := by
  intro s s' t t' hfreq h h'
  by_cases h2 : 2 ≤ (presentBytes s.freq).length
  · obtain ⟨u, hu, rfl⟩ := finishBuild_of_exec_build h2 h
    obtain ⟨u', hu', rfl⟩ := finishBuild_of_exec_build (hfreq ▸ h2) h'
    have hsame : SameForest (s.begin (some .build)).merged (s'.begin (some .build)).merged := SameForest.merged hfreq
    obtain ⟨hnode, htree⟩ := hsame.finishBuild hu hu'
    exact ⟨hnode, htree, rfl⟩
  · have hfew : (presentBytes s.freq).length < 2 := by omega
    cases (exec_build_insufficient hfew).symm.trans h
    cases (exec_build_insufficient (hfreq ▸ hfew)).symm.trans h'
    exact ⟨rfl, rfl, rfl⟩

/-- Settles O16: what Build leaves, seen through Finish; for two byte values NODE is two leaves and one merge, whose code table
is read off. -/
theorem buildMakesATree : Obligations.BuildMakesATree := by
  refine ⟨fun s h2 => exec_build_spec h2, fun s v₁ v₂ hp => ?_⟩
  obtain ⟨t, tr, h, f, l, r, hexec, hheld, -, hbuilt, htree, hroot, -⟩ := exec_build_spec (s := s) (by simp [hp])
  obtain ⟨hle, hgt⟩ := hbuilt.node_of_two hp
  obtain ⟨hleaves, hlen, -⟩ := hbuilt
  have hroot : h.root = 2 := BitVec.eq_of_toNat_eq (by rw [hroot, hlen, hp]; rfl)
  have hleaf₁ : Rep t.node 0 (.leaf v₁) := .leaf (by simpa [hp] using hleaves 0 (by simp [hp]))
  have hleaf₂ : Rep t.node 1 (.leaf v₂) := .leaf (by simpa [hp] using hleaves 1 (by simp [hp]))
  refine ⟨t, h, hexec, htree, hroot, fun hfreq => ⟨hle hfreq, ?_⟩, fun hfreq => ⟨hgt hfreq, ?_⟩⟩
  · exact hheld.codes_of_two htree (by rw [hroot, hle hfreq]; rfl) hleaf₁ hleaf₂
  · exact hheld.codes_of_two htree (by rw [hroot, hgt hfreq]; rfl) hleaf₂ hleaf₁

/-- Settles O19: the tree held is the one the merge loop made, and no tree over its leaves costs less. -/
theorem builtTreeIsOptimal : Obligations.BuiltTreeIsOptimal := by
  intro s t tr other hfreqOk h2 h hheld hother hperm
  obtain ⟨u, hu, rfl⟩ := finishBuild_of_exec_build h2 h
  obtain ⟨t₀, hforest, hbest⟩ := merged_bestOver (s := s.begin (some .build)) h2 hfreqOk
  have hheld : u.holdsTree tr := holdsTree_congr hheld rfl rfl
  obtain rfl := hforest.holdsTree_unique hu hheld
  obtain ⟨_, -, -, -, -, hnodup, -⟩ := hheld
  exact hbest.cost_le hnodup hother hperm

end Sys2Proof
end

section
/-! PROOF. SERIALIZE and DESERIALIZE as whole commands, and that each undoes the other (42_tree_codec.md R151 to R162). -/

namespace Sys2Proof.Machine

/-- The serialised tree of `t` (R151, R152). -/
def HTree.serialized (t : HTree) : SerTree := { shape := t.shape, leafv := t.leaves }

/-- The state DESERIALIZE leaves when it rebuilt `t`: NODE in pre-order with frequencies 0, ROOT = 0, the derived table, and
its scratch `des` (R156, R157, R160). -/
def State.rebuilt (s : State) (t : HTree) (des : DesRegs) : State :=
  { s with node := (t.layout 0).map some, tree := some { root := 0, code := t.codeTable }, des := des }.ended .success 0 0

section
variable {s : State} {t : HTree} {c : SerTree}

/-! The tree and its triple -/

theorem SerTree.exists_serialized (h : c.wellFormed = true) :
    ∃ t : HTree, t.serialized = c ∧ t.isInternal = true ∧ t.leaves.Nodup := by
  obtain ⟨t, hshape, hleaves, hinternal, hnodup⟩ := SerTree.exists_tree h
  exact ⟨t, by rw [HTree.serialized, hshape, hleaves], hinternal, hnodup⟩

theorem State.rebuilt_holdsTree (s : State) (hinternal : t.isInternal = true) (hnodup : t.leaves.Nodup) (des : DesRegs) :
    (s.rebuilt t des).holdsTree t :=
  layout_holds hinternal hnodup rfl rfl

theorem State.freq_eq_zero_of_mem_rebuilt {des : DesRegs} {n : Node} (h : some n ∈ (s.rebuilt t des).node) : n.freq = 0 := by
  obtain ⟨m, hm, heq⟩ := List.mem_map.1 h
  obtain rfl := Option.some.inj heq
  exact t.layout_freq 0 m hm

/-! The commands -/

/-- The whole effect of SERIALIZE of a held tree (R153, R154). -/
theorem exec_serialize_held (h : s.holdsTree t) :
    exec .serialize s = .next ({ s with ser := some t.serialized }.ended .success 0 0) := by
  have hpre : precondition .serialize (s.begin (some .serialize)) = true := by
    obtain ⟨_, htree, -⟩ := h
    simp [precondition, State.treeValid, htree]
  have hheld : (s.begin (some .serialize)).holdsTree t := holdsTree_congr h rfl rfl
  have hbody := (guarded_true (body := procSerialize) hpre).trans (procSerialize_ok hheld)
  rw [exec_eq, bodyOf, command_of_ok hbody rfl rfl, State.settle_eq_ended (taken := 0) (appended := 0) rfl rfl]
  rfl

theorem precondition_deserialize (hser : s.ser = some c) : precondition .deserialize (s.begin (some .deserialize)) = true := by
  simp [precondition, State.serValid, hser]

/-- The whole effect of DESERIALIZE on the triple of a tree (R157, R159). -/
theorem exec_deserialize_serialized (hser : s.ser = some t.serialized) (hinternal : t.isInternal = true)
    (hnodup : t.leaves.Nodup) : ∃ des, exec .deserialize s = .next (s.rebuilt t des) := by
  have hwf := HTree.wellFormed_of hinternal hnodup
  obtain ⟨des, hproc⟩ := procDeserialize_ok (s := s.begin (some .deserialize)) hwf rfl rfl hser
  have hbody := (guarded_true (body := procDeserialize) (precondition_deserialize hser)).trans hproc
  refine ⟨des, ?_⟩
  rw [exec_eq, bodyOf, command_of_ok hbody rfl rfl, State.settle_eq_ended (taken := 0) (appended := 0) rfl rfl]
  rfl

/-- The whole effect of DESERIALIZE on a triple that is not well formed: the tree stays discarded (R157, R159, R250). -/
theorem exec_deserialize_malformed (hser : s.ser = some c) (hwf : c.wellFormed = false) :
    ∃ des, exec .deserialize s = .next
      ({ s with node := [], tree := none, heap := [], des := des }.ended (.failure .malformedTree) 0 0) := by
  obtain ⟨des, hproc⟩ := procDeserialize_malformed hwf (s := s.begin (some .deserialize)) hser
  have hbody := (guarded_true (body := procDeserialize) (precondition_deserialize hser)).trans hproc
  refine ⟨des, ?_⟩
  rw [exec_eq, bodyOf, command_of_raised hbody, State.fail_unit (i := .deserialize) rfl rfl,
    State.settle_eq_ended (taken := 0) (appended := 0) rfl rfl]
  rfl

/-- DESERIALIZE rebuilds the tree whose triple is held, so SERIALIZE after it writes that triple again (R162). -/
theorem exec_deserialize_then_serialize (hser : s.ser = some t.serialized) (hinternal : t.isInternal = true)
    (hnodup : t.leaves.Nodup) :
    ∃ u v, exec .deserialize s = .next u ∧ exec .serialize u = .next v ∧ u.ctl.outcome = .success
      ∧ v.ctl.outcome = .success ∧ u.holdsTree t ∧ v.ser = some t.serialized := by
  obtain ⟨des, hdeserialize⟩ := exec_deserialize_serialized hser hinternal hnodup
  have hrebuilt := s.rebuilt_holdsTree hinternal hnodup des
  exact ⟨_, _, hdeserialize, exec_serialize_held hrebuilt, rfl, rfl, hrebuilt, rfl⟩

end

end Sys2Proof.Machine

namespace Sys2Proof
open Sys2Proof.Machine

/-- Settles O23: a well-formed triple is the triple of a tree, which DESERIALIZE rebuilds; on any other triple a check fails. -/
theorem deserializeAcceptsExactlyTheWellFormed : Obligations.DeserializeAcceptsExactlyTheWellFormed := by
  refine fun s c hser => ⟨fun hwf => ?_, fun hwf => ?_⟩
  · obtain ⟨tr, rfl, hinternal, hnodup⟩ := SerTree.exists_serialized hwf
    obtain ⟨des, hexec⟩ := exec_deserialize_serialized hser hinternal hnodup
    have hheld := s.rebuilt_holdsTree hinternal hnodup des
    exact ⟨_, tr, _, hexec, hheld, rfl, rfl, rfl, rfl, fun _ => State.freq_eq_zero_of_mem_rebuilt, rfl⟩
  · obtain ⟨des, hexec⟩ := exec_deserialize_malformed hser hwf
    exact ⟨_, hexec, rfl⟩

/-- Settles O24: the tree rebuilt is the one its triple was read off, and a code table depends on its tree alone. -/
theorem treeRoundTrip : Obligations.TreeRoundTrip := by
  refine ⟨fun s t h hheld htree => ?_, fun s c hser hwf => ?_⟩
  · have hserialize := exec_serialize_held hheld
    obtain ⟨_, hhead, -, hcode, hinternal, hnodup, -⟩ := hheld
    cases hhead.symm.trans htree
    obtain ⟨s₂, s₃, hdeserialize, hagain, hok₂, hok₃, hrebuilt, hser₃⟩ :=
      exec_deserialize_then_serialize (s := { s with ser := some t.serialized }.ended .success 0 0) rfl hinternal hnodup
    have ⟨h₂, htree₂, _, hcode₂, _⟩ := hrebuilt
    exact ⟨_, s₂, s₃, h₂, hserialize, hdeserialize, hagain, rfl, hok₂, hrebuilt, htree₂, hcode₂.trans hcode.symm, hser₃, hok₃⟩
  · obtain ⟨t, rfl, hinternal, hnodup⟩ := SerTree.exists_serialized hwf
    obtain ⟨s₁, s₂, hdeserialize, hserialize, hok₁, hok₂, -, hser₂⟩ := exec_deserialize_then_serialize hser hinternal hnodup
    exact ⟨s₁, s₂, hdeserialize, hserialize, hok₁, hser₂, hok₂⟩

/-- Settles O22: the whole effect of SERIALIZE, a tree of L leaves having 2L - 1 nodes. -/
theorem serializeWritesTheTree : Obligations.SerializeWritesTheTree := by
  intro s t hheld
  have hlen := t.shape_length
  have ⟨_, _, _, _, hinternal, hnodup, _⟩ := hheld
  exact ⟨exec_serialize_held hheld, by omega, HTree.wellFormed_of hinternal hnodup⟩

end Sys2Proof
end

section
/-! PROOF. ENCODE of an input with an uncoded byte (43_bit_encoder.md R185, R186, 60_exceptions.md R250). -/

namespace Sys2Proof.Machine

/-- ENCODE's body when the bytes `xs` have codes and the next one has none: it stops there, with the pending byte not
appended (R183, R186). -/
theorem encode_body_uncoded {s : State} {t : HTree} {h : TreeHead} {src : Source} {k : Sink} {xs rest : List Byte} {x : Byte}
    (hheld : s.holdsTree t) (htree : s.tree = some h) (hsrc : s.env.src = .bound src) (hsnk : s.env.snk = .bound k)
    (hquiet : s.quiet) (hrest : src.rest = xs ++ x :: rest) (hxs : ∀ y ∈ xs, y ∈ t.leaves) (hx : x ∉ t.leaves) :
    bodyOf .encode s
      = .raised .protocolError (encSt (encRead s.startEncoding src (xs.length + 1)) k (streamBits h.code xs)) := by
  obtain ⟨head, hhead, -, hcode, hinternal, hnodup, -⟩ := hheld
  obtain rfl : head = h := Option.some.inj (hhead.symm.trans htree)
  have hcoded : ∀ y, (head.code.read y).len ≠ 0 ↔ y ∈ t.leaves := fun y => by
    rw [hcode, t.code_ne_zero hinternal hnodup]
  have hpre : precondition .encode s = true := by simp [precondition, State.treeValid, htree]
  rw [bodyOf, guarded_true hpre, procEncode_some htree]
  exact encodeWith_uncoded (s := s.startEncoding) hsrc hsnk hquiet hrest (fun y hy => (hcoded y).2 (hxs y hy))
    (not_not.1 (mt (hcoded x).1 hx)) rfl

end Sys2Proof.Machine

namespace Sys2Proof
open Sys2Proof.Machine

/-- Settles O28: the failure rule ends ENCODE where `encode_body_uncoded` stops it, with the whole bytes of the bits so far
appended. -/
theorem encodeStopsAtAnUncodedByte : Obligations.EncodeStopsAtAnUncodedByte := by
  intro s t h src snk xs rest x hheld htree hsrc hsnk hquiet hrest hxs hx
  have hbody := encode_body_uncoded (s := s.begin (some .encode)) hheld htree hsrc hsnk hquiet hrest hxs hx
  rw [encSt_encRead_eq_inPass (appended := 0) rfl rfl, fullBytes_eq_take, Nat.zero_add] at hbody
  refine ⟨_, (exec_eq .encode s).trans (command_of_raised hbody), ?_⟩
  rw [State.fail_unit (i := .encode) rfl rfl, State.settle_eq_ended (taken := xs.length + 1)
    (appended := (streamBits h.code xs).length / 8) rfl rfl]
  rfl

end Sys2Proof
end

section
/-! PROOF. The decoder's steps, its defence against walking off a leaf, a payload that ends too early, and COMPRESS then
DECOMPRESS (44_bit_decoder.md R196 to R205). -/

namespace Sys2Proof.Machine

/-! One step (R198, R199) -/

theorem nextBit_of_inPos_ne {s : State} (h : s.dec.inPos ≠ 8) : nextBit s = takeBit s := by
  rw [nextBit, if_neg h]

/-- A step from an Internal cursor takes the bit that is left and arrives at the child it names. -/
theorem decodeStep_of_inPos_ne {s : State} {root l r : NodeIdx} {f : Word64} {b : Bool}
    (hcur : s.nodeAt s.dec.cur = some (.internal f l r)) (hpos : s.dec.inPos ≠ 8)
    (hbit : s.dec.inByte.getLsbD s.dec.inPos = b) :
    decodeStep root s = arrive root (if b then r else l) { s with dec.inPos := s.dec.inPos + 1 } := by
  simp only [decodeStep, hcur]
  rw [nextBit_of_inPos_ne hpos, takeBit, hbit, Run.bind_ok]

theorem arrive_of_leaf {s : State} {root c : NodeIdx} {v : Byte} {f : Word64} {k : Sink} (hc : s.nodeAt c = some (.leaf v f))
    (hsnk : s.env.snk = .bound k) (hquiet : s.quiet) :
    arrive root c s = .ok () { s with
      dec.cur := root, dec.dstate := .atRoot, ctl.outCount := s.ctl.outCount + 1, env.snk := .bound (k.append [v]) } := by
  simp only [arrive, hc]
  rw [put_quiet (k := k) (by exact hsnk) (by exact hquiet), Run.bind_ok]

theorem arrive_of_internal {s : State} {root c l r : NodeIdx} {f : Word64} (hc : s.nodeAt c = some (.internal f l r)) :
    arrive root c s = .ok () { s with dec.cur := c, dec.dstate := .descending } := by
  simp only [arrive, hc]

/-! The defence of R200 -/

/-- NODE holds a tree from index `i` whose root is Internal (R31). -/
def InternalAt (nodes : List (Option Node)) (i : NodeIdx) : Prop := ∃ l r, Rep nodes i (.node l r)

/-- Every failure but MalformedTree. -/
def notMalformed (t : Failure) : Bool := t != .malformedTree

theorem InternalAt.of_rep {nodes : List (Option Node)} {i : NodeIdx} {t : HTree} (h : Rep nodes i t)
    (hi : t.isInternal = true) : InternalAt nodes i := by
  cases t with
  | leaf v => cases hi
  | node l r => exact ⟨l, r, h⟩

theorem InternalAt.children {s : State} {i : NodeIdx} (h : InternalAt s.node i) :
    ∃ f l r tl tr, s.nodeAt i = some (.internal f l r) ∧ Rep s.node l tl ∧ Rep s.node r tr := by
  obtain ⟨_, _, hrep⟩ := h
  cases hrep with
  | node hnode hl hr => exact ⟨_, _, _, _, _, nodeAt_of hnode, hl, hr⟩

theorem nextBit_raises {T : Failure → Bool} (hio : T .ioFailure = true) (heof : T .truncatedStream = true) (s : State) :
    Raises T (nextBit s) := by
  rw [nextBit]
  split
  · exact (srcReadByte_raises hio heof _).bind fun _ _ _ => .ok
  · exact .ok

theorem arrive_raises {T : Failure → Bool} (hio : T .ioFailure = true) (root c : NodeIdx) (s : State) :
    Raises T (arrive root c s) := by
  simp only [arrive]
  split
  · exact (put_raises hio _ _).bind fun _ _ _ => .ok
  · exact .ok

theorem nextBit_node {s u : State} {b : Bool} (h : nextBit s = .ok b u) : u.node = s.node := by
  rw [nextBit] at h
  split at h
  · obtain ⟨x, w, hread, h⟩ := Run.bind_eq_ok h
    cases h
    have hwithin := srcReadByte_within (f := State.node) (fun _ _ _ _ => rfl) (t := .truncatedStream) (by decide) s
    rw [hread] at hwithin
    exact hwithin.of_ok.2
  · cases h; rfl

/-- The move to a node of a tree keeps NODE, and CUR is an Internal node again: the root after a leaf, else the node. -/
theorem arrive_internalAt {s u : State} {root c : NodeIdx} {t : HTree} (hroot : InternalAt s.node root)
    (hc : Rep s.node c t) (h : arrive root c s = .ok () u) : u.node = s.node ∧ InternalAt s.node u.dec.cur := by
  cases hc with
  | @leaf _ v f hleaf =>
    simp only [arrive, nodeAt_of hleaf] at h
    obtain ⟨_, w, hput, h⟩ := Run.bind_eq_ok h
    cases h
    have hwithin := put_within (f := State.node) (fun _ _ _ _ => rfl) v { s with dec.cur := c, dec.dstate := .atLeaf }
    rw [hput] at hwithin
    exact ⟨hwithin.of_ok.2, hroot⟩
  | node hnode hl hr =>
    rw [arrive_of_internal (nodeAt_of hnode)] at h
    cases h
    exact ⟨rfl, _, _, .node hnode hl hr⟩

section
variable {s : State} {root : NodeIdx} (hroot : InternalAt s.node root) (hcur : InternalAt s.node s.dec.cur)
include hcur

theorem decodeStep_notMalformed : Raises notMalformed (decodeStep root s) := by
  obtain ⟨f, l, r, -, -, hnode, -, -⟩ := hcur.children
  simp only [decodeStep, hnode]
  exact (nextBit_raises rfl rfl s).bind fun _ _ _ => arrive_raises rfl _ _ _

include hroot

theorem decodeStep_internalAt {u : State} (h : decodeStep root s = .ok () u) :
    u.node = s.node ∧ InternalAt s.node u.dec.cur := by
  obtain ⟨f, l, r, tl, tr, hnode, hl, hr⟩ := hcur.children
  simp only [decodeStep, hnode] at h
  obtain ⟨b, w, hbit, h⟩ := Run.bind_eq_ok h
  have hkept := nextBit_node hbit
  rw [← hkept] at hroot hl hr ⊢
  cases b with
  | false => exact arrive_internalAt hroot hl h
  | true => exact arrive_internalAt hroot hr h

end

theorem decodeLoop_notMalformed {root : NodeIdx} {len : Word64} : ∀ (n : Nat) (emitted : Word64) {s : State},
    InternalAt s.node root → InternalAt s.node s.dec.cur → Raises notMalformed (decodeLoop root len n emitted s)
  | 0, emitted, s, _, _ => by
    rw [decodeLoop]
    split
    · exact .raised rfl
    · exact .ok
  | n + 1, emitted, s, hroot, hcur => by
    rw [decodeLoop]
    split
    · refine (decodeStep_notMalformed hcur).bind fun _ u hu => ?_
      obtain ⟨hkept, hcur'⟩ := decodeStep_internalAt hroot hcur hu
      exact decodeLoop_notMalformed n _ (hkept ▸ hroot) (hkept ▸ hcur')
    · exact .ok

/-- With a held tree DECODE's body does not raise MalformedTree: the walk starts at the root, which is Internal. -/
theorem decode_body_notMalformed {s : State} {t : HTree} (hheld : s.holdsTree t) : Raises notMalformed (bodyOf .decode s) := by
  obtain ⟨head, hhead, habs, -, hinternal, -⟩ := hheld
  have hroot : InternalAt s.node head.root := .of_rep (Rep.of_treeAt habs) hinternal
  refine guarded_raises rfl (Raises.bind ?_ fun _ u _ => verifyCount_raises rfl u)
  simp only [procDecode, hhead]
  split
  · rename_i h len hh hlen
    cases hh
    exact decodeLoop_notMalformed (s := s.startDecoding head.root) _ _ hroot hroot
  · exact .raised rfl

theorem finish_raises {T : Failure → Bool} (hio : T .ioFailure = true) (s : State) : Raises T (finish s) := by
  refine Raises.bind ?_ fun _ _ _ => .ok
  rw [flushIfWriter]
  split
  · split
    · exact callSink_raises hio _ _
    · exact .ok
  · exact .ok

/-- A command that ends waits for no call (R286). -/
theorem exec_idle_waiting {i : Instr} {s t : State} (h : exec i s = .next t) (hidle : t.ctl.busy = false) :
    t.ctl.waiting = none := by
  obtain ⟨w, hw, hend⟩ := exec_cases i h
  have hbusy : w.ctl.busy = true := by rw [hw.ctl]; rfl
  rcases hend with ⟨_, rfl⟩ | ⟨_, k, _, rfl⟩ | ⟨T, _, rfl⟩ | ⟨e, _, rfl⟩ | ⟨st, rfl⟩
  · rfl
  · rfl
  · rw [State.fail_ctl]; rfl
  · rw [State.fail_ctl]; rfl
  · exact absurd hidle (by simp [hbusy])

/-- A command that ends with a failure ends with one its body raises in that state, or with the flush's IoFailure (R250). -/
theorem exec_failure_of_raises {i : Instr} {s t : State} {T : Failure → Bool} {x : Failure} (h : exec i s = .next t)
    (hidle : t.ctl.busy = false) (hbody : Raises T (bodyOf i (s.begin (some i)))) (hio : T .ioFailure = true)
    (hfail : t.ctl.outcome = .failure x) : T x = true := by
  have hwait := exec_idle_waiting h hidle
  rw [exec_eq, command] at h
  split at h
  · rename_i u hrun
    cases h
    obtain ⟨_, v, -, hrun⟩ := Run.bind_eq_ok hrun
    obtain ⟨_, w, -, hrun⟩ := Run.bind_eq_ok hrun
    cases hrun
    cases hfail
  · rename_i y u hrun
    cases h
    rw [State.fail_ctl] at hfail
    cases hfail
    exact (hbody.bind fun _ v _ => finish_raises hio v) _ _ hrun
  · cases h; cases hwait
  · cases h

/-! A payload that ends too early (R202) -/

/-- DECODE's body when the Source's bits are the codes of `xs` and a tail that begins with no code, and ORIG_LEN is
greater than their number. -/
theorem decode_body_truncated {s : State} {t : HTree} {h : TreeHead} {src : Source} {k : Sink} {xs : List Byte}
    {tail : List Bool} {n : Word64} (hheld : s.holdsTree t) (htree : s.tree = some h) (hsrc : s.env.src = .bound src)
    (hsnk : s.env.snk = .bound k) (hquiet : s.quiet) (hlen : s.origLen = some n) (hlt : xs.length < n.toNat)
    (hxs : ∀ x ∈ xs, x ∈ t.leaves) (hbits : allBits src.rest = streamBits h.code xs ++ tail)
    (htail : ∀ v ∈ t.leaves, ¬ (h.code.read v).emission <+: tail) :
    ∃ dec, bodyOf .decode s = .raised .truncatedStream
      { decSt (s.enter .decoding) src k (8 * src.rest.length) h.root .atRoot xs with dec := dec } := by
  obtain ⟨head, hhead, habs, hcode, hinternal, hnodup, -⟩ := hheld
  obtain rfl : head = h := Option.some.inj (hhead.symm.trans htree)
  rw [hcode] at hbits
  have hpre : precondition .decode s = true := by simp [precondition, State.treeValid, State.lenValid, htree, hlen]
  have hpaths : ∀ v p, t.path v = some p → ¬ p <+: tail := fun v p hp => by
    have hv := htail v ((t.path_isSome_iff v).1 (by rw [hp]; rfl))
    rwa [hcode, t.emission_codeTable hnodup hp] at hv
  obtain ⟨dec, hdec⟩ := procDecode_truncated hsrc hsnk hquiet htree habs hinternal hnodup hlen hlt hxs hbits hpaths
  exact ⟨dec, by rw [bodyOf, guarded_true hpre, decodeAndVerify, hdec, Run.bind_raised]⟩

/-! COMPRESS, then DECOMPRESS (R205) -/

theorem unpackBits_isPrefix {m n : Nat} (h : m ≤ n) (bytes : List Byte) : unpackBits m bytes <+: unpackBits n bytes := by
  obtain ⟨d, rfl⟩ := Nat.exists_eq_add_of_le h
  rw [unpackBits, unpackBits, List.range_add, List.map_append]
  exact List.prefix_append _ _

/-- The bits of a packed sequence begin with that sequence, its padding behind it (R69, R70). -/
theorem isPrefix_allBits_packBits (bits : List Bool) : bits <+: allBits (packBits bits) := by
  have hle : bits.length ≤ 8 * (packBits bits).length := by rw [packBits_length]; omega
  have hprefix := unpackBits_isPrefix hle (packBits bits)
  rwa [unpackBits_packBits] at hprefix

/-- The file COMPRESS makes of `bs`: the header of a tree over its byte values, and its codes (R100, R225). -/
theorem exec_compress_input {s : State} {bs : List Byte} {k : Sink} (hinput : s.inputIs bs) (hsnk : s.env.snk = .bound k)
    (hquiet : s.quiet) (htwo : 2 ≤ bs.dedup.length) :
    ∃ (t : State) (tr : HTree), exec .compress s = .next t ∧ t.ctl.outcome = .success ∧ tr.isInternal = true ∧ tr.leaves.Nodup
      ∧ (∀ v, v ∈ tr.leaves ↔ v ∈ bs)
      ∧ t.sinkBytes = k.data ++ (headerBytes tr.serialized (BitVec.ofNat 64 bs.length)
        ++ packBits (streamBits tr.codeTable bs)) := by
  obtain ⟨hsrc, hlt⟩ := hinput
  obtain ⟨tr, header, w, h⟩ := SecondPass.exists_of_input hsrc hsnk hquiet hlt rfl htwo
  refine ⟨_, tr, h.exec_coded hquiet (fun _ hy => hy) rfl, rfl, h.internal, h.nodup, h.mem_leaves, ?_⟩
  rw [h.header_eq]
  rfl

end Sys2Proof.Machine

namespace Sys2Proof
open Sys2Proof.Machine

/-- Settles O41: what COMPRESS appended is a file that `decompressReadsTheFile` reads back, the payload beginning with the
codes it was packed from. -/
theorem compressDecompressRoundTrip : Obligations.CompressDecompressRoundTrip := by
  intro s r bs snk snk' hinput htwo hquiet hquiet' hsnk hsnk'
  obtain ⟨t, tr, hcompress, hok, hinternal, hnodup, hmem, hsink⟩ := exec_compress_input hinput hsnk hquiet htwo
  refine ⟨t, _, hcompress, hok, hsink, fun hsrc => ?_⟩
  obtain ⟨u, hdecompress, hok', hrcount, hsnkU, -⟩ := decompressReadsTheFile r _ snk' tr bs _ hsrc hsnk' hquiet' hinternal
    hnodup hinput.2 (fun x hx => (hmem x).2 hx) (isPrefix_allBits_packBits _) rfl
  exact ⟨u, hdecompress, hok', by simp [State.sinkBytes, hsnkU, Sink.appendFlushed], hrcount⟩

/-- Settles O29: the step arrives at the child its bit names, a leaf or an Internal node. -/
theorem decodeStepMovesToAChild : Obligations.DecodeStepMovesToAChild := by
  intro s root l r f n b snk hcur hpos hbit hchild hsnk hquiet
  cases n with
  | leaf v g => exact (decodeStep_of_inPos_ne hcur hpos hbit).trans (arrive_of_leaf hchild hsnk hquiet)
  | internal g l' r' => exact (decodeStep_of_inPos_ne hcur hpos hbit).trans (arrive_of_internal hchild)

/-- Settles O30: CUR is an Internal node at the start and after every step, so a failure of DECODE is another one. -/
theorem decodeNeverRaisesMalformedTreeWithAValidTree : Obligations.DecodeNeverRaisesMalformedTreeWithAValidTree := by
  intro s u t hheld hexec hidle hfail
  have hbody := decode_body_notMalformed (s := s.begin (some .decode)) hheld
  have hother : notMalformed .malformedTree = true := exec_failure_of_raises hexec hidle hbody rfl hfail
  cases hother

/-- Settles O32: the failure rule ends DECODE where `decode_body_truncated` stops it, with all of the Source taken. -/
theorem decodeOfAShortPayloadIsTruncated : Obligations.DecodeOfAShortPayloadIsTruncated := by
  intro s t h src snk xs tail n hheld htree hsrc hsnk hquiet hlen hlt hxs hbits htail
  obtain ⟨dec, hbody⟩ :=
    decode_body_truncated (s := s.begin (some .decode)) hheld htree hsrc hsnk hquiet hlen hlt hxs hbits htail
  have htaken : (8 * src.rest.length + 7) / 8 = src.rest.length := by omega
  refine ⟨_, (exec_eq .decode s).trans (command_of_raised hbody), ?_⟩
  rw [State.fail_unit (i := .decode) rfl rfl, State.settle_eq_ended (taken := src.rest.length) (appended := xs.length)
    (by simp [decSt, htaken]) (by simp [decSt])]
  simp only [decSt, htaken]
  rfl

end Sys2Proof
end

section
/-! PROOF. The header commands: WRHDR, the checks of RDHDR, and RDHDR of what WRHDR wrote (45_file_format.md R215 to R222). -/

namespace Sys2Proof.Machine

/-! WRHDR -/

/-- The whole effect of WRHDR when its calls go through (R216, R217, R249). -/
theorem exec_wrhdr_quiet {s : State} {c : SerTree} {n : Word64} {k : Sink} (hser : s.ser = some c) (hlen : s.origLen = some n)
    (hsnk : s.env.snk = .bound k) (hquiet : s.quiet) :
    exec .wrhdr s = .next ({ s with env.snk := .bound (k.appendFlushed (headerBytes c n)) }.ended
      .success 0 (headerBytes c n).length) := by
  have hbody := (wrhdr_body_eq (s := s.begin (some .wrhdr)) hser hlen).trans
    (putAll_quiet (headerBytes c n) (k := k) hsnk hquiet)
  rw [exec_eq, command_of_ok_writer hbody rfl rfl rfl hquiet,
    State.settle_eq_ended (taken := 0) (appended := (headerBytes c n).length) rfl (by simp)]
  rfl

/-! RDHDR -/

/-- ReadHeader in `s` with the first `k` bytes of `src` taken and nothing of them kept yet (R219). -/
def State.inHeader (s : State) (src : Source) (k : Nat) : State :=
  { s with
    ser := none, origLen := none
    ctl := { s.ctl with phase := .readingHeader, inCount := s.ctl.inCount + BitVec.ofNat 64 k }
    env.src := .bound (src.advance k) }

/-- ReadHeader behind its last leaf value (H5). -/
def readLength (shape : List Bool) (leafv : List Byte) : Proc Unit := fun s =>
  (srcReadBytes .truncatedStream 8 s).bind fun lenBytes s =>
    .ok () { s with ser := some { shape := shape, leafv := leafv }, origLen := some (BitVec.ofNat 64 (ofBe lenBytes)) }

/-- ReadHeader behind its shape bits (H3 to H5). -/
def readLeaves (shape : List Bool) : Proc Unit := fun s =>
  (require (decide (shape.count false ≤ Config.maxLeaves)) .malformedTree s).bind fun _ s =>
    (srcReadBytes .malformedTree (shape.count false) s).bind fun leafv s => readLength shape leafv s

/-- ReadHeader behind its node count (H1 to H5). -/
def readTree (n : Nat) : Proc Unit := fun s =>
  (require (decide (n ≤ Config.maxNodes)) .malformedTree s).bind fun _ s =>
    (srcReadBytes .malformedTree (ceilDiv8 n) s).bind fun packed s => readLeaves (unpackBits n packed) s

section
variable {s : State} {src : Source}

theorem procReadHeader_eq_inHeader (hsrc : s.env.src = .bound src) : procReadHeader s =
    (srcReadBytes .truncatedStream 2 (s.inHeader src 0)).bind fun nc s => readTree (ofBe nc) s := by
  have hstart : (s.enter .readingHeader).discardSer.discardLen = s.inHeader src 0 := by
    simp [State.inHeader, State.enter, State.discardSer, State.discardLen, ← hsrc]
  rw [← hstart]
  rfl

theorem srcReadBytes_inHeader (hquiet : s.quiet) {bs rest : List Byte} {k : Nat} (hrest : src.rest.drop k = bs ++ rest)
    (t : Failure) :
    srcReadBytes t bs.length (s.inHeader src k) = .ok bs (s.inHeader src (k + bs.length)) := by
  rw [srcReadBytes_quiet t bs rest (s := s.inHeader src k) (src := src.advance k) rfl hquiet
    (by rw [Source.rest_advance, hrest])]
  simp [State.inHeader, ofNat_add_64]

/-- A field the Source ends in: the bytes that were left stay taken (R219). -/
theorem srcReadBytes_inHeader_short (hquiet : s.quiet) {k n : Nat} (hk : k ≤ src.rest.length)
    (hshort : src.rest.length < k + n) (t : Failure) :
    srcReadBytes t n (s.inHeader src k) = .raised t (s.inHeader src src.rest.length) := by
  have hleft : (src.advance k).rest.length = src.rest.length - k := by rw [Source.rest_advance, List.length_drop]
  rw [srcReadBytes_short t n (s := s.inHeader src k) (src := src.advance k) rfl hquiet (by omega), hleft]
  simp [State.inHeader, ofNat_add_64, hk]

/-- A refused header ends RDHDR with both valid flags 0 and the bytes taken (R219, R250). -/
theorem exec_rdhdr_refused {t : Failure} {k : Nat}
    (h : procReadHeader (s.begin (some .rdhdr)) = .raised t ((s.begin (some .rdhdr)).inHeader src k)) :
    exec .rdhdr s = .next (s.headerRefused src t k) := by
  rw [exec_eq, bodyOf, command_of_raised h, State.fail_unit (i := .rdhdr) rfl rfl,
    State.settle_eq_ended (taken := k) (appended := 0) (by simp [State.inHeader]) rfl]
  rfl

section
variable (hsrc : s.env.src = .bound src) (hquiet : s.quiet)
include hsrc hquiet

theorem procReadHeader_noNodeCount (hshort : src.rest.length < 2) :
    procReadHeader s = .raised .truncatedStream (s.inHeader src src.rest.length) := by
  rw [procReadHeader_eq_inHeader hsrc, srcReadBytes_inHeader_short hquiet (Nat.zero_le _) (by omega), Run.bind_raised]

theorem procReadHeader_nodeCount {n : BitVec 16} {rest : List Byte} (hrest : src.rest = be16 n ++ rest) :
    procReadHeader s = readTree n.toNat (s.inHeader src 2) := by
  have hfield := srcReadBytes_inHeader hquiet (k := 0) hrest .truncatedStream
  rw [be16_length] at hfield
  rw [procReadHeader_eq_inHeader hsrc, hfield, Run.bind_ok, ofBe_be16]

end

theorem readTree_tooManyNodes {n : Nat} (hn : Config.maxNodes < n) (s : State) : readTree n s = .raised .malformedTree s := by
  rw [readTree, decide_eq_false (by omega), require_false, Run.bind_raised]

section
variable (hquiet : s.quiet)
include hquiet

theorem readTree_noShape {n : Nat} (hn : n ≤ Config.maxNodes) (htwo : 2 ≤ src.rest.length)
    (hshort : src.rest.length < 2 + (n + 7) / 8) :
    readTree n (s.inHeader src 2) = .raised .malformedTree (s.inHeader src src.rest.length) := by
  have hfield := srcReadBytes_inHeader_short (n := ceilDiv8 n) hquiet htwo hshort .malformedTree
  rw [readTree, decide_eq_true hn, require_true, Run.bind_ok, hfield, Run.bind_raised]

theorem readTree_shape {n : Nat} {packed rest : List Byte} (hn : n ≤ Config.maxNodes) (hpacked : packed.length = (n + 7) / 8)
    (hrest : src.rest.drop 2 = packed ++ rest) :
    readTree n (s.inHeader src 2) = readLeaves (unpackBits n packed) (s.inHeader src (2 + packed.length)) := by
  have hceil : ceilDiv8 n = packed.length := hpacked.symm
  rw [readTree, decide_eq_true hn, require_true, Run.bind_ok, hceil, srcReadBytes_inHeader hquiet hrest, Run.bind_ok]

theorem readLeaves_noLeaves {shape : List Bool} {k : Nat} (hcount : shape.count false ≤ Config.maxLeaves)
    (hk : k ≤ src.rest.length) (hshort : src.rest.length < k + shape.count false) :
    readLeaves shape (s.inHeader src k) = .raised .malformedTree (s.inHeader src src.rest.length) := by
  rw [readLeaves, decide_eq_true hcount, require_true, Run.bind_ok,
    srcReadBytes_inHeader_short hquiet hk hshort, Run.bind_raised]

theorem readLeaves_leaves {shape : List Bool} {k : Nat} {leafv rest : List Byte}
    (hcount : shape.count false ≤ Config.maxLeaves) (hleafv : leafv.length = shape.count false)
    (hrest : src.rest.drop k = leafv ++ rest) :
    readLeaves shape (s.inHeader src k) = readLength shape leafv (s.inHeader src (k + leafv.length)) := by
  rw [readLeaves, decide_eq_true hcount, require_true, Run.bind_ok, ← hleafv, srcReadBytes_inHeader hquiet hrest, Run.bind_ok]

theorem readLength_noLength {shape : List Bool} {k : Nat} {leafv : List Byte} (hk : k ≤ src.rest.length)
    (hshort : src.rest.length < k + 8) :
    readLength shape leafv (s.inHeader src k) = .raised .truncatedStream (s.inHeader src src.rest.length) := by
  rw [readLength, srcReadBytes_inHeader_short hquiet hk hshort, Run.bind_raised]

end

theorem readLeaves_tooManyLeaves {shape : List Bool} (hcount : Config.maxLeaves < shape.count false) (s : State) :
    readLeaves shape s = .raised .malformedTree s := by
  rw [readLeaves, decide_eq_false (by omega), require_false, Run.bind_raised]

end

end Sys2Proof.Machine

namespace Sys2Proof
open Sys2Proof.Machine

/-- Settles O33, by `exec_wrhdr_quiet`: the bytes of the four fields are the header bytes. -/
theorem writeHeaderAppendsTheHeader : Obligations.WriteHeaderAppendsTheHeader := by
  intro s c n snk hser hlen hsnk hquiet
  rw [exec_wrhdr_quiet hser hlen hsnk hquiet, headerBytes_length]
  rfl

/-- Settles O36: each field is read in turn, and the check that fails ends ReadHeader there. -/
theorem readHeaderRefusesABadNodeCount : Obligations.ReadHeaderRefusesABadNodeCount := by
  intro s src hsrc hquiet
  replace hsrc : (s.begin (some .rdhdr)).env.src = .bound src := hsrc
  replace hquiet : (s.begin (some .rdhdr)).quiet := hquiet
  have hcount {n : BitVec 16} {rest : List Byte} (hrest : src.rest = be16 n ++ rest) :=
    procReadHeader_nodeCount hsrc hquiet hrest
  refine ⟨fun n rest hrest hn => exec_rdhdr_refused ?_, fun hshort => exec_rdhdr_refused ?_,
    fun n packed hn => ⟨?_, ?_⟩⟩
  · rw [hcount hrest, readTree_tooManyNodes hn]
  · exact procReadHeader_noNodeCount hsrc hquiet hshort
  · intro hrest hshort
    have hlen : src.rest.length = 2 + packed.length := by rw [hrest, List.length_append, be16_length]
    apply exec_rdhdr_refused
    rw [hcount hrest, readTree_noShape hquiet hn (by omega) (by omega)]
  · intro hpacked
    have hshape {rest : List Byte} (hrest : src.rest = be16 n ++ packed ++ rest) :
        procReadHeader (s.begin (some .rdhdr))
          = readLeaves (unpackBits n.toNat packed) ((s.begin (some .rdhdr)).inHeader src (2 + packed.length)) := by
      rw [List.append_assoc] at hrest
      rw [hcount hrest, readTree_shape hquiet hn hpacked (by rw [hrest]; rfl)]
    refine ⟨fun rest hrest hmany => exec_rdhdr_refused ?_, fun hfew leafv => ⟨fun hrest hshort => ?_, ?_⟩⟩
    · rw [hshape hrest, readLeaves_tooManyLeaves hmany]
    · have hlen : src.rest.length = 2 + packed.length + leafv.length := by
        rw [hrest, List.length_append, List.length_append, be16_length]
      apply exec_rdhdr_refused
      rw [hshape hrest, readLeaves_noLeaves hquiet hfew (by omega) (by omega)]
    · intro tail hrest hleafv hshort
      have hlen : src.rest.length = 2 + packed.length + leafv.length + tail.length := by
        rw [hrest, List.length_append, List.length_append, List.length_append, be16_length]
      have hdrop : src.rest.drop (2 + packed.length) = leafv ++ tail := by
        rw [hrest, List.append_assoc _ leafv]
        exact List.drop_left' (by rw [List.length_append, be16_length])
      rw [List.append_assoc _ leafv] at hrest
      apply exec_rdhdr_refused
      rw [hshape hrest, readLeaves_leaves hquiet hfew hleafv hdrop, readLength_noLength hquiet (by omega) (by omega)]

/-- Settles O37: WRHDR writes the four fields of `readHeaderTakesTheHeader`, which unpacks the shape bits as they
were packed. -/
theorem headerRoundTrip : Obligations.HeaderRoundTrip := by
  intro s r c n snk tail hfits hser hlen hsnk hempty hquiet hquiet'
  obtain ⟨hnodes, hleaves, hcount⟩ := hfits c hser
  have hserN : c.serN.toNat = c.shape.length := by
    have hlt : c.shape.length < 2 ^ 16 := lt_of_le_of_lt hnodes (by decide)
    rw [SerTree.serN, BitVec.toNat_ofNat, Nat.mod_eq_of_lt hlt]
  refine ⟨_, headerBytes c n, exec_wrhdr_quiet hser hlen hsnk hquiet, ?_, fun hsrc => ?_⟩
  · simp [State.sinkBytes, Sink.appendFlushed, hempty]
  · have hread := readHeaderTakesTheHeader r _ c.serN (packBits c.shape) c.leafv tail n hsrc hquiet' rfl
      (by rw [hserN]; exact hnodes) (by rw [hserN, packBits_length]) (by rw [hserN, unpackBits_packBits, hcount]) hleaves
    rw [hserN, unpackBits_packBits] at hread
    refine ⟨_, hread, rfl, rfl, rfl, ?_⟩
    rw [headerBytes_length, ← packBits_length]
    rfl

end Sys2Proof
end

section
/-! PROOF. COMPRESS up to its second pass, and that it does what its unit commands do one after another (30_encoding.md R94,
45_file_format.md R225, R227). -/

namespace Sys2Proof.Machine

/-! Sources, Sinks and lists of bytes -/

theorem Source.faithful_wf {bs : List Byte} (h : bs.length < 2 ^ 64) : (Source.faithful bs).wf = true := by
  simp only [Source.wf, Source.faithful, Nat.zero_le, decide_true, Bool.true_and, List.all_nil, Bool.and_true]
  exact decide_eq_true h

theorem Source.rest_length_lt {src : Source} (h : src.wf = true) : src.rest.length < 2 ^ 64 := by
  simp only [Source.wf, Bool.and_eq_true, decide_eq_true_eq] at h
  rw [Source.rest, List.length_drop]
  omega

/-- A list has a first member outside another list, or none. -/
theorem exists_first_notMem_or_subset {α : Type} [DecidableEq α] (l m : List α) :
    (∃ xs x rest, l = xs ++ x :: rest ∧ (∀ y ∈ xs, y ∈ m) ∧ x ∉ m) ∨ ∀ y ∈ l, y ∈ m := by
  cases hfind : l.find? fun y => decide (y ∉ m) with
  | some x =>
    obtain ⟨hx, xs, rest, hl, hxs⟩ := List.find?_eq_some_iff_append.1 hfind
    exact .inl ⟨xs, x, rest, hl, by simpa using hxs, by simpa using hx⟩
  | none => exact .inr (by simpa using hfind)

theorem Sink.appendFlushed_appendFlushed (k : Sink) (a b : List Byte) :
    (k.appendFlushed a).appendFlushed b = k.appendFlushed (a ++ b) := by
  simp [Sink.appendFlushed]

/-! COMPRESS up to its second pass -/

/-- COMPRESS behind Build (R225). -/
def compressTree : Proc Unit := fun s =>
  (procSerialize s).bind fun _ s =>
  (procWriteHeader s).bind fun _ s =>
  (srcRewind s).bind fun _ s =>
  (procEncode { s with ctl.inCount := 0 }).bind fun _ s =>
  (verifyPass s).bind fun _ s => discardStep s

theorem compressBody_eq (s : State) :
    compressBody s = (procCount s.discardAll).bind fun _ s => (procBuild s).bind fun _ s => compressTree s := rfl

/-- COMPRESS in `s` after its first pass over `src`, with ORIG_LEN as given (R122, R225). -/
def State.firstPass (s : State) (src : Source) (len : Option Word64) : State :=
  { ((s.begin (some .compress)).discardAll.counted src) with
    ctl := { (s.begin (some .compress)).ctl with phase := .counting, inCount := BitVec.ofNat 64 src.rest.length }
    origLen := len }

/-- What COMPRESS leaves besides the control registers when it fails before its second pass: the tallies, and the Source at
its end (R250). -/
def State.inputRefused (s : State) (src : Source) : State :=
  { s.counted src with node := [], heap := [], tree := none, ser := none, origLen := none }

/-- COMPRESS in `s`, whose Source is `src`, at the start of its second pass with the header of `t` and `n` appended to `k`
(R216, R225). -/
def State.secondPass (s : State) (src : Source) (k : Sink) (t : HTree) (n : Word64) : State :=
  { s with
    ser := some t.serialized, enc := { pend := 0, pendN := 0 }
    ctl := { s.ctl with
      phase := .encoding, inCount := 0
      outCount := s.ctl.outCount + BitVec.ofNat 64 (headerBytes t.serialized n).length }
    env := { s.env with src := .bound src.rewind, snk := .bound (k.append (headerBytes t.serialized n)) } }

/-- Behind Build COMPRESS serialises the tree held, writes the header and encodes the rewound Source under that tree. -/
theorem compressTree_held {s : State} {src : Source} {k : Sink} {t : HTree} {n : Word64} (hheld : s.holdsTree t)
    (hlen : s.origLen = some n) (hsrc : s.env.src = .bound src) (hsnk : s.env.snk = .bound k) (hquiet : s.quiet) :
    compressTree s = (encodeWith t.codeTable (s.secondPass src k t n)).bind
      fun _ s => (verifyPass s).bind fun _ s => discardStep s := by
  rw [compressTree, procSerialize_ok hheld, Run.bind_ok,
    procWriteHeader_quiet (c := t.serialized) (n := n) (k := k) rfl (by exact hlen) (by exact hsnk) (by exact hquiet),
    Run.bind_ok, srcRewind, callSource_quiet _ (src := src) (by exact hsrc) (by exact hquiet), Run.bind_ok]
  obtain ⟨head, hhead, -, hcode, -⟩ := hheld
  rw [procEncode_some (h := head) (by exact hhead), hcode]
  rfl

section
variable {s : State} {src : Source} {k : Sink}

section
variable (hsrc : s.env.src = .bound src) (hquiet : s.quiet)
include hsrc hquiet

theorem procCount_firstPass : procCount (s.begin (some .compress)).discardAll =
    (require (BitVec.ofNat 64 src.rest.length == src.len) .protocolError (s.firstPass src none)).bind
      fun _ s => .ok () { s with origLen := some src.len } := by
  have hcount := procCount_quiet (s := (s.begin (some .compress)).discardAll) hsrc hquiet
  have hzero : (s.begin (some .compress)).discardAll.ctl.inCount = 0 := rfl
  rw [hzero, zero_add] at hcount
  exact hcount

/-- A first pass of another length than SrcLen() ends COMPRESS (R122, R245). -/
theorem exec_compress_of_length_ne (hne : BitVec.ofNat 64 src.rest.length ≠ src.len) :
    exec .compress s = .next ((s.inputRefused src).ended (.failure .protocolError) src.rest.length 0) := by
  have hbody : bodyOf .compress (s.begin (some .compress)) = .raised .protocolError (s.firstPass src none) := by
    rw [bodyOf, compressBody_eq, procCount_firstPass hsrc hquiet, beq_false_of_ne hne, require_false, Run.bind_raised,
      Run.bind_raised]
  rw [exec_eq, command_of_raised hbody, State.fail_whole (i := .compress) rfl rfl,
    State.settle_eq_ended (taken := src.rest.length) (appended := 0) rfl rfl]
  rfl

section
variable (heq : BitVec.ofNat 64 src.rest.length = src.len)
include heq

theorem compressBody_counted : bodyOf .compress (s.begin (some .compress)) =
    (procBuild (s.firstPass src (some src.len))).bind fun _ s => compressTree s := by
  rw [bodyOf, compressBody_eq, procCount_firstPass hsrc hquiet, beq_iff_eq.2 heq, require_true, Run.bind_ok, Run.bind_ok]
  rfl

/-- A first pass over fewer than two byte values ends COMPRESS in Build (R131, R241). -/
theorem exec_compress_of_few (hfew : (presentBytes (tallied zeroFreq src.rest)).length < 2) :
    exec .compress s = .next ((s.inputRefused src).ended (.failure .insufficientAlphabet) src.rest.length 0) := by
  have hbody := compressBody_counted hsrc hquiet heq
  rw [procBuild_insufficient (s.firstPass src (some src.len)) hfew, Run.bind_raised] at hbody
  rw [exec_eq, command_of_raised hbody, State.fail_whole (i := .compress) rfl rfl,
    State.settle_eq_ended (taken := src.rest.length) (appended := 0) rfl rfl]
  rfl

/-- A first pass over two byte values or more ends in the second pass, under the tree Build made of the tallies. -/
theorem SecondPass.of_build {v : State} {t : HTree} (hlt : src.rest.length < 2 ^ 64) (hsnk : s.env.snk = .bound k)
    (hbuild : procBuild (s.firstPass src (some src.len)) = .ok () v) (hheld : v.holdsTree t)
    (hperm : t.leaves.Perm (presentBytes (tallied zeroFreq src.rest)))
    (hv : v = { (s.firstPass src (some src.len)).enter .deriving_ with node := v.node, heap := [], tree := v.tree }) :
    SecondPass s src k t (headerBytes t.serialized src.len) (v.secondPass (src.advance src.rest.length) k t src.len) where
  body := by
    have hbody : compressBody (s.begin (some .compress)) = _ := compressBody_counted hsrc hquiet heq
    rw [hbody, hbuild, Run.bind_ok]
    exact compressTree_held hheld (by rw [hv]; rfl) (by rw [hv]; rfl) (by rw [hv]; exact hsnk) (by rw [hv]; exact hquiet)
  nodup := hperm.nodup_iff.2 (presentBytes_nodup _)
  internal := by
    obtain ⟨_, _, _, _, hinternal, _⟩ := hheld
    exact hinternal
  mem_leaves x := by rw [hperm.mem_iff, presentBytes_tallied _ hlt]
  header_eq := rfl
  state := by
    rw [hv]
    simp [State.secondPass, State.firstPass, State.counted, State.enter, State.begin, State.discardAll, State.discardLen,
      State.discardSer, State.discardTree, Source.rewind_advance]

end

end

/-! Scripts (R94) -/

theorem runScript_run {i : Instr} {t : State} (hidle : s.ctl.busy = false) (h : exec i s = .next t) (ls : List ScriptLine) :
    runScript (.run i false :: ls) s = if t.ctl.outcome.isFailure then .next t else runScript ls t := by
  simp [runScript, hidle, perform, ScriptLine.event, writeCmd, decodeWord_encode, h, ScriptLine.stopsAtFailure]

theorem runScript_success {i : Instr} {t : State} (hidle : s.ctl.busy = false) (h : exec i s = .next t)
    (hok : t.ctl.outcome = .success) (ls : List ScriptLine) : runScript (.run i false :: ls) s = runScript ls t := by
  rw [runScript_run hidle h, hok]
  rfl

theorem runScript_failure {i : Instr} {t : State} {T : Failure} (hidle : s.ctl.busy = false) (h : exec i s = .next t)
    (hfail : t.ctl.outcome = .failure T) (ls : List ScriptLine) : runScript (.run i false :: ls) s = .next t := by
  rw [runScript_run hidle h, hfail]
  rfl

/-- A script of one command ends as the command does. -/
theorem runScript_singleton {i : Instr} {t : State} (hidle : s.ctl.busy = false) (h : exec i s = .next t) :
    runScript [.run i false] s = .next t := by
  rw [runScript_run hidle h]
  exact ite_self _

theorem runScript_rewind (hidle : s.ctl.busy = false) (hsrc : s.env.src = .bound src) (hwf : src.rewind.wf = true)
    (ls : List ScriptLine) : runScript (.rewind :: ls) s = runScript ls { s with env.src := .bound src.rewind } := by
  simp [runScript, hidle, perform, ScriptLine.event, moveSource, hsrc, whileIdle, hwf, ScriptLine.stopsAtFailure]

/-! The unit commands of COMPRESS, up to the rewind -/

/-- BUILD makes of the same FREQ what Build makes of it within another command (R135). -/
theorem exec_build_of_sameFreq {b v : State} (h2 : 2 ≤ (presentBytes b.freq).length) (hfreq : b.freq = s.freq)
    (hbuild : procBuild s = .ok () v) :
    exec .build b = .next ({ b with node := v.node, heap := [], tree := v.tree }.ended .success 0 0) := by
  obtain ⟨u, _, _, _, _, _, hrun, -⟩ := procBuild_ok (b.begin (some .build)) h2
  obtain ⟨hexec, hended⟩ := exec_build_of_procBuild hrun
  have hfinish := procBuild_eq_finishBuild (s := b.begin (some .build)) h2
  have hfinish' := procBuild_eq_finishBuild (s := s) (hfreq ▸ h2)
  have hsame : SameForest (b.begin (some .build)).merged s.merged := SameForest.merged hfreq
  obtain ⟨hnode, htree⟩ := hsame.finishBuild (hfinish ▸ hrun) (hfinish' ▸ hbuild)
  rw [hexec, hended, hnode, htree]

/-- What COUNT, BUILD, SERIALIZE and WRHDR leave in `s` for the input `src`, NODE, ROOT and CODE of the tree `t` being those
of `v` (R227). -/
def State.headerWritten (s v : State) (src : Source) (k : Sink) (t : HTree) : State :=
  { s.counted src with
    node := v.node, heap := [], tree := v.tree, ser := some t.serialized, origLen := some src.len
    env := { (s.counted src).env with snk := .bound (k.appendFlushed (headerBytes t.serialized src.len)) } }.ended
    .success 0 (headerBytes t.serialized src.len).length

section
variable (hidle : s.ctl.busy = false) (hsrc : s.env.src = .bound src) (hquiet : s.quiet)
include hidle hsrc hquiet

theorem script_of_length_ne (hne : BitVec.ofNat 64 src.rest.length ≠ src.len) (ls : List ScriptLine) :
    runScript (.run .count false :: ls) s = .next
      ({ s.counted src with origLen := none, heap := [] }.ended (.failure .protocolError) src.rest.length 0) :=
  runScript_failure hidle (exec_count_of_length_ne hsrc hquiet hne) rfl ls

section
variable (heq : BitVec.ofNat 64 src.rest.length = src.len)
include heq

theorem script_of_few (hfew : (presentBytes (tallied zeroFreq src.rest)).length < 2) (ls : List ScriptLine) :
    runScript (.run .count false :: .run .build false :: ls) s = .next
      ({ s.counted src with origLen := some src.len, node := [], heap := [], tree := none }.ended
        (.failure .insufficientAlphabet) 0 0) := by
  rw [runScript_success hidle (exec_count_of_length_eq hsrc hquiet heq) rfl]
  exact runScript_failure rfl (exec_build_insufficient hfew) rfl ls

theorem script_headerWritten {v : State} {t : HTree} (hsnk : s.env.snk = .bound k)
    (h2 : 2 ≤ (presentBytes (tallied zeroFreq src.rest)).length)
    (hbuild : procBuild (s.firstPass src (some src.len)) = .ok () v) (hheld : v.holdsTree t) (ls : List ScriptLine) :
    runScript (.run .count false :: .run .build false :: .run .serialize false :: .run .wrhdr false :: ls) s
      = runScript ls (s.headerWritten v src k t) := by
  rw [runScript_success hidle (exec_count_of_length_eq hsrc hquiet heq) rfl]
  rw [runScript_success (by rfl) (exec_build_of_sameFreq h2 (by rfl) hbuild) (by rfl)]
  rw [runScript_success (by rfl) (exec_serialize_held (holdsTree_congr hheld (by rfl) (by rfl))) (by rfl)]
  exact runScript_success (by rfl) (exec_wrhdr_quiet (c := t.serialized) (n := src.len) (k := k) (by rfl) (by rfl)
    (by exact hsnk) (by exact hquiet)) (by rfl) ls

end

end

/-! The rewind and ENCODE -/

/-- The state in which the script encodes: the header written and the Source rewound. -/
def State.rewound (s v : State) (src : Source) (k : Sink) (t : HTree) : State :=
  { s.headerWritten v src k t with env.src := .bound src.rewind }

theorem script_rewound {v : State} {t : HTree} (hwf : src.wf = true) :
    runScript [.rewind, .run .encode false] (s.headerWritten v src k t)
      = runScript [.run .encode false] (s.rewound v src k t) := by
  rw [runScript_rewind (src := src.advance src.rest.length) (by rfl) (by rfl)]
  · rw [Source.rewind_advance]; rfl
  · rw [Source.rewind_advance]; exact Source.wf_rewind hwf

/-- The COMPRESS of `SecondPass` beside its script, which has come as far with the tree `t`, held in NODE as `v` holds it. -/
structure SecondPass.Scripted (s : State) (src : Source) (k : Sink) (t : HTree) (v w : State) : Prop where
  pass : SecondPass s src k t (headerBytes t.serialized src.len) w
  freq_eq : w.freq = tallied zeroFreq src.rest
  held : v.holdsTree t
  script : ∀ ls, runScript (.run .count false :: .run .build false :: .run .serialize false :: .run .wrhdr false :: ls) s
    = runScript ls (s.headerWritten v src k t)

theorem SecondPass.Scripted.exists_of_input (hidle : s.ctl.busy = false) (hsrc : s.env.src = .bound src)
    (hsnk : s.env.snk = .bound k) (hquiet : s.quiet) (hlt : src.rest.length < 2 ^ 64)
    (heq : BitVec.ofNat 64 src.rest.length = src.len) (h2 : 2 ≤ (presentBytes (tallied zeroFreq src.rest)).length) :
    ∃ t v w, SecondPass.Scripted s src k t v w := by
  obtain ⟨v, t, _, _, _, _, hbuild, hheld, hperm, -, -, -, -, hv⟩ := procBuild_ok (s.firstPass src (some src.len)) h2
  exact ⟨t, v, _, .of_build hsrc hquiet heq hlt hsnk hbuild hheld hperm hv, by rw [hv]; rfl, hheld,
    script_headerWritten hidle hsrc hquiet heq hsnk h2 hbuild hheld⟩

namespace SecondPass.Scripted

variable {t : HTree} {v w : State}

theorem rewound_holdsTree (h : SecondPass.Scripted s src k t v w) : (s.rewound v src k t).holdsTree t :=
  holdsTree_congr h.held rfl rfl

/-- ENCODE in the script when every byte of the rewound Source has a code: it succeeds. -/
theorem exec_encode_coded (h : SecondPass.Scripted s src k t v w) (hquiet : s.quiet)
    (hxs : ∀ y ∈ src.rewind.rest, y ∈ src.rest) :
    ∃ enc, exec .encode (s.rewound v src k t) = .next ({ s.rewound v src k t with
        enc := enc
        env := { s.env with
          src := .bound (src.rewind.advance src.rewind.rest.length)
          snk := .bound ((k.appendFlushed (headerBytes t.serialized src.len)).appendFlushed
            (packBits (streamBits t.codeTable src.rewind.rest))) } }.ended
      .success src.rewind.rest.length (packBits (streamBits t.codeTable src.rewind.rest)).length) := by
  have ⟨head, hhead, _, hcode, _⟩ := h.rewound_holdsTree
  obtain ⟨u, hexec, hu⟩ := encodeAppendsThePackedCodes (s.rewound v src k t) t head src.rewind _ h.rewound_holdsTree
    hhead rfl rfl hquiet fun y hy => (h.pass.mem_leaves y).2 (hxs y hy)
  rw [hu, hcode] at hexec
  exact ⟨u.enc, by rw [packBits_length]; exact hexec⟩

/-- ENCODE in the script at the first byte of the rewound Source that has no code: it fails there. -/
theorem exec_encode_uncoded (h : SecondPass.Scripted s src k t v w) (hquiet : s.quiet) {xs rest : List Byte} {x : Byte}
    (hrest : src.rewind.rest = xs ++ x :: rest) (hxs : ∀ y ∈ xs, y ∈ src.rest) (hx : x ∉ src.rest) :
    ∃ enc, exec .encode (s.rewound v src k t) = .next ({ s.rewound v src k t with
        heap := [], enc := enc
        env := { s.env with
          src := .bound (src.rewind.advance (xs.length + 1))
          snk := .bound ((k.appendFlushed (headerBytes t.serialized src.len)).append
            ((packBits (streamBits t.codeTable xs)).take ((streamBits t.codeTable xs).length / 8))) } }.ended
      (.failure .protocolError) (xs.length + 1) ((streamBits t.codeTable xs).length / 8)) := by
  have ⟨head, hhead, _, hcode, _⟩ := h.rewound_holdsTree
  obtain ⟨u, hexec, hu⟩ := encodeStopsAtAnUncodedByte (s.rewound v src k t) t head src.rewind _ xs rest x
    h.rewound_holdsTree hhead rfl rfl hquiet hrest (fun y hy => (h.pass.mem_leaves y).2 (hxs y hy))
    (mt (h.pass.mem_leaves x).1 hx)
  rw [hu, hcode] at hexec
  exact ⟨u.enc, hexec⟩

/-- Whatever the second pass shows, both leave the same Source and the same bytes; COMPRESS alone refuses a second pass of
another length that is coded to its end (R227, R245). -/
theorem ends (h : SecondPass.Scripted s src k t v w) (hwf : src.wf = true) (hquiet : s.quiet) :
    ∃ t u, exec .compress s = .next t
      ∧ runScript [.run .count false, .run .build false, .run .serialize false, .run .wrhdr false, .rewind,
          .run .encode false] s = .next u
      ∧ t.env.src = u.env.src ∧ t.sinkBytes = u.sinkBytes
      ∧ (t.ctl.outcome = u.ctl.outcome
        ∨ (t.ctl.outcome = .failure .protocolError ∧ u.ctl.outcome = .success ∧ t.ctl.inCount ≠ src.len)) := by
  have hscript {u : State} (hencode : exec .encode (s.rewound v src k t) = .next u) :=
    (h.script _).trans ((script_rewound hwf).trans (runScript_singleton rfl hencode))
  rcases exists_first_notMem_or_subset src.rewind.rest src.rest with ⟨xs, x, rest, hrest, hxs, hx⟩ | hxs
  · obtain ⟨_, hcompress⟩ := h.pass.exec_uncoded hquiet hrest hxs hx
    obtain ⟨_, hencode⟩ := h.exec_encode_uncoded hquiet hrest hxs hx
    refine ⟨_, _, hcompress, hscript hencode, rfl, ?_, .inl rfl⟩
    simp [State.sinkBytes, State.compressed, Sink.append, Sink.appendFlushed]
  · obtain ⟨_, hencode⟩ := h.exec_encode_coded hquiet hxs
    by_cases hlen : BitVec.ofNat 64 src.rewind.rest.length = src.len
    · refine ⟨_, _, h.pass.exec_coded hquiet hxs hlen, hscript hencode, rfl, ?_, .inl rfl⟩
      simp [State.sinkBytes, State.compressed, Sink.appendFlushed]
    · refine ⟨_, _, h.pass.exec_miscounted hquiet hxs hlen, hscript hencode, rfl, ?_, .inr ⟨rfl, rfl, hlen⟩⟩
      simp [State.sinkBytes, State.compressed, Sink.append, Sink.appendFlushed]

end SecondPass.Scripted

end

end Sys2Proof.Machine

namespace Sys2Proof
open Sys2Proof.Machine

/-- Settles O39: Build finds fewer than two values, or Count does not read SrcLen() bytes, before anything is appended. -/
theorem compressNeedsTwoByteValues : Obligations.CompressNeedsTwoByteValues := by
  refine ⟨fun s bs hinput hquiet hfew => ?_, fun s src hsrc hquiet hne => ?_⟩
  · obtain ⟨hsrc, hlt⟩ := hinput
    exact ⟨_, exec_compress_of_few hsrc hquiet rfl (by rwa [faithful_rest, presentBytes_length bs hlt]), rfl⟩
  · exact ⟨_, exec_compress_of_length_ne hsrc hquiet hne, rfl⟩

/-- Settles O42: both stop in the first pass, or both write the header of one tree and go through the second pass, at whose
end COMPRESS alone checks the length. -/
theorem compressEqualsItsUnitCommands : Obligations.CompressEqualsItsUnitCommands := by
  refine ⟨fun s bs snk hidle hinput hsnk hquiet => ?_, fun s src snk hidle hsrc hwf hsnk hquiet => ?_⟩
  · obtain ⟨hsrc, hlt⟩ := hinput
    by_cases hfew : (presentBytes (tallied zeroFreq (Source.faithful bs).rest)).length < 2
    · exact ⟨_, _, _, exec_compress_of_few hsrc hquiet rfl hfew, script_of_few hidle hsrc hquiet rfl hfew _,
        script_of_few hidle hsrc hquiet rfl hfew _, rfl, rfl, rfl, nofun⟩
    · obtain ⟨t, v, w, h⟩ := SecondPass.Scripted.exists_of_input hidle hsrc hsnk hquiet hlt rfl (by omega)
      obtain ⟨enc, hencode⟩ := h.exec_encode_coded hquiet fun _ hy => hy
      have ⟨head, hhead, _⟩ := h.held
      refine ⟨_, _, _, h.pass.exec_coded hquiet (fun _ hy => hy) rfl,
        (h.script _).trans ((script_rewound (Source.faithful_wf hlt)).trans (runScript_singleton rfl hencode)), h.script [],
        ?_, rfl, h.freq_eq, fun _ => ⟨rfl, rfl, rfl, ?_, rfl, rfl, ?_⟩⟩
      · rw [Sink.appendFlushed_appendFlushed]
        rfl
      · exact Option.isSome_iff_exists.2 ⟨head, hhead⟩
      · rw [List.length_append]
        exact BitVec.ofNat_add _ _
  · by_cases heq : BitVec.ofNat 64 src.rest.length = src.len
    · by_cases hfew : (presentBytes (tallied zeroFreq src.rest)).length < 2
      · exact ⟨_, _, exec_compress_of_few hsrc hquiet heq hfew, script_of_few hidle hsrc hquiet heq hfew _, rfl, rfl,
          .inl rfl⟩
      · obtain ⟨t, v, w, h⟩ := SecondPass.Scripted.exists_of_input hidle hsrc hsnk hquiet (Source.rest_length_lt hwf) heq
          (by omega)
        exact h.ends hwf hquiet
    · exact ⟨_, _, exec_compress_of_length_ne hsrc hquiet heq, script_of_length_ne hidle hsrc hquiet heq _, rfl, rfl,
        .inl rfl⟩

end Sys2Proof
end

section
/-! PROOF. DECOMPRESS does what its unit commands do one after another, whatever the Source holds and however the calls that
return are answered (20_memory.md R66, 30_encoding.md R94, 45_file_format.md R226, R227). -/

namespace Sys2Proof.Machine

/-! Runs of one procedure within two commands -/

/-- Two states that hold the same streams, coming answers, error value and number of bytes appended. -/
structure SameCounts (s s' : State) : Prop where
  env : s.env = s'.env
  ioerr : s.ctl.ioerr = s'.ctl.ioerr
  outCount : s.ctl.outCount = s'.ctl.outCount

/-- A change of the state that no call of a stream sees and that sees none (R13, R61 to R66). -/
structure CallBlind (g : State → State) : Prop where
  counts : ∀ s, SameCounts (g s) s
  setEnv : ∀ s e, g { s with env := e } = { g s with env := e }
  taken : ∀ s, g { s with ctl.inCount := s.ctl.inCount + 1 } = { g s with ctl.inCount := (g s).ctl.inCount + 1 }
  appended : ∀ s, g { s with ctl.outCount := s.ctl.outCount + 1 } = { g s with ctl.outCount := (g s).ctl.outCount + 1 }

/-- Two runs in which every call returns: both end with the same result in states that `g` relates, or both raise the same
failure, with the same counts. -/
inductive Run.Mirrors (g : State → State) {α : Type} : Run α → Run α → Prop where
  | ok {a : α} {s : State} : .never ∉ s.env.answers → Mirrors g (.ok a (g s)) (.ok a s)
  | raised {t : Failure} {s s' : State} : SameCounts s s' → Mirrors g (.raised t s) (.raised t s')

theorem Run.Mirrors.of_eq {g : State → State} {α : Type} {a : α} {s u : State} (hu : u = g s)
    (hn : .never ∉ s.env.answers) : Run.Mirrors g (.ok a u) (.ok a s) :=
  hu ▸ .ok hn

theorem Run.Mirrors.bind {g g' : State → State} {α β : Type} {r r' : Run α} {k k' : α → State → Run β}
    (h : Run.Mirrors g r r') (hk : ∀ a s, r' = .ok a s → .never ∉ s.env.answers → Run.Mirrors g' (k a (g s)) (k' a s)) :
    Run.Mirrors g' (r.bind k) (r'.bind k') := by
  cases h with
  | ok hn => exact hk _ _ rfl hn
  | raised h => exact .raised h

section
variable {g : State → State} (hg : CallBlind g) {s : State} (hn : .never ∉ s.env.answers)
include hg

theorem require_mirrors (c : Bool) (t : Failure) (hn : .never ∉ s.env.answers) :
    Run.Mirrors g (require c t (g s)) (require c t s) := by
  cases c with
  | false => exact .raised (hg.counts s)
  | true => exact .ok hn

theorem ioError_mirrors {α : Type} (e : IoErr) {u : State} (hu : u = g s) :
    Run.Mirrors (α := α) g (ioError e u) (ioError e s) := by
  subst hu
  obtain ⟨henv, -, hout⟩ := hg.counts s
  exact .raised ⟨henv, rfl, hout⟩

include hn

theorem answerCall_mirrors (st : Stream) : Run.Mirrors g (answerCall st (g s)) (answerCall st s) := by
  rw [answerCall, answerCall, (hg.counts s).env]
  split
  · exact .ok hn
  · rename_i l hl
    rw [hl] at hn
    exact .of_eq (hg.setEnv s _).symm (mt (List.mem_cons_of_mem _) hn)
  · exact ioError_mirrors hg _ (hg.setEnv s _).symm
  · rename_i l hl
    rw [hl] at hn
    exact absurd List.mem_cons_self hn

theorem callSource_mirrors {α : Type} (f : Source → α × Source) : Run.Mirrors g (callSource f (g s)) (callSource f s) := by
  rw [callSource, callSource, (hg.counts s).env]
  split
  · exact ioError_mirrors hg _ rfl
  · refine (answerCall_mirrors hg hn .source).bind fun _ u _ hu => ?_
    rw [(hg.counts u).env]
    exact .of_eq (hg.setEnv u _).symm hu

theorem callSink_mirrors (f : Sink → Sink) : Run.Mirrors g (callSink f (g s)) (callSink f s) := by
  rw [callSink, callSink, (hg.counts s).env]
  split
  · exact ioError_mirrors hg _ rfl
  · refine (answerCall_mirrors hg hn .sink).bind fun _ u _ hu => ?_
    rw [(hg.counts u).env]
    exact .of_eq (hg.setEnv u _).symm hu

theorem srcReadByte_mirrors (t : Failure) : Run.Mirrors g (srcReadByte t (g s)) (srcReadByte t s) := by
  refine (callSource_mirrors hg hn _).bind fun r u _ hu => ?_
  cases r with
  | none => exact .raised (hg.counts u)
  | some b => exact .of_eq (hg.taken u).symm hu

theorem put_mirrors (b : Byte) : Run.Mirrors g (put b (g s)) (put b s) :=
  (callSink_mirrors hg hn _).bind fun _ u _ hu => .of_eq (hg.appended u).symm hu

end

theorem srcReadBytes_mirrors {g : State → State} (hg : CallBlind g) (t : Failure) : ∀ (n : Nat) {s : State},
    .never ∉ s.env.answers → Run.Mirrors g (srcReadBytes t n (g s)) (srcReadBytes t n s)
  | 0, _, hn => .ok hn
  | n + 1, _, hn => (srcReadByte_mirrors hg hn t).bind fun _ _ _ hu =>
    (srcReadBytes_mirrors hg t n hu).bind fun _ _ _ hw => .ok hw

/-! RDHDR, and DECODE's body -/

section
variable {g : State → State} (hg : CallBlind g)
include hg

/-- ReadHeader seen through `g`, which leaves PHASE, the flags it clears and what it reads as they are (R219). -/
theorem procReadHeader_mirrors {s s' : State} (hn : .never ∉ s'.env.answers)
    (hstart : (s.enter .readingHeader).discardSer.discardLen = g (s'.enter .readingHeader).discardSer.discardLen)
    (hheld : ∀ u c n, g { u with ser := some c, origLen := some n } = { g u with ser := some c, origLen := some n }) :
    Run.Mirrors g (procReadHeader s) (procReadHeader s') := by
  rw [procReadHeader, procReadHeader, hstart]
  refine (srcReadBytes_mirrors hg _ 2 (s := (s'.enter .readingHeader).discardSer.discardLen) hn).bind fun nc u _ hu => ?_
  refine (require_mirrors hg _ _ hu).bind fun _ u _ hu => ?_
  refine (srcReadBytes_mirrors hg _ _ hu).bind fun packed u _ hu => ?_
  refine (require_mirrors hg _ _ hu).bind fun _ u _ hu => ?_
  refine (srcReadBytes_mirrors hg _ _ hu).bind fun leafv u _ hu => ?_
  exact (srcReadBytes_mirrors hg _ 8 hu).bind fun lenBytes u _ hu => .of_eq (hheld u _ _).symm hu

end

theorem procReadHeader_held {s u : State} (h : procReadHeader s = .ok () u) :
    ∃ c n, u.ser = some c ∧ u.origLen = some n := by
  rw [procReadHeader] at h
  iterate 6 obtain ⟨_, _, -, h⟩ := Run.bind_eq_ok h
  cases h
  exact ⟨_, _, rfl, rfl⟩

/-- The control registers `l` of one command with the error value and OUT_COUNT of another's `c`, whose bytes taken are
counted on in IN_COUNT. -/
def Control.over (l c : Control) : Control :=
  { l with ioerr := c.ioerr, inCount := l.inCount + c.inCount, outCount := c.outCount }

/-- The control registers `c` with PHASE as given (R24). -/
def Control.inPhase (c : Control) (p : Phase) : Control := { c with phase := p }

/-- The state `s` of one command as another command with the control registers `l` and the scratch `d` has it. -/
def State.dressed (l : Control) (d : DesRegs) (s : State) : State := { s with ctl := l.over s.ctl, des := d }

theorem dressed_callBlind (l : Control) (d : DesRegs) : CallBlind (State.dressed l d) where
  counts _ := ⟨rfl, rfl, rfl⟩
  setEnv _ _ := rfl
  taken s := by simp [State.dressed, Control.over, BitVec.add_assoc]
  appended _ := rfl

theorem CallBlind.discardTree {g : State → State} (hg : CallBlind g) : CallBlind fun s => (g s).discardTree where
  counts s := ⟨(hg.counts s).env, (hg.counts s).ioerr, (hg.counts s).outCount⟩
  setEnv s e := by rw [hg.setEnv]; rfl
  taken s := by rw [hg.taken]; rfl
  appended s := by rw [hg.appended]; rfl

theorem CallBlind.discardAll {g : State → State} (hg : CallBlind g) : CallBlind fun s => (g s).discardAll where
  counts s := ⟨(hg.counts s).env, (hg.counts s).ioerr, (hg.counts s).outCount⟩
  setEnv s e := by rw [hg.setEnv]; rfl
  taken s := by rw [hg.taken]; rfl
  appended s := by rw [hg.appended]; rfl

section
variable (l : Control) (d : DesRegs) {s : State} (hn : .never ∉ s.env.answers)
include hn

theorem takeBit_mirrors : Run.Mirrors (State.dressed l d) (takeBit (s.dressed l d)) (takeBit s) := by
  rw [takeBit, takeBit]
  exact .of_eq rfl hn

theorem nextBit_mirrors : Run.Mirrors (State.dressed l d) (nextBit (s.dressed l d)) (nextBit s) := by
  have hpos : (s.dressed l d).dec.inPos = s.dec.inPos := rfl
  rw [nextBit, nextBit, hpos]
  split
  · exact (srcReadByte_mirrors (dressed_callBlind l d) hn _).bind fun x u _ hu =>
      takeBit_mirrors l d (s := { u with dec := { u.dec with inByte := x, inPos := 0 } }) hu
  · exact takeBit_mirrors l d hn

theorem arrive_mirrors (root c : NodeIdx) :
    Run.Mirrors (State.dressed l d) (arrive root c (s.dressed l d)) (arrive root c s) := by
  have hnode : (s.dressed l d).nodeAt c = s.nodeAt c := rfl
  simp only [arrive, hnode]
  split
  · exact (put_mirrors (dressed_callBlind l d) (s := { s with dec := { s.dec with cur := c, dstate := .atLeaf } }) hn _).bind
      fun _ _ _ hu => .of_eq rfl hu
  · exact .of_eq rfl hn

theorem decodeStep_mirrors (root : NodeIdx) :
    Run.Mirrors (State.dressed l d) (decodeStep root (s.dressed l d)) (decodeStep root s) := by
  have hnode : (s.dressed l d).nodeAt (s.dressed l d).dec.cur = s.nodeAt s.dec.cur := rfl
  rw [decodeStep, decodeStep, hnode]
  split
  · exact (nextBit_mirrors l d hn).bind fun _ _ _ hu => arrive_mirrors l d hu _ _
  · exact .raised ((dressed_callBlind l d).counts s)

end

theorem decodeLoop_mirrors (l : Control) (d : DesRegs) (root : NodeIdx) (len : Word64) :
    ∀ (n : Nat) (emitted : Word64) {s : State},
    .never ∉ s.env.answers →
    Run.Mirrors (State.dressed l d) (decodeLoop root len n emitted (s.dressed l d)) (decodeLoop root len n emitted s)
  | 0, emitted, s, hn => by
    rw [decodeLoop, decodeLoop]
    split
    · exact .raised ((dressed_callBlind l d).counts s)
    · exact .ok hn
  | n + 1, emitted, s, hn => by
    rw [decodeLoop, decodeLoop]
    split
    · exact (decodeStep_mirrors l d hn root).bind fun _ _ _ hu => decodeLoop_mirrors l d root len n _ hu
    · exact .ok hn

theorem decodeAndVerify_mirrors (l : Control) (d : DesRegs) {s : State} (hn : .never ∉ s.env.answers) :
    Run.Mirrors (State.dressed (l.inPhase .decoding) d) (decodeAndVerify (s.dressed l d)) (decodeAndVerify s) := by
  have hg := dressed_callBlind (l.inPhase .decoding) d
  rw [decodeAndVerify, decodeAndVerify]
  refine Run.Mirrors.bind (g := State.dressed (l.inPhase .decoding) d) ?_ fun _ u _ hu => require_mirrors hg _ _ hu
  have htree : (s.dressed l d).tree = s.tree := rfl
  have hlen : (s.dressed l d).origLen = s.origLen := rfl
  simp only [procDecode, htree, hlen]
  split
  · exact decodeLoop_mirrors (l.inPhase .decoding) d _ _ _ _ (s := s.startDecoding _) hn
  · exact .raised ((dressed_callBlind l d).counts s)

/-- Deserialize sees neither the control registers, nor its scratch, nor the tree it discards first (R157). -/
theorem procDeserialize_mirrors (l : Control) (d : DesRegs) {s : State} {c : SerTree} (hser : s.ser = some c)
    (hn : .never ∉ s.env.answers) : ∃ d', Run.Mirrors (State.dressed (l.inPhase .deriving_) d')
      (procDeserialize (s.dressed l d).discardTree) (procDeserialize s) := by
  have hser' : (s.dressed l d).discardTree.ser = some c := hser
  cases hwf : c.wellFormed with
  | true =>
    obtain ⟨t, hshape, hleaves, -⟩ := SerTree.exists_tree hwf
    obtain ⟨d₁, hrun⟩ := procDeserialize_ok hwf hshape hleaves hser'
    obtain ⟨_, hrun'⟩ := procDeserialize_ok hwf hshape hleaves hser
    rw [hrun, hrun']
    exact ⟨d₁, .of_eq rfl hn⟩
  | false =>
    obtain ⟨d₁, hrun⟩ := procDeserialize_malformed hwf hser'
    obtain ⟨_, hrun'⟩ := procDeserialize_malformed hwf hser
    rw [hrun, hrun']
    exact ⟨d₁, .raised ⟨rfl, rfl, rfl⟩⟩

theorem procDeserialize_tree {s u : State} (h : procDeserialize s = .ok () u) : u.tree.isSome = true := by
  rw [procDeserialize] at h
  split at h
  · cases h
  · obtain ⟨_, _, -, h⟩ := Run.bind_eq_ok h
    rw [finishTree] at h
    split at h
    · cases h
    · cases h; rfl

/-! The byte counts between two unit commands -/

/-- A run that leaves the Sink as it was has appended nothing (R25, R64). -/
theorem SnkMoves.outCount_of_snk {s u : State} (h : SnkMoves s u) (hsnk : u.env.snk = s.env.snk) :
    u.ctl.outCount = s.ctl.outCount := by
  cases hs : s.env.snk with
  | unbound e x => exact (h.unboundSnk e x hs).2
  | bound k =>
    obtain ⟨bs, hk, hout⟩ := h.boundSnk k hs
    rw [hsnk, hs] at hk
    have hnil : bs = [] := by simpa [Sink.append] using congrArg Sink.data (Binding.bound.inj hk)
    rw [hout, hnil]
    simp

theorem procReadHeader_outCount {s u : State} (h : procReadHeader s = .ok () u) : u.ctl.outCount = s.ctl.outCount := by
  have hwithin := procReadHeader_within s
  rw [h] at hwithin
  obtain ⟨hmoves, hkept⟩ := hwithin.of_ok
  simp only [keptByReadHeader, Prod.mk.injEq] at hkept
  exact hmoves.outCount_of_snk hkept.1

theorem procDeserialize_kept {s u : State} (h : procDeserialize s = .ok () u) :
    u.ctl.outCount = s.ctl.outCount ∧ u.origLen = s.origLen := by
  have hwithin := procDeserialize_within s
  rw [h] at hwithin
  obtain ⟨hmoves, hkept⟩ := hwithin.of_ok
  simp only [keptByDeserialize, Prod.mk.injEq] at hkept
  obtain ⟨henv, -, -, -, hlen, -⟩ := hkept
  exact ⟨hmoves.outCount_of_snk (by rw [henv]), hlen⟩

theorem Control.over_self {l c : Control} (hioerr : l.ioerr = c.ioerr) (hin : c.inCount = 0) (hout : l.outCount = c.outCount) :
    l.over c = l := by
  rw [Control.over, ← hioerr, hin, ← hout, add_zero]

/-- The state in which command `i` starts when the one before it has come to its Finish in `u` (R248, R249). -/
abbrev State.thenBegin (u : State) (i : Instr) : State := (u.settle .success).begin (some i)

/-- The state in which the next unit command starts is that of the whole-file command too, its counts begun anew. -/
theorem State.dressed_thenBegin {u : State} (hout : u.ctl.outCount = 0) (l : Control) (d : DesRegs) (i : Instr) :
    (u.thenBegin i).dressed (u.dressed l d).ctl d = u.dressed l d := by
  have hctl : (u.dressed l d).ctl.over (u.thenBegin i).ctl = (u.dressed l d).ctl :=
    Control.over_self rfl rfl hout
  rw [State.dressed, hctl]
  rfl

/-! DECOMPRESS and its script -/

/-- How a command whose body and Finish run as `r` ends (R249, R250, R286). -/
def Run.outcome (r : Run Unit) : Host.Outcome State Fault Refusal :=
  match r with
  | .ok _ s => .next s
  | .raised t s => .next (s.fail t)
  | .hung st s => .next { s with ctl.waiting := some st }
  | .stuck f => .fault f

theorem exec_eq_outcome (i : Instr) (s : State) :
    exec i s = ((bodyOf i (s.begin (some i))).bind fun _ s => finish s).outcome := by
  rw [exec_eq]
  rfl

/-- A whole-file command with `r` left to run ends idle, as its script with the end `o` does: with the same streams, outcome,
RCOUNT and IOERR (R227). -/
def EndsAs (r : Run Unit) (o : Host.Outcome State Fault Refusal) : Prop :=
  ∃ t u, r.outcome = .next t ∧ o = .next u ∧ t.ctl.busy = false ∧ t.env = u.env ∧ t.ctl.outcome = u.ctl.outcome
    ∧ t.ctl.rcount = u.ctl.rcount ∧ t.ctl.ioerr = u.ctl.ioerr

theorem EndsAs.raised {s s' : State} (h : SameCounts s s') (t : Failure) : EndsAs (.raised t s) (.next (s'.fail t)) := by
  obtain ⟨henv, hioerr, hout⟩ := h
  refine ⟨_, _, rfl, rfl, ?_⟩
  simp [State.fail_ctl, State.fail_env, henv, hioerr, hout]

theorem EndsAs.settled {s s' : State} (h : SameCounts s s') :
    EndsAs (.ok () (s.settle .success)) (.next (s'.settle .success)) := by
  obtain ⟨henv, hioerr, hout⟩ := h
  exact ⟨_, _, rfl, rfl, rfl, henv, rfl, hout, hioerr⟩

theorem running_of_body {i : Instr} {s u : State} (h : bodyOf i (s.begin (some i)) = .ok () u) : u.ctl.running = some i := by
  have hmoves := bodyOf_snkMoves i (s.begin (some i))
  rw [h] at hmoves
  exact running_of hmoves.of_ok

/-- A unit command that does not write the Sink ends the script as the failure ends the whole-file command, or both go on. -/
theorem EndsAs.unit {i : Instr} {ls : List ScriptLine} {s : State} {g : State → State} {r : Run Unit}
    {k : Unit → State → Run Unit} (hidle : s.ctl.busy = false) (hi : writesSink i = false)
    (hr : Run.Mirrors g r (bodyOf i (s.begin (some i))))
    (hk : ∀ u, bodyOf i (s.begin (some i)) = .ok () u → .never ∉ u.env.answers →
      EndsAs (k () (g u)) (runScript ls (u.settle .success))) :
    EndsAs (r.bind k) (runScript (.run i false :: ls) s) := by
  generalize hbody : bodyOf i (s.begin (some i)) = r' at hr hk
  cases hr with
  | ok hn =>
    rw [runScript_success hidle ((exec_eq i s).trans (command_of_ok hbody (running_of_body hbody) hi)) rfl]
    exact hk _ rfl hn
  | raised h =>
    rw [runScript_failure hidle ((exec_eq i s).trans (command_of_raised hbody)) (by rw [State.fail_ctl]; rfl)]
    exact .raised h _

theorem flushIfWriter_of_writer {i : Instr} {s : State} (hrun : s.ctl.running = some i) (hi : writesSink i = true) :
    flushIfWriter s = snkFlush s := by
  rw [flushIfWriter, hrun]
  exact if_pos hi

/-- Finish is its flush and then the end of the command (R249). -/
theorem Run.bind_finish {α : Type} (r : Run α) : (r.bind fun _ s => finish s) =
    (r.bind fun _ s => flushIfWriter s).bind fun _ s => .ok () (s.settle .success) := by
  rw [Run.bind_assoc]
  rfl

/-- The last unit command ends the script as the flush and the end of the whole-file command end it. -/
theorem EndsAs.last {i : Instr} {s : State} {g : State → State} {r : Run Unit} (hidle : s.ctl.busy = false)
    (hg : ∀ s, SameCounts (g s) s)
    (hr : Run.Mirrors g r ((bodyOf i (s.begin (some i))).bind fun _ s => flushIfWriter s)) :
    EndsAs (r.bind fun _ s => .ok () (s.settle .success)) (runScript [.run i false] s) := by
  have hexec := exec_eq_outcome i s
  rw [Run.bind_finish] at hexec
  generalize (bodyOf i (s.begin (some i))).bind (fun _ s => flushIfWriter s) = r' at hr hexec
  cases hr with
  | ok _ =>
    rw [runScript_singleton hidle hexec]
    exact .settled (hg _)
  | raised h =>
    rw [runScript_singleton hidle hexec]
    exact .raised h _

section
variable {u : State} (l : Control) (d : DesRegs) (hrun : l.running = some .decompress) (hn : .never ∉ u.env.answers)
  (hout : u.ctl.outCount = 0)
include hrun hn hout

/-- DECODE, the last of the script, beside the end of DECOMPRESS, which discards everything before the flush. -/
theorem EndsAs.decode (htree : u.tree.isSome = true) (hlen : u.origLen.isSome = true) :
    EndsAs (((decodeAndVerify (u.dressed l d)).bind fun _ s => discardStep s).bind fun _ s => finish s)
      (runScript [.run .decode false] (u.settle .success)) := by
  have hbody : bodyOf .decode (u.thenBegin .decode) = decodeAndVerify (u.thenBegin .decode) :=
    guarded_true (by simp [precondition, State.treeValid, State.lenValid, htree, hlen])
  have hmirrors := decodeAndVerify_mirrors (u.dressed l d).ctl d (s := u.thenBegin .decode) hn
  rw [State.dressed_thenBegin hout, ← hbody] at hmirrors
  have hblind := (dressed_callBlind ((u.dressed l d).ctl.inPhase .decoding) d).discardAll
  have hflushed : Run.Mirrors (fun s => (s.dressed ((u.dressed l d).ctl.inPhase .decoding) d).discardAll)
      (((decodeAndVerify (u.dressed l d)).bind fun _ s => discardStep s).bind fun _ s => flushIfWriter s)
      ((bodyOf .decode (u.thenBegin .decode)).bind fun _ s => flushIfWriter s) := by
    rw [Run.bind_assoc]
    refine hmirrors.bind fun _ w hw hnw => ?_
    rw [discardStep, Run.bind_ok, flushIfWriter_of_writer (running_of_body hw) rfl,
      flushIfWriter_of_writer (i := .decompress) hrun rfl]
    exact callSink_mirrors hblind hnw _
  rw [Run.bind_finish]
  exact .last rfl hblind.counts hflushed

/-- DESERIALIZE and DECODE beside DECOMPRESS behind its header. -/
theorem EndsAs.deserialize {c : SerTree} (hser : u.ser = some c) (hlen : u.origLen.isSome = true) :
    EndsAs ((procDeserialize (u.dressed l d).discardTree).bind
        fun _ s => ((decodeAndVerify s).bind fun _ s => discardStep s).bind fun _ s => finish s)
      (runScript [.run .deserialize false, .run .decode false] (u.settle .success)) := by
  have hbody : bodyOf .deserialize (u.thenBegin .deserialize) = procDeserialize (u.thenBegin .deserialize) :=
    guarded_true (precondition_deserialize hser)
  obtain ⟨d', hmirrors⟩ := procDeserialize_mirrors (u.dressed l d).ctl d (s := u.thenBegin .deserialize) hser hn
  rw [State.dressed_thenBegin hout, ← hbody] at hmirrors
  refine .unit rfl rfl hmirrors fun w hw hnw => ?_
  rw [hbody] at hw
  obtain ⟨houtw, hlenw⟩ := procDeserialize_kept hw
  exact .decode _ d' hrun hnw houtw (procDeserialize_tree hw) (by rw [hlenw]; exact hlen)

end

theorem decompressBody_eq (s : State) : decompressBody s = (procReadHeader s.discardAll).bind fun _ s =>
    (procDeserialize s).bind fun _ s => (decodeAndVerify s).bind fun _ s => discardStep s := by
  simp only [decompressBody, decodeAndVerify, Run.bind_assoc]

/-- DECOMPRESS beside RDHDR, DESERIALIZE and DECODE (R227). -/
theorem decompress_endsAs {s : State} (hidle : s.ctl.busy = false) (hn : .never ∉ s.env.answers) :
    EndsAs ((bodyOf .decompress (s.begin (some .decompress))).bind fun _ s => finish s)
      (runScript [.run .rdhdr false, .run .deserialize false, .run .decode false] s) := by
  have hblind := (dressed_callBlind ((s.begin (some .decompress)).ctl.inPhase .readingHeader) s.des).discardTree
  have hmirrors : Run.Mirrors _ (procReadHeader (s.begin (some .decompress)).discardAll)
      (bodyOf .rdhdr (s.begin (some .rdhdr))) :=
    procReadHeader_mirrors hblind hn rfl fun _ _ _ => rfl
  rw [bodyOf, decompressBody_eq, Run.bind_assoc]
  refine .unit hidle rfl hmirrors fun u hu hnu => ?_
  obtain ⟨c, n, hser, hlen⟩ := procReadHeader_held hu
  rw [Run.bind_assoc]
  exact .deserialize _ s.des rfl hnu (procReadHeader_outCount hu) hser (by rw [hlen]; rfl)

end Sys2Proof.Machine

namespace Sys2Proof
open Sys2Proof.Machine

/-- Settles O43: the two go through the same procedures, in states that differ only in what these do not see. -/
theorem decompressEqualsItsUnitCommands : Obligations.DecompressEqualsItsUnitCommands := by
  intro s hidle hn
  obtain ⟨t, u, hend, hscript, hbusy, henv, houtcome, hrcount, hioerr⟩ := decompress_endsAs hidle hn
  have hexec := (exec_eq_outcome .decompress s).trans hend
  have ⟨htree, hser, hlen⟩ := exec_wholeFile_nothingValid (i := .decompress) rfl hexec hbusy
  exact ⟨t, u, hexec, hscript, henv, houtcome, hrcount, hioerr, htree, hser, hlen⟩

end Sys2Proof
end

section
/-! PROOF. The failures each command can end with, and a command whose precondition on the valid flags fails
(60_exceptions.md R241 to R246, R250). -/

namespace Sys2Proof.Machine

/-! The precondition on the valid flags (R246) -/

/-- Begin leaves the valid flags (R248). -/
theorem precondition_begin (i : Instr) (s : State) : precondition i (s.begin (some i)) = precondition i s := by
  cases i <;> rfl

/-- The whole-file commands need no valid flag (R246). -/
theorem wholeFile_of_precondition_false {i : Instr} {s : State} (h : precondition i s = false) : wholeFile i = false := by
  cases i with
  | compress | decompress => cases h
  | clear | count | build | serialize | deserialize | wrhdr | rdhdr | encode | decode => rfl

/-- Without its precondition a command's body raises ProtocolError before any other change (R246). -/
theorem bodyOf_of_precondition_false {i : Instr} {s : State} (h : precondition i s = false) :
    bodyOf i s = .raised .protocolError s := by
  cases i with
  | clear | count | build | rdhdr | compress | decompress => cases h
  | serialize | deserialize | wrhdr | encode | decode => exact guarded_false h

/-- The whole effect of a command without its precondition: Begin, then the failure rule of a unit command (R246, R250). -/
theorem exec_of_precondition_false {i : Instr} {s : State} (h : precondition i s = false) :
    exec i s = .next ({ s with heap := [] }.ended (.failure .protocolError) 0 0) := by
  have hbody := bodyOf_of_precondition_false ((precondition_begin i s).trans h)
  rw [exec_eq, command_of_raised hbody, State.fail_unit (i := i) rfl (wholeFile_of_precondition_false h),
    State.settle_eq_ended (taken := 0) (appended := 0) rfl rfl]
  rfl

end Sys2Proof.Machine

namespace Sys2Proof
open Sys2Proof.Machine

/-- Settles O45: a command that ends waits for no call, so it ended by the failure rule at a `raise` of its body or of the
flush. -/
theorem eachCommandRaisesOnlyItsFailures : Obligations.EachCommandRaisesOnlyItsFailures :=
  fun _ _ _ _ h hidle hfail => exec_failure_mayRaise h (exec_idle_waiting h hidle) hfail

/-- Settles O44: in each case a valid flag of the command's precondition is 0. -/
theorem preconditionFailureChangesNothing : Obligations.PreconditionFailureChangesNothing := by
  intro s
  refine ⟨fun htree => ⟨?_, ?_⟩, fun hser => ?_, fun hnone => ?_, fun hnone => ?_⟩ <;>
    apply exec_of_precondition_false
  · simp [precondition, State.treeValid, htree]
  · simp [precondition, State.treeValid, htree]
  · simp [precondition, State.serValid, hser]
  · rcases hnone with hser | hlen
    · simp [precondition, State.serValid, hser]
    · simp [precondition, State.lenValid, hlen]
  · rcases hnone with htree | hlen
    · simp [precondition, State.treeValid, htree]
    · simp [precondition, State.lenValid, hlen]

end Sys2Proof
end

section
/-! PROOF. Calls that do not return, the reset event, and the host's stream moves (20_memory.md R61 to R66,
60_exceptions.md R248, R286, 70_reset_and_hazards.md R271, R276 to R280). -/

namespace Sys2Proof.Machine

/-! A command that hangs in its first call of the Source -/

/-- `r` begins with a call of a Source primitive in the state `u` (R61 to R63). -/
def CallsSource (u : State) {β : Type} (r : Run β) : Prop :=
  ∃ (α : Type) (f : Source → α × Source) (k : α → State → Run β), r = (callSource f u).bind k

theorem CallsSource.bind {u : State} {α β : Type} {r : Run α} (h : CallsSource u r) (k : α → State → Run β) :
    CallsSource u (r.bind k) := by
  obtain ⟨γ, f, k', rfl⟩ := h
  exact ⟨γ, f, _, Run.bind_assoc _ _ _⟩

theorem srcRead_callsSource (s : State) : CallsSource s (srcRead s) :=
  ⟨_, _, fun r u => .ok r u, by rw [srcRead]; cases callSource _ s <;> rfl⟩

theorem srcReadByte_callsSource (T : Failure) (s : State) : CallsSource s (srcReadByte T s) :=
  (srcRead_callsSource s).bind _

theorem srcReadBytes_callsSource (T : Failure) (n : Nat) (s : State) : CallsSource s (srcReadBytes T (n + 1) s) :=
  (srcReadByte_callsSource T s).bind _

theorem forEachByte_callsSource (body : Byte → Proc Unit) (n : Nat) (s : State) :
    CallsSource s (forEachByte body (n + 1) s) :=
  (srcRead_callsSource s).bind _

/-- Count begins with `SrcLen()` (R122). -/
theorem procCount_callsSource (s : State) : CallsSource (s.enter .counting).discardLen (procCount s) :=
  ⟨_, _, _, rfl⟩

theorem procReadHeader_callsSource (s : State) :
    CallsSource (s.enter .readingHeader).discardSer.discardLen (procReadHeader s) :=
  (srcReadBytes_callsSource _ 1 _).bind _

theorem encode_body_callsSource {s : State} (htree : s.tree.isSome = true) :
    CallsSource s.startEncoding (bodyOf .encode s) := by
  obtain ⟨head, hhead⟩ := Option.isSome_iff_exists.1 htree
  rw [bodyOf, guarded_true (by simpa [precondition, State.treeValid] using htree), procEncode_some hhead]
  exact (forEachByte_callsSource _ _ _).bind _

/-- A step of the decoder at an Internal node with no bit of IN_BYTE left reads a byte (R198, R199). -/
theorem decodeStep_callsSource (root : NodeIdx) {s : State} {f : Word64} {left right : NodeIdx}
    (hcur : s.nodeAt s.dec.cur = some (.internal f left right)) (hload : s.dec.inPos = 8) :
    CallsSource s (decodeStep root s) := by
  simp only [decodeStep, hcur]
  rw [nextBit, if_pos hload]
  exact ((srcReadByte_callsSource _ _).bind _).bind _

theorem decode_body_callsSource {s : State} {t : HTree} {n : Word64} (hheld : s.holdsTree t) (hlen : s.origLen = some n)
    (hn : n ≠ 0) : ∃ root, CallsSource (s.startDecoding root) (bodyOf .decode s) := by
  obtain ⟨head, f, left, right, hhead, hroot⟩ := hheld.root_internal
  have hpre : precondition .decode s = true := by simp [precondition, State.treeValid, State.lenValid, hhead, hlen]
  have hpos : (0 : Word64) < n := (BitVec.pos_iff_ne_zero n).2 hn
  refine ⟨head.root, ?_⟩
  rw [bodyOf, guarded_true hpre, decodeAndVerify]
  simp only [procDecode, hhead, hlen]
  rw [decodeLoop, if_pos hpos]
  exact ((decodeStep_callsSource head.root (s := s.startDecoding head.root) hroot rfl).bind _).bind _

/-- A command that reads first calls the Source before its body has changed the environment or a control register but
PHASE. -/
theorem readsFirst_callsSource {s : State} {i : Instr} (hi : readsFirst s i) :
    ∃ u : State, CallsSource u (bodyOf i (s.begin (some i))) ∧ u.env = s.env
      ∧ u.ctl = { (s.begin (some i)).ctl with phase := u.ctl.phase } := by
  rcases hi with rfl | rfl | rfl | rfl | ⟨rfl, htree⟩ | ⟨rfl, ⟨t, hheld⟩, n, hlen, hn⟩
  · exact ⟨_, procCount_callsSource _, rfl, rfl⟩
  · exact ⟨_, procReadHeader_callsSource _, rfl, rfl⟩
  · exact ⟨_, (procCount_callsSource (s.begin (some .compress)).discardAll).bind _, rfl, rfl⟩
  · exact ⟨_, (procReadHeader_callsSource (s.begin (some .decompress)).discardAll).bind _, rfl, rfl⟩
  · exact ⟨_, encode_body_callsSource (s := s.begin (some .encode)) htree, rfl, rfl⟩
  · obtain ⟨root, hcalls⟩ := decode_body_callsSource (s := s.begin (some .decode)) hheld hlen hn
    exact ⟨_, hcalls, rfl, rfl⟩

theorem CallsSource.hung {u : State} {β : Type} {r : Run β} {src : Source} {l : List Answer} (h : CallsSource u r)
    (hsrc : u.env.src = .bound src) (hanswers : u.env.answers = .never :: l) :
    r = .hung .source { u with env.answers := l } := by
  obtain ⟨α, f, k, rfl⟩ := h
  simp [callSource, hsrc, answerCall, hanswers]

/-- The first call of the Source does not return (R280 (e), R286). -/
theorem exec_sourceHangs {s : State} {i : Instr} {src : Source} {l : List Answer} (hi : readsFirst s i)
    (hsrc : s.env.src = .bound src) (hanswers : s.env.answers = .never :: l) :
    ∃ t, exec i s = .next t ∧ t.ctl.busy = true ∧ t.ctl.waiting = some .source ∧ t.ctl.outcome = s.ctl.outcome
      ∧ t.ctl.rcount = s.ctl.rcount ∧ t.env = { s.env with answers := l } := by
  obtain ⟨u, hcalls, henv, hctl⟩ := readsFirst_callsSource hi
  have hbody := hcalls.hung (src := src) (l := l) (by rw [henv, hsrc]) (by rw [henv, hanswers])
  refine ⟨_, (exec_eq i s).trans (command_of_hung hbody), ?_⟩
  rw [hctl, henv]
  exact ⟨rfl, rfl, rfl, rfl, rfl⟩

/-! WRHDR -/

/-- The flush of a command that writes the Sink does not return (R249, R286). -/
theorem command_flush_never {i : Instr} {body : Proc Unit} {s u : State} {k : Sink} {l : List Answer}
    (hbody : body (s.begin (some i)) = .ok () u) (hrun : u.ctl.running = some i) (hw : writesSink i = true)
    (hsnk : u.env.snk = .bound k) (hanswers : u.env.answers = .never :: l) :
    command i body s = .next { u with ctl.waiting := some .sink, env.answers := l } := by
  simp [command, hbody, finish, flushIfWriter, hrun, hw, snkFlush, callSink, hsnk, answerCall, hanswers]

/-- The whole effect of WRHDR when append `k + 1`, or the flush after the last of them, does not return (R216, R286). -/
theorem exec_wrhdr_never {s : State} {c : SerTree} {n : Word64} {snk : Sink} {k : Nat} {l : List Answer}
    (hser : s.ser = some c) (hlen : s.origLen = some n) (hsnk : s.env.snk = .bound snk) (hk : k ≤ (headerBytes c n).length)
    (hanswers : s.env.answers = List.replicate k .ok ++ .never :: l) :
    exec .wrhdr s = .next { s with
      ctl := { (s.begin (some .wrhdr)).ctl with
        phase := .writingHeader, waiting := some .sink, outCount := BitVec.ofNat 64 k }
      env := { s.env with snk := .bound (snk.append ((headerBytes c n).take k)), answers := l } } := by
  have hbody := wrhdr_body_eq (s := s.begin (some .wrhdr)) hser hlen
  rw [exec_eq, ← BitVec.zero_add (BitVec.ofNat 64 k)]
  rcases Nat.lt_or_eq_of_le hk with hlt | rfl
  · rw [command_of_hung (hbody.trans (putAll_never l k _ (k := snk) hsnk hlt hanswers))]
    rfl
  · rw [command_flush_never (hbody.trans (putAll_oks (.never :: l) _ (k := snk) hsnk hanswers)) rfl rfl rfl rfl,
      List.take_length]
    rfl

/-! BUSY after a command -/

/-- A command that answers with BUSY = 1 waits for a call that did not return (R286). -/
theorem Finishes.waits {i : Instr} {s w t : State} (h : Finishes i s w t) (hbusy : t.ctl.busy = true) :
    ∃ st, t = { w with ctl.waiting := some st } := by
  rcases h with ⟨_, rfl⟩ | ⟨_, k, _, rfl⟩ | ⟨T, _, rfl⟩ | ⟨e, _, rfl⟩ | hwaits
  · cases hbusy
  · cases hbusy
  · rw [State.fail_ctl] at hbusy; cases hbusy
  · rw [State.fail_ctl] at hbusy; cases hbusy
  · exact hwaits

/-- A command that hangs leaves the results of the command before (R248, R286). -/
theorem exec_busy_ctl {i : Instr} {s t : State} (h : exec i s = .next t) (hbusy : t.ctl.busy = true) :
    t.ctl.waiting.isSome = true ∧ t.ctl.running = some i ∧ t.ctl.outcome = s.ctl.outcome ∧ t.ctl.rcount = s.ctl.rcount
      ∧ t.ctl.ioerr = s.ctl.ioerr := by
  obtain ⟨w, hw, hend⟩ := exec_finishes h
  obtain ⟨st, rfl⟩ := hend.waits hbusy
  rw [hw.ctl]
  exact ⟨rfl, rfl, rfl, rfl, rfl⟩

/-! The host's moves on the streams -/

theorem step_of_event {s : State} {e : Event} {rest : List Event} (h : s.env.events = e :: rest) :
    step s = perform e { s with env.events := rest } := by
  simp only [step, h]

section
variable {s s' : State} {legal : Bool}

theorem whileIdle_busy (hbusy : s.ctl.busy = true) : whileIdle s legal s' = .refused .streamTouchedWhileBusy := by
  simp [whileIdle, hbusy]

theorem whileIdle_legal (hidle : s.ctl.busy = false) (hlegal : legal = true) : whileIdle s legal s' = .next s' := by
  simp [whileIdle, hidle, hlegal]

theorem whileIdle_illegal (hidle : s.ctl.busy = false) (hlegal : legal = false) :
    whileIdle s legal s' = .refused .illegalHostMove := by
  simp [whileIdle, hidle, hlegal]

theorem moveSource_legal (f : Source → Source) {src : Source} (hidle : s.ctl.busy = false) (hsrc : s.env.src = .bound src)
    (hwf : (f src).wf = true) : moveSource f s = .next { s with env.src := .bound (f src) } := by
  simp only [moveSource, hsrc]
  exact whileIdle_legal hidle hwf

theorem moveSource_illegal (f : Source → Source) {src : Source} (hidle : s.ctl.busy = false)
    (hsrc : s.env.src = .bound src) (hwf : (f src).wf = false) : moveSource f s = .refused .illegalHostMove := by
  simp only [moveSource, hsrc]
  exact whileIdle_illegal hidle hwf

theorem moveSource_unbound (f : Source → Source) {e : IoErr} {last : Option Source} (hidle : s.ctl.busy = false)
    (hsrc : s.env.src = .unbound e last) : moveSource f s = .refused .illegalHostMove := by
  simp only [moveSource, hsrc]
  exact whileIdle_illegal hidle rfl

theorem moveSource_busy (f : Source → Source) (hbusy : s.ctl.busy = true) :
    moveSource f s = .refused .streamTouchedWhileBusy := by
  rw [moveSource]
  split <;> exact whileIdle_busy hbusy

end

theorem Source.rewind_eq (src : Source) :
    src.rewind = { src with pos := 0, data := src.later.headD src.data, later := src.later.tail } := by
  obtain ⟨data, pos, len, later⟩ := src
  cases later <;> rfl

/-- A legal Source stays legal at every position up to its end, and at no other (R61). -/
theorem Source.wf_seek {src : Source} (h : src.wf = true) (p : Nat) :
    ({ src with pos := p } : Source).wf = decide (p ≤ src.data.length) := by
  simp only [Source.wf, Bool.and_eq_true] at h ⊢
  obtain ⟨⟨-, hlen⟩, hlater⟩ := h
  rw [hlen, hlater, Bool.and_true, Bool.and_true]

/-! A hung HCC -/

/-- While BUSY = 1 only the reset and the closing of a stream change more than the environment (R271, R277, R279). -/
theorem perform_busy {e : Event} {s t : State} (hbusy : s.ctl.busy = true) (h : perform e s = .next t) :
    t = { s with env := t.env } ∨ e = .reset ∨ (∃ x, e = .closeSource x) ∨ ∃ x, e = .closeSink x := by
  cases e with
  | writeCmd w =>
    rw [perform, writeCmd, if_pos hbusy] at h
    cases h; exact .inl rfl
  | bindSource src => rw [perform, whileIdle_busy hbusy] at h; cases h
  | bindSink snk => rw [perform, whileIdle_busy hbusy] at h; cases h
  | rewindSource => rw [perform, moveSource_busy _ hbusy] at h; cases h
  | seekSource p => rw [perform, moveSource_busy _ hbusy] at h; cases h
  | closeSource x => exact .inr (.inr (.inl ⟨x, rfl⟩))
  | closeSink x => exact .inr (.inr (.inr ⟨x, rfl⟩))
  | decideAnswers l => cases h; exact .inl rfl
  | reset => exact .inr (.inl rfl)

end Sys2Proof.Machine

namespace Sys2Proof
open Sys2Proof.Machine

/-- Settles O10: the first call of the Source, the calls of WRHDR one after another, the answers a command used up, and
what an event can do to a hung HCC. -/
theorem hungStaysBusy : Obligations.HungStaysBusy := by
  refine ⟨fun s src l i hsrc hanswers hi => exec_sourceHangs hi hsrc hanswers, fun s c n snk k l hser hlen hsnk hk hanswers => ?_,
    fun i s t h => ?_, fun s t e rest hbusy hevents h => ?_⟩
  · exact ⟨_, exec_wrhdr_never hser hlen hsnk hk hanswers, rfl, rfl, rfl, rfl, rfl, rfl⟩
  · obtain ⟨used, hused, hnever, -⟩ := exec_used h
    exact ⟨used, hused, hnever, exec_busy_ctl h⟩
  · rw [step_of_event hevents] at h
    rcases perform_busy (s := { s with env.events := rest }) hbusy h with (hkept : t = { s with env := t.env }) | hends
    · exact .inl ⟨hkept, by rw [hkept]; exact hbusy⟩
    · exact .inr hends

/-- Settles O7, by what the reset event does. -/
theorem resetEventKeepsStreams : Obligations.ResetEventKeepsStreams :=
  fun _ _ hevents => ⟨_, step_of_event hevents, rfl⟩

/-- Settles O8: each of the four moves is one `whileIdle`, on the stream it makes. -/
theorem streamMovesRefusedWhileBusy : Obligations.StreamMovesRefusedWhileBusy := by
  intro s rest e hevents
  rw [step_of_event hevents]
  refine ⟨fun hbusy hmove => ?_, fun (hidle : ({ s with env.events := rest } : State).ctl.busy = false) => ⟨?_, ?_, fun src hsrc hwf => ⟨?_, ?_⟩, fun x last hsrc hmove => ?_⟩⟩
  · rcases hmove with rfl | ⟨p, rfl⟩ | ⟨src, rfl⟩ | ⟨snk, rfl⟩
    · exact moveSource_busy _ hbusy
    · exact moveSource_busy _ hbusy
    · exact whileIdle_busy hbusy
    · exact whileIdle_busy hbusy
  · rintro src rfl
    exact ⟨whileIdle_legal hidle, whileIdle_illegal hidle⟩
  · rintro snk rfl
    exact ⟨whileIdle_legal hidle, whileIdle_illegal hidle⟩
  · rintro rfl
    have hmoved := moveSource_legal Source.rewind hidle hsrc (Source.wf_rewind hwf)
    rw [Source.rewind_eq] at hmoved
    exact hmoved
  · rintro p rfl
    have hseek := Source.wf_seek hwf p
    exact ⟨fun hp => moveSource_legal _ hidle hsrc (by rw [hseek]; exact decide_eq_true hp),
      fun hp => moveSource_illegal _ hidle hsrc (by rw [hseek]; exact decide_eq_false (Nat.not_le.2 hp))⟩
  · rcases hmove with rfl | ⟨p, rfl⟩
    · exact moveSource_unbound _ hidle hsrc
    · exact moveSource_unbound _ hidle hsrc

end Sys2Proof
end
